-- ==== Sys2Proof/Word.lean ====
section
/-! DEFINITION. The word types of the MN24 (spec/00_scope.md, Conventions). -/

namespace Sys2Proof

/-- A byte of a management frame or of overlay RAM. -/
abbrev Byte := BitVec 8

/-- A 16-bit word of the host bus, of a backing device or of overlay RAM. -/
abbrev Word := BitVec 16

/-- A host byte address, 000000h to FFFFFFh. -/
abbrev Addr := BitVec 24

/-- A host word address as the port carries it, A[23:1]. -/
abbrev WordAddr := BitVec 23

end Sys2Proof
end

