-- ==== Sys2Proof/Syntax.lean ====
section
/-! DEFINITION. The commands and events of the MN24: one constructor of `Instr` per row of spec/opcode_table.json. -/

namespace Sys2Proof

/-- A command transaction that meets the conditions of R163: the header's unit field, the tag and the payload
(R161, R162). The command code is the row's own. -/
structure Frame where
  unit : BitVec 3
  tag : Byte
  payload : List Byte
  deriving DecidableEq, Repr

/-- What the host port carries at an assertion of a strobe (R22): which strobes this event asserts, HFETCH, the
asserted lanes of HBE_N, HA[23:1] and HD. -/
structure HostPins where
  rd : Bool
  wr : Bool
  fetch : Bool
  low : Bool
  high : Bool
  addr : WordAddr
  data : Word
  deriving DecidableEq, Repr

/-- The pin levels read at a release of RESET_N (R176): UNIT[1:0], HOLD, LOCK, the EPOCH input (R78), and whether
MCS_N is low. -/
structure ReleasePins where
  unit : BitVec 2
  hold : Bool
  lock : Bool
  epoch : Bool
  mcsLow : Bool
  deriving DecidableEq, Repr

/-- The event inside which a step such as DUE_COMMIT_APPLIED comes about (spec/95_what_each_step_holds.md). -/
inductive Cause where
  /-- a host strobe is asserted (ACCESS_ARRIVES) -/
  | arrival (p : HostPins)
  /-- a broadcast HOST.RELEASE lets a held access go -/
  | release
  /-- the strobe on the memory port completes, MD carrying this word -/
  | completion (md : Word)
  /-- the strobe on the memory port times out -/
  | timeout
  /-- the arbiter grants a waiting request -/
  | grant
  /-- a transition of the EPOCH input is accepted -/
  | transition
  /-- a broadcast SEQ.RESTART -/
  | restart
  /-- an assertion of HRST_N -/
  | hostReset
  deriving DecidableEq, Repr

/-- The rows of spec/opcode_table.json, in the table's order. -/
inductive Instr where
  /-- PART.INFO (R173) -/
  | partInfo (f : Frame)
  /-- PART.RESET (R174) -/
  | partReset (f : Frame)
  /-- the waiting soft reset takes effect within `c` (R175) -/
  | softResetTakesEffect (c : Cause)
  /-- a good frame with this command code during a soft-reset interval (R174) -/
  | softResetIntervalBusy (f : Frame) (code : Byte)
  /-- HOST.RELEASE (R34) -/
  | hostRelease (f : Frame)
  /-- LOCKDOWN.CLEAR (R35) -/
  | lockdownClear (f : Frame)
  /-- MAP.PUT (R16, R17) -/
  | mapPut (f : Frame)
  /-- MAP.CLEAR (R18) -/
  | mapClear (f : Frame)
  /-- MAP.READ (R19) -/
  | mapRead (f : Frame)
  /-- MAP.RESTAGE (R20) -/
  | mapRestage (f : Frame)
  /-- RUN.OPEN (R47, R48) -/
  | runOpen (f : Frame)
  /-- RUN.WRITE (R49) -/
  | runWrite (f : Frame)
  /-- RUN.READ (R50) -/
  | runRead (f : Frame)
  /-- RUN.FREE (R51, R52) -/
  | runFree (f : Frame)
  /-- RUN.INFO (R55) -/
  | runInfo (f : Frame)
  /-- COMMIT (R58 to R60) -/
  | commit (f : Frame)
  /-- a due commit is applied at step 4 of the access end that `c` brings about (R64) -/
  | dueCommitApplied (c : Cause)
  /-- COMMIT.CANCEL (R67) -/
  | commitCancel (f : Frame)
  /-- TRIAL.CONFIRM (R70) -/
  | trialConfirm (f : Frame)
  /-- the epoch boundary that `c` makes brings window remaining to 0 (R68) -/
  | trialWindowExpiry (c : Cause)
  /-- TRIAL.REVERT (R71) -/
  | trialRevert (f : Frame)
  /-- a waiting revert is applied at step 4 of the access end that `c` brings about (R71) -/
  | dueRevertApplied (c : Cause)
  /-- GEN.STATUS (R76) -/
  | genStatus (f : Frame)
  /-- SEQ.SET (R80) -/
  | seqSet (f : Frame)
  /-- SEQ.RESTART (R93) -/
  | seqRestart (f : Frame)
  /-- SEQ.STATUS (R94) -/
  | seqStatus (f : Frame)
  /-- the EPOCH filter accepts a transition (R90, R91) -/
  | epochTransitionAccepted
  /-- the access end that `c` brings about makes the sequencer advance by counting (R85, R88) -/
  | countAdvance (c : Cause)
  /-- the access end that `c` brings about reaches a ceiling (R87) -/
  | overrun (c : Cause)
  /-- the access end that `c` brings about parks the sequencer (R88) -/
  | park (c : Cause)
  /-- DEV.SET (R113) -/
  | devSet (f : Frame)
  /-- DEV.RESTORE (R114) -/
  | devRestore (f : Frame)
  /-- DEV.STATUS (R116) -/
  | devStatus (f : Frame)
  /-- PORT.SET (R115) -/
  | portSet (f : Frame)
  /-- CAPTURE.START (R119, R120) -/
  | captureStart (f : Frame)
  /-- CAPTURE.ABORT (R128) -/
  | captureAbort (f : Frame)
  /-- CAPTURE.STATUS (R130) -/
  | captureStatus (f : Frame)
  /-- JOURNAL.READ (R140) -/
  | journalRead (f : Frame)
  /-- JOURNAL.ACK (R141) -/
  | journalAck (f : Frame)
  /-- JOURNAL.SET (R143) -/
  | journalSet (f : Frame)
  /-- JOURNAL.STATUS (R144) -/
  | journalStatus (f : Frame)
  /-- NOTICE.READ (R153) -/
  | noticeRead (f : Frame)
  /-- NOTICE.ACK (R154) -/
  | noticeAck (f : Frame)
  /-- NOTICE.MASK (R155) -/
  | noticeMask (f : Frame)
  /-- a command transaction that is no good frame: its whole bytes and the left-over bits (R163) -/
  | frameError (bytes : List Byte) (extra : BitVec 3)
  /-- a good frame whose command code is not defined (R167) -/
  | unknownCommand (f : Frame) (code : Byte)
  /-- a response-read transaction: its header and the MCK periods after it (R165) -/
  | responseRead (header : Byte) (clocks : Nat)
  /-- a host strobe is asserted (R22) -/
  | accessArrives (p : HostPins)
  /-- the host negates HRD_N (`rd`), HWR_N (`wr`) or both (R31) -/
  | hostStrobeNegated (rd wr : Bool)
  /-- HRST_N is asserted (R36) -/
  | hostResetEvent
  /-- RESET_N is asserted, or power comes up (R38, R176) -/
  | pinReset
  /-- RESET_N is released (R176) -/
  | resetNRelease (p : ReleasePins)
  /-- the arbiter grants a waiting request (R111) -/
  | arbiterGrant
  /-- the strobe on the memory port is negated, MD carrying this word (R103) -/
  | memoryAccessCompletes (md : Word)
  /-- the strobe on the memory port reaches 64 × T periods (R105) -/
  | accessTimeout
  /-- HRST_N is negated (R37) -/
  | hrstNNegated
  /-- the EPOCH input returns to the accepted level before the filter setting is reached (R90) -/
  | epochPulseDiscarded
  deriving DecidableEq, Repr

end Sys2Proof
end

