-- ==== Sys2Proof/Decode.lean ====
section
/-! DEFINITION. The fixed-name decoder `decodeTableWord`, and the management port's own encoding: header, frame and
CRC-8 (spec/10_management_port.md, R161 to R163, R167). -/

namespace Sys2Proof

/-- No row of spec/opcode_table.json gives bits, so no word spells a command. -/
def decodeTableWord (_nbits _w : Nat) : Option Instr := none

/-! ## CRC-8 (R162) -/

/-- One bit through the CRC register: combined with bit 7, shifted left, and 2Fh combined in when the combined bit
was 1. -/
def crcBit (reg : Byte) (b : Bool) : Byte :=
  if (b ^^ reg.msb) then (reg <<< 1) ^^^ 0x2F#8 else reg <<< 1

/-- The eight bits of a byte, bit 7 first (R160). -/
def bitsMsbFirst (b : Byte) : List Bool :=
  [b.getLsbD 7, b.getLsbD 6, b.getLsbD 5, b.getLsbD 4, b.getLsbD 3, b.getLsbD 2, b.getLsbD 1, b.getLsbD 0]

/-- The CRC-8 of a run of bytes: the register starts at FFh and there is no final inversion. -/
def crc8 (bytes : List Byte) : Byte :=
  (bytes.flatMap bitsMsbFirst).foldl crcBit 0xFF#8

/-! ## The header (R161) -/

def headerUnit (h : Byte) : BitVec 3 := h.extractLsb' 5 3
/-- Bit 4: 1 for a command transaction, 0 for a response read. -/
def headerIsCommand (h : Byte) : Bool := h.getLsbD 4
def headerMarker (h : Byte) : BitVec 4 := h.extractLsb' 0 4
/-- The marker of every valid header. -/
def marker : BitVec 4 := 0b0101#4

/-- The header of a command transaction to a unit field. -/
def commandHeader (unit : BitVec 3) : Byte := (unit ++ 1#1 ++ marker : BitVec 8)

/-! ## Frames (R162, R163) -/

/-- The conditions of R163 on the bytes and left-over bits of a command transaction. -/
def goodFrame (bytes : List Byte) (extra : BitVec 3) : Bool :=
  match bytes with
  | h :: _tag :: _code :: len :: rest =>
    headerMarker h == marker && extra == 0#3 && decide (len.toNat ≤ 40)
      && rest.length == len.toNat + 1
      && crc8 (bytes.take (4 + len.toNat)) == rest.getD len.toNat 0
  | _ => false

/-- The row that a good frame with this command code is (the table of 10.5). -/
def rowOfCode (code : Byte) (f : Frame) : Instr :=
  match code.toNat with
  | 0x01 => .partInfo f
  | 0x02 => .partReset f
  | 0x08 => .hostRelease f
  | 0x09 => .lockdownClear f
  | 0x10 => .mapPut f
  | 0x11 => .mapClear f
  | 0x12 => .mapRead f
  | 0x13 => .mapRestage f
  | 0x20 => .runOpen f
  | 0x21 => .runWrite f
  | 0x22 => .runRead f
  | 0x23 => .runFree f
  | 0x24 => .runInfo f
  | 0x30 => .commit f
  | 0x31 => .commitCancel f
  | 0x32 => .trialConfirm f
  | 0x33 => .trialRevert f
  | 0x34 => .genStatus f
  | 0x40 => .seqSet f
  | 0x41 => .seqRestart f
  | 0x42 => .seqStatus f
  | 0x50 => .devSet f
  | 0x51 => .devRestore f
  | 0x52 => .devStatus f
  | 0x53 => .portSet f
  | 0x60 => .captureStart f
  | 0x61 => .captureAbort f
  | 0x62 => .captureStatus f
  | 0x70 => .journalRead f
  | 0x71 => .journalAck f
  | 0x72 => .journalSet f
  | 0x73 => .journalStatus f
  | 0x80 => .noticeRead f
  | 0x81 => .noticeAck f
  | 0x82 => .noticeMask f
  | _ => .unknownCommand f code

/-- The command code and the frame of a management row; none for the other rows. -/
def frameOfRow : Instr → Option (Byte × Frame)
  | .partInfo f => some (0x01#8, f)
  | .partReset f => some (0x02#8, f)
  | .hostRelease f => some (0x08#8, f)
  | .lockdownClear f => some (0x09#8, f)
  | .mapPut f => some (0x10#8, f)
  | .mapClear f => some (0x11#8, f)
  | .mapRead f => some (0x12#8, f)
  | .mapRestage f => some (0x13#8, f)
  | .runOpen f => some (0x20#8, f)
  | .runWrite f => some (0x21#8, f)
  | .runRead f => some (0x22#8, f)
  | .runFree f => some (0x23#8, f)
  | .runInfo f => some (0x24#8, f)
  | .commit f => some (0x30#8, f)
  | .commitCancel f => some (0x31#8, f)
  | .trialConfirm f => some (0x32#8, f)
  | .trialRevert f => some (0x33#8, f)
  | .genStatus f => some (0x34#8, f)
  | .seqSet f => some (0x40#8, f)
  | .seqRestart f => some (0x41#8, f)
  | .seqStatus f => some (0x42#8, f)
  | .devSet f => some (0x50#8, f)
  | .devRestore f => some (0x51#8, f)
  | .devStatus f => some (0x52#8, f)
  | .portSet f => some (0x53#8, f)
  | .captureStart f => some (0x60#8, f)
  | .captureAbort f => some (0x61#8, f)
  | .captureStatus f => some (0x62#8, f)
  | .journalRead f => some (0x70#8, f)
  | .journalAck f => some (0x71#8, f)
  | .journalSet f => some (0x72#8, f)
  | .journalStatus f => some (0x73#8, f)
  | .noticeRead f => some (0x80#8, f)
  | .noticeAck f => some (0x81#8, f)
  | .noticeMask f => some (0x82#8, f)
  | .unknownCommand f code => some (code, f)
  | .softResetTakesEffect _ => none
  | .softResetIntervalBusy _ _ => none
  | .dueCommitApplied _ => none
  | .trialWindowExpiry _ => none
  | .dueRevertApplied _ => none
  | .epochTransitionAccepted => none
  | .countAdvance _ => none
  | .overrun _ => none
  | .park _ => none
  | .frameError _ _ => none
  | .responseRead _ _ => none
  | .accessArrives _ => none
  | .hostStrobeNegated _ _ => none
  | .hostResetEvent => none
  | .pinReset => none
  | .resetNRelease _ => none
  | .arbiterGrant => none
  | .memoryAccessCompletes _ => none
  | .accessTimeout => none
  | .hrstNNegated => none
  | .epochPulseDiscarded => none

/-- Whether a command code stands in the table of 10.5. -/
def codeDefined (code : Byte) : Bool :=
  match rowOfCode code ⟨0, 0, []⟩ with
  | .unknownCommand _ _ => false
  | _ => true

/-- The bytes before the CRC of a frame (R162). -/
def frameBody (code : Byte) (f : Frame) : List Byte :=
  commandHeader f.unit :: f.tag :: code :: BitVec.ofNat 8 f.payload.length :: f.payload

/-- The bytes of a management row's command transaction. -/
def encodeTransaction (i : Instr) : Option (List Byte) :=
  (frameOfRow i).map fun cf => frameBody cf.1 cf.2 ++ [crc8 (frameBody cf.1 cf.2)]

/-! ## Transactions -/

/-- The bytes of the bits sampled on MDI, in order: each group of eight is a byte, its first bit bit 7 (R160). Left-over
bits make no byte. -/
def bytesOfBits : List Bool → List Byte
  | b7 :: b6 :: b5 :: b4 :: b3 :: b2 :: b1 :: b0 :: rest =>
    BitVec.ofBoolListBE [b7, b6, b5, b4, b3, b2, b1, b0] :: bytesOfBits rest
  | _ => []

/-- The row that the bytes and left-over bits of one transaction on the SPI lines are (R160 to R163, R167); none when
MCS_N rose before eight bits were sampled (R161). -/
def decodeTransaction (bytes : List Byte) (extra : BitVec 3) : Option Instr :=
  match bytes with
  | [] => none
  | h :: rest =>
    if headerIsCommand h then
      if goodFrame bytes extra then
        some (rowOfCode (rest.getD 1 0)
          ⟨headerUnit h, rest.getD 0 0, (rest.drop 3).take (rest.getD 2 0).toNat⟩)
      else some (.frameError bytes extra)
    else some (.responseRead h (8 * rest.length + extra.toNat))

/-- The row that the bits sampled in one transaction are (R160 to R163, R167). -/
def decodeBits (bits : List Bool) : Option Instr := decodeTransaction (bytesOfBits bits) (BitVec.ofNat 3 bits.length)

end Sys2Proof
end

