-- ==== Sys2Proof/Config.lean ====
section
/-! DEFINITION. The free values: the orders that the spec leaves open when two events fall in one CLK period. -/

namespace Sys2Proof

/-- When an EPOCH edge and an event of the memory port fall in one CLK period either may be taken first
(R92, R149): `true` takes the EPOCH filter first. DESIGN CHOICE, log 9: a free value, applied to `State.freeIndex`. -/
opaque Config.epochFirst : Nat → Bool

/-- When MWAIT_N is negated in the very period in which 64 × T periods are reached either may be taken
first (R104): `true` takes the timeout. DESIGN CHOICE, log 9: a free value, applied to `State.freeIndex`. -/
opaque Config.timeoutFirst : Nat → Bool

end Sys2Proof
end

