-- ==== Sys2Proof/Machine/Blocks.lean ====
section
/-! DEFINITION. The state of each block of the MN24 as plain data, and the values the blocks take at a part reset. -/

namespace Sys2Proof.Machine

/-! ## Overlay Map (spec/01_overlay_map.md) -/

/-- What a WRITE decided by a SUBSTITUTE entry does (R4). -/
inductive WritePolicy where
  | absorb | discard | refuse
  deriving DecidableEq, Repr

/-- R6. -/
inductive GuardResponse where
  | error | quiet
  deriving DecidableEq, Repr

/-- The kind of an entry with the fields of that kind (R4, R5, R6). -/
inductive EntryAction where
  | pass (wait : Option (BitVec 5))
  | substitute (run : Fin 32) (offset : Nat) (policy : WritePolicy)
  | relocate (target : Addr) (wait : Option (BitVec 5))
  | guard (response : GuardResponse) (fill : Word)
  deriving DecidableEq, Repr

/-- A map entry (R2). `length` is in granules; bit n of `phases` is phase n; `fetches`, `reads` and `writes` are the
access mask. -/
structure Entry where
  base : Addr
  length : Nat
  phases : BitVec 4
  fetches : Bool
  reads : Bool
  writes : Bool
  journal : Bool
  action : EntryAction
  deriving DecidableEq, Repr

/-- The 32 slots of one map (R1). -/
abbrev SlotMap := Vector (Option Entry) 32

/-- The Map Store's Staged and Active with Active's hit counters (R1, R13). Fallback stands in the open trial, which is
present exactly when Fallback is (R57). -/
structure Maps where
  staged : SlotMap
  active : SlotMap
  hits : Vector Word 32
  deriving DecidableEq, Repr

def emptyMap : SlotMap := Vector.replicate 32 none
def zeroHits : Vector Word 32 := Vector.replicate 32 0#16

/-- R1: after a part reset every slot is empty and every hit counter is 0. -/
def Maps.atReset : Maps := ⟨emptyMap, emptyMap, zeroHits⟩

/-! ## Host Accesses (spec/02_host_accesses.md) -/

inductive AccessKind where
  | fetch | read | write
  deriving DecidableEq, Repr

inductive Lanes where
  | low | high | both
  deriving DecidableEq, Repr

/-- The access recorded at arrival (R21, R22). A FETCH or READ drives both lanes and has no write data: `both` and
0000h stand in those fields. -/
structure Access where
  kind : AccessKind
  addr : WordAddr
  lanes : Lanes
  data : Word
  deriving DecidableEq, Repr

/-- The disposition of a decision with the fields R10 makes present for it. `word` is the run word of R11, `target` the
effective word address of R12, `wait` the override. -/
inductive Disposition where
  | default
  | pass (wait : Option (BitVec 5))
  | substitute (run : Fin 32) (word : Nat) (policy : WritePolicy)
  | relocate (target : WordAddr) (wait : Option (BitVec 5))
  | guard (response : GuardResponse) (fill : Word)
  | lockdown
  deriving DecidableEq, Repr

/-- A decision (R10), with the generation of the deciding map (R31). -/
structure Decision where
  slot : Option (Fin 32)
  disposition : Disposition
  phase : BitVec 2
  generation : Word
  addr : WordAddr
  journal : Bool
  deriving DecidableEq, Repr

/-- The access states (R21). -/
inductive HauState where
  | idle | held | deciding | overlay | immediate | grant | device | ended
  deriving DecidableEq, Repr

/-- A response on the host port (R31): completed or ended in error, with the word on HD for a FETCH or READ. -/
structure HostResponse where
  completed : Bool
  data : Option Word
  deriving DecidableEq, Repr

/-- The Host Access Unit (R21). `response` is the response driven last; the pins drive it while the state is
`ended`. -/
structure Hau where
  state : HauState
  access : Option Access
  decision : Option Decision
  response : Option HostResponse
  hold : Bool
  lockdown : Bool
  deriving DecidableEq, Repr

/-- R21, R33, R35: IDLE with no access; hold and lockdown as latched. -/
def Hau.atReset (hold lock : Bool) : Hau := ⟨.idle, none, none, none, hold, lock⟩

/-- The strap levels latched at the last release of RESET_N (R176). -/
structure Straps where
  unit : BitVec 2
  hold : Bool
  lock : Bool
  deriving DecidableEq, Repr

/-- The input lines of the management port (R160): `mcs` is true while MCS_N is asserted, `mck` and `mdi` are levels. -/
structure SpiLines where
  mcs : Bool
  mck : Bool
  mdi : Bool
  deriving DecidableEq, Repr

/-- The levels the outside drives on the clocked inputs from the end of a CLK period on (the model's own, log 10).
`mwait` is true while MWAIT_N is asserted. -/
structure ClockSample where
  epoch : Bool
  mwait : Bool
  md : Word
  spi : SpiLines
  deriving DecidableEq, Repr

/-- The input pins. `resetN`, `hrst`, `rd`, `wr` and `mwait` are true while the active-low pin is asserted; `epoch` is
the level. `script` is the model's own (log 10). -/
structure Pins where
  resetN : Bool
  hrst : Bool
  rd : Bool
  wr : Bool
  epoch : Bool
  mwait : Bool
  md : Word
  spi : SpiLines
  script : List ClockSample
  deriving DecidableEq, Repr

/-! ## Overlay RAM and Page Runs (spec/03_overlay_ram_and_page_runs.md) -/

/-- R43. -/
inductive RunState where
  | unused | opened | filling | retiring
  deriving DecidableEq, Repr

/-- A run record (R42); page count and capacity are functions of the page list. -/
structure Run where
  state : RunState
  pages : List (Fin 128)
  deriving DecidableEq, Repr

/-- The Run Manager: run table, free list (R41) and overlay RAM (R40) as cells in canonical form (Ops.lean). -/
structure Overlay where
  runs : Vector Run 32
  free : List (Fin 128)
  ram : List Host.Cell
  deriving DecidableEq, Repr

def noRuns : Vector Run 32 := Vector.replicate 32 ⟨.unused, []⟩

/-- R56: every run UNUSED and the free list 0 to 127; the contents of the pages are kept. -/
def Overlay.atReset (ram : List Host.Cell) : Overlay := ⟨noRuns, List.finRange 128, ram⟩

/-! ## Generations, Commit and Trial (spec/04_generations_commit_and_trial.md) -/

/-- R57; the mark address is present for MARK only. -/
inductive Boundary where
  | now | epoch | mark (addr : Addr) | reset
  deriving DecidableEq, Repr

structure PendingCommit where
  boundary : Boundary
  trial : Bool
  window : Byte
  due : Bool
  deriving DecidableEq, Repr

/-- The open trial and its Fallback map (R57). -/
structure Trial where
  fallback : SlotMap
  windowLoaded : Byte
  windowRemaining : Byte
  armed : Bool
  fallbackGeneration : Word
  revertDue : Bool
  deriving DecidableEq, Repr

inductive CommitState where
  | none
  | pending (p : PendingCommit)
  | trial (t : Trial)
  deriving DecidableEq, Repr

structure Gen where
  commit : CommitState
  generation : Word
  deriving DecidableEq, Repr

/-- R57. -/
def Gen.atReset : Gen := ⟨.none, 0#16⟩

/-! ## Phase Sequencer (spec/05_phase_sequencer_and_epochs.md) -/

inductive SeqMode where
  | count | syncStep | syncRestart | mark
  deriving DecidableEq, Repr

inductive Qualifier where
  | fetchOnly | all
  deriving DecidableEq, Repr

inductive Polarity where
  | rising | falling
  deriving DecidableEq, Repr

/-- The configuration (R79). -/
structure SeqConfig where
  phaseCount : Nat
  initial : BitVec 2
  mode : SeqMode
  qualifier : Qualifier
  lengths : Vector Word 4
  marks : Vector Addr 4
  polarity : Polarity
  filter : Byte
  deriving DecidableEq, Repr

/-- R79, reset values. -/
def SeqConfig.atReset : SeqConfig :=
  ⟨1, 0#2, .count, .all, Vector.replicate 4 0#16, Vector.replicate 4 0#24, .rising, 0#8⟩

/-- The sequencer (R78); `accepted` is true for a high accepted level. -/
structure Seq where
  config : SeqConfig
  phase : BitVec 2
  counter : Word
  epochAccesses : BitVec 32
  epochNumber : BitVec 32
  parked : Bool
  overrunPosted : Bool
  accepted : Bool
  filterCount : Nat
  deriving DecidableEq, Repr

/-- R78: the accepted level is the level of the EPOCH input. -/
def Seq.atReset (epoch : Bool) : Seq := ⟨SeqConfig.atReset, 0#2, 0#16, 0#32, 0#32, false, false, epoch, 0⟩

/-! ## Memory Port (spec/06_memory_port_and_backing_devices.md) -/

inductive Owner where
  | host | capture
  deriving DecidableEq, Repr

/-- R98; the fence record is present while the state is FENCED. -/
inductive DeviceState where
  | absent
  | online
  | fenced (addr : Addr) (owner : Owner)
  deriving DecidableEq, Repr

structure Device where
  state : DeviceState
  wait : BitVec 5
  mwait : Bool
  deriving DecidableEq, Repr

/-- An access on the memory port with the parameters fixed at its start (R100), the strobe periods gone by (R101), and
whether a host reset has abandoned it (R36). `write` is absent for a read strobe. -/
structure PortAccess where
  owner : Owner
  addr : WordAddr
  write : Option (Lanes × Word)
  wait : BitVec 5
  mwait : Bool
  timeout : Byte
  elapsed : Nat
  abandoned : Bool
  deriving DecidableEq, Repr

/-- The Memory Port Controller (R98, R108); `access` is the access on the port, `lastOffset` what MA keeps (R97). -/
structure Mpc where
  devices : Vector Device 4
  timeout : Byte
  share : Nat
  access : Option PortAccess
  hostRequest : Bool
  captureRequest : Bool
  passOver : Nat
  lastOffset : BitVec 21
  deriving DecidableEq, Repr

/-- R98, reset values. -/
def devicesAtReset : Vector Device 4 :=
  (Vector.replicate 4 (Device.mk .absent 24#5 true)).set 0 ⟨.online, 24#5, true⟩

/-- R98, R108; MA keeps the offset it had (R97). -/
def Mpc.atReset (lastOffset : BitVec 21) : Mpc := ⟨devicesAtReset, 100#8, 4, none, false, false, 0, lastOffset⟩

/-! ## Capture Engine (spec/07_capture_engine.md) -/

inductive CaptureCause where
  | timeout | fenced | absent
  deriving DecidableEq, Repr

/-- R118; the cause is present when the status is FAILED. -/
inductive CaptureStatus where
  | none | running | done
  | failed (cause : CaptureCause)
  | aborted
  deriving DecidableEq, Repr

structure CaptureJob where
  run : Fin 32
  offset : Nat
  source : Addr
  length : Nat
  deriving DecidableEq, Repr

/-- The capture record (R118); the job is absent while the status is NONE. -/
structure Capture where
  status : CaptureStatus
  job : Option CaptureJob
  wordsDone : Nat
  abortPending : Bool
  deriving DecidableEq, Repr

/-- R118. -/
def Capture.atReset : Capture := ⟨.none, Option.none, 0, false⟩

/-! ## Write Journal (spec/08_write_journal.md) -/

inductive WriteOutcome where
  | written | absorbed | relocated | discarded | refused | failed
  deriving DecidableEq, Repr

/-- R135. -/
structure JournalRecord where
  sequence : Word
  generation : Word
  phase : BitVec 2
  slot : Option (Fin 32)
  addr : WordAddr
  data : Word
  lanes : Lanes
  outcome : WriteOutcome
  target : Option WordAddr
  deriving DecidableEq, Repr

inductive JournalPolicy where
  | keepOldest | keepNewest
  deriving DecidableEq, Repr

/-- R133; the list is oldest first and the count is its length. -/
structure Journal where
  records : List JournalRecord
  next : Word
  policy : JournalPolicy
  threshold : Nat
  highArmed : Bool
  deriving DecidableEq, Repr

/-- R133. -/
def Journal.atReset : Journal := ⟨[], 0#16, .keepOldest, 48, true⟩

/-! ## Notices (spec/09_notices_and_the_alert_line.md) -/

inductive ResetCause where
  | pin | soft
  deriving DecidableEq, Repr

inductive RevertCause where
  | command | hostReset
  deriving DecidableEq, Repr

inductive ConfirmCause where
  | command | window
  deriving DecidableEq, Repr

inductive EndStatus where
  | done | failed | aborted
  deriving DecidableEq, Repr

/-- The thirteen notice kinds with their detail (R150). -/
inductive Detail where
  | restarted (cause : ResetCause)
  | committed (generation : Word) (boundary : Boundary)
  | reverted (generation restored : Word) (cause : RevertCause)
  | confirmed (generation : Word) (cause : ConfirmCause)
  | epoch (number : BitVec 32)
  | overrun (phase : BitVec 2)
  | hostReset
  | hostHeld (addr : WordAddr) (kind : AccessKind)
  | deviceFenced (device : Fin 4) (addr : Addr) (owner : Owner)
  | captureEnded (run : Fin 32) (status : EndStatus) (wordsDone : Nat)
  | journalHigh (count : Nat)
  | journalLoss (first : Word)
  | guardHit (slot : Option (Fin 32)) (addr : WordAddr) (kind : AccessKind)
  deriving DecidableEq, Repr

/-- R148; `count` is the repeat count, 1 to 255. -/
structure Notice where
  detail : Detail
  count : Nat
  deriving DecidableEq, Repr

/-- The notice queue, oldest first (R147), and the alert mask (R151): bit c − 1 is kind code c (R172). -/
structure Notices where
  queue : List Notice
  mask : BitVec 13
  deriving DecidableEq, Repr

/-- R151: every kind enabled except EPOCH, code 05h. -/
def maskAtReset : BitVec 13 := 0x1FEF#13

/-- R157, R158: RESTARTED alone is held, under the reset mask. -/
def Notices.restarted (cause : ResetCause) : Notices := ⟨[⟨.restarted cause, 1⟩], maskAtReset⟩

/-! ## Management Port (spec/10_management_port.md) -/

/-- The status codes (R168). -/
inductive Status where
  | ok | accepted | none | frameError | unknown | length | range | busy | frozen | pending | trialOpen | noTrial
  | notPending | invalid | noSpace | noRun | gone | live | pinned | notHeld | fenced | absent | idle
  deriving DecidableEq, Repr

/-- A response (R165). -/
structure Response where
  tag : Byte
  status : Status
  payload : List Byte
  deriving DecidableEq, Repr

/-- The SPI side of the MPU, within and between transactions (R160, R161, R165, R176). -/
inductive SpiPort where
  /-- No transaction: MCS_N is high. -/
  | idle
  /-- MCS_N was low at the release of RESET_N and has not risen since: nothing is taken (R176). -/
  | waiting
  /-- A transaction that may concern this unit, with the bits of MDI sampled so far, in order (R160). -/
  | receiving (bits : List Bool)
  /-- A transaction whose header shows that it does not concern this unit (R161). -/
  | ignoring
  /-- A response read addressed to this unit, with the bits of the copy that are not yet placed on MDO (R165). -/
  | answering (left : List Bool)
  deriving DecidableEq, Repr

/-- The Management Port Unit: the response buffer (R165), the tag of a PART.RESET whose soft reset waits (R174), the
transaction in progress (R160, R176), and the bits that the last response read drove on MDO (the model's record of an
output, log 12). -/
structure Mpu where
  buffer : Response
  softReset : Option Byte
  port : SpiPort
  mdo : List Bool
  deriving DecidableEq, Repr

/-- R165, R176: tag 00h, status NONE, no payload; with MCS_N low no transaction is taken until it has risen. -/
def Mpu.atReset (mcsLow : Bool) : Mpu :=
  ⟨⟨0#8, .none, []⟩, Option.none, if mcsLow then .waiting else .idle, []⟩

end Sys2Proof.Machine
end

