-- ==== Sys2Proof/Machine/State.lean ====
section
/-! DEFINITION. The state of the MN24, the reasons a step can stop, and the state after reset. -/

namespace Sys2Proof.Machine

/-- Everything the spec gives the machine, block by block (INVENTORY.md, State), with the model's own command queue
`pending` (log 1) and free-value counter `freeIndex` (log 9). -/
structure State where
  pending : List Instr
  pins : Pins
  straps : Straps
  hau : Hau
  maps : Maps
  overlay : Overlay
  gen : Gen
  seq : Seq
  mpc : Mpc
  capture : Capture
  journal : Journal
  notices : Notices
  mpu : Mpu
  freeIndex : Nat
  deriving DecidableEq, Repr

/-- No rule of the spec stops the block, so there is no fault: the type is empty. -/
inductive Fault where
  deriving DecidableEq, Repr

/-- Reasons for a refusal. -/
inductive Refusal where
  /-- Raised by an arm of `exec` whose command has no meaning yet, none now. Safe: the model stops. -/
  | notModelled (mnemonic : String)
  deriving DecidableEq, Repr

/-- The part right after the release of RESET_N (R176), with every strap and input at the level of log 6, overlay RAM
with nothing listed (log 7), and RESTARTED (PIN) posted (R157). -/
def State.reset : State where
  pending := []
  pins := ⟨false, false, false, false, false, false, 0#16, ⟨false, false, false⟩, []⟩
  straps := ⟨0#2, false, false⟩
  hau := Hau.atReset false false
  maps := Maps.atReset
  overlay := Overlay.atReset []
  gen := Gen.atReset
  seq := Seq.atReset false
  mpc := Mpc.atReset 0#21
  capture := Capture.atReset
  journal := Journal.atReset
  notices := Notices.restarted .pin
  mpu := Mpu.atReset false
  freeIndex := 0

end Sys2Proof.Machine
end

