-- ==== Sys2Proof/Machine/Ops.lean ====
section
/-! DEFINITION. Operations shared by the blocks: addresses and lanes, overlay RAM and runs, notice posting, pins. -/

namespace Sys2Proof.Machine

/-! ## Addresses (spec/00_scope.md, spec/06_memory_port_and_backing_devices.md R97) -/

/-- The byte address of a word. -/
def byteAddr (a : WordAddr) : Addr := BitVec.ofNat 24 (2 * a.toNat)

/-- The word at an even byte address. -/
def wordAddr (a : Nat) : WordAddr := BitVec.ofNat 23 (a / 2)

/-- The device whose window holds a word address: byte-address bits 23:22. -/
def deviceOf (a : WordAddr) : Fin 4 := ⟨a.toNat / 2 ^ 21, by omega⟩

/-- The word offset within the window, MA[21:1]. -/
def offsetOf (a : WordAddr) : BitVec 21 := a.setWidth 21

/-- Whether the granules of a region of `length` granules at byte address `base` lie in one window (R3). -/
def oneWindow (base length : Nat) : Bool := base / 2 ^ 22 == (base + 16 * (length - 1)) / 2 ^ 22

/-! ## Saturating counts (spec/00_scope.md, Numbers and units) -/

/-- A count that stops at its largest value. -/
def satInc {n : Nat} (x : BitVec n) : BitVec n := if x = BitVec.allOnes n then x else x + 1

/-! ## Overlay RAM (spec/03_overlay_ram_and_page_runs.md R40) -/

/-- What an unlisted address of overlay RAM reads as: the byte of RUN.OPEN's fill FFFFh (R48). DESIGN CHOICE for the
power-up contents, log 7. -/
def ramFill : Byte := 0xFF#8

/-- One byte of overlay RAM. -/
def ramRead : List Host.Cell → Nat → Byte
  | [], _ => ramFill
  | c :: m, a => if c.1 = a then c.2 else ramRead m a

/-- A cell in front, unless it holds what an unlisted address reads as. -/
def ramCons (a : Nat) (v : Byte) (m : List Host.Cell) : List Host.Cell := if v = ramFill then m else (a, v) :: m

/-- One byte written, keeping the canonical form. -/
def ramWrite : List Host.Cell → Nat → Byte → List Host.Cell
  | [], a, v => ramCons a v []
  | c :: m, a, v =>
    if a < c.1 then ramCons a v (c :: m)
    else if a = c.1 then ramCons a v m
    else c :: ramWrite m a v

/-- The bytes of overlay RAM: 32 KiB. -/
def ramSize : Nat := 32768

/-- Strictly rising addresses above a bound and below `ramSize`, and no cell holding `ramFill`. -/
def ramWfFrom : Nat → List Host.Cell → Bool
  | _, [] => true
  | lo, c :: m => decide (lo ≤ c.1) && decide (c.1 < ramSize) && c.2 != ramFill && ramWfFrom (c.1 + 1) m

/-- The canonical form of overlay RAM. -/
def Memory.wf (m : List Host.Cell) : Bool := ramWfFrom 0 m

/-- The word at an even byte address: LOW lane at the even address, HIGH lane at the odd one (R26). -/
def ramReadWord (m : List Host.Cell) (a : Nat) : Word := (ramRead m (a + 1) ++ ramRead m a : BitVec 16)

def lowByte (w : Word) : Byte := w.setWidth 8
def highByte (w : Word) : Byte := w.extractLsb' 8 8

/-- The lanes of a word written at an even byte address (R26, R126). -/
def ramWriteLanes (m : List Host.Cell) (a : Nat) (lanes : Lanes) (w : Word) : List Host.Cell :=
  match lanes with
  | .low => ramWrite m a (lowByte w)
  | .high => ramWrite m (a + 1) (highByte w)
  | .both => ramWrite (ramWrite m a (lowByte w)) (a + 1) (highByte w)

/-- A page with every word FFFFh (R48): its cells go. -/
def ramFillPage (m : List Host.Cell) (p : Fin 128) : List Host.Cell := m.filter fun c => c.1 / 256 != p.val

/-! ## Runs (R42, R44) -/

def Run.pageCount (r : Run) : Nat := r.pages.length
/-- Capacity in granules. -/
def Run.capacity (r : Run) : Nat := 16 * r.pageCount
/-- Words of the run. -/
def Run.words (r : Run) : Nat := 8 * r.capacity

/-- The byte address in overlay RAM of a word index of a run (R44); none beyond the page list. -/
def Run.locate (r : Run) (w : Nat) : Option Nat :=
  (r.pages[w / 128]?).map fun p => 256 * p.val + 2 * (w % 128)

/-- A word of a run as it stands. Beyond the page list, which no run reaches, FFFFh (log 8). -/
def Overlay.readWord (o : Overlay) (r : Fin 32) (w : Nat) : Word :=
  match o.runs[r].locate w with
  | some a => ramReadWord o.ram a
  | none => 0xFFFF#16

/-- The lanes of a word of a run written. Beyond the page list, which no run reaches, nothing (log 8). -/
def Overlay.writeWord (o : Overlay) (r : Fin 32) (w : Nat) (lanes : Lanes) (v : Word) : Overlay :=
  match o.runs[r].locate w with
  | some a => { o with ram := ramWriteLanes o.ram a lanes v }
  | none => o

/-- Consecutive words of a run from a word index. -/
def Overlay.readWords (o : Overlay) (r : Fin 32) (w : Nat) : Nat → List Word
  | 0 => []
  | n + 1 => o.readWord r w :: Overlay.readWords o r (w + 1) n

/-- Consecutive whole words of a run written from a word index. -/
def Overlay.writeWords (o : Overlay) (r : Fin 32) (w : Nat) : List Word → Overlay
  | [] => o
  | v :: vs => (o.writeWord r w .both v).writeWords r (w + 1) vs

/-- A run's state changed (R43). -/
def Overlay.setState (o : Overlay) (r : Fin 32) (st : RunState) : Overlay :=
  { o with runs := o.runs.set r.val ⟨st, o.runs[r].pages⟩ }

/-- The lowest UNUSED run id (R48). -/
def Overlay.unusedRun (o : Overlay) : Option (Fin 32) :=
  (List.finRange 32).find? fun r => o.runs[r].state == .unused

/-- A run opened with the first `n` pages of the free list, every word FFFFh (R41, R48). -/
def Overlay.openRun (o : Overlay) (r : Fin 32) (n : Nat) : Overlay where
  runs := o.runs.set r.val ⟨.opened, o.free.take n⟩
  free := o.free.drop n
  ram := (o.free.take n).foldl ramFillPage o.ram

/-- A run released: its pages join the tail of the free list in page-list order (R41, R51). -/
def Overlay.release (o : Overlay) (r : Fin 32) : Overlay :=
  { o with free := o.free ++ o.runs[r].pages, runs := o.runs.set r.val ⟨.unused, []⟩ }

/-! ## Notices (spec/09_notices_and_the_alert_line.md R149, R172) -/

/-- The kind code of R172. -/
def Detail.code : Detail → Nat
  | .restarted _ => 0x01
  | .committed _ _ => 0x02
  | .reverted _ _ _ => 0x03
  | .confirmed _ _ => 0x04
  | .epoch _ => 0x05
  | .overrun _ => 0x06
  | .hostReset => 0x07
  | .hostHeld _ _ => 0x08
  | .deviceFenced _ _ _ => 0x09
  | .captureEnded _ _ _ => 0x0A
  | .journalHigh _ => 0x0B
  | .journalLoss _ => 0x0C
  | .guardHit _ _ _ => 0x0D

def Notice.code (n : Notice) : Nat := n.detail.code

/-- Whether a notice of a kind code is held. -/
def Notices.holds (q : Notices) (code : Nat) : Bool := q.queue.any fun n => n.code == code

/-- One more posting on a held notice: the repeat count stops at 255, the detail is kept (R148). -/
def Notice.again (n : Notice) : Notice := { n with count := min 255 (n.count + 1) }

/-- A posting (R149). -/
def Notices.post (d : Detail) (q : Notices) : Notices :=
  if q.holds d.code then
    { q with queue := q.queue.map fun n => if n.code == d.code then n.again else n }
  else { q with queue := q.queue ++ [⟨d, 1⟩] }

def State.post (d : Detail) (s : State) : State := { s with notices := s.notices.post d }

/-! ## The Host Access Unit's conditions (spec/02_host_accesses.md R21, R22) -/

/-- In flight: from DECIDING to the entry into ENDED (R21). -/
def HauState.inFlight : HauState → Bool
  | .idle | .held | .ended => false
  | .deciding | .overlay | .immediate | .grant | .device => true

def State.inFlight (s : State) : Bool := s.hau.state.inFlight

/-- Whether the strobe of an access is still asserted (R31). -/
def Pins.holdsStrobe (p : Pins) (a : Access) : Bool :=
  match a.kind with
  | .write => p.wr
  | _ => p.rd

/-- The unit back in IDLE with no access recorded (R31, R36). -/
def Hau.toIdle (h : Hau) : Hau := { h with state := .idle, access := none, decision := none }

end Sys2Proof.Machine
end

