-- ==== Sys2Proof/Machine/Flags.lean ====
section
/-! DEFINITION. Flags and conditions the spec derives from the state: reference flags, live and pinned (R45), ALERT_N
(R152), and the flags bytes of R169 and R173. -/

namespace Sys2Proof.Machine

/-- Whether an entry is a SUBSTITUTE entry naming a run (R45). -/
def Entry.names (e : Entry) (r : Fin 32) : Bool :=
  match e.action with
  | .substitute r' _ _ => r' == r
  | _ => false

/-- A map refers to a run when a slot holds a SUBSTITUTE entry naming it (R45). -/
def mapNames (m : SlotMap) (r : Fin 32) : Bool :=
  (List.finRange 32).any fun i => m[i].any fun e => e.names r

/-- Fallback, present exactly in TRIAL (R57). -/
def Gen.fallback (g : Gen) : Option SlotMap :=
  match g.commit with
  | .trial t => some t.fallback
  | _ => none

def CommitState.isPending : CommitState → Bool
  | .pending _ => true
  | _ => false

def State.inStaged (s : State) (r : Fin 32) : Bool := mapNames s.maps.staged r
def State.inActive (s : State) (r : Fin 32) : Bool := mapNames s.maps.active r
def State.inFallback (s : State) (r : Fin 32) : Bool := s.gen.fallback.any fun m => mapNames m r

/-- A run is live when Active or Fallback refers to it (R45). -/
def State.live (s : State) (r : Fin 32) : Bool := s.inActive r || s.inFallback r

/-- A run is pinned when Staged refers to it and the commit state is PENDING (R45). -/
def State.pinned (s : State) (r : Fin 32) : Bool := s.inStaged r && s.gen.commit.isPending

/-- Whether any map refers to a run (R51, R53). -/
def State.referenced (s : State) (r : Fin 32) : Bool := s.inStaged r || s.inActive r || s.inFallback r

/-- One bit per flag, the first flag in bit 0 (R169). -/
def flagsByte (flags : List Bool) : Byte :=
  BitVec.ofNat 8 (flags.foldr (fun b acc => (if b then 1 else 0) + 2 * acc) 0)

/-- 1 for yes, 0 for no (R169). -/
def flagByte (b : Bool) : Byte := flagsByte [b]

/-- RUN.INFO's reference flags (R169). -/
def State.referenceFlags (s : State) (r : Fin 32) : Byte :=
  flagsByte [s.inStaged r, s.inActive r, s.inFallback r, s.live r, s.pinned r]

/-- PART.INFO's strap flags (R173). -/
def State.strapFlags (s : State) : Byte :=
  flagsByte [s.straps.hold, s.straps.lock, s.hau.hold, s.hau.lockdown]

/-- SEQ.STATUS's sequencer flags (R169). -/
def Seq.flags (q : Seq) : Byte := flagsByte [q.parked, q.overrunPosted, q.accepted]

/-- DEV.STATUS's requests (R169). -/
def Mpc.requestFlags (m : Mpc) : Byte := flagsByte [m.hostRequest, m.captureRequest]

/-- Whether a notice's kind is enabled in the alert mask (R151, R172). -/
def Notices.enabled (q : Notices) (n : Notice) : Bool := q.mask.getLsbD (n.code - 1)

/-- Whether this unit drives ALERT_N low (R152): while RESET_N is asserted it is released. -/
def State.alert (s : State) : Bool := !s.pins.resetN && s.notices.queue.any s.notices.enabled

end Sys2Proof.Machine
end

