-- ==== Sys2Proof/Machine/Lookup.lean ====
section
/-! DEFINITION. The Access Decoder (spec/01_overlay_map.md R7 to R12): candidates, precedence and the decision. -/

namespace Sys2Proof.Machine

/-- Whether an entry's region holds an access (R3). -/
def Entry.holds (e : Entry) (a : WordAddr) : Bool :=
  decide (e.base.toNat ≤ (byteAddr a).toNat) && decide ((byteAddr a).toNat < e.base.toNat + 16 * e.length)

/-- The region offset of an access (R3). -/
def Entry.regionOffset (e : Entry) (a : WordAddr) : Nat := (byteAddr a).toNat - e.base.toNat

/-- Whether an entry's access mask holds a kind (R7). -/
def Entry.takes (e : Entry) : AccessKind → Bool
  | .fetch => e.fetches
  | .read => e.reads
  | .write => e.writes

/-- Whether an entry is a candidate for an access at a phase (R7). -/
def Entry.candidate (e : Entry) (phase : BitVec 2) (a : Access) : Bool :=
  e.phases.getLsbD phase.toNat && e.takes a.kind && e.holds a.addr

/-- Whether a slot holds a candidate. -/
def slotCandidate (m : SlotMap) (phase : BitVec 2) (a : Access) (i : Fin 32) : Bool :=
  m[i].any fun e => e.candidate phase a

/-- The deciding slot: the candidate in the lowest slot number (R8). -/
def decidingSlot (m : SlotMap) (phase : BitVec 2) (a : Access) : Option (Fin 32) :=
  (List.finRange 32).find? (slotCandidate m phase a)

/-- The disposition an entry gives an access in its region (R10 to R12). -/
def Entry.dispose (e : Entry) (a : Access) : Disposition :=
  match e.action with
  | .pass wait => .pass wait
  | .substitute run offset policy => .substitute run (offset * 8 + e.regionOffset a.addr / 2) policy
  | .relocate target wait => .relocate (wordAddr (target.toNat + e.regionOffset a.addr)) wait
  | .guard response fill => .guard response fill

/-- Whether an entry's kind is GUARD. -/
def Entry.isGuard (e : Entry) : Bool :=
  match e.action with
  | .guard _ _ => true
  | _ => false

/-- Whether lockdown decides an access that no entry decides (R9). -/
def State.locksDown (s : State) (a : Access) : Bool :=
  s.hau.lockdown && a.kind == .write && deviceOf a.addr == 0

/-- The decision of an access under the Active map and the current phase (R7 to R10). -/
def State.decide (s : State) (a : Access) : Decision :=
  match (decidingSlot s.maps.active s.seq.phase a).bind fun i => s.maps.active[i].map fun e => (i, e) with
  | some (i, e) =>
    { slot := some i
      disposition := e.dispose a
      phase := s.seq.phase
      generation := s.gen.generation
      addr := a.addr
      journal := a.kind == .write && (e.journal || e.isGuard) }
  | none =>
    { slot := none
      disposition := if s.locksDown a then .lockdown else .default
      phase := s.seq.phase
      generation := s.gen.generation
      addr := a.addr
      journal := s.locksDown a }

/-- The effective address of a decision that goes to the memory port (R10): DEFAULT and PASS at the host address, RELOCATE
at the target. -/
def Decision.effective (d : Decision) : Option WordAddr :=
  match d.disposition with
  | .default => some d.addr
  | .pass _ => some d.addr
  | .relocate target _ => some target
  | _ => none

/-- The wait override a decision carries (R10). -/
def Decision.waitOverride (d : Decision) : Option (BitVec 5) :=
  match d.disposition with
  | .pass wait => wait
  | .relocate _ wait => wait
  | _ => none

end Sys2Proof.Machine
end

