-- ==== Sys2Proof/Machine/Port.lean ====
section
/-! DEFINITION. The memory port, its arbiter and the Capture Engine's part in it (spec/06_memory_port_and_backing_devices.md
R97 to R112, spec/07_capture_engine.md R121 to R127). -/

namespace Sys2Proof.Machine

/-- Whether a device takes accesses (R98, R99). -/
def State.online (s : State) (d : Fin 4) : Bool := s.mpc.devices[d].state == .online

/-! ## The end of a capture and its words -/

/-- The status a CAPTURE_ENDED notice names (R150). -/
def CaptureStatus.ended : CaptureStatus → EndStatus
  | .done => .done
  | .aborted => .aborted
  | _ => .failed

/-- A capture ends with a status (R123). -/
def State.captureEnd (s : State) (j : CaptureJob) (status : CaptureStatus) : State :=
  ({ s with
    capture := { s.capture with status := status, abortPending := false }
    overlay := s.overlay.setState j.run .opened
    mpc := { s.mpc with passOver := 0, captureRequest := false } }).post
    (.captureEnded j.run status.ended s.capture.wordsDone)

/-- The address of the next word of a capture (R118, R121). -/
def CaptureJob.wordAddress (j : CaptureJob) (i : Nat) : WordAddr := wordAddr (j.source.toNat + 2 * i)

/-- A capture word has been read: steps 1 and 2 of R122. -/
def State.copyWord (s : State) (j : CaptureJob) (md : Word) : State :=
  { s with
    overlay := s.overlay.writeWord j.run (j.offset * 8 + s.capture.wordsDone) .both md
    capture := { s.capture with wordsDone := s.capture.wordsDone + 1 } }

/-- A capture word's access completes (R122). -/
def State.captureWord (s : State) (md : Word) : State :=
  match s.capture.job with
  | none => s
  | some j =>
    let s1 := s.copyWord j md
    if s.capture.abortPending then s1.captureEnd j .aborted
    else if s.capture.wordsDone + 1 = 8 * j.length then s1.captureEnd j .done
    else { s1 with mpc := { s1.mpc with captureRequest := true } }

/-- A capture word fails: the capture ends FAILED, or ABORTED when an abort is pending (R124, R125, R128). -/
def State.captureFails (s : State) (cause : CaptureCause) : State :=
  match s.capture.job with
  | none => s
  | some j => s.captureEnd j (if s.capture.abortPending then .aborted else .failed cause)

/-- The snoop of a completed host-path write (R126, R127). -/
def State.snoop (s : State) (p : PortAccess) : State :=
  match s.capture.status, s.capture.job, p.write with
  | .running, some j, some (lanes, data) =>
    let a := (byteAddr p.addr).toNat
    if j.source.toNat ≤ a ∧ a < j.source.toNat + 16 * j.length ∧ (a - j.source.toNat) / 2 < s.capture.wordsDone then
      { s with overlay := s.overlay.writeWord j.run (j.offset * 8 + (a - j.source.toNat) / 2) lanes data }
    else s
  | _, _, _ => s

/-! ## Starting an access (R100) -/

/-- The access of the host path for a decision that goes to the memory port. -/
def State.hostPortAccess (s : State) (a : Access) (d : Decision) (eff : WordAddr) : PortAccess where
  owner := .host
  addr := eff
  write := if a.kind = .write then some (a.lanes, a.data) else none
  wait := d.waitOverride.getD s.mpc.devices[deviceOf eff].wait
  mwait := s.mpc.devices[deviceOf eff].mwait
  timeout := s.mpc.timeout
  elapsed := 0
  abandoned := false

/-- The access of the Capture Engine for its next word. -/
def State.capturePortAccess (s : State) (eff : WordAddr) : PortAccess where
  owner := .capture
  addr := eff
  write := none
  wait := s.mpc.devices[deviceOf eff].wait
  mwait := s.mpc.devices[deviceOf eff].mwait
  timeout := s.mpc.timeout
  elapsed := 0
  abandoned := false

/-- An access starts on the port: MA takes its offset (R97). -/
def State.start (s : State) (p : PortAccess) : State :=
  { s with mpc := { s.mpc with access := some p, lastOffset := offsetOf p.addr } }

/-! ## The arbiter (R108 to R112) -/

/-- The requester the arbiter grants, if any (R111). -/
def Mpc.winner (m : Mpc) : Option Owner :=
  match m.hostRequest, m.captureRequest with
  | false, false => none
  | true, false => some .host
  | false, true => some .capture
  | true, true => if m.passOver < m.share then some .host else some .capture

/-- The request granted is removed, and a contention counts (R109, R111). -/
def Mpc.grant (m : Mpc) (o : Owner) : Mpc :=
  let contention := m.hostRequest && m.captureRequest
  match o with
  | .host => { m with hostRequest := false, passOver := if contention then m.passOver + 1 else m.passOver }
  | .capture => { m with captureRequest := false, passOver := if contention then 0 else m.passOver }

/-- The response of a host access that fails at its device or its grant (R28, R29, R30). -/
def failedResponse (k : AccessKind) : HostResponse := ⟨false, if k = .write then none else some 0xFFFF#16⟩

/-- The capture request is granted: its word starts, or the grant is returned unused and the capture fails (R121,
R124). -/
def State.grantCapture (s : State) : State :=
  match s.capture.job with
  | none => s
  | some j =>
    match s.mpc.devices[deviceOf (j.wordAddress s.capture.wordsDone)].state with
    | .online => s.start (s.capturePortAccess (j.wordAddress s.capture.wordsDone))
    | .fenced _ _ => s.captureFails .fenced
    | .absent => s.captureFails .absent

/-- The host request is granted: the access starts, or the grant is returned unused and the access ends in error
(R29, R112). -/
def State.grantHost (s : State) : State × Option HostResponse :=
  match s.hau.access, s.hau.decision with
  | some a, some d =>
    match d.effective with
    | some eff =>
      if s.online (deviceOf eff) then
        ({ s with hau := { s.hau with state := .device } }.start (s.hostPortAccess a d eff), none)
      else (s, some (failedResponse a.kind))
    | none => (s, none)
  | _, _ => (s, none)

/-- One grant of the arbiter on a free port, if a request waits (R110, R111). -/
def State.grantOne (s : State) : State × Option HostResponse :=
  match s.mpc.access, s.mpc.winner with
  | none, some .host => { s with mpc := s.mpc.grant .host }.grantHost
  | none, some .capture => ({ s with mpc := s.mpc.grant .capture }.grantCapture, none)
  | _, _ => (s, none)

/-- The arbiter at work on a free port: a capture grant returned unused is followed by the next grant (R112). The second
component is the response of a host access that a returned grant ends. -/
def State.arbitrate (s : State) : State × Option HostResponse :=
  let r := s.grantOne
  match r.2 with
  | some e => (r.1, some e)
  | none => r.1.grantOne

end Sys2Proof.Machine
end

