-- ==== Sys2Proof/Machine/Recording.lean ====
section
/-! DEFINITION. The arrival of a record in the Write Journal (spec/08_write_journal.md R134 to R139) and the hit counters
(spec/01_overlay_map.md R13). -/

namespace Sys2Proof.Machine

/-- The outcome of a recorded WRITE (R32). -/
def Decision.outcome (d : Decision) (completed : Bool) : WriteOutcome :=
  match d.disposition with
  | .default => if completed then .written else .failed
  | .pass _ => if completed then .written else .failed
  | .relocate _ _ => if completed then .relocated else .failed
  | .substitute _ _ .absorb => .absorbed
  | .substitute _ _ .discard => .discarded
  | .substitute _ _ .refuse => .refused
  | .guard .error _ => .refused
  | .guard .quiet _ => .discarded
  | .lockdown => .refused

/-- The target address of a record: present for a RELOCATE decision (R32). -/
def Decision.target (d : Decision) : Option WordAddr :=
  match d.disposition with
  | .relocate target _ => some target
  | _ => none

/-- The record handed to the Journal, with the sequence number it is given (R32, R135, R136). -/
def recordOf (n : Word) (a : Access) (d : Decision) (completed : Bool) : JournalRecord where
  sequence := n
  generation := d.generation
  phase := d.phase
  slot := d.slot
  addr := a.addr
  data := a.data
  lanes := a.lanes
  outcome := d.outcome completed
  target := d.target

/-- Whether a held record carries a sequence number (R137). -/
def Journal.carries (j : Journal) (n : Word) : Bool := j.records.any fun r => r.sequence == n

/-- The records the journal can hold (R133). -/
def journalSize : Nat := 64

/-- The list after an arrival, and the sequence number lost, if any (R137). -/
def Journal.take (j : Journal) (r : JournalRecord) : List JournalRecord × Option Word :=
  if j.carries r.sequence then (j.records, some r.sequence)
  else if j.records.length < journalSize then (j.records ++ [r], none)
  else
    match j.policy with
    | .keepOldest => (j.records, some r.sequence)
    | .keepNewest => (j.records.drop 1 ++ [r], j.records.head?.map JournalRecord.sequence)

/-- Whether the threshold test after an arrival posts JOURNAL_HIGH (R139). -/
def Journal.high (j : Journal) (records : List JournalRecord) : Bool :=
  j.highArmed && decide (j.threshold ≤ records.length)

/-- The journal after an arrival: the number is spent, the list changed, the threshold tested (R136, R137, R139). -/
def Journal.arrive (j : Journal) (r : JournalRecord) : Journal :=
  { j with
    records := (j.take r).1
    next := j.next + 1
    highArmed := j.highArmed && !j.high (j.take r).1 }

/-- A record arrives: JOURNAL_LOSS, then JOURNAL_HIGH are posted as the arrival gives them (R138, R139). -/
def State.recordArrives (s : State) (r : JournalRecord) : State :=
  let s1 := { s with journal := s.journal.arrive r }
  let s2 := match (s.journal.take r).2 with
    | some n => s1.post (.journalLoss n)
    | none => s1
  if s.journal.high (s.journal.take r).1 then s2.post (.journalHigh (s.journal.take r).1.length) else s2

/-- Step 2 of an access end: the hit of the deciding slot (R13). -/
def State.countHit (s : State) (slot : Option (Fin 32)) : State :=
  match slot with
  | some i => { s with maps := { s.maps with hits := s.maps.hits.set i.val (satInc s.maps.hits[i]) } }
  | none => s

end Sys2Proof.Machine
end

