-- ==== Sys2Proof/Machine/Generation.lean ====
section
/-! DEFINITION. What Generation Control and the Run Manager do within an event: the release test (R53), a commit taking
effect (R65), a confirm (R69), a revert (R72), and their answers to boundaries, access ends and host resets
(R61 to R64, R68, R74). -/

namespace Sys2Proof.Machine

/-! ## The release test (spec/03_overlay_ram_and_page_runs.md R53) -/

/-- One run of the release test. -/
def releaseOne (referenced : Fin 32 → Bool) (o : Overlay) (r : Fin 32) : Overlay :=
  if o.runs[r].state = .retiring ∧ referenced r = false then o.release r else o

/-- The release test: every RETIRING run that no map refers to is released, in ascending run id. -/
def State.releaseTest (s : State) : State :=
  { s with overlay := (List.finRange 32).foldl (releaseOne s.referenced) s.overlay }

/-- Whether a slot holds a SUBSTITUTE entry (R54). -/
def isSubstitute : Option Entry → Bool
  | some e => match e.action with
    | .substitute _ _ _ => true
    | _ => false
  | none => false

/-- A slot of Staged changed by an edit; a reference it removes brings the release test (R15, R54). -/
def State.editStaged (s : State) (i : Fin 32) (e : Option Entry) : State :=
  let s' := { s with maps := { s.maps with staged := s.maps.staged.set i.val e } }
  if isSubstitute s.maps.staged[i] then s'.releaseTest else s'

/-! ## Changes of Active (spec/04_generations_commit_and_trial.md) -/

/-- A new Active map with cleared hit counters under the next generation number (R14, R66). -/
def State.replaceActive (s : State) (m : SlotMap) (c : CommitState) : State :=
  { s with
    maps := { s.maps with active := m, hits := zeroHits }
    gen := ⟨c, s.gen.generation + 1⟩ }

/-- The state GENC enters when a pending commit takes effect: the trial it opens, or NONE (R65 step 1). -/
def State.trialOf (s : State) (p : PendingCommit) : CommitState :=
  if p.trial then
    .trial
      { fallback := s.maps.active
        windowLoaded := p.window
        windowRemaining := p.window
        armed := p.window != 0#8
        fallbackGeneration := s.gen.generation
        revertDue := false }
  else .none

/-- A commit takes effect (R65). -/
def State.takeEffect (s : State) (p : PendingCommit) : State :=
  ((s.replaceActive s.maps.staged (s.trialOf p)).releaseTest).post
    (.committed (s.gen.generation + 1) p.boundary)

/-- A confirm (R69). -/
def State.confirm (s : State) (cause : ConfirmCause) : State :=
  ({ s with gen := { s.gen with commit := .none } }.releaseTest).post (.confirmed s.gen.generation cause)

/-- A revert (R72). -/
def State.revert (s : State) (t : Trial) (cause : RevertCause) : State :=
  ((s.replaceActive t.fallback .none).releaseTest).post
    (.reverted (s.gen.generation + 1) t.fallbackGeneration cause)

/-- The boundary of a pending commit occurs: it takes effect at once, or becomes due while an access is in flight
(R64). -/
def State.boundaryOccurs (s : State) (p : PendingCommit) : State :=
  if s.inFlight then { s with gen := { s.gen with commit := .pending { p with due := true } } } else s.takeEffect p

/-- An epoch boundary reported to Generation Control (R61, R68). -/
def State.epochReported (s : State) : State :=
  match s.gen.commit with
  | .none => s
  | .pending p => if p.boundary = .epoch ∧ p.due = false then s.boundaryOccurs p else s
  | .trial t =>
    if t.armed then
      if t.windowRemaining ≤ 1#8 then s.confirm .window
      else { s with gen := { s.gen with commit := .trial { t with windowRemaining := t.windowRemaining - 1 } } }
    else s

/-- Whether a pending commit's MARK boundary occurs at the end of an access (R62). -/
def marksBoundary (p : PendingCommit) (a : Access) : Bool :=
  a.kind == .fetch && p.boundary == .mark (byteAddr a.addr)

/-- Step 4 of an access end: the MARK match, then whatever change of Active is due (R31, R62, R64, R71). -/
def State.changeAtEnd (s : State) (a : Access) : State :=
  match s.gen.commit with
  | .none => s
  | .pending p => if p.due || marksBoundary p a then s.takeEffect p else s
  | .trial t => if t.revertDue then s.revert t .command else s

/-- Generation Control at a host reset event, no access being in flight (R74). -/
def State.changeAtHostReset (s : State) : State :=
  match s.gen.commit with
  | .none => s
  | .pending p => if p.boundary = .reset ∨ p.due = true then s.takeEffect p else s
  | .trial t => s.revert t (if t.revertDue then .command else .hostReset)

end Sys2Proof.Machine
end

