-- ==== Sys2Proof/Machine/Sequencer.lean ====
section
/-! DEFINITION. What the Phase Sequencer does within an event (spec/05_phase_sequencer_and_epochs.md): counting (R82),
advances and epoch boundaries (R83 to R89), the EPOCH filter and its edges (R90, R91). -/

namespace Sys2Proof.Machine

/-- What an event of the sequencer reports: an advance by counting (R85, R88), the phase of an OVERRUN posting (R87,
R88), a park (R88), an epoch boundary (R84). -/
structure SeqNews where
  advanced : Bool := false
  overrun : Option (BitVec 2) := none
  parked : Bool := false
  boundary : Bool := false
  deriving DecidableEq, Repr

/-- A restart at the initial phase (R80, R95). -/
def Seq.restart (q : Seq) : Seq :=
  { q with phase := q.config.initial, counter := 0#16, epochAccesses := 0#32, parked := false, overrunPosted := false }

/-- The filter's accepted level sampled from the input, with a pending count of 0 (R78, R80). -/
def Seq.sample (q : Seq) (epoch : Bool) : Seq := { q with accepted := epoch, filterCount := 0 }

/-- Steps 1 to 3 of an epoch boundary (R84). -/
def Seq.boundary (q : Seq) : Seq := { q.restart with epochNumber := q.epochNumber + 1 }

/-- A new phase visit that is no epoch boundary (R78, R83). -/
def Seq.visit (q : Seq) (p : BitVec 2) : Seq := { q with phase := p, counter := 0#16, overrunPosted := false }

/-- The phase after the current one: (p + 1) mod N (R85, R86, R89). -/
def Seq.nextPhase (q : Seq) : BitVec 2 := BitVec.ofNat 2 ((q.phase.toNat + 1) % q.config.phaseCount)

/-- Whether an advance to the next phase lands on the initial phase (R83). -/
def Seq.landsOnInitial (q : Seq) : Bool := q.nextPhase == q.config.initial

/-- An advance in COUNT, SYNC_STEP or MARK mode (R83, R84). -/
def Seq.advance (q : Seq) : Seq := if q.landsOnInitial then q.boundary else q.visit q.nextPhase

/-- The current phase's length. -/
def Seq.length (q : Seq) : Word := q.config.lengths[q.phase.toNat]

/-- The current phase's mark address. -/
def Seq.mark (q : Seq) : Addr := q.config.marks[q.phase.toNat]

/-- Whether an access of a kind qualifies (R82). -/
def Qualifier.takes : Qualifier → AccessKind → Bool
  | .fetchOnly, k => k == .fetch
  | .all, _ => true

/-- Whether an access that ends is counted: it qualifies and the sequencer is not parked (R82). -/
def Seq.counts (q : Seq) (k : AccessKind) : Bool := q.config.qualifier.takes k && !q.parked

/-- A counted access (R82). -/
def Seq.count (q : Seq) : Seq :=
  { q with
    counter := if q.length ≠ 0#16 ∧ q.length ≤ q.counter then q.counter else satInc q.counter
    epochAccesses := satInc q.epochAccesses }

/-- Whether the phase counter stands at a nonzero length. -/
def Seq.full (q : Seq) : Bool := q.length != 0#16 && q.counter == q.length

/-- The counting of an access that ends, if it counts (R82). -/
def Seq.tally (q : Seq) (k : AccessKind) : Seq := if q.counts k then q.count else q

/-- Whether the access that ends makes the phase counter equal to the nonzero length. -/
def Seq.fills (q : Seq) (k : AccessKind) : Bool := q.counts k && (q.tally k).full

/-- Whether a ceiling posts OVERRUN at this access end (R87). -/
def Seq.overruns (q : Seq) (k : AccessKind) : Bool := q.fills k && !q.overrunPosted

/-- The sequencer after the ceiling rule of SYNC_STEP and MARK modes (R87). -/
def Seq.ceiling (q : Seq) (k : AccessKind) : Seq :=
  if q.overruns k then { q.tally k with overrunPosted := true } else q.tally k

/-- Whether a FETCH ends at the current phase's mark (R89). -/
def Seq.marks (q : Seq) (a : Access) : Bool := a.kind == .fetch && byteAddr a.addr == q.mark

/-- Step 1 of an access end: the count, then the rule of the mode (R82, R85 to R89). -/
def Seq.accessEnd (q : Seq) (a : Access) : Seq × SeqNews :=
  match q.config.mode with
  | .count =>
    if q.fills a.kind then
      ((q.tally a.kind).advance, { advanced := true, boundary := q.landsOnInitial })
    else (q.tally a.kind, {})
  | .syncRestart =>
    if q.fills a.kind then
      if q.phase.toNat + 1 < q.config.phaseCount then
        ((q.tally a.kind).visit q.nextPhase, { advanced := true })
      else ({ q.tally a.kind with parked := true, overrunPosted := true }, { overrun := some q.phase, parked := true })
    else (q.tally a.kind, {})
  | .syncStep =>
    (q.ceiling a.kind, { overrun := if q.overruns a.kind then some q.phase else none })
  | .mark =>
    if q.marks a then
      ((q.ceiling a.kind).advance,
        { overrun := if q.overruns a.kind then some q.phase else none, boundary := q.landsOnInitial })
    else (q.ceiling a.kind, { overrun := if q.overruns a.kind then some q.phase else none })

/-- What an accepted edge does in each mode (R86, R88, R91). -/
def Seq.edge (q : Seq) : Seq × SeqNews :=
  match q.config.mode with
  | .syncStep => (q.advance, { boundary := q.landsOnInitial })
  | .syncRestart => (q.boundary, { boundary := true })
  | .count => (q, {})
  | .mark => (q, {})

/-- Whether a transition to a level is an edge under the polarity (R91). -/
def Polarity.isEdge : Polarity → Bool → Bool
  | .rising, level => level
  | .falling, level => !level

/-- The filter accepts the other level, and an edge acts (R90, R91). -/
def Seq.transition (q : Seq) : Seq × SeqNews :=
  if q.config.polarity.isEdge (!q.accepted) then (q.sample (!q.accepted)).edge else (q.sample (!q.accepted), {})

/-- The postings and the report to Generation Control of a sequencer event: OVERRUN, then EPOCH with the new epoch
number, then the boundary (R84, R87, R88). -/
def State.seqNews (s : State) (r : Seq × SeqNews) : State :=
  let s1 := { s with seq := r.1 }
  let s2 := match r.2.overrun with
    | some p => s1.post (.overrun p)
    | none => s1
  if r.2.boundary then (s2.post (.epoch r.1.epochNumber)).epochReported else s2

/-- A transition of the EPOCH input is accepted (R91). -/
def State.acceptTransition (s : State) : State :=
  { s with pins := { s.pins with epoch := !s.seq.accepted } }.seqNews s.seq.transition

/-- One CLK period of the EPOCH filter (R90). -/
def State.filterPeriod (s : State) : State :=
  if s.pins.epoch = s.seq.accepted then { s with seq := { s.seq with filterCount := 0 } }
  else if s.seq.config.filter.toNat ≤ s.seq.filterCount + 1 then s.acceptTransition
  else { s with seq := { s.seq with filterCount := s.seq.filterCount + 1 } }

end Sys2Proof.Machine
end

