-- ==== Sys2Proof/Machine/AccessEnd.lean ====
section
/-! DEFINITION. The end of a host access and what follows it in the same step (spec/02_host_accesses.md R25 to R32, R39,
R175): hand-offs, a waiting soft reset, the next grant. -/

namespace Sys2Proof.Machine

/-! ## The soft reset (R175) -/

/-- A soft reset takes effect: every block takes its soft-reset state, RESTARTED (SOFT) is posted into the emptied queue, a
held access posts HOST_HELD again (R39, R158), and the buffer takes OK with the PART.RESET's tag. The HAU keeps its
state, access and response; the latched straps, the pins and MA stand. -/
def State.softReset (s : State) (tag : Byte) : State :=
  let s1 : State :=
    { s with
      hau := { s.hau with hold := s.straps.hold, lockdown := s.straps.lock }
      maps := Maps.atReset
      overlay := Overlay.atReset s.overlay.ram
      gen := Gen.atReset
      seq := Seq.atReset s.pins.epoch
      mpc := Mpc.atReset s.mpc.lastOffset
      capture := Capture.atReset
      journal := Journal.atReset
      notices := Notices.restarted .soft
      mpu := { s.mpu with buffer := ⟨tag, .ok, []⟩, softReset := none } }
  match s.hau.state, s.hau.access with
  | .held, some a => s1.post (.hostHeld a.addr a.kind)
  | _, _ => s1

/-- A soft reset that waited for the access end takes effect (R39, R174). -/
def State.softResetIfDue (s : State) : State :=
  match s.mpu.softReset with
  | some tag => s.softReset tag
  | none => s

/-! ## The access end (R31) -/

/-- An ABSORB write lands in its run word at the end of the access (R26). -/
def State.absorb (s : State) (a : Access) (d : Decision) : State :=
  match a.kind, d.disposition with
  | .write, .substitute run word .absorb => { s with overlay := s.overlay.writeWord run word a.lanes a.data }
  | _, _ => s

/-- Whether a decision is GUARD or LOCKDOWN (R27). -/
def Decision.guards (d : Decision) : Bool :=
  match d.disposition with
  | .guard _ _ => true
  | .lockdown => true
  | _ => false

/-- Step 3 of an access end: the record of a WRITE whose journal field is yes, then GUARD_HIT of a GUARD or LOCKDOWN
access (R27, R31, R32). -/
def State.reportEnd (s : State) (a : Access) (d : Decision) (completed : Bool) : State :=
  let s1 := if d.journal then s.recordArrives (recordOf s.journal.next a d completed) else s
  if d.guards then s1.post (.guardHit d.slot a.addr a.kind) else s1

/-- The response is driven: ENDED while the strobe is asserted, and at once back to IDLE when it is already negated (R22, R31).
For a strobe negated and asserted again during the access the spec is open (R21 says 'was negated before the end', R31
'has already negated its strobe as the access ends'). DESIGN CHOICE, log 22: the level of the strobe at the end decides,
so that the unit waits in ENDED. -/
def State.respond (s : State) (a : Access) (e : HostResponse) : State :=
  if s.pins.holdsStrobe a then { s with hau := { s.hau with state := .ended, response := some e } }
  else { s with hau := { s.hau.toIdle with response := some e } }

/-- The end of the access in hand with a response: the absorbed write, the response, and the hand-offs in the order of
R31: sequencer, hit, journal and GUARD_HIT, Generation Control. -/
def State.endAccess (s : State) (e : HostResponse) : State :=
  match s.hau.access, s.hau.decision with
  | some a, some d =>
    let s1 := (s.absorb a d).seqNews (s.seq.accessEnd a)
    let s2 := (s1.countHit d.slot).reportEnd a d e.completed
    (s2.respond a e).changeAtEnd a
  | _, _ => s

/-- A state together with the response of the host access that now ends, if one does: the moment before the hand-offs
of R31. -/
abbrev Moment := State × Option HostResponse

/-- A moment carried through: the access end and a waiting soft reset (R175), then the next grant (R111). -/
def Moment.finish (m : Moment) : State :=
  match m.2 with
  | none => m.1
  | some e => (m.1.endAccess e).softResetIfDue.arbitrate.1

/-! ## Carrying out a decision (R24 to R29) -/

/-- The response of an OVERLAY access (R25, R26). -/
def State.overlayResponse (s : State) (a : Access) (run : Fin 32) (word : Nat) (policy : WritePolicy) : HostResponse :=
  match a.kind with
  | .write => ⟨policy != .refuse, none⟩
  | _ => ⟨true, some (s.overlay.readWord run word)⟩

/-- The response of a GUARD access (R27). -/
def guardResponse (a : Access) (response : GuardResponse) (fill : Word) : HostResponse :=
  match response with
  | .error => failedResponse a.kind
  | .quiet => ⟨true, if a.kind = .write then none else some fill⟩

/-- The unit in a state with an access and its decision. -/
def Hau.carrying (h : Hau) (st : HauState) (a : Access) (d : Decision) : Hau :=
  { h with state := st, access := some a, decision := some d }

/-- An access enters DECIDING, is looked up, and its decision is carried out: it ends now (OVERLAY, IMMEDIATE) or
requests the memory port (GRANT), which is granted at once when the port is free (R24 to R29, R110). -/
def State.enterDeciding (s : State) (a : Access) : Moment :=
  let d := s.decide a
  match d.disposition with
  | .substitute run word policy =>
    ({ s with hau := s.hau.carrying .overlay a d }, some (s.overlayResponse a run word policy))
  | .guard response fill => ({ s with hau := s.hau.carrying .immediate a d }, some (guardResponse a response fill))
  | .lockdown => ({ s with hau := s.hau.carrying .immediate a d }, some (failedResponse a.kind))
  | _ =>
    if s.online (deviceOf (d.effective.getD a.addr)) then
      { s with hau := s.hau.carrying .grant a d, mpc := { s.mpc with hostRequest := true } }.arbitrate
    else ({ s with hau := s.hau.carrying .immediate a d }, some (failedResponse a.kind))

/-! ## The events that can end a host access -/

/-- The access that the strobes on the pins make, if any (R22): one strobe alone, and a lane for a write. -/
def latchAccess (p : HostPins) (rd wr : Bool) : Option Access :=
  match rd, wr with
  | true, false => some ⟨if p.fetch then .fetch else .read, p.addr, .both, 0#16⟩
  | false, true =>
    match p.low, p.high with
    | true, true => some ⟨.write, p.addr, .both, p.data⟩
    | true, false => some ⟨.write, p.addr, .low, p.data⟩
    | false, true => some ⟨.write, p.addr, .high, p.data⟩
    | false, false => none
  | _, _ => none

/-- The pins after an assertion of strobes. -/
def Pins.assertStrobes (p : Pins) (h : HostPins) : Pins := { p with rd := p.rd || h.rd, wr := p.wr || h.wr }

/-- Whether a strobe event asserts a strobe that was negated. -/
def Pins.newStrobe (p : Pins) (h : HostPins) : Bool := (h.rd && !p.rd) || (h.wr && !p.wr)

/-- The access that arrives with a strobe event, if one does (R22, R37, R38): a new assertion, IDLE, and HRST_N and RESET_N
negated. -/
def State.arriving (s : State) (h : HostPins) : Option Access :=
  if s.pins.newStrobe h && s.hau.state == .idle && !s.pins.hrst && !s.pins.resetN then
    latchAccess h (s.pins.assertStrobes h).rd (s.pins.assertStrobes h).wr
  else none

/-- A host strobe is asserted (R22, R23). -/
def State.arrivalMoment (s : State) (h : HostPins) : Moment :=
  let s1 := { s with pins := s.pins.assertStrobes h }
  match s.arriving h with
  | none => (s1, none)
  | some a =>
    if s.hau.hold then
      ({ s1 with hau := { s1.hau with state := .held, access := some a } }.post (.hostHeld a.addr a.kind), none)
    else s1.enterDeciding a

/-- HOST.RELEASE (R34): hold ends, and a held access enters DECIDING. -/
def State.releaseMoment (s : State) : Moment :=
  if s.hau.hold then
    let s1 := { s with hau := { s.hau with hold := false } }
    match s.hau.state, s.hau.access with
    | .held, some a => s1.enterDeciding a
    | _, _ => (s1, none)
  else (s, none)

/-- The port becomes free. -/
def State.freePort (s : State) : State := { s with mpc := { s.mpc with access := none } }

/-- The response of a host access whose strobe completed (R30). -/
def deviceResponse (p : PortAccess) (md : Word) : HostResponse := ⟨true, if p.write.isSome then none else some md⟩

/-- The strobe on the port completes with a word on MD (R103, R122, R126). -/
def State.completionMoment (s : State) (md : Word) : Moment :=
  match s.mpc.access with
  | none => (s, none)
  | some p =>
    match p.owner with
    | .capture => (s.freePort.captureWord md).arbitrate
    | .host =>
      if p.abandoned then (s.freePort.snoop p).arbitrate else (s.freePort.snoop p, some (deviceResponse p md))

/-- Whether an access can time out: a timeout is set and MWAIT_N may lengthen its strobe (R102, R104). -/
def PortAccess.canTimeOut (p : PortAccess) : Bool := p.timeout != 0#8 && p.mwait

/-- The device of a timed-out access is fenced if it is ONLINE, and DEVICE_FENCED is posted (R105, R106). -/
def State.fence (s : State) (p : PortAccess) : State :=
  if s.online (deviceOf p.addr) then
    { s with mpc := { s.mpc with
        devices := s.mpc.devices.set (deviceOf p.addr).val
          { s.mpc.devices[deviceOf p.addr] with state := .fenced (byteAddr p.addr) p.owner } } }.post
      (.deviceFenced (deviceOf p.addr) (byteAddr p.addr) p.owner)
  else s

/-- The response of a host access whose strobe timed out (R30). -/
def timeoutResponse (p : PortAccess) : HostResponse := ⟨false, if p.write.isSome then none else some 0xFFFF#16⟩

/-- The strobe on the port times out (R105, R106, R125). -/
def State.timeoutMoment (s : State) : Moment :=
  match s.mpc.access with
  | none => (s, none)
  | some p =>
    if p.canTimeOut then
      match p.owner with
      | .capture => ((s.freePort.fence p).captureFails .timeout).arbitrate
      | .host =>
        if p.abandoned then (s.freePort.fence p).arbitrate else (s.freePort.fence p, some (timeoutResponse p))
    else (s, none)

end Sys2Proof.Machine
end

