-- ==== Sys2Proof/Machine/Operands.lean ====
section
/-! DEFINITION. Fields of request payloads and layouts of response payloads (spec/10_management_port.md R167 to R172).
Multi-byte fields travel most significant byte first. -/

namespace Sys2Proof.Machine

/-! ## Request fields -/

def byteAt (p : List Byte) (i : Nat) : Byte := p.getD i 0#8
def wordAt (p : List Byte) (i : Nat) : Word := (byteAt p i ++ byteAt p (i + 1) : BitVec 16)
def addrAt (p : List Byte) (i : Nat) : Addr := (byteAt p i ++ byteAt p (i + 1) ++ byteAt p (i + 2) : BitVec 24)

/-- `n` words from byte `i` on. -/
def wordsAt (p : List Byte) (i : Nat) : Nat → List Word
  | 0 => []
  | n + 1 => wordAt p i :: wordsAt p (i + 2) n

/-- A slot number or run id 0–31. -/
def index32 (b : Byte) : Option (Fin 32) := if h : b.toNat < 32 then some ⟨b.toNat, h⟩ else none

/-- A device number 0–3. -/
def index4 (b : Byte) : Option (Fin 4) := if h : b.toNat < 4 then some ⟨b.toNat, h⟩ else none

/-- A yes/no field (R169). -/
def flag? (b : Byte) : Option Bool :=
  match b.toNat with
  | 0 => some false
  | 1 => some true
  | _ => none

def writePolicy? (b : Byte) : Option WritePolicy :=
  match b.toNat with
  | 0 => some .absorb
  | 1 => some .discard
  | 2 => some .refuse
  | _ => none

def guardResponse? (b : Byte) : Option GuardResponse :=
  match b.toNat with
  | 0 => some .error
  | 1 => some .quiet
  | _ => none

/-- The wait override byte: bit 7 present, bits 6:5 zero, bits 4:0 the value (R170). -/
def waitOverride? (b : Byte) : Option (Option (BitVec 5)) :=
  if b.getLsbD 6 || b.getLsbD 5 then none
  else if b.getLsbD 7 then some (some (b.setWidth 5)) else some none

/-- A granule-aligned address: a multiple of 16. -/
def aligned (a : Addr) : Bool := a.toNat % 16 == 0

/-- The kind-specific fields of an entry whose 18 bytes begin at byte `i` (R170); none where the range check of R16
check 2 refuses them. -/
def action? (p : List Byte) (i : Nat) : Option EntryAction :=
  match (byteAt p i).toNat with
  | 0 => (waitOverride? (byteAt p (i + 10))).map .pass
  | 1 =>
    match index32 (byteAt p (i + 11)), writePolicy? (byteAt p (i + 14)) with
    | some run, some policy =>
      if (wordAt p (i + 12)).toNat ≤ 511 then some (.substitute run (wordAt p (i + 12)).toNat policy) else none
    | _, _ => none
  | 2 =>
    if aligned (addrAt p (i + 7)) then (waitOverride? (byteAt p (i + 10))).map (.relocate (addrAt p (i + 7)))
    else none
  | 3 => (guardResponse? (byteAt p (i + 15))).map fun g => .guard g (wordAt p (i + 16))
  | _ => none

/-- The entry whose 18 bytes begin at byte `i` (R170); none where R16 check 2 refuses it. -/
def entry? (p : List Byte) (i : Nat) : Option Entry :=
  match action? p i with
  | some action =>
    if (byteAt p (i + 1)).toNat % 16 ≠ 0 ∧ ((byteAt p (i + 1)).toNat / 16) % 8 ≠ 0 ∧ aligned (addrAt p (i + 2)) then
      some
        { base := addrAt p (i + 2)
          length := (wordAt p (i + 5)).toNat + 1
          phases := (byteAt p (i + 1)).setWidth 4
          fetches := (byteAt p (i + 1)).getLsbD 4
          reads := (byteAt p (i + 1)).getLsbD 5
          writes := (byteAt p (i + 1)).getLsbD 6
          journal := (byteAt p (i + 1)).getLsbD 7
          action := action }
    else none
  | none => none

/-- The boundary of a COMMIT payload (R58 check 3): for MARK the mark address must be even. -/
def boundary? (p : List Byte) : Option Boundary :=
  match (byteAt p 0).toNat with
  | 0 => some .now
  | 1 => some .epoch
  | 2 => if (addrAt p 1).toNat % 2 = 0 then some (.mark (addrAt p 1)) else none
  | 3 => some .reset
  | _ => none

def seqMode? (b : Byte) : Option SeqMode :=
  match b.toNat with
  | 0 => some .count
  | 1 => some .syncStep
  | 2 => some .syncRestart
  | 3 => some .mark
  | _ => none

def qualifier? (b : Byte) : Option Qualifier :=
  match b.toNat with
  | 0 => some .fetchOnly
  | 1 => some .all
  | _ => none

def polarity? (b : Byte) : Option Polarity :=
  match b.toNat with
  | 0 => some .rising
  | 1 => some .falling
  | _ => none

/-- The configuration a SEQ.SET payload carries; none where R80 refuses it. -/
def seqConfig? (p : List Byte) : Option SeqConfig :=
  match seqMode? (byteAt p 2), qualifier? (byteAt p 3), polarity? (byteAt p 24) with
  | some mode, some qualifier, some polarity =>
    if 1 ≤ (byteAt p 0).toNat ∧ (byteAt p 0).toNat ≤ 4 ∧ (byteAt p 1).toNat < (byteAt p 0).toNat ∧
        (addrAt p 12).toNat % 2 = 0 ∧ (addrAt p 15).toNat % 2 = 0 ∧ (addrAt p 18).toNat % 2 = 0 ∧
        (addrAt p 21).toNat % 2 = 0 then
      some
        { phaseCount := (byteAt p 0).toNat
          initial := (byteAt p 1).setWidth 2
          mode := mode
          qualifier := qualifier
          lengths := #v[wordAt p 4, wordAt p 6, wordAt p 8, wordAt p 10]
          marks := #v[addrAt p 12, addrAt p 15, addrAt p 18, addrAt p 21]
          polarity := polarity
          filter := byteAt p 25 }
    else none
  | _, _, _ => none

def journalPolicy? (b : Byte) : Option JournalPolicy :=
  match b.toNat with
  | 0 => some .keepOldest
  | 1 => some .keepNewest
  | _ => none

/-! ## Response fields -/

def byteOf (n : Nat) : Byte := BitVec.ofNat 8 n
def wordBytes (w : Word) : List Byte := [highByte w, lowByte w]
/-- A count sent in two bytes. -/
def countBytes (n : Nat) : List Byte := wordBytes (BitVec.ofNat 16 n)
def addrBytes (a : Addr) : List Byte := [a.extractLsb' 16 8, a.extractLsb' 8 8, a.extractLsb' 0 8]
def longBytes (w : BitVec 32) : List Byte :=
  [w.extractLsb' 24 8, w.extractLsb' 16 8, w.extractLsb' 8 8, w.extractLsb' 0 8]

def Status.code : Status → Byte
  | .ok => 0x00 | .accepted => 0x01 | .none => 0x02 | .frameError => 0x03 | .unknown => 0x04 | .length => 0x05
  | .range => 0x06 | .busy => 0x07 | .frozen => 0x08 | .pending => 0x09 | .trialOpen => 0x0A | .noTrial => 0x0B
  | .notPending => 0x0C | .invalid => 0x0D | .noSpace => 0x0E | .noRun => 0x0F | .gone => 0x10 | .live => 0x11
  | .pinned => 0x12 | .notHeld => 0x13 | .fenced => 0x14 | .absent => 0x15 | .idle => 0x16

/-! Enumerated fields (R169). -/

def WritePolicy.code : WritePolicy → Byte
  | .absorb => 0 | .discard => 1 | .refuse => 2
def GuardResponse.code : GuardResponse → Byte
  | .error => 0 | .quiet => 1
def RunState.code : RunState → Byte
  | .unused => 0 | .opened => 1 | .filling => 2 | .retiring => 3
def CommitState.code : CommitState → Byte
  | .none => 0 | .pending _ => 1 | .trial _ => 2
def Boundary.code : Boundary → Byte
  | .now => 0 | .epoch => 1 | .mark _ => 2 | .reset => 3
def SeqMode.code : SeqMode → Byte
  | .count => 0 | .syncStep => 1 | .syncRestart => 2 | .mark => 3
def Qualifier.code : Qualifier → Byte
  | .fetchOnly => 0 | .all => 1
def Polarity.code : Polarity → Byte
  | .rising => 0 | .falling => 1
def Owner.code : Owner → Byte
  | .host => 1 | .capture => 2
def CaptureStatus.code : CaptureStatus → Byte
  | .none => 0 | .running => 1 | .done => 2 | .failed _ => 3 | .aborted => 4
def EndStatus.code : EndStatus → Byte
  | .done => 2 | .failed => 3 | .aborted => 4
def CaptureCause.code : CaptureCause → Byte
  | .timeout => 1 | .fenced => 2 | .absent => 3
def JournalPolicy.code : JournalPolicy → Byte
  | .keepOldest => 0 | .keepNewest => 1
def AccessKind.code : AccessKind → Byte
  | .fetch => 0 | .read => 1 | .write => 2

/-! Layouts. -/

/-- The wait override byte; absent reads 00h (R170). -/
def waitByte : Option (BitVec 5) → Byte
  | some w => byteOf (0x80 + w.toNat)
  | none => 0

/-- Byte 1 of an entry (R170). -/
def Entry.maskByte (e : Entry) : Byte :=
  byteOf (e.phases.toNat + (flagsByte [false, false, false, false, e.fetches, e.reads, e.writes, e.journal]).toNat)

def EntryAction.kindCode : EntryAction → Byte
  | .pass _ => 0 | .substitute _ _ _ => 1 | .relocate _ _ => 2 | .guard _ _ => 3

/-- Bytes 7 to 17 of an entry: the fields of its kind, the others 00h (R170). -/
def EntryAction.bytes : EntryAction → List Byte
  | .pass wait => [0, 0, 0, waitByte wait, 0, 0, 0, 0, 0, 0, 0]
  | .substitute run offset policy => [0, 0, 0, 0, byteOf run.val] ++ countBytes offset ++ [policy.code, 0, 0, 0]
  | .relocate target wait => addrBytes target ++ [waitByte wait, 0, 0, 0, 0, 0, 0, 0]
  | .guard response fill => [0, 0, 0, 0, 0, 0, 0, 0, response.code] ++ wordBytes fill

/-- The 18 bytes of an entry (R170). -/
def Entry.bytes (e : Entry) : List Byte :=
  [e.action.kindCode, e.maskByte] ++ addrBytes e.base ++ countBytes (e.length - 1) ++ e.action.bytes

/-- A slot in MAP.READ: occupied, and the entry or 18 bytes 00h (R170). -/
def slotBytes : Option Entry → List Byte
  | some e => 1 :: e.bytes
  | none => 0 :: List.replicate 18 0

/-- The 26 configuration bytes of SEQ.SET and SEQ.STATUS (R167). -/
def SeqConfig.bytes (c : SeqConfig) : List Byte :=
  [byteOf c.phaseCount, byteOf c.initial.toNat, c.mode.code, c.qualifier.code]
    ++ wordBytes c.lengths[0] ++ wordBytes c.lengths[1] ++ wordBytes c.lengths[2] ++ wordBytes c.lengths[3]
    ++ addrBytes c.marks[0] ++ addrBytes c.marks[1] ++ addrBytes c.marks[2] ++ addrBytes c.marks[3]
    ++ [c.polarity.code, c.filter]

/-- The 7 bytes of a device record (R169). -/
def Device.bytes (d : Device) : List Byte :=
  match d.state with
  | .absent => [0, byteOf d.wait.toNat, flagByte d.mwait, 0, 0, 0, 0]
  | .online => [1, byteOf d.wait.toNat, flagByte d.mwait, 0, 0, 0, 0]
  | .fenced addr owner => [2, byteOf d.wait.toNat, flagByte d.mwait, owner.code] ++ addrBytes addr

/-- The port owner (R108), as the access on the port gives it. -/
def Mpc.owner (m : Mpc) : Option Owner := m.access.map PortAccess.owner

def ownerByte : Option Owner → Byte
  | none => 0
  | some o => o.code

/-- The detail bytes of a notice before the padding (R172). -/
def Detail.fields : Detail → List Byte
  | .restarted .pin => [0]
  | .restarted .soft => [1]
  | .committed g b => wordBytes g ++ [b.code]
  | .reverted g r .command => wordBytes g ++ wordBytes r ++ [0]
  | .reverted g r .hostReset => wordBytes g ++ wordBytes r ++ [1]
  | .confirmed g .command => wordBytes g ++ [0]
  | .confirmed g .window => wordBytes g ++ [1]
  | .epoch n => longBytes n
  | .overrun p => [byteOf p.toNat]
  | .hostReset => []
  | .hostHeld a k => addrBytes (byteAddr a) ++ [k.code]
  | .deviceFenced d a o => [byteOf d.val] ++ addrBytes a ++ [o.code]
  | .captureEnded r st w => [byteOf r.val, st.code] ++ countBytes w
  | .journalHigh c => [byteOf c]
  | .journalLoss w => wordBytes w
  | .guardHit sl a k => [(match sl with | some i => byteOf i.val | none => 0xFF#8)] ++ addrBytes (byteAddr a) ++ [k.code]

/-- Bytes up to a length, 00h in the positions beyond. -/
def padTo (n : Nat) (l : List Byte) : List Byte := l ++ List.replicate (n - l.length) 0

/-- The 7 bytes of a notice (R172). -/
def Notice.bytes (n : Notice) : List Byte := [byteOf n.code, byteOf n.count] ++ padTo 5 n.detail.fields

def WriteOutcome.code : WriteOutcome → Nat
  | .written => 0 | .absorbed => 1 | .relocated => 2 | .discarded => 3 | .refused => 4 | .failed => 5

def Lanes.code : Lanes → Nat
  | .low => 1 | .high => 2 | .both => 3

/-- One record of a JOURNAL.READ answer after the record carried before it, if any (R171). -/
def JournalRecord.bytes (prev : Option JournalRecord) (r : JournalRecord) : List Byte :=
  let seqSent := match prev with
    | some q => r.sequence != q.sequence + 1
    | none => true
  let genSent := match prev with
    | some q => r.generation != q.generation
    | none => true
  [byteOf (128 * seqSent.toNat + 64 * genSent.toNat + 32 * r.slot.isSome.toNat + 16 * r.target.isSome.toNat
      + 4 * r.lanes.code + r.phase.toNat)]
    ++ (if seqSent then wordBytes r.sequence else [])
    ++ (if genSent then wordBytes r.generation else [])
    ++ [byteOf (8 * (match r.slot with | some i => i.val | none => 0) + r.outcome.code)]
    ++ addrBytes (byteAddr r.addr) ++ wordBytes r.data
    ++ (match r.target with | some t => addrBytes (byteAddr t) | none => [])

/-- The records a JOURNAL.READ carries, oldest first, while the next one fits in the room left (R171): how many and
their bytes. -/
def packRecords (prev : Option JournalRecord) (room : Nat) : Nat → List JournalRecord → Nat × List Byte
  | 0, _ => (0, [])
  | _, [] => (0, [])
  | n + 1, r :: rs =>
    if (r.bytes prev).length ≤ room then
      let rest := packRecords (some r) (room - (r.bytes prev).length) n rs
      (rest.1 + 1, r.bytes prev ++ rest.2)
    else (0, [])

end Sys2Proof.Machine
end

