-- ==== Sys2Proof/Machine/Management.lean ====
section
/-! DEFINITION. How a command frame meets this unit (spec/10_management_port.md R161 to R168, R174, R176): addressing,
broadcast, the soft-reset interval, the LENGTH check, and the response buffer. -/

namespace Sys2Proof.Machine

/-- What a command does when it is handed to its owning block: the state after it and its answer. A refusal leaves the
state as it was. -/
structure Reply where
  state : State
  status : Status
  payload : List Byte

/-- A refusal: nothing changes, payload length 0 (R168). -/
def State.refuse (s : State) (status : Status) : Reply := ⟨s, status, []⟩

/-- The response buffer replaced (R165). -/
def State.store (s : State) (tag : Byte) (status : Status) (payload : List Byte) : State :=
  { s with mpu := { s.mpu with buffer := ⟨tag, status, payload⟩ } }

def Reply.stored (r : Reply) (tag : Byte) : State := r.state.store tag r.status r.payload

/-- The unit field of a broadcast (R161). -/
def broadcastUnit : BitVec 3 := 7#3

/-- Whether a unit field is this unit's alone (R161). -/
def State.isUnit (s : State) (u : BitVec 3) : Bool := u == s.straps.unit.setWidth 3

/-- A transaction row is a whole transaction, from a falling edge of MCS_N to its rising edge: MCS_N is high once it has
come, whatever went on before its falling edge (R160, R176, log 5). -/
def State.mcsHigh (s : State) : State :=
  { s with
    pins := { s.pins with spi := { s.pins.spi with mcs := false } }
    mpu := { s.mpu with port := .idle } }

/-- Whether a broadcast is executed in this unit: RESET_N is negated (R176), and no soft reset waits (R166, R174). -/
def State.takesBroadcast (s : State) : Bool := !s.pins.resetN && s.mpu.softReset.isNone

/-- A good frame of a defined command in a state that follows the bus: ignored, answered BUSY, refused LENGTH, or handed
to its block (R161, R164 to R167, R174). `broadcast` says whether the command is broadcast-capable, `lengthOk` whether
L is the request length. -/
def State.handle (s : State) (f : Frame) (broadcast lengthOk : Bool) (reply : State → Reply) : State :=
  if f.unit = broadcastUnit then
    if s.mpu.softReset.isNone && broadcast && lengthOk then (reply s).state else s
  else if s.isUnit f.unit then
    if s.mpu.softReset.isSome then s.store f.tag .busy []
    else if lengthOk then (reply s).stored f.tag
    else s.store f.tag .length []
  else s

/-- A transaction with a good frame of a defined command. While RESET_N is asserted nothing is sampled (R176). -/
def State.receive (s : State) (f : Frame) (broadcast lengthOk : Bool) (reply : State → Reply) : State :=
  if s.pins.resetN then s else s.mcsHigh.handle f broadcast lengthOk reply

/-- The payload length is the request length (R167). -/
def payloadIs (f : Frame) (n : Nat) : Bool := f.payload.length == n

end Sys2Proof.Machine
end

