-- ==== Sys2Proof/Machine/Transactions.lean ====
section
/-! DEFINITION. The transactions that carry no defined command: frame errors, unknown codes, response reads
(spec/10_management_port.md R163, R165, R167). -/

namespace Sys2Proof.Machine

/-- A command transaction that is no good frame (R161, R163, R166): addressed to this unit alone, FRAME_ERROR is stored with
byte 1 as tag, 00h when it was not complete, in a soft-reset interval too (R174). -/
def State.frameError (s : State) (bytes : List Byte) (extra : BitVec 3) : State :=
  match bytes with
  | [] => s
  | h :: rest =>
    if headerIsCommand h && s.isUnit (headerUnit h) && !goodFrame bytes extra then
      s.store (rest.getD 0 0#8) .frameError []
    else s

def execFrameError (bytes : List Byte) (extra : BitVec 3) (s : State) : Host.Outcome State Fault Refusal :=
  .next (if s.pins.resetN then s else s.mcsHigh.frameError bytes extra)

/-- A good frame whose code is not defined (R167): UNKNOWN, but BUSY in a soft-reset interval (R174); a broadcast is
ignored (R166). -/
def State.unknownCommand (s : State) (f : Frame) (code : Byte) : State :=
  if !codeDefined code && s.isUnit f.unit then
    if s.mpu.softReset.isSome then s.store f.tag .busy [] else s.store f.tag .unknown []
  else s

def execUnknownCommand (f : Frame) (code : Byte) (s : State) : Host.Outcome State Fault Refusal :=
  .next (if s.pins.resetN then s else s.mcsHigh.unknownCommand f code)

/-- The bytes of a response before its CRC (R165). -/
def Response.body (r : Response) : List Byte := [r.tag, r.status.code, byteOf r.payload.length] ++ r.payload

/-- The bytes a response read drives (R165). -/
def Response.bytes (r : Response) : List Byte := r.body ++ [crc8 r.body]

/-- The bits of a copy of the response, in the order in which they are driven (R160, R165). -/
def Response.bits (r : Response) : List Bool := r.bytes.flatMap bitsMsbFirst

/-- The bits on MDO in the MCK periods after the header: the response, and 1 beyond its CRC (R160, R165). -/
def Response.drive (r : Response) (clocks : Nat) : List Bool := (r.bits ++ List.replicate clocks true).take clocks

/-- Whether a header is that of a response read which this unit answers: addressed to this unit alone, with the valid marker
(R161, R165, R166). -/
def State.answers (s : State) (header : Byte) : Bool :=
  !headerIsCommand header && s.isUnit (headerUnit header) && headerMarker header == marker

/-- A response read as its header has been sampled (R161, R165): the copy of the buffer is taken at this moment and decides
every bit driven on MDO in the `clocks` MCK periods that follow; when this unit does not answer, MDO stays
high-impedance. -/
def State.responseRead (s : State) (header : Byte) (clocks : Nat) : State :=
  { s with mpu := { s.mpu with mdo := if s.answers header then s.mpu.buffer.drive clocks else [] } }

def execResponseRead (header : Byte) (clocks : Nat) (s : State) : Host.Outcome State Fault Refusal :=
  .next (if s.pins.resetN then s else s.mcsHigh.responseRead header clocks)

end Sys2Proof.Machine
end

