-- ==== Sys2Proof/Machine/Serial.lean ====
section
/-! DEFINITION. The management port at its lines (spec/10_management_port.md R160, R161, R165, R176): what the MPU does at
the edges of MCS_N and MCK. MCK runs at most at a quarter of CLK (spec/00_scope.md), so that each of its levels stands
in some CLK period. -/

namespace Sys2Proof.Machine

/-- The transaction in progress replaced. -/
def State.setPort (s : State) (p : SpiPort) : State := { s with mpu := { s.mpu with port := p } }

/-- A falling edge of MCS_N begins a transaction (R160). -/
def State.mcsFalls (s : State) : State := s.setPort (.receiving [])

/-- A rising edge of MCS_N ends the transaction (R160, R164): a command transaction that may concern this unit becomes the
next command to be executed; MDO returns to high impedance; after a release of RESET_N with MCS_N low, transactions are
taken from now on (R176). -/
def State.mcsRises (s : State) : State :=
  match s.mpu.port with
  | .receiving bits => { s.setPort .idle with pending := (decodeBits bits).toList ++ s.pending }
  | _ => s.setPort .idle

/-- The header has been sampled: it shows whether the transaction concerns this unit (R161). For a response read that this
unit answers, the copy of the buffer is taken now (R165). -/
def State.headerSampled (s : State) (header : Byte) (bits : List Bool) : State :=
  if headerIsCommand header then
    s.setPort (if s.isUnit (headerUnit header) || headerUnit header == broadcastUnit then .receiving bits else .ignoring)
  else
    { s with mpu := { s.mpu with
      port := if s.answers header then .answering s.mpu.buffer.bits else .ignoring
      mdo := [] } }

/-- A rising edge of MCK in a transaction samples MDI (R160). The eighth bit completes the header. -/
def State.mckRises (s : State) : State :=
  match s.mpu.port with
  | .receiving bits =>
    match bytesOfBits (bits ++ [s.pins.spi.mdi]), bits.length with
    | [header], 7 => s.headerSampled header (bits ++ [s.pins.spi.mdi])
    | _, _ => s.setPort (.receiving (bits ++ [s.pins.spi.mdi]))
  | _ => s

/-- A falling edge of MCK in an answered response read places the next bit on MDO: of the copy, and 1 beyond it (R160,
R165). -/
def State.mckFalls (s : State) : State :=
  match s.mpu.port with
  | .answering left =>
    { s with mpu := { s.mpu with port := .answering left.tail, mdo := s.mpu.mdo ++ [left.headD true] } }
  | _ => s

/-- The lines of the management port change to the levels now on the pins, from the levels `before` (R160). MCK edges while
MCS_N is high are not sampled. An edge of MCS_N is taken alone: MCK stands low at it (the note of R160; DESIGN CHOICE
where it does not, log 5). -/
def State.spiEdges (s : State) (before : SpiLines) : State :=
  if s.pins.spi.mcs && !before.mcs then s.mcsFalls
  else if !s.pins.spi.mcs && before.mcs then s.mcsRises
  else if !s.pins.spi.mcs then s
  else if s.pins.spi.mck && !before.mck then s.mckRises
  else if !s.pins.spi.mck && before.mck then s.mckFalls
  else s

end Sys2Proof.Machine
end

