-- ==== Sys2Proof/Machine/Clock.lean ====
section
/-! DEFINITION. One CLK period, which a step on an empty queue takes (DESIGN CHOICE, log 1): the EPOCH filter (R90), the
strobe on the memory port (R101, R102) and its timeout (R104), and then the change of the input levels. -/

namespace Sys2Proof.Machine

/-- Whether the strobe's period `n` is its last by R101 and R102: the 2 + W periods are over, and MWAIT_N, where honoured,
is negated. -/
def PortAccess.completesAt (p : PortAccess) (n : Nat) (mwait : Bool) : Bool :=
  decide (2 + p.wait.toNat ≤ n) && !(p.mwait && mwait)

/-- Whether the strobe has been asserted for 64 × T periods at its period `n` (R104). -/
def PortAccess.lateAt (p : PortAccess) (n : Nat) : Bool := p.canTimeOut && decide (64 * p.timeout.toNat ≤ n)

/-- One CLK period of the strobe on the memory port (R101, R102, R104). Completion and timeout in one period: either may be
taken first, by the free value. -/
def State.portPeriod (s : State) : State :=
  match s.mpc.access with
  | none => s
  | some p =>
    if p.completesAt (p.elapsed + 1) s.pins.mwait && !(p.lateAt (p.elapsed + 1) && Config.timeoutFirst s.freeIndex) then
      (s.completionMoment s.pins.md).finish
    else if p.lateAt (p.elapsed + 1) then s.timeoutMoment.finish
    else { s with mpc := { s.mpc with access := some { p with elapsed := p.elapsed + 1 } } }

/-- The pins with the levels of the next script entry. -/
def Pins.take (p : Pins) (x : ClockSample) (rest : List ClockSample) : Pins :=
  { p with epoch := x.epoch, mwait := x.mwait, md := x.md, spi := x.spi, script := rest }

/-- The clocked inputs change to the levels of the next script entry; with an empty script they keep theirs (log 10). The MPU
follows the edges on its lines as they happen (R160), but samples nothing while RESET_N is asserted (R176). A change of
the EPOCH input stands on its pin and is accepted by the filter in the CLK period that follows (R90): a SEQ.SET taken
between the two samples the changed level (R80). -/
def State.levelsChange (s : State) : State :=
  match s.pins.script with
  | [] => s
  | x :: rest =>
    if s.pins.resetN then { s with pins := s.pins.take x rest }
    else { s with pins := s.pins.take x rest }.spiEdges s.pins.spi

/-- What the filter and the memory port do in a CLK period, in the order of the free value (log 9); while RESET_N is asserted
neither runs. -/
def State.countPeriod (s : State) : State :=
  let s1 := { s with freeIndex := s.freeIndex + 1 }
  if s.pins.resetN then s1
  else if Config.epochFirst s.freeIndex then s1.filterPeriod.portPeriod
  else s1.portPeriod.filterPeriod

/-- One CLK period: what is counted in it, and the change of the levels at its end. -/
def State.clockPeriod (s : State) : State := s.countPeriod.levelsChange

end Sys2Proof.Machine
end

