-- ==== Sys2Proof/Machine/CaptureCommands.lean ====
section
/-! DEFINITION. CAPTURE.START, CAPTURE.ABORT and CAPTURE.STATUS (spec/07_capture_engine.md R119, R120, R128, R130). -/

namespace Sys2Proof.Machine

/-- The source window's device. -/
def sourceDevice (source : Addr) : Fin 4 := deviceOf (wordAddr source.toNat)

/-- Check 1 of R119. Payload: run id, run offset (2), source (3), length (2). -/
def captureJob? (p : List Byte) : Option CaptureJob :=
  match index32 (byteAt p 0) with
  | none => none
  | some r =>
    if (wordAt p 1).toNat ≤ 511 ∧ 1 ≤ (wordAt p 6).toNat ∧ (wordAt p 6).toNat ≤ 512 ∧ aligned (addrAt p 3) ∧
        oneWindow (addrAt p 3).toNat (wordAt p 6).toNat then
      some ⟨r, (wordAt p 1).toNat, addrAt p 3, (wordAt p 6).toNat⟩
    else none

/-- Checks 2 to 9 of R119: the refusal, if one applies. -/
def State.captureRefusal (s : State) (j : CaptureJob) : Option Status :=
  if s.capture.status = .running then some .busy
  else
    match s.overlay.runs[j.run].state with
    | .unused => some .noRun
    | .retiring => some .gone
    | _ =>
      if s.live j.run then some .live
      else if s.pinned j.run then some .pinned
      else if s.overlay.runs[j.run].capacity < j.offset + j.length then some .range
      else
        match s.mpc.devices[sourceDevice j.source].state with
        | .fenced _ _ => some .fenced
        | .absent => some .absent
        | .online => none

/-- Steps 1 to 3 of R120, before the arbiter acts on the request. -/
def State.captureAccepted (s : State) (j : CaptureJob) : State :=
  { s with
    overlay := s.overlay.setState j.run .filling
    capture := ⟨.running, some j, 0, false⟩
    mpc := { s.mpc with captureRequest := true } }

/-- R119, R120: the request for word 0 is granted at once on a free port (R110). -/
def captureStartReply (p : List Byte) (s : State) : Reply :=
  match captureJob? p with
  | none => s.refuse .range
  | some j =>
    match s.captureRefusal j with
    | some refusal => s.refuse refusal
    | none =>
      ⟨Moment.finish (s.captureAccepted j).arbitrate, .accepted, byteAt p 0 :: countBytes (8 * j.length)⟩

def execCaptureStart (f : Frame) (s : State) : Host.Outcome State Fault Refusal :=
  .next (s.receive f false (payloadIs f 8) (captureStartReply f.payload))

/-- CAPTURE.ABORT's answer: words done (R128). -/
def abortAnswer (s : State) : Reply := ⟨s, .ok, countBytes s.capture.wordsDone⟩

/-- R128: a waiting request is removed and the capture ends at once; otherwise the abort waits for the word on the
port. -/
def captureAbortReply (s : State) : Reply :=
  match s.capture.status, s.capture.job with
  | .running, some j =>
    if s.mpc.captureRequest then abortAnswer (s.captureEnd j .aborted)
    else abortAnswer { s with capture := { s.capture with abortPending := true } }
  | _, _ => s.refuse .idle

def execCaptureAbort (f : Frame) (s : State) : Host.Outcome State Fault Refusal :=
  .next (s.receive f false (payloadIs f 0) captureAbortReply)

/-- The cause byte: 0 unless FAILED (R169). -/
def causeByte : CaptureStatus → Byte
  | .failed c => c.code
  | _ => 0

/-- R130. -/
def captureStatusReply (s : State) : Reply :=
  let job := match s.capture.job with
    | some j => [byteOf j.run.val] ++ countBytes j.offset ++ addrBytes j.source ++ countBytes j.length
    | none => List.replicate 8 0
  let total := match s.capture.job with
    | some j => 8 * j.length
    | none => 0
  ⟨s, .ok, [s.capture.status.code] ++ job ++ countBytes s.capture.wordsDone ++ countBytes total
    ++ [flagByte s.capture.abortPending, causeByte s.capture.status]⟩

def execCaptureStatus (f : Frame) (s : State) : Host.Outcome State Fault Refusal :=
  .next (s.receive f false (payloadIs f 0) captureStatusReply)

end Sys2Proof.Machine
end

