-- ==== Sys2Proof/Machine/DevCommands.lean ====
section
/-! DEFINITION. DEV.SET, DEV.RESTORE, DEV.STATUS, PORT.SET and the memory port's events
(spec/06_memory_port_and_backing_devices.md). -/

namespace Sys2Proof.Machine

/-- The presence acting on a device's state (R113). -/
def DeviceState.withPresence (st : DeviceState) (present : Bool) : DeviceState :=
  match st, present with
  | _, false => .absent
  | .online, true => .online
  | .absent, true => .online
  | .fenced a o, true => .fenced a o

/-- A device record replaced. -/
def State.setDevice (s : State) (d : Fin 4) (r : Device) : State :=
  { s with mpc := { s.mpc with devices := s.mpc.devices.set d.val r } }

/-- The device record DEV.SET leaves (R113). -/
def Device.set (r : Device) (present : Bool) (wait : BitVec 5) (mwait : Bool) : Device :=
  ⟨r.state.withPresence present, wait, mwait⟩

/-- R113. Payload: device, presence, wait, MWAIT flag. -/
def devSetReply (p : List Byte) (s : State) : Reply :=
  match index4 (byteAt p 0), flag? (byteAt p 1), flag? (byteAt p 3) with
  | some d, some present, some mwait =>
    if (byteAt p 2).toNat ≤ 31 then
      ⟨s.setDevice d (s.mpc.devices[d].set present ((byteAt p 2).setWidth 5) mwait), .ok,
        byteAt p 0 :: (s.mpc.devices[d].set present ((byteAt p 2).setWidth 5) mwait).bytes⟩
    else s.refuse .range
  | _, _, _ => s.refuse .range

def execDevSet (f : Frame) (s : State) : Host.Outcome State Fault Refusal :=
  .next (s.receive f false (payloadIs f 4) (devSetReply f.payload))

/-- R114. Payload: device. -/
def devRestoreReply (p : List Byte) (s : State) : Reply :=
  match index4 (byteAt p 0) with
  | none => s.refuse .range
  | some d =>
    match s.mpc.devices[d].state with
    | .fenced _ _ => ⟨s.setDevice d { s.mpc.devices[d] with state := .online }, .ok, []⟩
    | .online => ⟨s, .ok, []⟩
    | .absent => s.refuse .absent

def execDevRestore (f : Frame) (s : State) : Host.Outcome State Fault Refusal :=
  .next (s.receive f false (payloadIs f 1) (devRestoreReply f.payload))

/-- R116. -/
def devStatusReply (s : State) : Reply :=
  ⟨s, .ok, s.mpc.devices[0].bytes ++ s.mpc.devices[1].bytes ++ s.mpc.devices[2].bytes ++ s.mpc.devices[3].bytes
    ++ [s.mpc.timeout, byteOf s.mpc.share, ownerByte s.mpc.owner, s.mpc.requestFlags, byteOf s.mpc.passOver]⟩

def execDevStatus (f : Frame) (s : State) : Host.Outcome State Fault Refusal :=
  .next (s.receive f false (payloadIs f 0) devStatusReply)

/-- R115. Payload: timeout, share. -/
def portSetReply (p : List Byte) (s : State) : Reply :=
  if (byteAt p 1).toNat = 0 ∨ 16 < (byteAt p 1).toNat then s.refuse .range
  else ⟨{ s with mpc := { s.mpc with timeout := byteAt p 0, share := (byteAt p 1).toNat } }, .ok, []⟩

def execPortSet (f : Frame) (s : State) : Host.Outcome State Fault Refusal :=
  .next (s.receive f false (payloadIs f 2) (portSetReply f.payload))

/-- R110, R111: the arbiter's grant on a free port. The steps that free the port or place a request make the grant
themselves (log 4). -/
def execArbiterGrant (s : State) : Host.Outcome State Fault Refusal := .next (Moment.finish s.arbitrate)

/-- R103. -/
def execMemoryAccessCompletes (md : Word) (s : State) : Host.Outcome State Fault Refusal :=
  .next (s.completionMoment md).finish

/-- R105. -/
def execAccessTimeout (s : State) : Host.Outcome State Fault Refusal := .next s.timeoutMoment.finish

end Sys2Proof.Machine
end

