-- ==== Sys2Proof/Machine/GenCommands.lean ====
section
/-! DEFINITION. COMMIT, COMMIT.CANCEL, TRIAL.CONFIRM, TRIAL.REVERT and GEN.STATUS
(spec/04_generations_commit_and_trial.md R58 to R76). -/

namespace Sys2Proof.Machine

/-- The lowest slot of Staged naming a FILLING run (R58 check 4). -/
def State.fillingSlot (s : State) : Option (Fin 32) :=
  (List.finRange 32).find? fun i =>
    s.maps.staged[i].any fun e =>
      match e.action with
      | .substitute run _ _ => s.overlay.runs[run].state == .filling
      | _ => false

/-- A COMMIT accepted (R59, R60). -/
def State.acceptCommit (s : State) (p : PendingCommit) : State :=
  if p.boundary = .now then
    if s.inFlight then { s with gen := { s.gen with commit := .pending { p with due := true } } } else s.takeEffect p
  else { s with gen := { s.gen with commit := .pending p } }

/-- The answer of an accepted COMMIT: commit state and generation as they stand once it has executed (R59). -/
def commitAnswer (s : State) : Reply := ⟨s, .ok, s.gen.commit.code :: wordBytes s.gen.generation⟩

/-- R58 to R60. Payload: boundary, mark address (3), trial flag, trial window. -/
def commitReply (p : List Byte) (s : State) : Reply :=
  match s.gen.commit with
  | .pending _ => s.refuse .pending
  | .trial _ => s.refuse .trialOpen
  | .none =>
    match boundary? p, flag? (byteAt p 4) with
    | some boundary, some trial =>
      match s.fillingSlot with
      | some i => ⟨s, .invalid, [byteOf i.val]⟩
      | none => commitAnswer (s.acceptCommit ⟨boundary, trial, byteAt p 5, false⟩)
    | _, _ => s.refuse .range

def execCommit (f : Frame) (s : State) : Host.Outcome State Fault Refusal :=
  .next (s.receive f true (payloadIs f 6) (commitReply f.payload))

/-- R67. -/
def commitCancelReply (s : State) : Reply :=
  match s.gen.commit with
  | .pending p =>
    if p.due then s.refuse .notPending else ⟨{ s with gen := { s.gen with commit := .none } }, .ok, []⟩
  | _ => s.refuse .notPending

def execCommitCancel (f : Frame) (s : State) : Host.Outcome State Fault Refusal :=
  .next (s.receive f true (payloadIs f 0) commitCancelReply)

/-- The answer of a confirm or revert taken: the generation number as it then stands (R70, R71). -/
def generationAnswer (s : State) : Reply := ⟨s, .ok, wordBytes s.gen.generation⟩

/-- R70. -/
def trialConfirmReply (s : State) : Reply :=
  match s.gen.commit with
  | .trial t => if t.revertDue then s.refuse .noTrial else generationAnswer (s.confirm .command)
  | _ => s.refuse .noTrial

def execTrialConfirm (f : Frame) (s : State) : Host.Outcome State Fault Refusal :=
  .next (s.receive f true (payloadIs f 0) trialConfirmReply)

/-- A trial whose window is disarmed and whose revert waits (R71). -/
def Trial.reverting (t : Trial) : Trial := { t with armed := false, windowRemaining := 0#8, revertDue := true }

/-- R71. -/
def trialRevertReply (s : State) : Reply :=
  match s.gen.commit with
  | .trial t =>
    if t.revertDue then s.refuse .noTrial
    else if s.inFlight then generationAnswer { s with gen := { s.gen with commit := .trial t.reverting } }
    else generationAnswer (s.revert t .command)
  | _ => s.refuse .noTrial

def execTrialRevert (f : Frame) (s : State) : Host.Outcome State Fault Refusal :=
  .next (s.receive f true (payloadIs f 0) trialRevertReply)

/-- The mark address a boundary reports: absent, 000000h, but for MARK (R76). -/
def Boundary.markAddr : Boundary → Addr
  | .mark a => a
  | _ => 0#24

/-- The state-dependent 13 bytes of GEN.STATUS; fields of a state not current read 00h (R76, R167). -/
def CommitState.bytes : CommitState → List Byte
  | .none => List.replicate 13 0
  | .pending p =>
    [p.boundary.code] ++ addrBytes p.boundary.markAddr ++ [flagByte p.trial, p.window, flagByte p.due]
      ++ List.replicate 6 0
  | .trial t =>
    List.replicate 7 0 ++ [t.windowLoaded, t.windowRemaining, flagByte t.armed] ++ wordBytes t.fallbackGeneration
      ++ [flagByte t.revertDue]

/-- R76. -/
def genStatusReply (s : State) : Reply :=
  ⟨s, .ok, s.gen.commit.code :: wordBytes s.gen.generation ++ s.gen.commit.bytes⟩

def execGenStatus (f : Frame) (s : State) : Host.Outcome State Fault Refusal :=
  .next (s.receive f false (payloadIs f 0) genStatusReply)

end Sys2Proof.Machine
end

