-- ==== Sys2Proof/Machine/HostPort.lean ====
section
/-! DEFINITION. The host port's commands and events: HOST.RELEASE, LOCKDOWN.CLEAR, strobes, and HRST_N
(spec/02_host_accesses.md). -/

namespace Sys2Proof.Machine

/-- R34: OK in every case. -/
def hostReleaseReply (s : State) : Reply := ⟨s.releaseMoment.finish, .ok, []⟩

def execHostRelease (f : Frame) (s : State) : Host.Outcome State Fault Refusal :=
  .next (s.receive f true (payloadIs f 0) hostReleaseReply)

/-- R35: OK, whether lockdown was in force or not. -/
def lockdownClearReply (s : State) : Reply := ⟨{ s with hau := { s.hau with lockdown := false } }, .ok, []⟩

def execLockdownClear (f : Frame) (s : State) : Host.Outcome State Fault Refusal :=
  .next (s.receive f false (payloadIs f 0) lockdownClearReply)

/-- R22 to R29. -/
def execAccessArrives (p : HostPins) (s : State) : Host.Outcome State Fault Refusal :=
  .next (s.arrivalMoment p).finish

/-- The pins after the host negates strobes. -/
def Pins.negateStrobes (p : Pins) (rd wr : Bool) : Pins := { p with rd := p.rd && !rd, wr := p.wr && !wr }

/-- The host negates strobes (R22, R31): in ENDED the response is negated and the unit returns to IDLE once the access's
own strobe is negated; in any other state the recorded access and its course stand. -/
def State.negateStrobes (s : State) (rd wr : Bool) : State :=
  let pins := s.pins.negateStrobes rd wr
  match s.hau.state, s.hau.access with
  | .ended, some a =>
    if pins.holdsStrobe a then { s with pins := pins } else { s with pins := pins, hau := s.hau.toIdle }
  | _, _ => { s with pins := pins }

def execHostStrobeNegated (rd wr : Bool) (s : State) : Host.Outcome State Fault Refusal :=
  .next (s.negateStrobes rd wr)

/-- The HAU at a host reset event (R36): the access is abandoned, its arbiter request withdrawn, and an access on the port
left to run on with its result discarded. -/
def State.abandon (s : State) : State :=
  match s.hau.state with
  | .idle => s
  | .held | .deciding | .overlay | .immediate | .ended => { s with hau := s.hau.toIdle }
  | .grant => { s with hau := s.hau.toIdle, mpc := { s.mpc with hostRequest := false } }
  | .device =>
    { s with
      hau := s.hau.toIdle
      mpc := { s.mpc with access := s.mpc.access.map fun p => if p.owner = .host then { p with abandoned := true } else p } }

/-- A host reset event (R36, R74, R95, R159, R175): abandonment, the sequencer's restart, HOST_RESET, Generation Control, and
then a soft reset that waited for the abandoned access. -/
def State.hostReset (s : State) : State :=
  let s1 := { s with pins := { s.pins with hrst := true } }.abandon
  let s2 := ({ s1 with seq := s1.seq.restart }.post .hostReset).changeAtHostReset
  if s.inFlight then s2.softResetIfDue else s2

/-- An assertion of HRST_N. Already asserted, it is no event (R37); while RESET_N is asserted only the pin changes
(R37). -/
def State.hrstAsserted (s : State) : State :=
  if s.pins.resetN then { s with pins := { s.pins with hrst := true } }
  else if s.pins.hrst then s
  else s.hostReset

def execHostResetEvent (s : State) : Host.Outcome State Fault Refusal := .next s.hrstAsserted

/-- R37: strobes asserted from now on may arrive as accesses. -/
def execHrstNNegated (s : State) : Host.Outcome State Fault Refusal :=
  .next { s with pins := { s.pins with hrst := false } }

end Sys2Proof.Machine
end

