-- ==== Sys2Proof/Machine/SeqCommands.lean ====
section
/-! DEFINITION. SEQ.SET, SEQ.RESTART, SEQ.STATUS and the EPOCH input's events (spec/05_phase_sequencer_and_epochs.md). -/

namespace Sys2Proof.Machine

/-- R80: the new configuration, a restart, and the accepted level sampled from the pin. A changed level that the filter has not
accepted yet is sampled with it and makes no edge. -/
def seqSetReply (p : List Byte) (s : State) : Reply :=
  match seqConfig? p with
  | some c => ⟨{ s with seq := ({ s.seq with config := c }.restart).sample s.pins.epoch }, .ok, []⟩
  | none => s.refuse .range

def execSeqSet (f : Frame) (s : State) : Host.Outcome State Fault Refusal :=
  .next (s.receive f false (payloadIs f 26) (seqSetReply f.payload))

/-- A SEQ.RESTART taken makes an epoch boundary in any mode (R84, R93). -/
def State.seqRestart (s : State) : State := s.seqNews (s.seq.boundary, { boundary := true })

/-- R93: the answer carries the new epoch number. -/
def seqRestartReply (s : State) : Reply := ⟨s.seqRestart, .ok, longBytes s.seqRestart.seq.epochNumber⟩

def execSeqRestart (f : Frame) (s : State) : Host.Outcome State Fault Refusal :=
  .next (s.receive f true (payloadIs f 0) seqRestartReply)

/-- R94. -/
def seqStatusReply (s : State) : Reply :=
  ⟨s, .ok, s.seq.config.bytes ++ [byteOf s.seq.phase.toNat] ++ wordBytes s.seq.counter ++ longBytes s.seq.epochAccesses
    ++ longBytes s.seq.epochNumber ++ [s.seq.flags]⟩

def execSeqStatus (f : Frame) (s : State) : Host.Outcome State Fault Refusal :=
  .next (s.receive f false (payloadIs f 0) seqStatusReply)

/-- R90, R91: the input stands at the level other than the accepted one, long enough for the filter; the row is the acceptance
of a change that stands on the pin, or of one that comes after the commands in front of it (log 1). While RESET_N is
asserted no transition is accepted. -/
def execEpochTransitionAccepted (s : State) : Host.Outcome State Fault Refusal :=
  .next (if s.pins.resetN then s else s.acceptTransition)

/-- R90: with a filter setting of 1 to 255 the input returns to the accepted level and the pending count to 0. With filter
0 there is no such event. -/
def execEpochPulseDiscarded (s : State) : Host.Outcome State Fault Refusal :=
  .next (if s.pins.resetN || s.seq.config.filter == 0#8 then s
    else { s with pins := { s.pins with epoch := s.seq.accepted }, seq := { s.seq with filterCount := 0 } })

end Sys2Proof.Machine
end

