-- ==== Sys2Proof/Machine/InnerSteps.lean ====
section
/-! DEFINITION. The rows of the table that come about inside another event (spec/95_what_each_step_holds.md, log 3):
each is that event, whole, where it brings the row's step about; where it does not, there is no such event (log 2). -/

namespace Sys2Proof.Machine

/-- The moment an event reaches before the hand-offs of an access end, for the events that can end one. -/
def State.momentOf (s : State) : Cause → Moment
  | .arrival p => s.arrivalMoment p
  | .release => if s.takesBroadcast then s.mcsHigh.releaseMoment else (s, none)
  | .completion md => s.completionMoment md
  | .timeout => s.timeoutMoment
  | .grant => s.arbitrate
  | .transition => (s, none)
  | .restart => (s, none)
  | .hostReset => (s, none)

/-- The whole of an event. -/
def State.bringAbout (s : State) (c : Cause) : State :=
  match c with
  | .transition => if s.pins.resetN then s else s.acceptTransition
  | .restart => if s.takesBroadcast then s.mcsHigh.seqRestart else s
  | .hostReset => s.hrstAsserted
  | _ => (s.momentOf c).finish

/-- The event, if it brings the step about. -/
def State.bringAboutIf (s : State) (c : Cause) (b : Bool) : State := if b then s.bringAbout c else s

/-- Whether the access that the event ends, if it ends one, satisfies a condition on the state before the hand-offs. -/
def State.endsWith (s : State) (c : Cause) (test : State → Access → Bool) : Bool :=
  (s.momentOf c).2.isSome && (s.momentOf c).1.hau.access.any (test (s.momentOf c).1)

/-- R175: an access end, or a host reset event that abandons the access in flight, while a soft reset waits. -/
def State.resetsSoftly (s : State) (c : Cause) : Bool :=
  s.mpu.softReset.isSome &&
    (match c with
      | .hostReset => s.inFlight && !s.pins.hrst && !s.pins.resetN
      | _ => (s.momentOf c).2.isSome)

def execSoftResetTakesEffect (c : Cause) (s : State) : Host.Outcome State Fault Refusal :=
  .next (s.bringAboutIf c (s.resetsSoftly c))

/-- A commit is due. -/
def CommitState.commitDue : CommitState → Bool
  | .pending p => p.due
  | _ => false

/-- A revert is due. -/
def CommitState.revertDue : CommitState → Bool
  | .trial t => t.revertDue
  | _ => false

/-- R64: an access end at which a pending commit is already due as the hand-offs begin. The spec leaves open whether the row
also stands for a commit that falls due at step 1 of the same end (R61): 95 lists R61 under the events and not under this
row. DESIGN CHOICE, log 3: it does not, and the row leaves such a state as it is; the end that makes the boundary applies
the commit at its step 4 as part of its own row. -/
def execDueCommitApplied (c : Cause) (s : State) : Host.Outcome State Fault Refusal :=
  .next (s.bringAboutIf c (s.endsWith c fun s1 _ => s1.gen.commit.commitDue))

/-- R71. -/
def execDueRevertApplied (c : Cause) (s : State) : Host.Outcome State Fault Refusal :=
  .next (s.bringAboutIf c (s.endsWith c fun s1 _ => s1.gen.commit.revertDue))

/-- Whether the next epoch boundary brings window remaining to 0 (R68). -/
def CommitState.lastWindow : CommitState → Bool
  | .trial t => t.armed && decide (t.windowRemaining ≤ 1#8)
  | _ => false

/-- Whether an event makes an epoch boundary (R84) with a trial window at its last count. -/
def State.expiresWindow (s : State) (c : Cause) : Bool :=
  match c with
  | .transition => s.gen.commit.lastWindow && !s.pins.resetN && s.seq.transition.2.boundary
  | .restart => s.gen.commit.lastWindow && s.takesBroadcast
  | _ => s.endsWith c fun s1 a => s1.gen.commit.lastWindow && (s1.seq.accessEnd a).2.boundary

/-- R68, R69. -/
def execTrialWindowExpiry (c : Cause) (s : State) : Host.Outcome State Fault Refusal :=
  .next (s.bringAboutIf c (s.expiresWindow c))

/-- R85, R88. -/
def execCountAdvance (c : Cause) (s : State) : Host.Outcome State Fault Refusal :=
  .next (s.bringAboutIf c (s.endsWith c fun s1 a => (s1.seq.accessEnd a).2.advanced))

/-- R87. -/
def execOverrun (c : Cause) (s : State) : Host.Outcome State Fault Refusal :=
  .next (s.bringAboutIf c
    (s.endsWith c fun s1 a => (s1.seq.accessEnd a).2.overrun.isSome && !(s1.seq.accessEnd a).2.parked))

/-- R88. -/
def execPark (c : Cause) (s : State) : Host.Outcome State Fault Refusal :=
  .next (s.bringAboutIf c (s.endsWith c fun s1 a => (s1.seq.accessEnd a).2.parked))

end Sys2Proof.Machine
end

