-- ==== Sys2Proof/Machine/JournalCommands.lean ====
section
/-! DEFINITION. JOURNAL.READ, JOURNAL.ACK, JOURNAL.SET and JOURNAL.STATUS (spec/08_write_journal.md R140 to R144). -/

namespace Sys2Proof.Machine

/-- The bytes of records that fit beside the 4 bytes of count, next number and records carried (R171). -/
def journalRoom : Nat := 36

/-- R140. Payload: requested number. -/
def journalReadReply (p : List Byte) (s : State) : Reply :=
  let n := (byteAt p 0).toNat
  if n = 0 ∨ 4 < n then s.refuse .range
  else
    let packed := packRecords none journalRoom n s.journal.records
    ⟨s, .ok, [byteOf s.journal.records.length] ++ wordBytes s.journal.next ++ [byteOf packed.1] ++ packed.2⟩

def execJournalRead (f : Frame) (s : State) : Host.Outcome State Fault Refusal :=
  .next (s.receive f false (payloadIs f 1) (journalReadReply f.payload))

/-- The records up to and including the first that carries a sequence number, and those after it; none where no record
carries it (R141). -/
def removeThrough (n : Word) : List JournalRecord → Option (Nat × List JournalRecord)
  | [] => none
  | r :: rs => if r.sequence = n then some (1, rs) else (removeThrough n rs).map fun x => (x.1 + 1, x.2)

/-- High armed becomes yes when the count is below the threshold (R139). -/
def Journal.rearm (j : Journal) : Journal :=
  { j with highArmed := j.highArmed || decide (j.records.length < j.threshold) }

/-- The sequence number of the oldest record; absent reads 0000h (R141, R144). -/
def oldestBytes (rs : List JournalRecord) : List Byte :=
  match rs.head? with
  | some r => wordBytes r.sequence
  | none => [0, 0]

/-- The sequence number of the newest record; absent reads 0000h (R144). -/
def newestBytes (rs : List JournalRecord) : List Byte :=
  match rs.getLast? with
  | some r => wordBytes r.sequence
  | none => [0, 0]

/-- R141. Payload: sequence number. -/
def journalAckReply (p : List Byte) (s : State) : Reply :=
  match removeThrough (wordAt p 0) s.journal.records with
  | none => s.refuse .notHeld
  | some (removed, rest) =>
    ⟨{ s with journal := { s.journal with records := rest }.rearm }, .ok,
      [byteOf removed, byteOf rest.length] ++ oldestBytes rest⟩

def execJournalAck (f : Frame) (s : State) : Host.Outcome State Fault Refusal :=
  .next (s.receive f false (payloadIs f 2) (journalAckReply f.payload))

/-- R143. Payload: policy, threshold. -/
def journalSetReply (p : List Byte) (s : State) : Reply :=
  match journalPolicy? (byteAt p 0) with
  | none => s.refuse .range
  | some policy =>
    if (byteAt p 1).toNat = 0 ∨ 64 < (byteAt p 1).toNat then s.refuse .range
    else
      ⟨{ s with journal := { s.journal with policy := policy, threshold := (byteAt p 1).toNat }.rearm }, .ok,
        [byteOf s.journal.records.length]⟩

def execJournalSet (f : Frame) (s : State) : Host.Outcome State Fault Refusal :=
  .next (s.receive f false (payloadIs f 2) (journalSetReply f.payload))

/-- R144. -/
def journalStatusReply (s : State) : Reply :=
  ⟨s, .ok, [byteOf s.journal.records.length] ++ wordBytes s.journal.next ++ oldestBytes s.journal.records
    ++ newestBytes s.journal.records ++ [s.journal.policy.code, byteOf s.journal.threshold, flagByte s.journal.highArmed]⟩

def execJournalStatus (f : Frame) (s : State) : Host.Outcome State Fault Refusal :=
  .next (s.receive f false (payloadIs f 0) journalStatusReply)

end Sys2Proof.Machine
end

