-- ==== Sys2Proof/Machine/MapCommands.lean ====
section
/-! DEFINITION. MAP.PUT, MAP.CLEAR, MAP.READ and MAP.RESTAGE (spec/01_overlay_map.md R15 to R20). -/

namespace Sys2Proof.Machine

/-- Check 3 of R16: the region, and for RELOCATE the target region, lies within one window (R3). -/
def Entry.contained (e : Entry) : Bool :=
  oneWindow e.base.toNat e.length &&
    (match e.action with
      | .relocate target _ => oneWindow target.toNat e.length
      | _ => true)

/-- Checks 4 to 6 of R16 on the run record: the refusal, if one applies. -/
def Overlay.runRefusal (o : Overlay) (e : Entry) : Option Status :=
  match e.action with
  | .substitute run offset _ =>
    match o.runs[run].state with
    | .unused => some .noRun
    | .retiring => some .gone
    | _ => if offset + e.length ≤ o.runs[run].capacity then none else some .range
  | _ => none

/-- R16, R17. Payload: slot, entry. -/
def mapPutReply (p : List Byte) (s : State) : Reply :=
  if s.gen.commit.isPending then s.refuse .frozen
  else
    match index32 (byteAt p 0), entry? p 1 with
    | some i, some e =>
      if e.contained then
        match s.overlay.runRefusal e with
        | some refusal => s.refuse refusal
        | none => ⟨s.editStaged i (some e), .ok, []⟩
      else s.refuse .range
    | _, _ => s.refuse .range

def execMapPut (f : Frame) (s : State) : Host.Outcome State Fault Refusal :=
  .next (s.receive f false (payloadIs f 19) (mapPutReply f.payload))

/-- R18. Payload: slot. -/
def mapClearReply (p : List Byte) (s : State) : Reply :=
  if s.gen.commit.isPending then s.refuse .frozen
  else
    match index32 (byteAt p 0) with
    | some i => ⟨s.editStaged i none, .ok, []⟩
    | none => s.refuse .range

def execMapClear (f : Frame) (s : State) : Host.Outcome State Fault Refusal :=
  .next (s.receive f false (payloadIs f 1) (mapClearReply f.payload))

/-- MAP.READ's answer for a slot (R19). -/
def State.slotReply (s : State) (p : List Byte) (i : Fin 32) (m : SlotMap) (hits : Word) : Reply :=
  ⟨s, .ok, [byteAt p 0, byteAt p 1] ++ slotBytes m[i] ++ wordBytes hits ++ wordBytes s.gen.generation⟩

/-- R19. Payload: map selector, slot. -/
def mapReadReply (p : List Byte) (s : State) : Reply :=
  match index32 (byteAt p 1) with
  | none => s.refuse .range
  | some i =>
    match (byteAt p 0).toNat with
    | 0 => s.slotReply p i s.maps.staged 0#16
    | 1 => s.slotReply p i s.maps.active s.maps.hits[i]
    | 2 =>
      match s.gen.fallback with
      | some m => s.slotReply p i m 0#16
      | none => s.refuse .noTrial
    | _ => s.refuse .range

def execMapRead (f : Frame) (s : State) : Host.Outcome State Fault Refusal :=
  .next (s.receive f false (payloadIs f 2) (mapReadReply f.payload))

/-- R20. -/
def mapRestageReply (s : State) : Reply :=
  if s.gen.commit.isPending then s.refuse .frozen
  else ⟨{ s with maps := { s.maps with staged := s.maps.active } }.releaseTest, .ok, []⟩

def execMapRestage (f : Frame) (s : State) : Host.Outcome State Fault Refusal :=
  .next (s.receive f false (payloadIs f 0) mapRestageReply)

end Sys2Proof.Machine
end

