-- ==== Sys2Proof/Machine/NoticeCommands.lean ====
section
/-! DEFINITION. NOTICE.READ, NOTICE.ACK and NOTICE.MASK (spec/09_notices_and_the_alert_line.md R153 to R155, layouts
R172). -/

namespace Sys2Proof.Machine

/-- The oldest notice, or 7 bytes 00h (R172). -/
def oldestNoticeBytes (q : List Notice) : List Byte :=
  match q with
  | n :: _ => n.bytes
  | [] => List.replicate 7 0

/-- The two bytes of the alert mask; bits 15:13 read 0 (R172). -/
def maskBytes (m : BitVec 13) : List Byte := wordBytes (m.setWidth 16)

/-- R153, R172. -/
def noticeReadReply (s : State) : Reply :=
  ⟨s, .ok, [byteOf s.notices.queue.length] ++ padTo 13 (s.notices.queue.map fun n => byteOf n.code)
    ++ oldestNoticeBytes s.notices.queue ++ maskBytes s.notices.mask ++ [flagByte s.alert]⟩

def execNoticeRead (f : Frame) (s : State) : Host.Outcome State Fault Refusal :=
  .next (s.receive f false (payloadIs f 0) noticeReadReply)

/-- The queue without the notice of a kind code. -/
def Notices.remove (q : Notices) (code : Nat) : Notices := { q with queue := q.queue.filter fun n => n.code != code }

/-- R154. Payload: kind code. -/
def noticeAckReply (p : List Byte) (s : State) : Reply :=
  let code := (byteAt p 0).toNat
  if code = 0 ∨ 0x0D < code then s.refuse .range
  else
    match s.notices.queue.find? fun n => n.code == code with
    | none => s.refuse .notHeld
    | some n =>
      ⟨{ s with notices := s.notices.remove code }, .ok,
        [byteOf n.count, byteOf (s.notices.remove code).queue.length]⟩

def execNoticeAck (f : Frame) (s : State) : Host.Outcome State Fault Refusal :=
  .next (s.receive f false (payloadIs f 1) (noticeAckReply f.payload))

/-- The mask replaced (R155). -/
def State.withMask (s : State) (m : BitVec 13) : State := { s with notices := { s.notices with mask := m } }

/-- R155. Payload: mask, of which bits 12:0 are taken (R172). -/
def noticeMaskReply (p : List Byte) (s : State) : Reply :=
  ⟨s.withMask ((wordAt p 0).setWidth 13), .ok,
    maskBytes ((wordAt p 0).setWidth 13) ++ [flagByte (s.withMask ((wordAt p 0).setWidth 13)).alert]⟩

def execNoticeMask (f : Frame) (s : State) : Host.Outcome State Fault Refusal :=
  .next (s.receive f false (payloadIs f 2) (noticeMaskReply f.payload))

end Sys2Proof.Machine
end

