-- ==== Sys2Proof/Machine/Part.lean ====
section
/-! DEFINITION. PART.INFO and PART.RESET, and the pin reset (spec/10_management_port.md R173 to R176). -/

namespace Sys2Proof.Machine

/-- The part code (R173). -/
def partCode : Word := 0x4D24#16
/-- The revision letter (R173). -/
def revision : Byte := 0x43#8

/-- R173. -/
def partInfoReply (s : State) : Reply :=
  ⟨s, .ok, wordBytes partCode ++ [revision, byteOf s.straps.unit.toNat, s.strapFlags]
    ++ wordBytes s.gen.generation ++ [s.gen.commit.code]⟩

def execPartInfo (f : Frame) (s : State) : Host.Outcome State Fault Refusal :=
  .next (s.receive f false (payloadIs f 0) partInfoReply)

/-- R174: at once when no access is in flight; otherwise BUSY, and a soft-reset interval begins. -/
def partResetReply (tag : Byte) (s : State) : Reply :=
  if s.inFlight then ⟨{ s with mpu := { s.mpu with softReset := some tag } }, .busy, []⟩
  else ⟨s.softReset tag, .ok, []⟩

def execPartReset (f : Frame) (s : State) : Host.Outcome State Fault Refusal :=
  .next (s.receive f false (payloadIs f 0) (partResetReply f.tag))

/-- A good frame, of whatever code, during a soft-reset interval (R174): answered BUSY when addressed to this unit alone.
Outside an interval there is no such event (log 2). -/
def State.answerBusy (s : State) (f : Frame) : State :=
  if s.mpu.softReset.isSome && s.isUnit f.unit then s.store f.tag .busy [] else s

def execSoftResetIntervalBusy (f : Frame) (_code : Byte) (s : State) : Host.Outcome State Fault Refusal :=
  .next (if s.pins.resetN then s else s.mcsHigh.answerBusy f)

/-- Assertion of RESET_N, or power-up (R38, R56, R75, R117, R132, R157, R176): the access is abandoned, a strobe on the
memory port withdrawn, the maps, runs, Generation Control state, capture and notices emptied, and an interval or
transaction ended. What the spec sets at the release is set there (log 11). -/
def State.pinReset (s : State) : State :=
  { s with
    pins := { s.pins with resetN := true }
    hau := { s.hau.toIdle with response := none }
    maps := Maps.atReset
    overlay := Overlay.atReset s.overlay.ram
    gen := Gen.atReset
    mpc := { s.mpc with access := none, hostRequest := false, captureRequest := false }
    capture := Capture.atReset
    notices := ⟨[], maskAtReset⟩
    mpu := { s.mpu with softReset := none, port := .idle, mdo := [] } }

def execPinReset (s : State) : Host.Outcome State Fault Refusal :=
  .next (if s.pins.resetN then s else s.pinReset)

/-- The release of RESET_N (R176): the straps are latched, every block holds its pin-reset state, the buffer holds NONE,
and RESTARTED (PIN) is posted (R157). -/
def State.resetReleased (s : State) (p : ReleasePins) : State :=
  { s with
    pins := { s.pins with resetN := false, epoch := p.epoch, spi := { s.pins.spi with mcs := p.mcsLow } }
    straps := ⟨p.unit, p.hold, p.lock⟩
    hau := Hau.atReset p.hold p.lock
    maps := Maps.atReset
    overlay := Overlay.atReset s.overlay.ram
    gen := Gen.atReset
    seq := Seq.atReset p.epoch
    mpc := Mpc.atReset s.mpc.lastOffset
    capture := Capture.atReset
    journal := Journal.atReset
    notices := Notices.restarted .pin
    mpu := Mpu.atReset p.mcsLow }

def execResetNRelease (p : ReleasePins) (s : State) : Host.Outcome State Fault Refusal :=
  .next (if s.pins.resetN then s.resetReleased p else s)

end Sys2Proof.Machine
end

