-- ==== Sys2Proof/Machine/RunCommands.lean ====
section
/-! DEFINITION. RUN.OPEN, RUN.WRITE, RUN.READ, RUN.FREE and RUN.INFO (spec/03_overlay_ram_and_page_runs.md R47 to
R55). -/

namespace Sys2Proof.Machine

/-- R47, R48. Payload: page count. -/
def runOpenReply (p : List Byte) (s : State) : Reply :=
  let n := (byteAt p 0).toNat
  if n < 1 ∨ 32 < n then s.refuse .range
  else
    match s.overlay.unusedRun with
    | none => s.refuse .noRun
    | some r =>
      if s.overlay.free.length < n then s.refuse .noSpace
      else ⟨{ s with overlay := s.overlay.openRun r n }, .ok, [byteOf r.val, byteAt p 0]⟩

def execRunOpen (f : Frame) (s : State) : Host.Outcome State Fault Refusal :=
  .next (s.receive f false (payloadIs f 1) (runOpenReply f.payload))

/-- Checks 2 to 6 of R49: the refusal of a write to a run, if one applies. -/
def State.writeRefusal (s : State) (r : Fin 32) : Option Status :=
  match s.overlay.runs[r].state with
  | .unused => some .noRun
  | .retiring => some .gone
  | .filling => some .busy
  | .opened => if s.live r then some .live else if s.pinned r then some .pinned else none

/-- R49. Payload: run id, word offset (2), count, data words. -/
def runWriteReply (p : List Byte) (s : State) : Reply :=
  let count := (byteAt p 3).toNat
  match index32 (byteAt p 0) with
  | none => s.refuse .range
  | some r =>
    if count < 1 ∨ 16 < count then s.refuse .range
    else
      match s.writeRefusal r with
      | some refusal => s.refuse refusal
      | none =>
        if (wordAt p 1).toNat + count ≤ s.overlay.runs[r].words then
          ⟨{ s with overlay := s.overlay.writeWords r (wordAt p 1).toNat (wordsAt p 4 count) }, .ok, []⟩
        else s.refuse .range

/-- RUN.WRITE's request length, 4 + 2c with c in payload byte 3 (R167). -/
def runWriteLength (p : List Byte) : Bool := decide (4 ≤ p.length) && p.length == 4 + 2 * (byteAt p 3).toNat

def execRunWrite (f : Frame) (s : State) : Host.Outcome State Fault Refusal :=
  .next (s.receive f false (runWriteLength f.payload) (runWriteReply f.payload))

/-- R50. Payload: run id, word offset (2), count. -/
def runReadReply (p : List Byte) (s : State) : Reply :=
  let count := (byteAt p 3).toNat
  match index32 (byteAt p 0) with
  | none => s.refuse .range
  | some r =>
    if count < 1 ∨ 16 < count then s.refuse .range
    else if s.overlay.runs[r].state = .unused then s.refuse .noRun
    else if (wordAt p 1).toNat + count ≤ s.overlay.runs[r].words then
      ⟨s, .ok, [byteAt p 0] ++ wordBytes (wordAt p 1) ++ [byteAt p 3]
        ++ (s.overlay.readWords r (wordAt p 1).toNat count).flatMap wordBytes⟩
    else s.refuse .range

def execRunRead (f : Frame) (s : State) : Host.Outcome State Fault Refusal :=
  .next (s.receive f false (payloadIs f 4) (runReadReply f.payload))

/-- RUN.FREE's answer: run id and state (R167). -/
def freeAnswer (s : State) (r : Fin 32) (st : RunState) : Reply := ⟨s, .ok, [byteOf r.val, st.code]⟩

/-- R51, R52. Payload: run id. -/
def runFreeReply (p : List Byte) (s : State) : Reply :=
  match index32 (byteAt p 0) with
  | none => s.refuse .range
  | some r =>
    match s.overlay.runs[r].state with
    | .unused => s.refuse .noRun
    | .filling => s.refuse .busy
    | .retiring => freeAnswer s r .retiring
    | .opened =>
      if s.referenced r then freeAnswer { s with overlay := s.overlay.setState r .retiring } r .retiring
      else freeAnswer { s with overlay := s.overlay.release r } r .unused

def execRunFree (f : Frame) (s : State) : Host.Outcome State Fault Refusal :=
  .next (s.receive f false (payloadIs f 1) (runFreeReply f.payload))

/-- R55. Payload: run id. -/
def runInfoReply (p : List Byte) (s : State) : Reply :=
  match index32 (byteAt p 0) with
  | none => s.refuse .range
  | some r =>
    let run := s.overlay.runs[r]
    ⟨s, .ok, [byteOf r.val, run.state.code, byteOf run.pageCount] ++ countBytes run.capacity
      ++ [s.referenceFlags r, byteOf s.overlay.free.length] ++ run.pages.map fun pg => byteOf pg.val⟩

def execRunInfo (f : Frame) (s : State) : Host.Outcome State Fault Refusal :=
  .next (s.receive f false (payloadIs f 1) (runInfoReply f.payload))

end Sys2Proof.Machine
end

