-- ==== Sys2Proof/Machine/Dispatch.lean ====
section
/-! DEFINITION. The meaning of every row of spec/opcode_table.json: one arm per constructor, one call each. -/

namespace Sys2Proof.Machine

def exec (i : Instr) (s : State) : Host.Outcome State Fault Refusal :=
  match i with
  | .partInfo f => Sys2Proof.Machine.execPartInfo f s
  | .partReset f => Sys2Proof.Machine.execPartReset f s
  | .softResetTakesEffect c => Sys2Proof.Machine.execSoftResetTakesEffect c s
  | .softResetIntervalBusy f code => Sys2Proof.Machine.execSoftResetIntervalBusy f code s
  | .hostRelease f => Sys2Proof.Machine.execHostRelease f s
  | .lockdownClear f => Sys2Proof.Machine.execLockdownClear f s
  | .mapPut f => Sys2Proof.Machine.execMapPut f s
  | .mapClear f => Sys2Proof.Machine.execMapClear f s
  | .mapRead f => Sys2Proof.Machine.execMapRead f s
  | .mapRestage f => Sys2Proof.Machine.execMapRestage f s
  | .runOpen f => Sys2Proof.Machine.execRunOpen f s
  | .runWrite f => Sys2Proof.Machine.execRunWrite f s
  | .runRead f => Sys2Proof.Machine.execRunRead f s
  | .runFree f => Sys2Proof.Machine.execRunFree f s
  | .runInfo f => Sys2Proof.Machine.execRunInfo f s
  | .commit f => Sys2Proof.Machine.execCommit f s
  | .dueCommitApplied c => Sys2Proof.Machine.execDueCommitApplied c s
  | .commitCancel f => Sys2Proof.Machine.execCommitCancel f s
  | .trialConfirm f => Sys2Proof.Machine.execTrialConfirm f s
  | .trialWindowExpiry c => Sys2Proof.Machine.execTrialWindowExpiry c s
  | .trialRevert f => Sys2Proof.Machine.execTrialRevert f s
  | .dueRevertApplied c => Sys2Proof.Machine.execDueRevertApplied c s
  | .genStatus f => Sys2Proof.Machine.execGenStatus f s
  | .seqSet f => Sys2Proof.Machine.execSeqSet f s
  | .seqRestart f => Sys2Proof.Machine.execSeqRestart f s
  | .seqStatus f => Sys2Proof.Machine.execSeqStatus f s
  | .epochTransitionAccepted => Sys2Proof.Machine.execEpochTransitionAccepted s
  | .countAdvance c => Sys2Proof.Machine.execCountAdvance c s
  | .overrun c => Sys2Proof.Machine.execOverrun c s
  | .park c => Sys2Proof.Machine.execPark c s
  | .devSet f => Sys2Proof.Machine.execDevSet f s
  | .devRestore f => Sys2Proof.Machine.execDevRestore f s
  | .devStatus f => Sys2Proof.Machine.execDevStatus f s
  | .portSet f => Sys2Proof.Machine.execPortSet f s
  | .captureStart f => Sys2Proof.Machine.execCaptureStart f s
  | .captureAbort f => Sys2Proof.Machine.execCaptureAbort f s
  | .captureStatus f => Sys2Proof.Machine.execCaptureStatus f s
  | .journalRead f => Sys2Proof.Machine.execJournalRead f s
  | .journalAck f => Sys2Proof.Machine.execJournalAck f s
  | .journalSet f => Sys2Proof.Machine.execJournalSet f s
  | .journalStatus f => Sys2Proof.Machine.execJournalStatus f s
  | .noticeRead f => Sys2Proof.Machine.execNoticeRead f s
  | .noticeAck f => Sys2Proof.Machine.execNoticeAck f s
  | .noticeMask f => Sys2Proof.Machine.execNoticeMask f s
  | .frameError bytes extra => Sys2Proof.Machine.execFrameError bytes extra s
  | .unknownCommand f code => Sys2Proof.Machine.execUnknownCommand f code s
  | .responseRead header clocks => Sys2Proof.Machine.execResponseRead header clocks s
  | .accessArrives p => Sys2Proof.Machine.execAccessArrives p s
  | .hostStrobeNegated rd wr => Sys2Proof.Machine.execHostStrobeNegated rd wr s
  | .hostResetEvent => Sys2Proof.Machine.execHostResetEvent s
  | .pinReset => Sys2Proof.Machine.execPinReset s
  | .resetNRelease p => Sys2Proof.Machine.execResetNRelease p s
  | .arbiterGrant => Sys2Proof.Machine.execArbiterGrant s
  | .memoryAccessCompletes md => Sys2Proof.Machine.execMemoryAccessCompletes md s
  | .accessTimeout => Sys2Proof.Machine.execAccessTimeout s
  | .hrstNNegated => Sys2Proof.Machine.execHrstNNegated s
  | .epochPulseDiscarded => Sys2Proof.Machine.execEpochPulseDiscarded s

end Sys2Proof.Machine
end

