-- ==== Sys2Proof/Machine/Pins.lean ====
section
/-! DEFINITION. The output pins as functions of the state: host port (R31), memory port (R97, R100), MDO (R160). ALERT_N is
`State.alert` (R152). True is asserted. -/

namespace Sys2Proof.Machine

/-- The response on the host port while it is driven (R31). -/
def State.driven (s : State) : Option HostResponse :=
  if s.hau.state = .ended then s.hau.response else none

/-- HRDY_N (R31). -/
def State.hrdy (s : State) : Bool := s.driven.any fun r => r.completed

/-- HERR_N (R31). -/
def State.herr (s : State) : Bool := s.driven.any fun r => !r.completed

/-- HD; none while released (R31). -/
def State.hd (s : State) : Option Word := s.driven.bind HostResponse.data

/-- MS_N: the select asserted (R97). -/
def State.ms (s : State) : Option (Fin 4) := s.mpc.access.map fun p => deviceOf p.addr

/-- MA[21:1]: the last offset driven (R97). -/
def State.ma (s : State) : BitVec 21 := s.mpc.lastOffset

/-- MRD_N (R100). -/
def State.mrd (s : State) : Bool := s.mpc.access.any fun p => p.write.isNone

/-- MWR_N (R100). -/
def State.mwr (s : State) : Bool := s.mpc.access.any fun p => p.write.isSome

/-- MBE_N: the lanes asserted; none while the port is free (R97, R100). -/
def State.mbe (s : State) : Option Lanes :=
  s.mpc.access.map fun p => match p.write with
    | some (lanes, _) => lanes
    | none => .both

/-- MD driven by the part; none while high-impedance (R97, R100). -/
def State.mdOut (s : State) : Option Word := s.mpc.access.bind fun p => p.write.map Prod.snd

/-- MDO: the bit placed last while a response read is answered, from the first falling edge of MCK after the header; none while
high-impedance (R160). -/
def State.mdoPin (s : State) : Option Bool :=
  match s.mpu.port with
  | .answering _ => s.mpu.mdo.getLast?
  | _ => none

end Sys2Proof.Machine
end

