-- ==== Sys2Proof/Safety.lean ====
section
/-! DEFINITION. What the spec promises of every state the part reaches, as decidable conditions: the invariants that the
statements of Certificates/Slice0/Obligations.lean are about. -/

namespace Sys2Proof.Safety

open Sys2Proof.Machine

/-- Overlay RAM is in canonical form. -/
abbrev RamCanonical (s : State) : Prop := Memory.wf s.overlay.ram = true

/-- Every page number of the Run Manager, free or held: the free list, then the page lists by run id. -/
def allPages (o : Overlay) : List (Fin 128) :=
  o.free ++ (List.finRange 32).flatMap fun r => o.runs[r].pages

/-- R40, R42: every page is on the free list or in the page list of exactly one run that is not UNUSED. -/
abbrev PagesPartitioned (s : State) : Prop :=
  (allPages s.overlay).Nodup ∧ (allPages s.overlay).length = 128 ∧
    ∀ r : Fin 32, s.overlay.runs[r].state = .unused → s.overlay.runs[r].pages = []

/-- A map entry within the ranges and windows of R2 to R6. -/
def entrySound (e : Entry) : Bool :=
  aligned e.base && decide (1 ≤ e.length) && decide (e.length ≤ 65536) && e.phases != 0#4
    && (e.fetches || e.reads || e.writes) && e.contained
    && (match e.action with
      | .substitute _ offset _ => decide (offset ≤ 511)
      | .relocate target _ => aligned target
      | _ => true)

/-- Every entry of a map satisfies a condition. -/
abbrev MapAll (m : SlotMap) (p : Entry → Bool) : Prop := ∀ i : Fin 32, m[i].all p = true

/-- Every entry of Staged, Active and Fallback satisfies a condition. -/
abbrev EveryEntry (s : State) (p : Entry → Bool) : Prop :=
  MapAll s.maps.staged p ∧ MapAll s.maps.active p ∧ (s.gen.fallback.all fun m => decide (MapAll m p)) = true

/-- R2 to R6: every entry of every map is within its ranges and windows. -/
abbrev EntriesSound (s : State) : Prop := EveryEntry s entrySound

/-- Whether a SUBSTITUTE entry names a run that owns the granules it serves (R4, R53). -/
def entryBacked (o : Overlay) (e : Entry) : Bool :=
  match e.action with
  | .substitute run offset _ => o.runs[run].state != .unused && decide (offset + e.length ≤ o.runs[run].capacity)
  | _ => true

/-- R53: a run that an entry refers to is never UNUSED, and holds the entry's granules (R4). -/
abbrev ReferencesBacked (s : State) : Prop := EveryEntry s (entryBacked s.overlay)

/-- R147, R148: at most one notice of each kind, each with a repeat count of 1 to 255. -/
abbrev NoticesSound (s : State) : Prop :=
  (s.notices.queue.map Notice.code).Nodup ∧ (s.notices.queue.all fun n => decide (1 ≤ n.count) && decide (n.count ≤ 255)) = true

/-- R133, R137, R139: at most 64 records, no two of one sequence number, a threshold of 1 to 64, and high armed unless the
count has reached it. -/
abbrev JournalSound (s : State) : Prop :=
  (s.journal.records.map JournalRecord.sequence).Nodup ∧ s.journal.records.length ≤ 64 ∧
    1 ≤ s.journal.threshold ∧ s.journal.threshold ≤ 64 ∧
    (s.journal.highArmed = false → s.journal.threshold ≤ s.journal.records.length)

/-- R78, R79: phase count 1 to 4, initial and current phase below it, even marks, and a phase counter that does not pass
a nonzero length. -/
abbrev SequencerSound (s : State) : Prop :=
  1 ≤ s.seq.config.phaseCount ∧ s.seq.config.phaseCount ≤ 4 ∧
    s.seq.config.initial.toNat < s.seq.config.phaseCount ∧ s.seq.phase.toNat < s.seq.config.phaseCount ∧
    (∀ i : Fin 4, s.seq.config.marks[i].toNat % 2 = 0) ∧
    (s.seq.length ≠ 0#16 → s.seq.counter ≤ s.seq.length)

/-- Whether the access on the port is a host access that is still the HAU's (R36). -/
def hostOnPort (m : Mpc) : Bool := m.access.any fun p => p.owner == .host && !p.abandoned

/-- Whether the HAU holds an access with a decision for the memory port (R24). -/
def carriesPortDecision (h : Hau) : Bool :=
  h.access.isSome && h.decision.any fun d => d.effective.isSome

/-- R21, R29, R97, R108 to R111: the host request waits exactly in GRANT, the HAU is in DEVICE exactly while its access is on the
port, both with a decision for the port; no request waits for a free port; the states passed through within a step are
not rested in; the share and the pass-over count are in their ranges; and MA carries the offset of the access on the
port. -/
abbrev PortCoherent (s : State) : Prop :=
  s.mpc.hostRequest = (s.hau.state == .grant) ∧ hostOnPort s.mpc = (s.hau.state == .device) ∧
    ((s.hau.state = .grant ∨ s.hau.state = .device) → carriesPortDecision s.hau = true) ∧
    (s.mpc.access = none → s.mpc.hostRequest = false ∧ s.mpc.captureRequest = false) ∧
    s.hau.state ≠ .deciding ∧ s.hau.state ≠ .overlay ∧ s.hau.state ≠ .immediate ∧
    1 ≤ s.mpc.share ∧ s.mpc.share ≤ 16 ∧ s.mpc.passOver ≤ 16 ∧
    (s.mpc.access.all fun p => s.mpc.lastOffset == p.addr.setWidth 21) = true

/-- R64, R71, R174: a commit that is due, a revert that is due and a soft reset that waits each wait for the end of an access
in flight. -/
abbrev WaitsInFlight (s : State) : Prop :=
  PortCoherent s ∧ (s.gen.commit.commitDue = true → s.inFlight = true) ∧
    (s.gen.commit.revertDue = true → s.inFlight = true) ∧ (s.mpu.softReset.isSome = true → s.inFlight = true)

/-- R160, R176: with RESET_N negated, the MPU is between transactions exactly while MCS_N is high. -/
abbrev SpiFollowed (s : State) : Prop := s.pins.resetN = false → s.pins.spi.mcs = (s.mpu.port != .idle)

/-- R43, R118, R131: a FILLING run is the run of the RUNNING capture and neither live nor pinned, and a RUNNING capture fills
its run with words still to copy. -/
abbrev CaptureCoherent (s : State) : Prop :=
  (∀ r : Fin 32, s.overlay.runs[r].state = .filling →
    s.capture.status = .running ∧ (s.capture.job.any fun j => j.run == r) = true ∧ s.live r = false ∧ s.pinned r = false) ∧
    (s.capture.status = .running →
      (s.capture.job.any fun j =>
        s.overlay.runs[j.run].state == .filling && decide (s.capture.wordsDone < 8 * j.length)) = true)

/-- R53: every RETIRING run is referred to by a map. -/
abbrev RetiringReferenced (s : State) : Prop :=
  ∀ r : Fin 32, s.overlay.runs[r].state = .retiring → s.referenced r = true

end Sys2Proof.Safety
end

