-- ==== Sys2Proof/WellFormed.lean ====
section
/-! DEFINITION. Which terms of `Instr` stand for something the outside can do. `exec` is total on the others too: they
leave the state as it is, or are refused as the frame checks refuse them (log 2). -/

namespace Sys2Proof

/-- A payload has 0 to 40 bytes (R162). -/
def Frame.wf (f : Frame) : Bool := decide (f.payload.length ≤ 40)

/-- A strobe assertion asserts a strobe (R22). -/
def HostPins.wf (p : HostPins) : Bool := p.rd || p.wr

/-- The operands of a cause are such as its own row takes. -/
def Cause.wf : Cause → Bool
  | .arrival p => p.wf
  | _ => true

/-- Well-formedness of a row's operands. -/
def Instr.wf (i : Instr) : Bool :=
  match frameOfRow i with
  | some (code, f) =>
    f.wf && (match i with
      | .unknownCommand _ _ => !codeDefined code
      | _ => true)
  | none =>
    match i with
    | .softResetIntervalBusy f _ => f.wf
    | .softResetTakesEffect c => c.wf
    | .dueCommitApplied c => c.wf
    | .dueRevertApplied c => c.wf
    | .trialWindowExpiry c => c.wf
    | .countAdvance c => c.wf
    | .overrun c => c.wf
    | .park c => c.wf
    | .frameError bytes extra =>
      (match bytes with
        | [] => false
        | h :: _ => headerIsCommand h) && !goodFrame bytes extra
    | .responseRead h _ => !headerIsCommand h
    | .accessArrives p => p.wf
    | .hostStrobeNegated rd wr => rd || wr
    | _ => true

end Sys2Proof
end

