-- ==== Sys2Proof/Certificates/Slice0/Obligations.lean ====
section
/-! DEFINITION. The statements about the MN24 model. The first part writes the spec's layouts (R167 to R172), the
bytes of overlay RAM (R26, R44, R126) and the compound events (R24 to R31, R65, R69, R72, R84, R175) out once, so that the
statements can name them; the second part holds the statements, in the order of OBLIGATIONS.json. -/

open Sys2Proof Sys2Proof.Machine Sys2Proof.Safety

namespace Sys2Proof.Claim

/-! ## Conditions -/

/-- RESET_N is negated, MCS_N is high and no transaction is in progress (R160, R176): part of `SpiFollowed`. -/
abbrev Listening (s : State) : Prop := s.pins.resetN = false ∧ s.pins.spi.mcs = false ∧ s.mpu.port = .idle

/-- The unit field of this unit alone (R161). -/
def ownUnit (s : State) : BitVec 3 := s.straps.unit.setWidth 3

/-- A frame for this unit alone, outside a soft-reset interval (R161, R164, R174). -/
abbrev Addressed (f : Frame) (s : State) : Prop :=
  Listening s ∧ s.mpu.softReset = none ∧ f.unit = ownUnit s

/-- A free port has no request waiting for it (R110, R111): part of `PortCoherent`. -/
abbrev PortAtRest (s : State) : Prop :=
  s.mpc.access = none → s.mpc.hostRequest = false ∧ s.mpc.captureRequest = false

/-- R7: an entry is a candidate for an access under the current phase. -/
def candidate (s : State) (a : Access) (e : Entry) : Bool :=
  e.phases.getLsbD s.seq.phase.toNat
    && (match a.kind with
      | .fetch => e.fetches
      | .read => e.reads
      | .write => e.writes)
    && decide (e.base.toNat ≤ 2 * a.addr.toNat) && decide (2 * a.addr.toNat < e.base.toNat + 16 * e.length)

/-- R8: slot `i` of Active holds the candidate `e`, and no lower slot holds one. -/
abbrev DecidedBy (s : State) (a : Access) (i : Fin 32) (e : Entry) : Prop :=
  s.maps.active[i] = some e ∧ candidate s a e = true ∧
    ∀ j : Fin 32, j < i → s.maps.active[j].any (candidate s a) = false

/-- R9: no slot of Active holds a candidate. -/
abbrev Undecided (s : State) (a : Access) : Prop := ∀ j : Fin 32, s.maps.active[j].any (candidate s a) = false

/-- R9: lockdown decides a WRITE in MS0. -/
def lockedDown (s : State) (a : Access) : Bool :=
  s.hau.lockdown && a.kind == .write && decide (2 * a.addr.toNat < 0x400000)

/-- The strobe of an access is still asserted (R31). -/
def strobeHeld (s : State) (a : Access) : Bool := if a.kind = .write then s.pins.wr else s.pins.rd

/-! ## Values and layouts of the management port (10.5, 10.6) -/

/-- A number in two, three and four bytes, most significant byte first (R167). -/
def inTwo (n : Nat) : List Byte := [BitVec.ofNat 8 (n / 256), BitVec.ofNat 8 n]
def inThree (n : Nat) : List Byte := BitVec.ofNat 8 (n / 65536) :: inTwo n
def inFour (n : Nat) : List Byte := inTwo (n / 65536) ++ inTwo n

/-- The status values of R168. -/
def statusValue : Status → Byte
  | .ok => 0x00
  | .accepted => 0x01
  | .none => 0x02
  | .frameError => 0x03
  | .unknown => 0x04
  | .length => 0x05
  | .range => 0x06
  | .busy => 0x07
  | .frozen => 0x08
  | .pending => 0x09
  | .trialOpen => 0x0A
  | .noTrial => 0x0B
  | .notPending => 0x0C
  | .invalid => 0x0D
  | .noSpace => 0x0E
  | .noRun => 0x0F
  | .gone => 0x10
  | .live => 0x11
  | .pinned => 0x12
  | .notHeld => 0x13
  | .fenced => 0x14
  | .absent => 0x15
  | .idle => 0x16

/-- The run states of R169. -/
def runStateValue : RunState → Byte
  | .unused => 0
  | .opened => 1
  | .filling => 2
  | .retiring => 3

/-- The commit states of R169. -/
def commitValue : CommitState → Byte
  | .none => 0
  | .pending _ => 1
  | .trial _ => 2

/-- The boundaries of R169. -/
def boundaryValue : Boundary → Byte
  | .now => 0
  | .epoch => 1
  | .mark _ => 2
  | .reset => 3

/-- The capture statuses of R169. -/
def captureValue : CaptureStatus → Byte
  | .none => 0
  | .running => 1
  | .done => 2
  | .failed _ => 3
  | .aborted => 4

/-- The access kinds of R169. -/
def accessValue : AccessKind → Byte
  | .fetch => 0
  | .read => 1
  | .write => 2

/-- The owners of R169. -/
def ownerValue : Owner → Byte
  | .host => 1
  | .capture => 2

/-- The wait override byte: bit 7 present, bits 4:0 the value (R170). -/
def waitValue : Option (BitVec 5) → Byte
  | some w => BitVec.ofNat 8 (128 + w.toNat)
  | none => 0

/-- The 18 bytes of an entry (R170). -/
def entryLayout (e : Entry) : List Byte :=
  [(match e.action with
      | .pass _ => 0
      | .substitute _ _ _ => 1
      | .relocate _ _ => 2
      | .guard _ _ => 3),
    BitVec.ofNat 8
      (e.phases.toNat + 16 * e.fetches.toNat + 32 * e.reads.toNat + 64 * e.writes.toNat + 128 * e.journal.toNat)]
    ++ inThree e.base.toNat ++ inTwo (e.length - 1)
    ++ (match e.action with
      | .pass wait => [0, 0, 0, waitValue wait, 0, 0, 0, 0, 0, 0, 0]
      | .substitute run offset policy =>
        [0, 0, 0, 0, BitVec.ofNat 8 run.val] ++ inTwo offset
          ++ [(match policy with
              | .absorb => 0
              | .discard => 1
              | .refuse => 2), 0, 0, 0]
      | .relocate target wait => inThree target.toNat ++ [waitValue wait, 0, 0, 0, 0, 0, 0, 0]
      | .guard response fill =>
        [0, 0, 0, 0, 0, 0, 0, 0, (match response with
          | .error => 0
          | .quiet => 1)] ++ inTwo fill.toNat)

/-- The 26 configuration bytes (R167). -/
def configLayout (c : SeqConfig) : List Byte :=
  [BitVec.ofNat 8 c.phaseCount, BitVec.ofNat 8 c.initial.toNat,
    (match c.mode with
      | .count => 0
      | .syncStep => 1
      | .syncRestart => 2
      | .mark => 3),
    (match c.qualifier with
      | .fetchOnly => 0
      | .all => 1)]
    ++ inTwo c.lengths[0].toNat ++ inTwo c.lengths[1].toNat ++ inTwo c.lengths[2].toNat ++ inTwo c.lengths[3].toNat
    ++ inThree c.marks[0].toNat ++ inThree c.marks[1].toNat ++ inThree c.marks[2].toNat ++ inThree c.marks[3].toNat
    ++ [(match c.polarity with
        | .rising => 0
        | .falling => 1), c.filter]

/-- The 7 bytes of a device record (R169). -/
def deviceLayout (d : Device) : List Byte :=
  let settings := [BitVec.ofNat 8 d.wait.toNat, if d.mwait then 1#8 else 0#8]
  match d.state with
  | .absent => 0#8 :: (settings ++ [0#8, 0#8, 0#8, 0#8])
  | .online => 1#8 :: (settings ++ [0#8, 0#8, 0#8, 0#8])
  | .fenced a o => 2#8 :: (settings ++ ownerValue o :: inThree a.toNat)

/-- A record after the one carried before it in the same answer, if any (R171). -/
def recordLayout (before : Option JournalRecord) (r : JournalRecord) : List Byte :=
  let numbered : Bool := before.all fun q => r.sequence != q.sequence + 1
  let dated : Bool := before.all fun q => r.generation != q.generation
  [BitVec.ofNat 8
      ((if numbered then 128 else 0) + (if dated then 64 else 0) + (if r.slot = none then 0 else 32)
        + (if r.target = none then 0 else 16)
        + (match r.lanes with
          | .low => 4
          | .high => 8
          | .both => 12)
        + r.phase.toNat)]
    ++ (if numbered then inTwo r.sequence.toNat else [])
    ++ (if dated then inTwo r.generation.toNat else [])
    ++ [BitVec.ofNat 8
        (8 * (r.slot.map Fin.val).getD 0
          + (match r.outcome with
            | .written => 0
            | .absorbed => 1
            | .relocated => 2
            | .discarded => 3
            | .refused => 4
            | .failed => 5))]
    ++ inThree (2 * r.addr.toNat) ++ inTwo r.data.toNat
    ++ (match r.target with
      | some target => inThree (2 * target.toNat)
      | none => [])

/-- The kind codes of R172. -/
def kindCode : Detail → Nat
  | .restarted _ => 0x01
  | .committed _ _ => 0x02
  | .reverted _ _ _ => 0x03
  | .confirmed _ _ => 0x04
  | .epoch _ => 0x05
  | .overrun _ => 0x06
  | .hostReset => 0x07
  | .hostHeld _ _ => 0x08
  | .deviceFenced _ _ _ => 0x09
  | .captureEnded _ _ _ => 0x0A
  | .journalHigh _ => 0x0B
  | .journalLoss _ => 0x0C
  | .guardHit _ _ _ => 0x0D

/-- The 5 detail bytes of R172. -/
def detailBytes : Detail → List Byte
  | .restarted cause => [if cause = .pin then 0 else 1, 0, 0, 0, 0]
  | .committed g b => inTwo g.toNat ++ [boundaryValue b, 0, 0]
  | .reverted g r cause => inTwo g.toNat ++ inTwo r.toNat ++ [if cause = .command then 0 else 1]
  | .confirmed g cause => inTwo g.toNat ++ [if cause = .command then 0 else 1, 0, 0]
  | .epoch n => inFour n.toNat ++ [0]
  | .overrun p => [BitVec.ofNat 8 p.toNat, 0, 0, 0, 0]
  | .hostReset => [0, 0, 0, 0, 0]
  | .hostHeld a k => inThree (2 * a.toNat) ++ [accessValue k, 0]
  | .deviceFenced d a o => BitVec.ofNat 8 d.val :: (inThree a.toNat ++ [ownerValue o])
  | .captureEnded r st w =>
    [BitVec.ofNat 8 r.val, (match st with
      | .done => 2
      | .failed => 3
      | .aborted => 4)] ++ inTwo w ++ [0]
  | .journalHigh n => [BitVec.ofNat 8 n, 0, 0, 0, 0]
  | .journalLoss n => inTwo n.toNat ++ [0, 0, 0]
  | .guardHit slot a k =>
    (match slot with
      | some i => BitVec.ofNat 8 i.val
      | none => 0xFF) :: (inThree (2 * a.toNat) ++ [accessValue k])

/-! ## Overlay RAM, byte by byte -/

/-- The byte address in overlay RAM of a word of a run, in terms of its page list (R44). -/
def wordPlace (pages : List (Fin 128)) (w : Nat) : Option Nat :=
  (pages[w / 128]?).map fun page => 256 * page.val + 2 * (w % 128)

/-- A run word as it stands, its HIGH lane the byte at the odd address (R25, R44). Beyond the page list, which no entry in
range reaches, FFFFh is the model's choice (log 8). -/
def runWord (o : Overlay) (run : Fin 32) (w : Nat) : Word :=
  match wordPlace o.runs[run].pages w with
  | some x => BitVec.ofNat 16 (256 * (ramRead o.ram (x + 1)).toNat + (ramRead o.ram x).toNat)
  | none => 0xFFFF#16

/-- The lanes of a run word replaced: LOW the byte at the even address, HIGH the byte at the odd address, BOTH both (R26,
R126). Beyond the page list nothing is replaced (the model's choice, log 8). -/
def wordReplaced (o : Overlay) (run : Fin 32) (w : Nat) (lanes : Lanes) (v : Word) : Overlay :=
  match wordPlace o.runs[run].pages w with
  | some x =>
    { o with ram :=
        match lanes with
        | .low => ramWrite o.ram x (BitVec.ofNat 8 v.toNat)
        | .high => ramWrite o.ram (x + 1) (BitVec.ofNat 8 (v.toNat / 256))
        | .both => ramWrite (ramWrite o.ram x (BitVec.ofNat 8 v.toNat)) (x + 1) (BitVec.ofNat 8 (v.toNat / 256)) }
  | none => o

/-- What byte `b` of overlay RAM reads as once the lanes of a run word are replaced (R26, R126): byte x under LOW and BOTH,
byte x + 1 under HIGH and BOTH, every other byte as before. Beyond the page list all are as before (the model's choice,
log 8). -/
def byteReplaced (o : Overlay) (run : Fin 32) (w : Nat) (lanes : Lanes) (v : Word) (b : Nat) : Byte :=
  match wordPlace o.runs[run].pages w with
  | some x =>
    if b = x ∧ lanes ≠ .high then BitVec.ofNat 8 v.toNat
    else if b = x + 1 ∧ lanes ≠ .low then BitVec.ofNat 8 (v.toNat / 256)
    else ramRead o.ram b
  | none => ramRead o.ram b

/-- What byte `b` of overlay RAM reads as once an access is decided and carried out (R26): an ABSORB write alone changes
it. -/
def byteAbsorbed (s : State) (a : Access) (b : Nat) : Byte :=
  match a.kind, (s.decide a).disposition with
  | .write, .substitute run w .absorb => byteReplaced s.overlay run w a.lanes a.data b
  | _, _ => ramRead s.overlay.ram b

/-- What byte `b` of overlay RAM reads as once a host-path access on the port has completed (R126): a write to a source word
already copied alone changes it. -/
def byteSnooped (s : State) (p : PortAccess) (b : Nat) : Byte :=
  match s.capture.status, s.capture.job, p.write with
  | .running, some j, some (lanes, w) =>
    if j.source.toNat ≤ 2 * p.addr.toNat ∧ 2 * p.addr.toNat < j.source.toNat + 16 * j.length ∧
        (2 * p.addr.toNat - j.source.toNat) / 2 < s.capture.wordsDone then
      byteReplaced s.overlay j.run (8 * j.offset + (2 * p.addr.toNat - j.source.toNat) / 2) lanes w b
    else ramRead s.overlay.ram b
  | _, _, _ => ramRead s.overlay.ram b

/-! ## Compound events of the spec -/

/-- The response buffer takes an answer with the frame's tag (R165). -/
def answered (t : State) (f : Frame) (status : Status) (payload : List Byte) : State :=
  { t with mpu := { t.mpu with buffer := ⟨f.tag, status, payload⟩ } }

/-- R65. -/
def committed (s : State) (p : PendingCommit) : State :=
  let s1 : State :=
    { s with
      maps := ⟨s.maps.staged, s.maps.staged, Vector.replicate 32 0#16⟩
      gen :=
        ⟨if p.trial then
            .trial ⟨s.maps.active, p.window, p.window, p.window != 0#8, s.gen.generation, false⟩
          else .none,
          s.gen.generation + 1⟩ }
  s1.releaseTest.post (.committed (s.gen.generation + 1) p.boundary)

/-- R69. -/
def confirmed (s : State) (cause : ConfirmCause) : State :=
  let s1 : State := { s with gen := ⟨.none, s.gen.generation⟩ }
  s1.releaseTest.post (.confirmed s.gen.generation cause)

/-- R72. -/
def reverted (s : State) (t : Trial) (cause : RevertCause) : State :=
  let s1 : State :=
    { s with
      maps := ⟨s.maps.staged, t.fallback, Vector.replicate 32 0#16⟩
      gen := ⟨.none, s.gen.generation + 1⟩ }
  s1.releaseTest.post (.reverted (s.gen.generation + 1) t.fallbackGeneration cause)

/-- Generation Control at an epoch boundary (R61, R64, R68). -/
def boundarySeen (s : State) : State :=
  match s.gen.commit with
  | .none => s
  | .pending p =>
    if p.boundary = .epoch ∧ p.due = false then
      if s.inFlight then { s with gen := { s.gen with commit := .pending { p with due := true } } } else committed s p
    else s
  | .trial t =>
    if t.armed then
      if t.windowRemaining.toNat ≤ 1 then confirmed s .window
      else { s with gen := { s.gen with commit := .trial { t with windowRemaining := t.windowRemaining - 1 } } }
    else s

/-- R84. -/
def epochBoundary (s : State) : State :=
  let s1 : State :=
    { s with
      seq :=
        { s.seq with
          phase := s.seq.config.initial
          counter := 0#16
          epochAccesses := 0#32
          epochNumber := s.seq.epochNumber + 1
          parked := false
          overrunPosted := false } }
  boundarySeen (s1.post (.epoch (s.seq.epochNumber + 1)))

/-- (p + 1) mod N. -/
def phaseAfter (q : Seq) : BitVec 2 := BitVec.ofNat 2 ((q.phase.toNat + 1) % q.config.phaseCount)

/-- A new phase visit without a boundary (R83). -/
def steppedTo (q : Seq) (p : BitVec 2) : Seq := { q with phase := p, counter := 0#16, overrunPosted := false }

/-- A saturating 32-bit count (R78). -/
def oneMore (n : BitVec 32) : BitVec 32 := if n = 0xFFFFFFFF#32 then n else n + 1#32

/-- The length and the mark of the current phase (R79). -/
def lengthNow (q : Seq) : Word := q.config.lengths[q.phase.toNat]
def markNow (q : Seq) : Addr := q.config.marks[q.phase.toNat]

/-- R82: an access that qualifies while the sequencer is not parked counts. -/
abbrev Counts (q : Seq) (a : Access) : Prop :=
  (q.config.qualifier = .all ∨ a.kind = .fetch) ∧ q.parked = false

/-- R82: both counters after a counted access. -/
def counted (q : Seq) : Seq :=
  { q with
    counter :=
      if (lengthNow q ≠ 0#16 ∧ lengthNow q ≤ q.counter) ∨ q.counter = 0xFFFF#16 then q.counter else q.counter + 1#16
    epochAccesses := oneMore q.epochAccesses }

/-- The sequencer after the count of R82. -/
def tallied (q : Seq) (a : Access) : Seq := if Counts q a then counted q else q

/-- R85, R87, R88: a counted access makes the phase counter equal to the nonzero length. -/
abbrev Fills (q : Seq) (a : Access) : Prop :=
  Counts q a ∧ lengthNow q ≠ 0#16 ∧ (counted q).counter = lengthNow q

/-- R89: a FETCH ends at the current phase's mark. -/
abbrev AtMark (q : Seq) (a : Access) : Prop := a.kind = .fetch ∧ byteAddr a.addr = markNow q

/-- R83, R84: an advance to (p + 1) mod N, an epoch boundary when it lands on the initial phase. -/
def advanced (s : State) : State :=
  if phaseAfter s.seq = s.seq.config.initial then epochBoundary s
  else { s with seq := steppedTo s.seq (phaseAfter s.seq) }

/-- R87: the count under a ceiling, with OVERRUN once in a visit. -/
def ceilinged (s : State) (a : Access) : State :=
  if Fills s.seq a ∧ s.seq.overrunPosted = false then
    State.post (.overrun s.seq.phase) { s with seq := { tallied s.seq a with overrunPosted := true } }
  else { s with seq := tallied s.seq a }

/-- Step 1 of R31: the count of R82 and the rule of the mode (R85, R87, R88, R89), with its postings and its report to
Generation Control. -/
def sequenced (s : State) (a : Access) : State :=
  match s.seq.config.mode with
  | .count =>
    if Fills s.seq a then advanced { s with seq := tallied s.seq a } else { s with seq := tallied s.seq a }
  | .syncStep => ceilinged s a
  | .syncRestart =>
    if Fills s.seq a then
      if s.seq.phase.toNat + 1 < s.seq.config.phaseCount then
        { s with seq := steppedTo (tallied s.seq a) (phaseAfter s.seq) }
      else
        State.post (.overrun s.seq.phase)
          { s with seq := { tallied s.seq a with parked := true, overrunPosted := true } }
    else { s with seq := tallied s.seq a }
  | .mark => if AtMark s.seq a then advanced (ceilinged s a) else ceilinged s a

/-- The outcome of a recorded write (the table of R32). A DEFAULT write is never recorded; it stands with PASS. -/
def recordedOutcome (d : Decision) (completed : Bool) : WriteOutcome :=
  match d.disposition, completed with
  | .default, true => .written
  | .default, false => .failed
  | .pass _, true => .written
  | .pass _, false => .failed
  | .relocate _ _, true => .relocated
  | .relocate _ _, false => .failed
  | .substitute _ _ .absorb, _ => .absorbed
  | .substitute _ _ .discard, _ => .discarded
  | .guard .quiet _, _ => .discarded
  | .substitute _ _ .refuse, _ => .refused
  | .guard .error _, _ => .refused
  | .lockdown, _ => .refused

/-- The target address of a record: present for RELOCATE, whatever the end (the table of R32). -/
def recordedTarget (d : Decision) : Option WordAddr :=
  match d.disposition with
  | .relocate target _ => some target
  | _ => none

/-- Steps 2 and 3 of R31, and the response: ENDED while the strobe is held, IDLE when it is already negated; the level at the
end decides (the model's choice for a strobe negated and asserted again before, log 22). -/
def handedOver (s : State) (a : Access) (d : Decision) (e : HostResponse) : State :=
  let s1 : State := match d.slot with
    | some i =>
      { s with maps := { s.maps with
          hits := s.maps.hits.set i.val
            (if s.maps.hits[i] = 0xFFFF#16 then 0xFFFF#16 else s.maps.hits[i] + 1#16) } }
    | none => s
  let s2 := if d.journal then
      s1.recordArrives
        { sequence := s1.journal.next, generation := d.generation, phase := d.phase, slot := d.slot,
          addr := a.addr, data := a.data, lanes := a.lanes, outcome := recordedOutcome d e.completed, target := recordedTarget d }
    else s1
  let s3 := match d.disposition with
    | .guard _ _ => s2.post (.guardHit d.slot a.addr a.kind)
    | .lockdown => s2.post (.guardHit d.slot a.addr a.kind)
    | _ => s2
  { s3 with hau :=
      if strobeHeld s a then { s3.hau with state := .ended, response := some e }
      else { s3.hau with state := .idle, access := none, decision := none, response := some e } }

/-- Step 4 of R31 (R62, R64, R71). -/
def switched (s : State) (a : Access) : State :=
  match s.gen.commit with
  | .none => s
  | .pending p =>
    if p.due = true ∨ (a.kind = .fetch ∧ p.boundary = .mark (byteAddr a.addr)) then committed s p else s
  | .trial t => if t.revertDue then reverted s t .command else s

/-- The end of an access (R31). -/
def accessEnded (s : State) (a : Access) (d : Decision) (e : HostResponse) : State :=
  switched (handedOver (sequenced s a) a d e) a

/-- An access that fails at its device or its grant (R28 to R30). -/
def failed (a : Access) : HostResponse := ⟨false, if a.kind = .write then none else some 0xFFFF#16⟩

/-- The access that a host-path grant starts (R29, R100). -/
def hostStrobe (s : State) (a : Access) (d : Decision) (eff : WordAddr) : PortAccess :=
  { owner := .host
    addr := eff
    write := if a.kind = .write then some (a.lanes, a.data) else none
    wait := match d.disposition with
      | .pass (some w) => w
      | .relocate _ (some w) => w
      | _ => s.mpc.devices[deviceOf eff].wait
    mwait := s.mpc.devices[deviceOf eff].mwait
    timeout := s.mpc.timeout
    elapsed := 0
    abandoned := false }

/-- The access that a capture grant starts (R100, R121). -/
def captureStrobe (s : State) (addr : WordAddr) : PortAccess :=
  { owner := .capture
    addr := addr
    write := none
    wait := s.mpc.devices[deviceOf addr].wait
    mwait := s.mpc.devices[deviceOf addr].mwait
    timeout := s.mpc.timeout
    elapsed := 0
    abandoned := false }

/-- The word address of the next word of a capture (R118, R121). -/
def nextWord (s : State) (j : CaptureJob) : WordAddr := BitVec.ofNat 23 ((j.source.toNat + 2 * s.capture.wordsDone) / 2)

/-- A strobe starts: MA takes its offset (R97). -/
def strobing (s : State) (p : PortAccess) : State :=
  { s with mpc := { s.mpc with access := some p, lastOffset := p.addr.setWidth 21 } }

/-- An access whose decision names a device (R24, R28, R29, R110): at once on a free port, waiting on one in use, ended in
error where the device is not ONLINE. -/
def toDevice (s : State) (a : Access) (d : Decision) (eff : WordAddr) : State :=
  if s.mpc.devices[deviceOf eff].state = .online then
    if s.mpc.access = none then
      strobing { s with hau := { s.hau with state := .device, access := some a, decision := some d } }
        (hostStrobe s a d eff)
    else
      { s with
        hau := { s.hau with state := .grant, access := some a, decision := some d }
        mpc := { s.mpc with hostRequest := true } }
  else
    accessEnded { s with hau := { s.hau with state := .immediate, access := some a, decision := some d } } a d (failed a)

/-- An access enters DECIDING and its decision is carried out (R24 to R29). -/
def carriedOut (s : State) (a : Access) : State :=
  let d := s.decide a
  match d.disposition with
  | .substitute run word policy =>
    let s1 : State := { s with hau := { s.hau with state := .overlay, access := some a, decision := some d } }
    if a.kind = .write then
      accessEnded
        (if policy = .absorb then { s1 with overlay := wordReplaced s1.overlay run word a.lanes a.data } else s1)
        a d ⟨policy != .refuse, none⟩
    else accessEnded s1 a d ⟨true, some (runWord s.overlay run word)⟩
  | .guard response fill =>
    accessEnded { s with hau := { s.hau with state := .immediate, access := some a, decision := some d } } a d
      (match response with
        | .error => failed a
        | .quiet => ⟨true, if a.kind = .write then none else some fill⟩)
  | .lockdown =>
    accessEnded { s with hau := { s.hau with state := .immediate, access := some a, decision := some d } } a d (failed a)
  | .default => toDevice s a d a.addr
  | .pass _ => toDevice s a d a.addr
  | .relocate target _ => toDevice s a d target

/-- The snoop of a completed host-path write (R126). -/
def snooped (s : State) (p : PortAccess) : State :=
  match s.capture.status, s.capture.job, p.write with
  | .running, some j, some (lanes, w) =>
    if j.source.toNat ≤ 2 * p.addr.toNat ∧ 2 * p.addr.toNat < j.source.toNat + 16 * j.length ∧
        (2 * p.addr.toNat - j.source.toNat) / 2 < s.capture.wordsDone then
      { s with overlay :=
          wordReplaced s.overlay j.run (8 * j.offset + (2 * p.addr.toNat - j.source.toNat) / 2) lanes w }
    else s
  | _, _, _ => s

/-- The port free (R103, R105). -/
def portFree (s : State) : State := { s with mpc := { s.mpc with access := none } }

/-- The end of a capture (R123). -/
def captureEnded (s : State) (j : CaptureJob) (status : CaptureStatus) (named : EndStatus) : State :=
  let s1 : State :=
    { s with
      capture := { s.capture with status := status, abortPending := false }
      overlay := { s.overlay with runs := s.overlay.runs.set j.run.val ⟨.opened, s.overlay.runs[j.run].pages⟩ }
      mpc := { s.mpc with passOver := 0, captureRequest := false } }
  s1.post (.captureEnded j.run named s.capture.wordsDone)

/-- A device fenced by a timeout (R105), unless it is no longer ONLINE (R106). -/
def fenced (s : State) (p : PortAccess) : State :=
  if s.mpc.devices[deviceOf p.addr].state = .online then
    let s1 : State :=
      { s with mpc := { s.mpc with
          devices := s.mpc.devices.set (deviceOf p.addr).val
            ⟨.fenced (byteAddr p.addr) p.owner, s.mpc.devices[deviceOf p.addr].wait,
              s.mpc.devices[deviceOf p.addr].mwait⟩ } }
    s1.post (.deviceFenced (deviceOf p.addr) (byteAddr p.addr) p.owner)
  else s

/-- The soft reset: every block in its soft-reset state, RESTARTED (SOFT) and the HOST_HELD of a held access posted, the buffer
with OK and the PART.RESET's tag (R1, R21, R39, R56, R75, R96, R117, R132, R146, R158, R175). Contents of overlay RAM
stay; that MA keeps its last offset is the model's choice (log 13). -/
def softlyReset (s : State) (tag : Byte) : State :=
  { s with
    hau := { s.hau with hold := s.straps.hold, lockdown := s.straps.lock }
    maps := ⟨Vector.replicate 32 none, Vector.replicate 32 none, Vector.replicate 32 0#16⟩
    overlay := ⟨Vector.replicate 32 ⟨.unused, []⟩, List.finRange 128, s.overlay.ram⟩
    gen := ⟨.none, 0#16⟩
    seq :=
      ⟨⟨1, 0#2, .count, .all, Vector.replicate 4 0#16, Vector.replicate 4 0#24, .rising, 0#8⟩,
        0#2, 0#16, 0#32, 0#32, false, false, s.pins.epoch, 0⟩
    mpc :=
      ⟨#v[⟨.online, 24#5, true⟩, ⟨.absent, 24#5, true⟩, ⟨.absent, 24#5, true⟩, ⟨.absent, 24#5, true⟩],
        100#8, 4, none, false, false, 0, s.mpc.lastOffset⟩
    capture := ⟨.none, none, 0, false⟩
    journal := ⟨[], 0#16, .keepOldest, 48, true⟩
    notices :=
      ⟨⟨.restarted .soft, 1⟩ ::
          (match s.hau.state, s.hau.access with
            | .held, some a => [⟨.hostHeld a.addr a.kind, 1⟩]
            | _, _ => []),
        0x1FEF#13⟩
    mpu := { s.mpu with buffer := ⟨tag, .ok, []⟩, softReset := none } }

/-- The HAU and the port at a host reset event (R36). -/
def abandoned (s : State) : State :=
  { s with
    hau := if s.hau.state = .idle then s.hau else { s.hau with state := .idle, access := none, decision := none }
    mpc :=
      { s.mpc with
        hostRequest := if s.hau.state = .grant then false else s.mpc.hostRequest
        access :=
          if s.hau.state = .device then
            s.mpc.access.map fun p => if p.owner = .host then { p with abandoned := true } else p
          else s.mpc.access } }

/-- A host reset event up to Generation Control (R36, R95, R159). -/
def resetByHost (s : State) : State :=
  let s1 := abandoned { s with pins := { s.pins with hrst := true } }
  let s2 : State :=
    { s1 with
      seq :=
        { s1.seq with
          phase := s1.seq.config.initial
          counter := 0#16
          epochAccesses := 0#32
          parked := false
          overrunPosted := false } }
  s2.post .hostReset

/-- What an access end leaves once the soft reset that waited for it has taken effect: the response, and the unit in ENDED
while the strobe is held, in IDLE when it is already negated (R31, R39, R175). For a strobe negated and asserted again the
level at the end is the model's choice (log 22). -/
def endedAndReset (s : State) (a : Access) (e : HostResponse) (tag : Byte) : State :=
  softlyReset
    { s with hau :=
      if strobeHeld s a then { s.hau with state := .ended, response := some e }
      else { s.hau with state := .idle, access := none, decision := none, response := some e } }
    tag

/-- A host reset event with Generation Control's part (R74). -/
def hostResetDone (s : State) : State :=
  match s.gen.commit with
  | .none => resetByHost s
  | .pending p => if p.boundary = .reset ∨ p.due = true then committed (resetByHost s) p else resetByHost s
  | .trial t => reverted (resetByHost s) t (if t.revertDue then .command else .hostReset)

/-- The host access of the HAU is on the port (R29), and neither a capture request nor a soft reset waits for its end. -/
abbrev OnDevice (s : State) (a : Access) (d : Decision) (p : PortAccess) : Prop :=
  s.hau.state = .device ∧ s.hau.access = some a ∧ s.hau.decision = some d ∧ s.mpc.access = some p ∧
    p.owner = .host ∧ p.abandoned = false ∧ s.mpc.hostRequest = false ∧ s.mpc.captureRequest = false

/-- The response of a completed strobe (R30, R103). -/
def completedWith (p : PortAccess) (md : Word) : HostResponse := ⟨true, if p.write = none then some md else none⟩

/-- The state in which the completed host access is handed over: the port free, a write snooped (R103, R126). -/
def strobeDone (s : State) (p : PortAccess) : State := snooped (portFree s) p

/-- The request lengths of the table of 10.5 (R167), RUN.WRITE's apart. -/
def requestLength (code : Byte) : Option Nat :=
  match code.toNat with
  | 0x10 => some 19
  | 0x11 => some 1
  | 0x12 => some 2
  | 0x20 => some 1
  | 0x21 => none
  | 0x22 => some 4
  | 0x23 => some 1
  | 0x24 => some 1
  | 0x30 => some 6
  | 0x40 => some 26
  | 0x50 => some 4
  | 0x51 => some 1
  | 0x53 => some 2
  | 0x60 => some 8
  | 0x70 => some 1
  | 0x71 => some 2
  | 0x72 => some 2
  | 0x81 => some 1
  | 0x82 => some 2
  | _ => if codeDefined code then some 0 else none

/-- The codes of the broadcast-capable commands (R166). -/
def broadcastCodes : List Byte := [0x08, 0x30, 0x31, 0x32, 0x33, 0x41]

end Sys2Proof.Claim

open Sys2Proof.Claim

/-! ## The machine as a whole -/

/-- A step takes the command at the front of the queue and executes it with the queue's rest. The queue is the model's
(log 1). -/
def Obligations.StepExecutesFrontCommand : Prop :=
  ∀ (c : Instr) (rest : List Instr) (s : State),
    step { s with pending := c :: rest } = exec c { s with pending := rest }

/-- Every command answers a next state in every state: no rule of the spec stops the part, and `Fault` is empty. -/
def Obligations.EveryCommandAnswersNext : Prop :=
  ∀ (c : Instr) (s : State), ∃ t : State, exec c s = .next t

/-- On an empty queue a step is one CLK period (the model's choice, log 1), at whose end the input lines change to the next
levels (`levelsChange`, log 10): the strobe on the memory port counts its periods and completes or times out by R101,
R102 and R104, and with the port free the EPOCH filter counts and accepts by R90. -/
def Obligations.IdleStepCountsOneClockPeriod : Prop :=
  ∀ s : State, s.pending = [] → s.pins.resetN = false →
    (∀ p, s.mpc.access = some p → s.pins.epoch = s.seq.accepted → s.seq.filterCount = 0 →
      let n := p.elapsed + 1
      let last : Prop := 2 + p.wait.toNat ≤ n ∧ ¬(p.mwait = true ∧ s.pins.mwait = true)
      let late : Prop := p.mwait = true ∧ p.timeout ≠ 0#8 ∧ 64 * p.timeout.toNat ≤ n
      let s1 : State := { s with freeIndex := s.freeIndex + 1 }
      (¬last → ¬late →
        step s = .next (State.levelsChange { s1 with mpc := { s1.mpc with access := some { p with elapsed := n } } })) ∧
        (last → ¬late → ∃ t, exec (.memoryAccessCompletes s.pins.md) s1 = .next t ∧ step s = .next t.levelsChange) ∧
        (¬last → late → ∃ t, exec .accessTimeout s1 = .next t ∧ step s = .next t.levelsChange) ∧
        (last → late →
          ∃ t, (exec (.memoryAccessCompletes s.pins.md) s1 = .next t ∨ exec .accessTimeout s1 = .next t) ∧
            step s = .next t.levelsChange)) ∧
      (s.mpc.access = none →
        let s1 : State := { s with freeIndex := s.freeIndex + 1 }
        (s.pins.epoch = s.seq.accepted →
          step s = .next (State.levelsChange { s1 with seq := { s1.seq with filterCount := 0 } })) ∧
          (s.pins.epoch ≠ s.seq.accepted → s.seq.filterCount + 1 < s.seq.config.filter.toNat →
            step s = .next (State.levelsChange { s1 with seq := { s1.seq with filterCount := s.seq.filterCount + 1 } })) ∧
          (s.pins.epoch ≠ s.seq.accepted → s.seq.config.filter.toNat ≤ s.seq.filterCount + 1 →
            ∃ t, exec .epochTransitionAccepted s1 = .next t ∧ step s = .next t.levelsChange))

/-- R7, R64: the Active map is not changed while an access is in flight. -/
def Obligations.ActiveStandsWhileInFlight : Prop :=
  ∀ s t : State, PortCoherent s → step s = .next t → s.inFlight = true → t.inFlight = true →
    t.maps.active = s.maps.active

/-! ## Invariants -/

/-- The state after reset meets every invariant stated below. -/
def Obligations.ResetStateMeetsInvariants : Prop :=
  RamCanonical State.reset ∧ PagesPartitioned State.reset ∧ EntriesSound State.reset ∧ ReferencesBacked State.reset ∧
    NoticesSound State.reset ∧ JournalSound State.reset ∧ SequencerSound State.reset ∧ WaitsInFlight State.reset ∧
    SpiFollowed State.reset ∧ CaptureCoherent State.reset ∧ RetiringReferenced State.reset

/-- R40, R41: overlay RAM stays in its canonical form, and every page stays on the free list or in exactly one run. -/
def Obligations.StepKeepsPagePool : Prop :=
  ∀ s t : State, RamCanonical s ∧ PagesPartitioned s → step s = .next t → RamCanonical t ∧ PagesPartitioned t

/-- R2 to R6: the entries of all three maps stay within their ranges and windows. -/
def Obligations.StepKeepsEntriesSound : Prop :=
  ∀ s t : State, EntriesSound s → step s = .next t → EntriesSound t

/-- R4, R45, R53: a run that an entry names stays owner of the granules the entry serves. -/
def Obligations.StepKeepsReferencesBacked : Prop :=
  ∀ s t : State, ReferencesBacked s → step s = .next t → ReferencesBacked t

/-- R147, R148: at most one notice of each kind, with a repeat count of 1 to 255. -/
def Obligations.StepKeepsNoticesSound : Prop :=
  ∀ s t : State, NoticesSound s → step s = .next t → NoticesSound t

/-- R133, R137, R139: at most 64 records with distinct numbers, a threshold of 1 to 64, and high armed unless the
threshold is reached. -/
def Obligations.StepKeepsJournalSound : Prop :=
  ∀ s t : State, JournalSound s → step s = .next t → JournalSound t

/-- R78, R79: the phase stays below the phase count, the marks even, and the phase counter within a nonzero length. -/
def Obligations.StepKeepsSequencerSound : Prop :=
  ∀ s t : State, SequencerSound s → step s = .next t → SequencerSound t

/-- R21, R29, R64, R71, R97, R108 to R111, R160, R174, R176: the HAU and the port agree, MA carries the access on the port, no
request waits for a free port, what waits for an access end waits only while an access is in flight, and the MPU is in a
transaction exactly while MCS_N is low. -/
def Obligations.StepKeepsPortCoherentAndWaits : Prop :=
  ∀ s t : State, WaitsInFlight s ∧ SpiFollowed s → step s = .next t → WaitsInFlight t ∧ SpiFollowed t

/-- R43, R118, R131: a FILLING run belongs to the RUNNING capture and is neither live nor pinned. -/
def Obligations.StepKeepsCaptureCoherent : Prop :=
  ∀ s t : State, CaptureCoherent s → step s = .next t → CaptureCoherent t

/-- R53: a RETIRING run stays referred to by a map. -/
def Obligations.StepKeepsRetiringReferenced : Prop :=
  ∀ s t : State, RetiringReferenced s → step s = .next t → RetiringReferenced t

/-! ## Frames and transactions (chapter 10) -/

namespace Sys2Proof.Claim

/-- The lines of the management port while bits are clocked in with MCS_N low: MDI stands at each bit through a low and a high
period of MCK (R160). -/
def clocked (bits : List Bool) : List SpiLines := bits.flatMap fun b => [⟨true, false, b⟩, ⟨true, true, b⟩]

/-- The first period of a transaction and its last two (R160 and its note). -/
def mcsDown : SpiLines := ⟨true, false, false⟩
def mcsUp : List SpiLines := [⟨true, false, false⟩, ⟨false, false, false⟩]

end Sys2Proof.Claim

/-- R160 to R163, R167: the transaction of every well-formed management row decodes to that row; and its bytes clocked in on
the lines, bit 7 first, put that row at the front of the queue when MCS_N rises if its unit field is this unit's or
broadcast, and nothing otherwise. That the MPU hands a command over through the queue is the model's (log 1, 5). -/
def Obligations.TransactionDecodesToItsCommand : Prop :=
  ∀ (i : Instr) (bytes : List Byte), i.wf = true → encodeTransaction i = some bytes →
    goodFrame bytes 0#3 = true ∧ decodeTransaction bytes 0#3 = some i ∧
      ∀ (code : Byte) (f : Frame) (samples rest : List ClockSample) (s : State), frameOfRow i = some (code, f) →
        Listening s → s.pins.script = samples ++ rest →
        samples.map ClockSample.spi = mcsDown :: (clocked (bytes.flatMap bitsMsbFirst) ++ mcsUp) →
        let t := State.levelsChange^[samples.length] s
        t.pins.script = rest ∧
          t =
            { s with
              pending := if f.unit = ownUnit s ∨ f.unit = 7#3 then i :: s.pending else s.pending
              pins := t.pins }

/-- R161, R162, R167: a few frames byte by byte, for units 0, 1, 2 and 7. -/
def Obligations.WrittenFramesDecode : Prop :=
  crc8 [0x31, 0x32, 0x33, 0x34, 0x35, 0x36, 0x37, 0x38, 0x39] = 0x20#8 ∧
    encodeTransaction (.mapClear ⟨1#3, 0xA5#8, [0x1F]⟩) =
      some [0x35, 0xA5, 0x11, 0x01, 0x1F, crc8 [0x35, 0xA5, 0x11, 0x01, 0x1F]] ∧
    decodeTransaction [0x15, 0x01, 0x34, 0x00, crc8 [0x15, 0x01, 0x34, 0x00]] 0#3 = some (.genStatus ⟨0#3, 0x01#8, []⟩) ∧
    decodeTransaction [0xF5, 0x02, 0x41, 0x00, crc8 [0xF5, 0x02, 0x41, 0x00]] 0#3 = some (.seqRestart ⟨7#3, 0x02#8, []⟩) ∧
    decodeTransaction [0x55, 0x03, 0x7F, 0x00, crc8 [0x55, 0x03, 0x7F, 0x00]] 0#3 =
      some (.unknownCommand ⟨2#3, 0x03#8, []⟩ 0x7F#8) ∧
    decodeTransaction [0x45] 0#3 = some (.responseRead 0x45#8 0)

/-- R161, R166, R174, R176: a command frame for another unit, a broadcast of a command that is not broadcast-capable, and a
broadcast in a soft-reset interval change nothing. -/
def Obligations.UnaddressedFrameChangesNothing : Prop :=
  ∀ (i : Instr) (code : Byte) (f : Frame) (s : State), frameOfRow i = some (code, f) → Listening s →
    f.unit ≠ ownUnit s → (f.unit = 7#3 → code ∉ broadcastCodes ∨ s.mpu.softReset ≠ none) → exec i s = .next s

/-- R166: a broadcast of a broadcast-capable command acts as the same command addressed to this unit alone, and leaves the
response buffer as it was. -/
def Obligations.BroadcastActsWithoutResponse : Prop :=
  ∀ command ∈ [Instr.hostRelease, Instr.commit, Instr.commitCancel, Instr.trialConfirm, Instr.trialRevert,
      Instr.seqRestart],
    ∀ (tag : Byte) (payload : List Byte) (s t : State), Listening s → s.mpu.softReset = none →
      exec (command ⟨ownUnit s, tag, payload⟩) s = .next t →
        exec (command ⟨7#3, tag, payload⟩) s = .next { t with mpu := { t.mpu with buffer := s.mpu.buffer } }

/-- R167: a payload of another length than the table gives is answered LENGTH and changes nothing else. -/
def Obligations.WrongLengthAnswersLength : Prop :=
  ∀ (i : Instr) (code : Byte) (f : Frame) (s : State), frameOfRow i = some (code, f) → i ≠ .unknownCommand f code →
    Addressed f s →
    (∀ n, requestLength code = some n → f.payload.length ≠ n) →
    (code = 0x21#8 → f.payload.length < 4 ∨ f.payload.length ≠ 4 + 2 * (f.payload.getD 3 0#8).toNat) →
    exec i s = .next (answered s f .length [])

/-- R174: during a soft-reset interval every good frame for this unit alone is answered BUSY with its own tag, whatever its
code, and is not executed. -/
def Obligations.IntervalAnswersBusy : Prop :=
  ∀ (f : Frame) (s : State), Listening s → s.mpu.softReset.isSome = true → f.unit = ownUnit s →
    (∀ i code, i.wf = true → frameOfRow i = some (code, f) → exec i s = .next (answered s f .busy [])) ∧
      ∀ code, exec (.softResetIntervalBusy f code) s = .next (answered s f .busy [])

namespace Sys2Proof.Claim

/-- The conditions of R163, for a command transaction of whole bytes and `extra` left-over bits: `l` is the length byte. -/
def passesR163 (bytes : List Byte) (extra : BitVec 3) : Bool :=
  let l := (byteAt bytes 3).toNat
  decide ((byteAt bytes 0).toNat % 16 = 5) && decide (extra = 0#3) && decide (l ≤ 40) && decide (bytes.length = 5 + l)
    && decide (crc8 (bytes.take (4 + l)) = byteAt bytes (4 + l))

end Sys2Proof.Claim

/-- R161, R163, R166, R167: a frame error stores FRAME_ERROR with byte 1 as tag (00h when it was not received), in an interval
too, and an undefined code outside an interval stores UNKNOWN; neither changes anything else. A command transaction that
is no good frame and is broadcast, or addressed to another unit or to none, and one without a whole header, change
nothing. -/
def Obligations.BadFrameAndUnknownCodeAnswered : Prop :=
  (∀ (h : Byte) (rest : List Byte) (extra : BitVec 3) (s : State), Listening s → h.toNat / 16 % 2 = 1 →
      passesR163 (h :: rest) extra = false →
      (h.toNat / 32 = s.straps.unit.toNat →
        exec (.frameError (h :: rest) extra) s =
          .next { s with mpu := { s.mpu with buffer := ⟨rest.headD 0#8, .frameError, []⟩ } }) ∧
        (h.toNat / 32 ≠ s.straps.unit.toNat → exec (.frameError (h :: rest) extra) s = .next s)) ∧
    (∀ (extra : BitVec 3) (s : State), Listening s → exec (.frameError [] extra) s = .next s) ∧
    ∀ (f : Frame) (code : Byte) (s : State), Addressed f s → codeDefined code = false →
      exec (.unknownCommand f code) s = .next (answered s f .unknown [])

/-- R160, R161, R165: a response read for this unit drives the tag, the status value, the payload length, the payload and
their CRC, each byte most significant bit first, and 1 in every further bit; another read drives nothing. The buffer
stands. At the lines, the copy is taken with the eighth bit of the header, a falling edge of MCK places the next bit of
the copy whatever the buffer then holds, a rising edge of MCS_N ends the read, and with MCS_N high MCK does nothing.
`mdo` is the model's record of the bits driven (log 12). -/
def Obligations.ResponseReadDrivesBuffer : Prop :=
  (∀ (h : Byte) (clocks : Nat) (s : State), Listening s → headerIsCommand h = false →
    (headerUnit h = ownUnit s → headerMarker h = 0b0101#4 →
      let body := [s.mpu.buffer.tag, statusValue s.mpu.buffer.status, BitVec.ofNat 8 s.mpu.buffer.payload.length]
        ++ s.mpu.buffer.payload
      let copy := (body ++ [crc8 body]).flatMap bitsMsbFirst
      exec (.responseRead h clocks) s =
          .next { s with mpu := { s.mpu with mdo := (copy ++ List.replicate clocks true).take clocks } } ∧
        ∀ (samples rest : List ClockSample) (mdi : List Bool), s.pins.script = samples ++ rest →
          samples.map ClockSample.spi = mcsDown :: clocked (bitsMsbFirst h ++ mdi) →
          let t := State.levelsChange^[samples.length] s
          t =
            { s with
              pins := t.pins
              mpu := { s.mpu with
                port := .answering (copy.drop mdi.length)
                mdo := (copy ++ List.replicate mdi.length true).take mdi.length } }) ∧
      (headerUnit h ≠ ownUnit s ∨ headerMarker h ≠ 0b0101#4 →
        exec (.responseRead h clocks) s = .next { s with mpu := { s.mpu with mdo := [] } })) ∧
    ∀ (s : State) (x : ClockSample) (rest : List ClockSample), s.pins.resetN = false → s.pins.script = x :: rest →
      let s1 : State :=
        { s with pins := { s.pins with epoch := x.epoch, mwait := x.mwait, md := x.md, spi := x.spi, script := rest } }
      (∀ left, s.mpu.port = .answering left → s.pins.spi.mcs = true →
        (x.spi.mcs = true → s.pins.spi.mck = true → x.spi.mck = false →
          s.levelsChange =
              { s1 with mpu := { s1.mpu with
                port := .answering left.tail
                mdo := s.mpu.mdo ++ [if left = [] then true else left.headD true] } } ∧
            s.levelsChange.mdoPin = some (if left = [] then true else left.headD true)) ∧
          (x.spi.mcs = true → (s.pins.spi.mck = true → x.spi.mck = true) → s.levelsChange = s1) ∧
          (x.spi.mcs = false →
            s.levelsChange = { s1 with mpu := { s1.mpu with port := .idle } } ∧ s.levelsChange.mdoPin = none)) ∧
        (s.pins.spi.mcs = false → x.spi.mcs = false → s.levelsChange = s1)

/-! ## Resets -/

/-- R38, R75, R117, R157, R176: an assertion of RESET_N abandons the access, withdraws the strobe and empties the maps, runs,
capture and notices; the release latches the straps and leaves every block in its pin-reset state with RESTARTED (PIN)
as the one notice. What is reset at the assertion and what at the release is the model's reading (log 11), that MA keeps
its last offset is its choice (log 13), and the queue and `freeIndex` are its own fields (log 1, 9). R176: while RESET_N is
asserted a transaction does nothing; with MCS_N low at the release the lines bring no command until MCS_N has risen, and
a whole transaction, which begins at a falling edge, is taken whatever stood before it. -/
def Obligations.PinResetAndRelease : Prop :=
  (∀ s : State, s.pins.resetN = false →
      exec .pinReset s = .next
        { s with
          pins := { s.pins with resetN := true }
          hau := { s.hau with state := .idle, access := none, decision := none, response := none }
          maps := ⟨Vector.replicate 32 none, Vector.replicate 32 none, Vector.replicate 32 0#16⟩
          overlay := ⟨Vector.replicate 32 ⟨.unused, []⟩, List.finRange 128, s.overlay.ram⟩
          gen := ⟨.none, 0#16⟩
          mpc := { s.mpc with access := none, hostRequest := false, captureRequest := false }
          capture := ⟨.none, none, 0, false⟩
          notices := ⟨[], 0x1FEF#13⟩
          mpu := { s.mpu with softReset := none, port := .idle, mdo := [] } }) ∧
    (∀ (i : Instr) (code : Byte) (f : Frame) (s : State), frameOfRow i = some (code, f) →
      (s.pins.resetN = true → exec i s = .next s) ∧
        (s.pins.resetN = false →
          exec i s =
            exec i
              { s with
                pins := { s.pins with spi := { s.pins.spi with mcs := false } }
                mpu := { s.mpu with port := .idle } })) ∧
    (∀ (s : State) (x : ClockSample) (rest : List ClockSample), s.pins.resetN = false → s.mpu.port = .waiting →
      s.pins.spi.mcs = true → s.pins.script = x :: rest →
      s.levelsChange =
        { s with
          pins := { s.pins with epoch := x.epoch, mwait := x.mwait, md := x.md, spi := x.spi, script := rest }
          mpu := { s.mpu with port := if x.spi.mcs then .waiting else .idle } }) ∧
    ∀ (p : ReleasePins) (s : State), s.pins.resetN = true →
      exec (.resetNRelease p) s = .next
        { pending := s.pending
          pins := { s.pins with resetN := false, epoch := p.epoch, spi := { s.pins.spi with mcs := p.mcsLow } }
          straps := ⟨p.unit, p.hold, p.lock⟩
          hau := ⟨.idle, none, none, none, p.hold, p.lock⟩
          maps := ⟨Vector.replicate 32 none, Vector.replicate 32 none, Vector.replicate 32 0#16⟩
          overlay := ⟨Vector.replicate 32 ⟨.unused, []⟩, List.finRange 128, s.overlay.ram⟩
          gen := ⟨.none, 0#16⟩
          seq :=
            ⟨⟨1, 0#2, .count, .all, Vector.replicate 4 0#16, Vector.replicate 4 0#24, .rising, 0#8⟩,
              0#2, 0#16, 0#32, 0#32, false, false, p.epoch, 0⟩
          mpc :=
            ⟨#v[⟨.online, 24#5, true⟩, ⟨.absent, 24#5, true⟩, ⟨.absent, 24#5, true⟩, ⟨.absent, 24#5, true⟩],
              100#8, 4, none, false, false, 0, s.mpc.lastOffset⟩
          capture := ⟨.none, none, 0, false⟩
          journal := ⟨[], 0#16, .keepOldest, 48, true⟩
          notices := ⟨[⟨.restarted .pin, 1⟩], 0x1FEF#13⟩
          mpu := ⟨⟨0#8, .none, []⟩, none, if p.mcsLow then .waiting else .idle, []⟩
          freeIndex := s.freeIndex }

/-- R29, R30, R39, R103, R105, R158, R174, R175: PART.RESET with no access in flight resets at once and leaves OK; with one in
flight it is answered BUSY and waits, and the soft reset takes effect at the end of that access, after step 4, and in a host
reset event that abandons it. The end of an access in flight is a completion of its strobe (read or write), its timeout or
its grant returned unused, with the strobe held or already negated; whichever row ends it, that row and the row
SOFT_RESET_TAKES_EFFECT with it lead to the whole end followed by the reset, of which the unit's state and response alone
remain. The last clause holds of every access the rows can end, a grant that follows a capture word among them (with the
equations of CaptureWordCompletes and TimeoutFencesDevice). The rows that name their event, and that the row leaves a state
as it is where the event ends nothing, are the model's reading (log 2, 3, 19), the premises of a timeout too (log 17), and
MA keeps its last offset by its choice (log 13).
The HAU's state after the end, for a strobe negated and asserted again before it, is the model's choice (log 22). -/
def Obligations.SoftResetNowOrAtAccessEnd : Prop :=
  (∀ (f : Frame) (s : State), Addressed f s → f.payload = [] →
      exec (.partReset f) s = .next
        (if s.inFlight then
          { s with mpu := { s.mpu with buffer := ⟨f.tag, .busy, []⟩, softReset := some f.tag } }
        else softlyReset s f.tag)) ∧
    (∀ (tag : Byte) (a : Access) (d : Decision) (eff : WordAddr) (s : State), s.mpu.softReset = some tag →
      s.hau.access = some a → s.hau.decision = some d → d.effective = some eff →
      (∀ (md : Word) (p : PortAccess), s.hau.state = .device → s.mpc.access = some p → p.owner = .host →
        p.abandoned = false →
        let t := softlyReset (accessEnded (strobeDone s p) a d (completedWith p md)) tag
        exec (.memoryAccessCompletes md) s = .next t ∧ exec (.softResetTakesEffect (.completion md)) s = .next t ∧
          t = endedAndReset (strobeDone s p) a (completedWith p md) tag) ∧
      (∀ p : PortAccess, s.hau.state = .device → s.mpc.access = some p → p.owner = .host → p.abandoned = false →
        p.mwait = true → p.timeout ≠ 0#8 →
        let e : HostResponse := ⟨false, if p.write = none then some 0xFFFF#16 else none⟩
        let t := softlyReset (accessEnded (fenced (portFree s) p) a d e) tag
        exec .accessTimeout s = .next t ∧ exec (.softResetTakesEffect .timeout) s = .next t ∧
          t = endedAndReset s a e tag) ∧
      (s.hau.state = .grant → s.mpc.access = none → s.mpc.hostRequest = true →
        (s.mpc.captureRequest = true → s.mpc.passOver < s.mpc.share) →
        s.mpc.devices[deviceOf eff].state ≠ .online →
        let s1 : State :=
          { s with mpc := { s.mpc with
            hostRequest := false
            passOver := if s.mpc.captureRequest then s.mpc.passOver + 1 else s.mpc.passOver } }
        let t := softlyReset (accessEnded s1 a d (failed a)) tag
        exec .arbiterGrant s = .next t ∧ exec (.softResetTakesEffect .grant) s = .next t ∧
          t = endedAndReset s a (failed a) tag)) ∧
    (∀ (tag : Byte) (s : State), s.mpu.softReset = some tag → s.inFlight = true → s.pins.hrst = false →
      s.pins.resetN = false →
      exec (.softResetTakesEffect .hostReset) s = .next (softlyReset (hostResetDone s) tag)) ∧
    ∀ (tag : Byte) (s t : State), s.mpu.softReset = some tag →
      let after := if t.mpu.softReset = none then t else s
      (∀ md, exec (.memoryAccessCompletes md) s = .next t →
        exec (.softResetTakesEffect (.completion md)) s = .next after) ∧
        (exec .accessTimeout s = .next t → exec (.softResetTakesEffect .timeout) s = .next after) ∧
        (exec .arbiterGrant s = .next t → exec (.softResetTakesEffect .grant) s = .next after)

/-- R36, R74, R95, R159: a host reset event, no soft reset waiting. Asserted HRST_N is no new event. -/
def Obligations.HostResetEventActs : Prop :=
  ∀ s : State, s.pins.resetN = false → s.mpu.softReset = none →
    exec .hostResetEvent s = .next (if s.pins.hrst then s else hostResetDone s)

/-! ## Host port (chapter 2) and lookup (chapter 1) -/

namespace Sys2Proof.Claim

/-- The access that a strobe event makes when both strobes were negated before it: one strobe alone, and at least one lane for a
write (R22). -/
def strobed (h : HostPins) : Option Access :=
  if h.rd && !h.wr then some ⟨if h.fetch then .fetch else .read, h.addr, .both, 0#16⟩
  else if h.wr && !h.rd && (h.low || h.high) then
    some ⟨.write, h.addr, if h.low && h.high then .both else if h.low then .low else .high, h.data⟩
  else none

/-- The strobes on the pins after a strobe event. -/
def asserted (s : State) (h : HostPins) : State :=
  { s with pins := { s.pins with rd := s.pins.rd || h.rd, wr := s.pins.wr || h.wr } }

/-- The strobes on the pins after their negation. -/
def negated (s : State) (rd wr : Bool) : State :=
  { s with pins := { s.pins with rd := s.pins.rd && !rd, wr := s.pins.wr && !wr } }

end Sys2Proof.Claim

/-- R22 to R29: an access that arrives is held with HOST_HELD posted while hold is in force, and otherwise decided and carried
out at once. R26: byte by byte, an ABSORB write replaces the byte at the even address of its run word under LOW, the byte at
the odd address under HIGH and both under BOTH, and no access changes another byte of overlay RAM.
The HAU's state after the end, for a strobe negated and asserted again before it, is the model's choice (log 22). -/
def Obligations.ArrivalHeldOrCarriedOut : Prop :=
  ∀ (h : HostPins) (a : Access) (s : State), s.pins.resetN = false → s.pins.hrst = false → s.hau.state = .idle →
    s.pins.rd = false → s.pins.wr = false → strobed h = some a →
    (s.hau.hold = true →
      exec (.accessArrives h) s = .next
        ({ asserted s h with hau := { s.hau with state := .held, access := some a } }.post (.hostHeld a.addr a.kind))) ∧
      (s.hau.hold = false → s.mpu.softReset = none → PortAtRest s →
        exec (.accessArrives h) s = .next (carriedOut (asserted s h) a) ∧
          (RamCanonical s → ∀ b : Nat, ramRead (carriedOut (asserted s h) a).overlay.ram b = byteAbsorbed s a b))

/-- R22, R37, R38: while RESET_N or HRST_N is asserted, while an access is in hand, with both strobes asserted, with a write
strobe and no lane, or with no strobe newly asserted, a strobe event only changes the pins. -/
def Obligations.StrobeThatIsNoAccessIgnored : Prop :=
  ∀ (h : HostPins) (s : State),
    (s.pins.resetN = true ∨ s.pins.hrst = true ∨ s.hau.state ≠ .idle ∨
        ((s.pins.rd || h.rd) = true ∧ (s.pins.wr || h.wr) = true) ∨
        (h.rd = false ∧ s.pins.rd = false ∧ h.low = false ∧ h.high = false) ∨
        ((h.rd = true → s.pins.rd = true) ∧ (h.wr = true → s.pins.wr = true))) →
      exec (.accessArrives h) s = .next (asserted s h)

/-- R7 to R12: the candidate in the lowest slot decides by its own fields; with no candidate the access takes the default
disposition, or LOCKDOWN for a WRITE in MS0 under lockdown. -/
def Obligations.LowestCandidateDecides : Prop :=
  (∀ (s : State) (a : Access) (i : Fin 32) (e : Entry), DecidedBy s a i e →
      s.decide a =
        { slot := some i
          disposition :=
            match e.action with
            | .pass wait => .pass wait
            | .substitute run offset policy =>
              .substitute run (8 * offset + (2 * a.addr.toNat - e.base.toNat) / 2) policy
            | .relocate target wait =>
              .relocate (BitVec.ofNat 23 ((target.toNat + (2 * a.addr.toNat - e.base.toNat)) / 2)) wait
            | .guard response fill => .guard response fill
          phase := s.seq.phase
          generation := s.gen.generation
          addr := a.addr
          journal :=
            a.kind == .write && (e.journal || match e.action with
              | .guard _ _ => true
              | _ => false) }) ∧
    ∀ (s : State) (a : Access), Undecided s a →
      s.decide a =
        { slot := none
          disposition := if lockedDown s a then .lockdown else .default
          phase := s.seq.phase
          generation := s.gen.generation
          addr := a.addr
          journal := lockedDown s a }

/-- R31: the response is on HRDY_N, HERR_N and HD in ENDED and at no other time; in ENDED, the negation of the access's own
strobe returns the unit to IDLE; in every other case the negation of a strobe, and the negation of HRST_N (R37), change
only the pins. -/
def Obligations.StrobeAndResetNegation : Prop :=
  (∀ s : State,
      (s.hau.state ≠ .ended → s.hrdy = false ∧ s.herr = false ∧ s.hd = none) ∧
        ∀ e, s.hau.state = .ended → s.hau.response = some e →
          s.hrdy = e.completed ∧ s.herr = !e.completed ∧ s.hd = e.data) ∧
    (∀ (rd wr : Bool) (s : State) (a : Access), s.hau.state = .ended → s.hau.access = some a →
      strobeHeld (negated s rd wr) a = false →
      exec (.hostStrobeNegated rd wr) s = .next
        { negated s rd wr with hau := { s.hau with state := .idle, access := none, decision := none } }) ∧
    (∀ (rd wr : Bool) (s : State),
      (s.hau.state ≠ .ended ∨ s.hau.access.all (strobeHeld (negated s rd wr)) = true) →
      exec (.hostStrobeNegated rd wr) s = .next (negated s rd wr)) ∧
    ∀ s : State, exec .hrstNNegated s = .next { s with pins := { s.pins with hrst := false } }

/-- R34, R35: HOST.RELEASE ends hold, and a held access is then decided and carried out (R26: an ABSORB write by its lanes);
LOCKDOWN.CLEAR ends lockdown. Both answer OK in every case.
The HAU's state after the end, for a strobe negated and asserted again before it, is the model's choice (log 22). -/
def Obligations.HoldAndLockdownEndByCommand : Prop :=
  ∀ (f : Frame) (s : State), Addressed f s → f.payload = [] →
    (s.hau.hold = false → exec (.hostRelease f) s = .next (answered s f .ok [])) ∧
      (s.hau.hold = true → s.hau.state ≠ .held →
        exec (.hostRelease f) s = .next (answered { s with hau := { s.hau with hold := false } } f .ok [])) ∧
      (∀ a, s.hau.hold = true → s.hau.state = .held → s.hau.access = some a → PortAtRest s →
        exec (.hostRelease f) s = .next
            (answered (carriedOut { s with hau := { s.hau with hold := false } } a) f .ok []) ∧
          (RamCanonical s → ∀ b : Nat,
            ramRead (carriedOut { s with hau := { s.hau with hold := false } } a).overlay.ram b = byteAbsorbed s a b)) ∧
      exec (.lockdownClear f) s = .next (answered { s with hau := { s.hau with lockdown := false } } f .ok [])

/-! ## Overlay Map commands (chapter 1) -/

namespace Sys2Proof.Claim

/-- The ranges of R2 and R4 to R6 that the layout of R170 can carry, windows apart. -/
def entryInRange (e : Entry) : Bool :=
  decide (e.base.toNat % 16 = 0) && decide (1 ≤ e.length) && decide (e.length ≤ 65536) && e.phases != 0#4
    && (e.fetches || e.reads || e.writes)
    && (match e.action with
      | .substitute _ offset _ => decide (offset ≤ 511)
      | .relocate target _ => decide (target.toNat % 16 = 0)
      | _ => true)

/-- R3: a region lies within one device window. -/
def inOneWindow (base length : Nat) : Bool := decide (base / 0x400000 = (base + 16 * (length - 1)) / 0x400000)

/-- Checks 3 to 6 of R16: the first refusal that applies. -/
def putRefusal (s : State) (e : Entry) : Option Status :=
  if !inOneWindow e.base.toNat e.length then some .range
  else
    match e.action with
    | .relocate target _ => if inOneWindow target.toNat e.length then none else some .range
    | .substitute run offset _ =>
      match s.overlay.runs[run].state with
      | .unused => some .noRun
      | .retiring => some .gone
      | _ => if 16 * s.overlay.runs[run].pages.length < offset + e.length then some .range else none
    | _ => none

/-- Multi-byte fields of a payload, most significant byte first (R167). -/
def twoBytes (p : List Byte) (i : Nat) : Nat := 256 * (byteAt p i).toNat + (byteAt p (i + 1)).toNat
def threeBytes (p : List Byte) (i : Nat) : Nat := 65536 * (byteAt p i).toNat + twoBytes p (i + 1)

/-- The refusals of R170, on a MAP.PUT payload (a slot, then the 18 bytes of the entry): the slot, the kind, the masks and the
base, and then only the bytes that the kind uses. -/
def entryFieldsOk (p : List Byte) : Bool :=
  decide ((byteAt p 0).toNat ≤ 31) && decide ((byteAt p 2).toNat % 16 ≠ 0) && decide ((byteAt p 2).toNat / 16 % 8 ≠ 0)
    && decide (threeBytes p 3 % 16 = 0)
    && (match (byteAt p 1).toNat with
      | 0 => decide ((byteAt p 11).toNat / 32 % 4 = 0)
      | 1 => decide ((byteAt p 12).toNat ≤ 31) && decide (twoBytes p 13 ≤ 511) && decide ((byteAt p 15).toNat ≤ 2)
      | 2 => decide (threeBytes p 8 % 16 = 0) && decide ((byteAt p 11).toNat / 32 % 4 = 0)
      | 3 => decide ((byteAt p 16).toNat ≤ 1)
      | _ => false)

/-- The wait override byte: bit 7 present, bits 4:0 the value (R170). -/
def waitField (b : Byte) : Option (BitVec 5) := if b.toNat < 128 then none else some (BitVec.ofNat 5 b.toNat)

/-- The entry of a MAP.PUT payload (R170), each field from the bytes that carry it. -/
def entryFields (p : List Byte) : Entry where
  base := BitVec.ofNat 24 (threeBytes p 3)
  length := twoBytes p 6 + 1
  phases := BitVec.ofNat 4 (byteAt p 2).toNat
  fetches := decide ((byteAt p 2).toNat / 16 % 2 = 1)
  reads := decide ((byteAt p 2).toNat / 32 % 2 = 1)
  writes := decide ((byteAt p 2).toNat / 64 % 2 = 1)
  journal := decide ((byteAt p 2).toNat / 128 = 1)
  action :=
    match (byteAt p 1).toNat with
    | 0 => .pass (waitField (byteAt p 11))
    | 1 =>
      .substitute (Fin.ofNat 32 (byteAt p 12).toNat) (twoBytes p 13)
        (match (byteAt p 15).toNat with
          | 0 => .absorb
          | 1 => .discard
          | _ => .refuse)
    | 2 => .relocate (BitVec.ofNat 24 (threeBytes p 8)) (waitField (byteAt p 11))
    | _ => .guard (if byteAt p 16 = 0#8 then .error else .quiet) (BitVec.ofNat 16 (twoBytes p 17))

/-- Staged with one slot changed; where the old entry is a SUBSTITUTE entry its reference goes, and the release test is made
(R15, R17, R54). -/
def staged (s : State) (i : Fin 32) (e : Option Entry) : State :=
  let s1 : State := { s with maps := { s.maps with staged := s.maps.staged.set i.val e } }
  match s.maps.staged[i] with
  | some ⟨_, _, _, _, _, _, _, .substitute _ _ _⟩ => s1.releaseTest
  | _ => s1

end Sys2Proof.Claim

/-- R15 to R17, R170: every MAP.PUT of 19 bytes is answered by the first check of R16 that applies: FROZEN, then RANGE for a slot
or a field out of range, each kind by the bytes it uses, then the windows and the run; otherwise the entry of those bytes
is stored in Staged. Every entry within the ranges of R2 and R4 to R6 has such a payload, its layout of R170. -/
def Obligations.MapPutStoresEntry : Prop :=
  ∀ (f : Frame) (s : State), Addressed f s →
    (f.payload.length = 19 →
      exec (.mapPut f) s = .next
        (if s.gen.commit.isPending then answered s f .frozen []
        else if entryFieldsOk f.payload = false then answered s f .range []
        else
          match putRefusal s (entryFields f.payload) with
          | some refusal => answered s f refusal []
          | none =>
            answered (staged s (Fin.ofNat 32 (byteAt f.payload 0).toNat) (some (entryFields f.payload))) f .ok [])) ∧
      ∀ (i : Fin 32) (e : Entry), f.payload = BitVec.ofNat 8 i.val :: entryLayout e → entryInRange e = true →
        f.payload.length = 19 ∧ entryFieldsOk f.payload = true ∧ entryFields f.payload = e ∧
          exec (.mapPut f) s = .next
            (if s.gen.commit.isPending then answered s f .frozen []
            else
              match putRefusal s e with
              | some refusal => answered s f refusal []
              | none => answered (staged s i (some e)) f .ok [])

/-- R18. -/
def Obligations.MapClearEmptiesSlot : Prop :=
  ∀ (f : Frame) (s : State) (b : Byte), Addressed f s → f.payload = [b] →
    (s.gen.commit.isPending = true → exec (.mapClear f) s = .next (answered s f .frozen [])) ∧
      (s.gen.commit.isPending = false → 31 < b.toNat → exec (.mapClear f) s = .next (answered s f .range [])) ∧
      ∀ i : Fin 32, s.gen.commit.isPending = false → i.val = b.toNat →
        exec (.mapClear f) s = .next (answered (staged s i none) f .ok []) ∧
          (staged s i none).maps = { s.maps with staged := s.maps.staged.set i.val none } ∧
          (s.maps.staged[i] = none → staged s i none = s) ∧
          ∀ r : Fin 32, (s.maps.staged[i].any fun e => e.names r) = true → s.overlay.runs[r].state = .retiring →
            (staged s i none).referenced r = false → (staged s i none).overlay.runs[r] = ⟨.unused, []⟩

/-- R19, R170: MAP.READ reports the slot of the map named, with its hit count for Active alone, or refuses RANGE or NO_TRIAL;
it changes nothing. -/
def Obligations.MapReadReportsSlot : Prop :=
  ∀ (f : Frame) (s : State) (m b : Byte), Addressed f s → f.payload = [m, b] →
    (31 < b.toNat ∨ 2 < m.toNat → exec (.mapRead f) s = .next (answered s f .range [])) ∧
      ∀ i : Fin 32, i.val = b.toNat →
        let report := fun (slot : Option Entry) (hits : Word) =>
          answered s f .ok
            ([m, b] ++ (match slot with
              | some e => 1#8 :: entryLayout e
              | none => List.replicate 19 0#8) ++ inTwo hits.toNat ++ inTwo s.gen.generation.toNat)
        (m = 0#8 → exec (.mapRead f) s = .next (report s.maps.staged[i] 0#16)) ∧
          (m = 1#8 → exec (.mapRead f) s = .next (report s.maps.active[i] s.maps.hits[i])) ∧
          (m = 2#8 → ∀ t, s.gen.commit = .trial t → exec (.mapRead f) s = .next (report t.fallback[i] 0#16)) ∧
          (m = 2#8 → s.gen.fallback = none → exec (.mapRead f) s = .next (answered s f .noTrial []))

/-- R20, R54: MAP.RESTAGE copies Active into Staged and makes the release test; FROZEN while a commit is pending. -/
def Obligations.MapRestageCopiesActive : Prop :=
  ∀ (f : Frame) (s : State), Addressed f s → f.payload = [] →
    exec (.mapRestage f) s = .next
      (if s.gen.commit.isPending then answered s f .frozen []
      else
        answered (State.releaseTest { s with maps := { s.maps with staged := s.maps.active } }) f .ok [])

/-! ## Overlay RAM and page runs (chapter 3) -/

namespace Sys2Proof.Claim

/-- R45: a map refers to a run. -/
def refersTo (m : SlotMap) (r : Fin 32) : Bool :=
  (List.finRange 32).any fun i =>
    match m[i] with
    | some ⟨_, _, _, _, _, _, _, .substitute r' _ _⟩ => r' == r
    | _ => false

/-- R45: the three reference flags. -/
def inFallbackMap (s : State) (r : Fin 32) : Bool :=
  match s.gen.commit with
  | .trial t => refersTo t.fallback r
  | _ => false
def isLive (s : State) (r : Fin 32) : Bool := refersTo s.maps.active r || inFallbackMap s r
def isPinned (s : State) (r : Fin 32) : Bool :=
  refersTo s.maps.staged r && (match s.gen.commit with
    | .pending _ => true
    | _ => false)
def isReferenced (s : State) (r : Fin 32) : Bool := refersTo s.maps.staged r || isLive s r

/-- Checks 2 to 7 of R49: the first refusal that applies. -/
def runWriteRefusal (s : State) (r : Fin 32) (w count : Nat) : Option Status :=
  match s.overlay.runs[r].state with
  | .unused => some .noRun
  | .retiring => some .gone
  | .filling => some .busy
  | .opened =>
    if isLive s r then some .live
    else if isPinned s r then some .pinned
    else if 128 * s.overlay.runs[r].pages.length < w + count then some .range
    else none

end Sys2Proof.Claim

/-- R41, R47, R48: RUN.OPEN gives the lowest UNUSED run the first pages of the free list, every byte of them FFh and every
other byte of overlay RAM as it was; or refuses RANGE, NO_RUN, NO_SPACE in that order. -/
def Obligations.RunOpenTakesPages : Prop :=
  ∀ (f : Frame) (s : State) (n : Byte), Addressed f s → f.payload = [n] →
    (n.toNat < 1 ∨ 32 < n.toNat → exec (.runOpen f) s = .next (answered s f .range [])) ∧
      (1 ≤ n.toNat → n.toNat ≤ 32 → (∀ r : Fin 32, s.overlay.runs[r].state ≠ .unused) →
        exec (.runOpen f) s = .next (answered s f .noRun [])) ∧
      ∀ r : Fin 32, 1 ≤ n.toNat → n.toNat ≤ 32 → s.overlay.runs[r].state = .unused →
        (∀ q : Fin 32, q < r → s.overlay.runs[q].state ≠ .unused) →
        (s.overlay.free.length < n.toNat → exec (.runOpen f) s = .next (answered s f .noSpace [])) ∧
          (n.toNat ≤ s.overlay.free.length →
            ∃ ram : List Host.Cell,
              exec (.runOpen f) s = .next
                  (answered
                    { s with overlay :=
                      ⟨s.overlay.runs.set r.val ⟨.opened, s.overlay.free.take n.toNat⟩,
                        s.overlay.free.drop n.toNat, ram⟩ }
                    f .ok [BitVec.ofNat 8 r.val, n]) ∧
                ∀ b : Nat,
                  ramRead ram b =
                    if (s.overlay.free.take n.toNat).any (fun page => page.val == b / 256) then 0xFF#8
                    else ramRead s.overlay.ram b)

/-- R44, R49: RUN.WRITE writes whole words at consecutive word indices of the run and leaves every other byte of overlay RAM
as it was; or refuses by the first check that applies. -/
def Obligations.RunWriteStoresWords : Prop :=
  ∀ (f : Frame) (s : State), Addressed f s →
    (f.payload.length = 4 + 2 * (byteAt f.payload 3).toNat →
      (31 < (byteAt f.payload 0).toNat ∨ byteAt f.payload 3 = 0#8 ∨ 16 < (byteAt f.payload 3).toNat) →
      exec (.runWrite f) s = .next (answered s f .range [])) ∧
      ∀ (r : Fin 32) (w : Nat) (data : List Word), 1 ≤ data.length → data.length ≤ 16 → w ≤ 65535 →
        f.payload = BitVec.ofNat 8 r.val :: (inTwo w ++ BitVec.ofNat 8 data.length :: data.flatMap fun v => inTwo v.toNat) →
        (∀ refusal, runWriteRefusal s r w data.length = some refusal →
          exec (.runWrite f) s = .next (answered s f refusal [])) ∧
        (runWriteRefusal s r w data.length = none →
          ∃ ram : List Host.Cell,
            exec (.runWrite f) s = .next (answered { s with overlay := { s.overlay with ram := ram } } f .ok []) ∧
              (∀ b : Nat,
                (∀ k x, k < data.length → wordPlace s.overlay.runs[r].pages (w + k) = some x → b ≠ x ∧ b ≠ x + 1) →
                ramRead ram b = ramRead s.overlay.ram b) ∧
              (RamCanonical s → s.overlay.runs[r].pages.Nodup → ∀ k x v, data[k]? = some v →
                wordPlace s.overlay.runs[r].pages (w + k) = some x → ramReadWord ram x = v))

/-- R44, R45, R50, R55: RUN.READ answers the words as they stand and RUN.INFO the run's record, its flags and the free-page
count; both change nothing and refuse as their tables say. -/
def Obligations.RunReadAndInfoReport : Prop :=
  (∀ (f : Frame) (s : State) (b c : Byte) (w : Nat), Addressed f s → w ≤ 65535 →
      f.payload = b :: (inTwo w ++ [c]) →
      (31 < b.toNat ∨ c = 0#8 ∨ 16 < c.toNat → exec (.runRead f) s = .next (answered s f .range [])) ∧
        ∀ r : Fin 32, r.val = b.toNat → 1 ≤ c.toNat → c.toNat ≤ 16 →
          exec (.runRead f) s = .next
            (if s.overlay.runs[r].state = .unused then answered s f .noRun []
            else if 128 * s.overlay.runs[r].pages.length < w + c.toNat then answered s f .range []
            else
              answered s f .ok
                (b :: (inTwo w ++ c :: (List.range c.toNat).flatMap fun k =>
                  match wordPlace s.overlay.runs[r].pages (w + k) with
                  | some x => [ramRead s.overlay.ram (x + 1), ramRead s.overlay.ram x]
                  | none => [0xFF#8, 0xFF#8])))) ∧
    ∀ (f : Frame) (s : State) (b : Byte), Addressed f s → f.payload = [b] →
      (31 < b.toNat → exec (.runInfo f) s = .next (answered s f .range [])) ∧
        ∀ r : Fin 32, r.val = b.toNat →
          exec (.runInfo f) s = .next
            (answered s f .ok
              ([b, runStateValue s.overlay.runs[r].state, BitVec.ofNat 8 s.overlay.runs[r].pages.length]
                ++ inTwo (16 * s.overlay.runs[r].pages.length)
                ++ [BitVec.ofNat 8
                    ((refersTo s.maps.staged r).toNat + 2 * (refersTo s.maps.active r).toNat
                      + 4 * (inFallbackMap s r).toNat + 8 * (isLive s r).toNat + 16 * (isPinned s r).toNat),
                  BitVec.ofNat 8 s.overlay.free.length]
                ++ s.overlay.runs[r].pages.map fun page => BitVec.ofNat 8 page.val))

/-- R41, R51, R52: RUN.FREE releases an OPEN run that no map refers to, its pages joining the tail of the free list; an OPEN
run that a map refers to retires; a RETIRING run stays as it is; UNUSED and FILLING runs and ids above 31 are refused. -/
def Obligations.RunFreeReleasesOrRetires : Prop :=
  ∀ (f : Frame) (s : State) (b : Byte), Addressed f s → f.payload = [b] →
    (31 < b.toNat → exec (.runFree f) s = .next (answered s f .range [])) ∧
      ∀ r : Fin 32, r.val = b.toNat →
        exec (.runFree f) s = .next
          (match s.overlay.runs[r].state with
          | .unused => answered s f .noRun []
          | .filling => answered s f .busy []
          | .retiring => answered s f .ok [b, 3#8]
          | .opened =>
            if isReferenced s r then
              answered
                { s with overlay := { s.overlay with
                  runs := s.overlay.runs.set r.val ⟨.retiring, s.overlay.runs[r].pages⟩ } }
                f .ok [b, 3#8]
            else
              answered
                { s with overlay := { s.overlay with
                  runs := s.overlay.runs.set r.val ⟨.unused, []⟩
                  free := s.overlay.free ++ s.overlay.runs[r].pages } }
                f .ok [b, 0#8])

/-- R41, R53: the release test releases every RETIRING run that no map refers to, and no other, the pages joining the tail of
the free list in ascending run id; it changes nothing else. -/
def Obligations.ReleaseTestFreesUnreferenced : Prop :=
  ∀ s : State,
    let goes : Fin 32 → Bool := fun r => s.overlay.runs[r].state == .retiring && !isReferenced s r
    s.releaseTest = { s with overlay := s.releaseTest.overlay } ∧ s.releaseTest.overlay.ram = s.overlay.ram ∧
      (∀ r : Fin 32, s.releaseTest.overlay.runs[r] = if goes r then ⟨.unused, []⟩ else s.overlay.runs[r]) ∧
      s.releaseTest.overlay.free =
        s.overlay.free ++ (List.finRange 32).flatMap fun r => if goes r then s.overlay.runs[r].pages else []

/-! ## Generations, commit and trial (chapter 4) -/

namespace Sys2Proof.Claim

/-- Whether a slot of Staged names a FILLING run (R58, check 4). -/
def namesFilling (s : State) (i : Fin 32) : Bool :=
  match s.maps.staged[i] with
  | some ⟨_, _, _, _, _, _, _, .substitute run _ _⟩ => s.overlay.runs[run].state == .filling
  | _ => false

/-- A COMMIT accepted (R59, R60, R65), with its answer. -/
def commitTaken (s : State) (f : Frame) (p : PendingCommit) : State :=
  if p.boundary = .now then
    if s.inFlight then
      answered { s with gen := ⟨.pending { p with due := true }, s.gen.generation⟩ } f .ok
        (1#8 :: inTwo s.gen.generation.toNat)
    else answered (committed s p) f .ok ((if p.trial then 2#8 else 0#8) :: inTwo (s.gen.generation + 1).toNat)
  else answered { s with gen := ⟨.pending p, s.gen.generation⟩ } f .ok (1#8 :: inTwo s.gen.generation.toNat)

end Sys2Proof.Claim

/-- R58 to R60, R65: a COMMIT is refused PENDING, TRIAL_OPEN, RANGE or INVALID with the lowest offending slot, in that order;
otherwise it waits for its boundary, and NOW takes effect at once or falls due at the end of the access in flight. -/
def Obligations.CommitAcceptedOrRefused : Prop :=
  ∀ (f : Frame) (s : State), Addressed f s → f.payload.length = 6 →
    (∀ p, s.gen.commit = .pending p → exec (.commit f) s = .next (answered s f .pending [])) ∧
      (∀ t, s.gen.commit = .trial t → exec (.commit f) s = .next (answered s f .trialOpen [])) ∧
      (s.gen.commit = .none →
        (3 < (byteAt f.payload 0).toNat ∨ (byteAt f.payload 0 = 2#8 ∧ (byteAt f.payload 3).toNat % 2 = 1) ∨
          1 < (byteAt f.payload 4).toNat →
          exec (.commit f) s = .next (answered s f .range [])) ∧
        ∀ (b : Boundary) (mark : Addr) (trial : Bool) (window : Byte),
          f.payload = boundaryValue b :: (inThree mark.toNat ++ [if trial then 1#8 else 0#8, window]) →
          (∀ a, b = .mark a → a = mark ∧ mark.toNat % 2 = 0) →
          (∀ i : Fin 32, namesFilling s i = true → (∀ j : Fin 32, j < i → namesFilling s j = false) →
            exec (.commit f) s = .next (answered s f .invalid [BitVec.ofNat 8 i.val])) ∧
            ((∀ i : Fin 32, namesFilling s i = false) →
              exec (.commit f) s = .next (commitTaken s f ⟨b, trial, window, false⟩)))

/-- R67: COMMIT.CANCEL removes a pending commit whose boundary has not occurred and changes nothing else; in every other state
it is answered NOT_PENDING and changes nothing. -/
def Obligations.CommitCancelRemovesPending : Prop :=
  ∀ (f : Frame) (s : State), Addressed f s → f.payload = [] →
    (∀ p, s.gen.commit = .pending p → p.due = false →
      exec (.commitCancel f) s = .next (answered { s with gen := { s.gen with commit := .none } } f .ok [])) ∧
      ((∀ p, s.gen.commit = .pending p → p.due = true) →
        exec (.commitCancel f) s = .next (answered s f .notPending []))

/-- R69 to R72: TRIAL.CONFIRM confirms an open trial, TRIAL.REVERT reverts it at once or, with an access in flight, disarms the
window and waits; without an open trial, or once a revert waits, both are answered NO_TRIAL and change nothing. -/
def Obligations.TrialConfirmAndRevert : Prop :=
  ∀ (f : Frame) (s : State), Addressed f s → f.payload = [] →
    (∀ t, s.gen.commit = .trial t → t.revertDue = false →
      exec (.trialConfirm f) s = .next (answered (confirmed s .command) f .ok (inTwo s.gen.generation.toNat)) ∧
        exec (.trialRevert f) s = .next
          (if s.inFlight then
            answered
              { s with gen := { s.gen with
                commit := .trial { t with armed := false, windowRemaining := 0#8, revertDue := true } } }
              f .ok (inTwo s.gen.generation.toNat)
          else answered (reverted s t .command) f .ok (inTwo (s.gen.generation + 1).toNat))) ∧
      ((∀ t, s.gen.commit = .trial t → t.revertDue = true) →
        exec (.trialConfirm f) s = .next (answered s f .noTrial []) ∧
          exec (.trialRevert f) s = .next (answered s f .noTrial []))

/-- R31, R64, R71: a commit or a revert that is due is applied at step 4 of the end of the access in flight, after the
sequencer, the hit, the journal and the response (here the completion of its strobe).
The HAU's state after the end, for a strobe negated and asserted again before it, is the model's choice (log 22). -/
def Obligations.DueChangeAppliedAtAccessEnd : Prop :=
  ∀ (md : Word) (a : Access) (d : Decision) (p : PortAccess) (s : State), OnDevice s a d p → s.mpu.softReset = none →
    d.effective.isSome = true →
    let before := handedOver (sequenced (strobeDone s p) a) a d (completedWith p md)
    (∀ q, s.gen.commit = .pending q → q.due = true →
      exec (.dueCommitApplied (.completion md)) s = .next (committed before q) ∧ before.gen = s.gen) ∧
      ∀ t, s.gen.commit = .trial t → t.revertDue = true → t.armed = false →
        exec (.dueRevertApplied (.completion md)) s = .next (reverted before t .command) ∧ before.gen = s.gen

/-- R68, R69, R84: the epoch boundary that brings window remaining to 0 confirms the trial with cause WINDOW after EPOCH is
posted: here the boundary of a broadcast SEQ.RESTART, and that of an edge accepted in SYNC_RESTART mode. -/
def Obligations.TrialWindowExpiryConfirms : Prop :=
  ∀ (t : Trial) (s : State), Listening s → s.gen.commit = .trial t → t.armed = true → t.windowRemaining = 1#8 →
    let boundary := fun (s1 : State) =>
      State.post (.epoch (s1.seq.epochNumber + 1))
        { s1 with seq :=
          { s1.seq with
            phase := s1.seq.config.initial
            counter := 0#16
            epochAccesses := 0#32
            epochNumber := s1.seq.epochNumber + 1
            parked := false
            overrunPosted := false } }
    (s.mpu.softReset = none → exec (.trialWindowExpiry .restart) s = .next (confirmed (boundary s) .window)) ∧
      (s.seq.config.mode = .syncRestart → s.seq.config.polarity = .rising → s.seq.accepted = false →
        exec (.trialWindowExpiry .transition) s = .next
          (confirmed
            (boundary
              { s with
                pins := { s.pins with epoch := true }
                seq := { s.seq with accepted := true, filterCount := 0 } })
            .window))

/-! ## Phase Sequencer (chapter 5) -/

namespace Sys2Proof.Claim

/-- The fields of R79 within the ranges of R80. -/
def configInRange (c : SeqConfig) : Bool :=
  decide (1 ≤ c.phaseCount) && decide (c.phaseCount ≤ 4) && decide (c.initial.toNat < c.phaseCount)
    && decide (c.marks[0].toNat % 2 = 0) && decide (c.marks[1].toNat % 2 = 0) && decide (c.marks[2].toNat % 2 = 0)
    && decide (c.marks[3].toNat % 2 = 0)

end Sys2Proof.Claim

/-- R80, R93: SEQ.SET takes a configuration in range and restarts the sequencer without a boundary, the epoch number kept and
the filter sampled, and refuses RANGE otherwise; SEQ.RESTART makes an epoch boundary in every mode and answers with the
new epoch number. -/
def Obligations.SeqSetAndRestart : Prop :=
  (∀ (f : Frame) (s : State), Addressed f s →
      (∀ c : SeqConfig, f.payload = configLayout c → configInRange c = true →
        exec (.seqSet f) s = .next
          (answered
            { s with seq :=
              { config := c
                phase := c.initial
                counter := 0#16
                epochAccesses := 0#32
                epochNumber := s.seq.epochNumber
                parked := false
                overrunPosted := false
                accepted := s.pins.epoch
                filterCount := 0 } }
            f .ok [])) ∧
        (f.payload.length = 26 →
          ((byteAt f.payload 0).toNat = 0 ∨ 4 < (byteAt f.payload 0).toNat ∨
            (byteAt f.payload 0).toNat ≤ (byteAt f.payload 1).toNat ∨ 3 < (byteAt f.payload 2).toNat ∨
            1 < (byteAt f.payload 3).toNat ∨ 1 < (byteAt f.payload 24).toNat ∨
            (byteAt f.payload 14).toNat % 2 = 1 ∨ (byteAt f.payload 17).toNat % 2 = 1 ∨
            (byteAt f.payload 20).toNat % 2 = 1 ∨ (byteAt f.payload 23).toNat % 2 = 1) →
          exec (.seqSet f) s = .next (answered s f .range []))) ∧
    ∀ (f : Frame) (s : State), Addressed f s → f.payload = [] →
      exec (.seqRestart f) s = .next (answered (epochBoundary s) f .ok (inFour (s.seq.epochNumber + 1).toNat))

/-- R83, R84, R86, R88, R90, R91: an accepted transition changes the accepted level, and an edge of the selected polarity acts
by the mode: an advance in SYNC_STEP (a boundary when it lands on the initial phase), a boundary in SYNC_RESTART, nothing
in COUNT and MARK. A discarded pulse leaves the level as it was. -/
def Obligations.EpochTransitionActsByMode : Prop :=
  ∀ s : State, s.pins.resetN = false →
    let s1 : State :=
      { s with
        pins := { s.pins with epoch := !s.seq.accepted }
        seq := { s.seq with accepted := !s.seq.accepted, filterCount := 0 } }
    exec .epochTransitionAccepted s = .next
        (if (s.seq.config.polarity = .rising ∧ s.seq.accepted = false) ∨
            (s.seq.config.polarity = .falling ∧ s.seq.accepted = true) then
          match s.seq.config.mode with
          | .syncStep =>
            if phaseAfter s.seq = s.seq.config.initial then epochBoundary s1
            else { s1 with seq := steppedTo s1.seq (phaseAfter s.seq) }
          | .syncRestart => epochBoundary s1
          | .count => s1
          | .mark => s1
        else s1) ∧
      (s.seq.config.filter ≠ 0#8 →
        exec .epochPulseDiscarded s = .next
          { s with pins := { s.pins with epoch := s.seq.accepted }, seq := { s.seq with filterCount := 0 } })

/-- R82, R83, R85, R87 to R89, at the end of an access by the completion of its strobe: an access that does not qualify, or
ends while parked, changes no counter; a counted one that does not fill its phase adds 1 to both counters; at a ceiling
already reached only the epoch access counter grows; one that makes the phase counter equal to a nonzero length advances
in COUNT (a boundary when it lands on the initial phase), advances below the last phase and parks in it in SYNC_RESTART,
and posts OVERRUN once per visit in SYNC_STEP and MARK; and a FETCH at the mark in MARK is counted so and then advances.
That the rows COUNT_ADVANCE, PARK and OVERRUN carry their event is the model's reading (log 3).
The HAU's state after the end, for a strobe negated and asserted again before it, is the model's choice (log 22). -/
def Obligations.FilledPhaseAdvancesParksOrOverruns : Prop :=
  ∀ (md : Word) (a : Access) (d : Decision) (p : PortAccess) (s : State), OnDevice s a d p → s.mpu.softReset = none →
    d.effective.isSome = true →
    let s1 := strobeDone s p
    let q := s.seq
    let more := oneMore q.epochAccesses
    let rest := fun (s2 : State) => switched (handedOver s2 a d (completedWith p md)) a
    let unmarked : Prop := q.config.mode = .mark → ¬AtMark q a
    (¬Counts q a → unmarked → exec (.memoryAccessCompletes md) s = .next (rest s1)) ∧
      (Counts q a → unmarked → (lengthNow q = 0#16 ∨ q.counter.toNat + 1 < (lengthNow q).toNat) →
        exec (.memoryAccessCompletes md) s = .next
          (rest
            { s1 with seq :=
              { q with
                counter := if q.counter = 0xFFFF#16 then q.counter else q.counter + 1#16
                epochAccesses := more } })) ∧
      (Counts q a → lengthNow q ≠ 0#16 → q.counter = lengthNow q → q.overrunPosted = true →
        (q.config.mode = .syncStep ∨ (q.config.mode = .mark ∧ ¬AtMark q a)) →
        exec (.memoryAccessCompletes md) s = .next (rest { s1 with seq := { q with epochAccesses := more } })) ∧
      (q.config.mode = .mark → AtMark q a →
        exec (.memoryAccessCompletes md) s = .next
          (rest
            (if phaseAfter q = q.config.initial then epochBoundary (ceilinged s1 a)
            else { ceilinged s1 a with seq := steppedTo (ceilinged s1 a).seq (phaseAfter q) }))) ∧
      (Counts q a → lengthNow q ≠ 0#16 → q.counter.toNat + 1 = (lengthNow q).toNat →
        (q.config.mode = .count → phaseAfter q ≠ q.config.initial →
          exec (.countAdvance (.completion md)) s = .next
            (rest { s1 with seq := steppedTo { q with epochAccesses := more } (phaseAfter q) })) ∧
          (q.config.mode = .count → phaseAfter q = q.config.initial →
            exec (.countAdvance (.completion md)) s = .next (rest (epochBoundary s1))) ∧
          (q.config.mode = .syncRestart → q.phase.toNat + 1 < q.config.phaseCount →
            exec (.countAdvance (.completion md)) s = .next
              (rest { s1 with seq := steppedTo { q with epochAccesses := more } (phaseAfter q) })) ∧
          (q.config.mode = .syncRestart → q.config.phaseCount ≤ q.phase.toNat + 1 →
            exec (.park (.completion md)) s = .next
              (rest
                (State.post (.overrun q.phase)
                  { s1 with seq :=
                    { q with
                      counter := lengthNow q, epochAccesses := more, parked := true, overrunPosted := true } }))) ∧
          (q.overrunPosted = false → (q.config.mode = .syncStep ∨ (q.config.mode = .mark ∧ ¬AtMark q a)) →
            exec (.overrun (.completion md)) s = .next
              (rest
                (State.post (.overrun q.phase)
                  { s1 with seq :=
                    { q with counter := lengthNow q, epochAccesses := more, overrunPosted := true } }))))

/-! ## Memory port and capture (chapters 6 and 7) -/

/-- R113 to R115: DEV.SET, DEV.RESTORE and PORT.SET write the settings their payloads carry, answer as R167 lays out, and refuse
RANGE for a field out of range; presence and restore act on the state by their tables. -/
def Obligations.DeviceAndPortSettings : Prop :=
  ∀ (f : Frame) (s : State), Addressed f s →
    (∀ n pr w mw : Byte, f.payload = [n, pr, w, mw] →
      (3 < n.toNat ∨ 1 < pr.toNat ∨ 31 < w.toNat ∨ 1 < mw.toNat →
        exec (.devSet f) s = .next (answered s f .range [])) ∧
        ∀ d : Fin 4, d.val = n.toNat → pr.toNat ≤ 1 → w.toNat ≤ 31 → mw.toNat ≤ 1 →
          let after : DeviceState :=
            if pr = 0#8 then .absent
            else
              match s.mpc.devices[d].state with
              | .fenced a o => .fenced a o
              | _ => .online
          exec (.devSet f) s = .next
            (answered
              { s with mpc := { s.mpc with
                devices := s.mpc.devices.set d.val ⟨after, w.setWidth 5, mw == 1#8⟩ } }
              f .ok
              (match after with
                | .absent => [n, 0#8, w, mw, 0#8, 0#8, 0#8, 0#8]
                | .online => [n, 1#8, w, mw, 0#8, 0#8, 0#8, 0#8]
                | .fenced a o => [n, 2#8, w, mw, (if o = .host then 1#8 else 2#8)] ++ inThree a.toNat))) ∧
      (∀ n : Byte, f.payload = [n] →
        (3 < n.toNat → exec (.devRestore f) s = .next (answered s f .range [])) ∧
          ∀ d : Fin 4, d.val = n.toNat →
            exec (.devRestore f) s = .next
              (match s.mpc.devices[d].state with
              | .fenced _ _ =>
                answered
                  { s with mpc := { s.mpc with
                    devices := s.mpc.devices.set d.val ⟨.online, s.mpc.devices[d].wait, s.mpc.devices[d].mwait⟩ } }
                  f .ok []
              | .online => answered s f .ok []
              | .absent => answered s f .absent [])) ∧
      ∀ t k : Byte, f.payload = [t, k] →
        exec (.portSet f) s = .next
          (if k.toNat = 0 ∨ 16 < k.toNat then answered s f .range []
          else answered { s with mpc := { s.mpc with timeout := t, share := k.toNat } } f .ok [])

/-- R29, R100, R108 to R112, R121, R124: the arbiter's grant on a free port. One request is granted without a contention; of two
the host wins while the pass-over count is below the share, and the capture otherwise; a grant whose device is not ONLINE
is returned, the host access ending in error and the capture FAILED (ABORTED when an abort was pending), and the arbiter
grants again what then waits. On a port in use, or with no request, nothing is granted. That the row is the arbiter's own
decision is the model's reading (log 4).
The HAU's state after the end, for a strobe negated and asserted again before it, is the model's choice (log 22). -/
def Obligations.ArbiterGrantsByPassOver : Prop :=
  (∀ s : State, (s.mpc.access.isSome = true ∨ (s.mpc.hostRequest = false ∧ s.mpc.captureRequest = false)) →
      exec .arbiterGrant s = .next s) ∧
    (∀ (a : Access) (d : Decision) (eff : WordAddr) (s : State), s.mpc.access = none → s.hau.access = some a →
      s.hau.decision = some d → d.effective = some eff → s.mpc.hostRequest = true →
      (s.mpc.captureRequest = true → s.mpc.passOver < s.mpc.share) →
      let s1 : State :=
        { s with mpc := { s.mpc with
          hostRequest := false
          passOver := if s.mpc.captureRequest then s.mpc.passOver + 1 else s.mpc.passOver } }
      (s.mpc.devices[deviceOf eff].state = .online →
        exec .arbiterGrant s = .next
          (strobing { s1 with hau := { s1.hau with state := .device } } (hostStrobe s1 a d eff))) ∧
        (s.mpc.devices[deviceOf eff].state ≠ .online → s.mpu.softReset = none →
          (s.mpc.captureRequest = false → exec .arbiterGrant s = .next (accessEnded s1 a d (failed a))) ∧
            exec .arbiterGrant s = exec .arbiterGrant (accessEnded s1 a d (failed a)))) ∧
    ∀ (j : CaptureJob) (s : State), s.mpc.access = none → s.capture.job = some j → s.mpc.captureRequest = true →
      (s.mpc.hostRequest = true → s.mpc.share ≤ s.mpc.passOver) →
      let s1 : State :=
        { s with mpc := { s.mpc with
          captureRequest := false
          passOver := if s.mpc.hostRequest then 0 else s.mpc.passOver } }
      (s.mpc.devices[deviceOf (nextWord s j)].state = .online →
        exec .arbiterGrant s = .next (strobing s1 (captureStrobe s1 (nextWord s j)))) ∧
        ∀ cause : CaptureCause,
          ((cause = .fenced ∧ ∃ b o, s.mpc.devices[deviceOf (nextWord s j)].state = .fenced b o) ∨
            (cause = .absent ∧ s.mpc.devices[deviceOf (nextWord s j)].state = .absent)) →
          let s2 :=
            if s.capture.abortPending then captureEnded s1 j .aborted .aborted else captureEnded s1 j (.failed cause) .failed
          (s.mpc.hostRequest = false → exec .arbiterGrant s = .next s2) ∧ exec .arbiterGrant s = exec .arbiterGrant s2

/-- R30, R31, R36, R103, R111, R126: the completion of a host-path strobe frees the port, offers a write to the snoop, and ends
the host access with the word on MD; of an access that a host reset abandoned nothing more comes. The arbiter then makes
its grant: a waiting capture word starts on its ONLINE device. R126: byte by byte, a completed write to a source word already
copied replaces the byte at the even address of the run word under LOW, the byte at the odd address under HIGH and both
under BOTH, and nothing else changes a byte of overlay RAM. R97, R100: while an access is on the port its pins carry
it, and on a free port they are negated and MA keeps its offset.
The HAU's state after the end, for a strobe negated and asserted again before it, is the model's choice (log 22). -/
def Obligations.HostStrobeCompletes : Prop :=
  (∀ (md : Word) (p : PortAccess) (s : State), s.mpc.access = some p → p.owner = .host →
    (RamCanonical s → (p.abandoned = true ∨ ∃ d, s.hau.decision = some d ∧ d.effective.isSome = true) →
      ∃ t, exec (.memoryAccessCompletes md) s = .next t ∧ ∀ b : Nat, ramRead t.overlay.ram b = byteSnooped s p b) ∧
    (∀ (a : Access) (d : Decision), s.hau.state = .device → s.hau.access = some a → s.hau.decision = some d →
      d.effective.isSome = true → p.abandoned = false → s.mpu.softReset = none → s.mpc.hostRequest = false →
      let t := accessEnded (strobeDone s p) a d (completedWith p md)
      (s.mpc.captureRequest = false → exec (.memoryAccessCompletes md) s = .next t) ∧
        (∀ j, s.mpc.captureRequest = true → s.capture.job = some j →
          s.mpc.devices[deviceOf (nextWord s j)].state = .online →
          exec (.memoryAccessCompletes md) s = .next
            (strobing { t with mpc := { t.mpc with captureRequest := false } } (captureStrobe s (nextWord s j)))) ∧
        exec (.memoryAccessCompletes md) s = exec .arbiterGrant t) ∧
      (p.abandoned = true →
        (s.mpc.hostRequest = false → s.mpc.captureRequest = false →
          exec (.memoryAccessCompletes md) s = .next (strobeDone s p)) ∧
          exec (.memoryAccessCompletes md) s = exec .arbiterGrant (strobeDone s p))) ∧
    (∀ (p : PortAccess) (s : State), s.mpc.access = some p →
      s.ms.map Fin.val = some (2 * p.addr.toNat / 0x400000) ∧ s.mrd = decide (p.write = none) ∧
        s.mwr = decide (p.write ≠ none) ∧ s.mbe = some ((p.write.map Prod.fst).getD .both) ∧
        s.mdOut = p.write.map Prod.snd ∧ (PortCoherent s → s.ma.toNat = p.addr.toNat % 0x200000)) ∧
    ∀ s : State, s.ma = s.mpc.lastOffset ∧
      (s.mpc.access = none → s.ms = none ∧ s.mrd = false ∧ s.mwr = false ∧ s.mbe = none ∧ s.mdOut = none)

/-- R110, R111, R122, R123, R128: the completion of a capture word writes the word whole into its run word, its two bytes and no
other byte of overlay RAM, and counts it; the
capture then ends ABORTED or DONE, or asks for its next word, and the arbiter makes its grant: the next word at once when
no host access waits or at the share, the host access below the share or after the capture's end. -/
def Obligations.CaptureWordCompletes : Prop :=
  ∀ (md : Word) (j : CaptureJob) (p : PortAccess) (s : State), s.mpc.access = some p → p.owner = .capture →
    s.capture.job = some j → s.mpc.captureRequest = false →
    let s1 : State :=
      { s with
        mpc := { s.mpc with access := none }
        overlay := wordReplaced s.overlay j.run (8 * j.offset + s.capture.wordsDone) .both md
        capture := { s.capture with wordsDone := s.capture.wordsDone + 1 } }
    let next := nextWord s1 j
    let more : Prop := s.capture.abortPending = false ∧ s.capture.wordsDone + 1 ≠ 8 * j.length
    let ended := captureEnded s1 j (if s.capture.abortPending then .aborted else .done)
      (if s.capture.abortPending then .aborted else .done)
    (RamCanonical s →
      ∃ t, exec (.memoryAccessCompletes md) s = .next t ∧
        ∀ b : Nat, ramRead t.overlay.ram b =
          byteReplaced s.overlay j.run (8 * j.offset + s.capture.wordsDone) .both md b) ∧
    (¬more →
      (s.mpc.hostRequest = false → exec (.memoryAccessCompletes md) s = .next ended) ∧
        (∀ (a : Access) (d : Decision) (eff : WordAddr), s.mpc.hostRequest = true → s.hau.access = some a →
          s.hau.decision = some d → d.effective = some eff → s.mpc.devices[deviceOf eff].state = .online →
          exec (.memoryAccessCompletes md) s = .next
            (strobing
              { ended with
                hau := { s.hau with state := .device }
                mpc := { ended.mpc with hostRequest := false } }
              (hostStrobe s a d eff))) ∧
        exec (.memoryAccessCompletes md) s = exec .arbiterGrant ended) ∧
      (more →
        ((s.mpc.hostRequest = true → s.mpc.share ≤ s.mpc.passOver) → s.mpc.devices[deviceOf next].state = .online →
          exec (.memoryAccessCompletes md) s = .next
            (strobing
              { s1 with mpc := { s1.mpc with passOver := if s.mpc.hostRequest then 0 else s.mpc.passOver } }
              (captureStrobe s1 next))) ∧
          (∀ (a : Access) (d : Decision) (eff : WordAddr), s.mpc.hostRequest = true → s.hau.access = some a →
            s.hau.decision = some d → d.effective = some eff → s.mpc.devices[deviceOf eff].state = .online →
            s.mpc.passOver < s.mpc.share →
            exec (.memoryAccessCompletes md) s = .next
              (strobing
                { s1 with
                  hau := { s1.hau with state := .device }
                  mpc := { s1.mpc with hostRequest := false, captureRequest := true, passOver := s.mpc.passOver + 1 } }
                (hostStrobe s1 a d eff))) ∧
          exec (.memoryAccessCompletes md) s =
            exec .arbiterGrant { s1 with mpc := { s1.mpc with captureRequest := true } })

/-- R30, R104 to R106, R111, R125: a timeout frees the port, fences a device that is ONLINE with DEVICE_FENCED posted, and then
ends the host access in error or the capture FAILED; of an abandoned host access nothing more comes. The arbiter then
makes its grant. The premises under which a timeout occurs are the model's reading (log 17).
The HAU's state after the end, for a strobe negated and asserted again before it, is the model's choice (log 22). -/
def Obligations.TimeoutFencesDevice : Prop :=
  ∀ (p : PortAccess) (s : State), s.mpc.access = some p → p.mwait = true → p.timeout ≠ 0#8 →
    let free := fenced (portFree s) p
    (∀ (a : Access) (d : Decision), p.owner = .host → p.abandoned = false → s.hau.state = .device →
      s.hau.access = some a → s.hau.decision = some d → d.effective.isSome = true → s.mpu.softReset = none →
      s.mpc.hostRequest = false →
      let t := accessEnded free a d ⟨false, if p.write = none then some 0xFFFF#16 else none⟩
      (s.mpc.captureRequest = false → exec .accessTimeout s = .next t) ∧
        (∀ j, s.mpc.captureRequest = true → s.capture.job = some j →
          free.mpc.devices[deviceOf (nextWord s j)].state = .online →
          exec .accessTimeout s = .next
            (strobing { t with mpc := { t.mpc with captureRequest := false } } (captureStrobe s (nextWord s j)))) ∧
        exec .accessTimeout s = exec .arbiterGrant t) ∧
      (p.owner = .host → p.abandoned = true →
        (s.mpc.hostRequest = false → s.mpc.captureRequest = false → exec .accessTimeout s = .next free) ∧
          exec .accessTimeout s = exec .arbiterGrant free) ∧
      ∀ j, p.owner = .capture → s.capture.job = some j →
        let ended :=
          if s.capture.abortPending then captureEnded free j .aborted .aborted
          else captureEnded free j (.failed .timeout) .failed
        (s.mpc.hostRequest = false → exec .accessTimeout s = .next ended) ∧
          exec .accessTimeout s = exec .arbiterGrant ended

namespace Sys2Proof.Claim

/-- Checks 2 to 9 of R119: the first refusal that applies. -/
def captureStartRefusal (s : State) (j : CaptureJob) : Option Status :=
  if s.capture.status = .running then some .busy
  else if s.overlay.runs[j.run].state = .unused then some .noRun
  else if s.overlay.runs[j.run].state = .retiring then some .gone
  else if isLive s j.run then some .live
  else if isPinned s j.run then some .pinned
  else if 16 * s.overlay.runs[j.run].pages.length < j.offset + j.length then some .range
  else
    match s.mpc.devices[deviceOf (wordAddr j.source.toNat)].state with
    | .fenced _ _ => some .fenced
    | .absent => some .absent
    | .online => none

end Sys2Proof.Claim

/-- R110, R119, R120, R123, R128: CAPTURE.START refuses by the first check that applies or starts the capture, whose first word
goes onto a free port at once and waits for one in use; CAPTURE.ABORT ends a capture whose request waits, marks one whose
word is on the port, and is answered IDLE when none runs. -/
def Obligations.CaptureStartAndAbort : Prop :=
  (∀ (f : Frame) (s : State), Addressed f s → f.payload.length = 8 → 31 < (byteAt f.payload 0).toNat →
      exec (.captureStart f) s = .next (answered s f .range [])) ∧
    (∀ (f : Frame) (s : State) (j : CaptureJob), Addressed f s →
      f.payload = BitVec.ofNat 8 j.run.val :: (inTwo j.offset ++ inThree j.source.toNat ++ inTwo j.length) →
      j.offset ≤ 65535 → j.length ≤ 65535 →
      (511 < j.offset ∨ j.length = 0 ∨ 512 < j.length ∨ j.source.toNat % 16 ≠ 0 ∨
          inOneWindow j.source.toNat j.length = false →
        exec (.captureStart f) s = .next (answered s f .range [])) ∧
        (j.offset ≤ 511 → 1 ≤ j.length → j.length ≤ 512 → j.source.toNat % 16 = 0 →
          inOneWindow j.source.toNat j.length = true →
          (∀ refusal, captureStartRefusal s j = some refusal →
            exec (.captureStart f) s = .next (answered s f refusal [])) ∧
          (captureStartRefusal s j = none →
            let s1 : State :=
              { s with
                overlay := { s.overlay with runs := s.overlay.runs.set j.run.val ⟨.filling, s.overlay.runs[j.run].pages⟩ }
                capture := ⟨.running, some j, 0, false⟩ }
            let report := BitVec.ofNat 8 j.run.val :: inTwo (8 * j.length)
            (s.mpc.access = none → s.mpc.hostRequest = false → s.mpc.captureRequest = false →
              exec (.captureStart f) s = .next
                (answered (strobing s1 (captureStrobe s1 (wordAddr j.source.toNat))) f .accepted report)) ∧
              (s.mpc.access.isSome = true →
                exec (.captureStart f) s = .next
                  (answered { s1 with mpc := { s1.mpc with captureRequest := true } } f .accepted report))))) ∧
    ∀ (f : Frame) (s : State), Addressed f s → f.payload = [] →
      (∀ j, s.capture.status = .running → s.capture.job = some j →
        exec (.captureAbort f) s = .next
          (if s.mpc.captureRequest then
            answered (captureEnded s j .aborted .aborted) f .ok (inTwo s.capture.wordsDone)
          else
            answered { s with capture := { s.capture with abortPending := true } } f .ok
              (inTwo s.capture.wordsDone))) ∧
        (s.capture.status ≠ .running → exec (.captureAbort f) s = .next (answered s f .idle []))

/-! ## Write Journal (chapter 8) -/

namespace Sys2Proof.Claim

/-- The layouts of consecutive records after the one carried before them, if any (R171). -/
def layouts : Option JournalRecord → List JournalRecord → List Byte
  | _, [] => []
  | before, r :: rs => recordLayout before r ++ layouts (some r) rs

end Sys2Proof.Claim

/-- R140, R141, R171: JOURNAL.READ carries the oldest records, as many as asked, held and fitting in 36 bytes, and changes
nothing; JOURNAL.ACK removes the records through the one named, or is answered NOT_HELD. -/
def Obligations.JournalReadAndAck : Prop :=
  (∀ (f : Frame) (s : State) (n : Byte), Addressed f s → f.payload = [n] →
      (n = 0#8 ∨ 4 < n.toNat → exec (.journalRead f) s = .next (answered s f .range [])) ∧
        (1 ≤ n.toNat → n.toNat ≤ 4 →
          ∃ k ≤ min n.toNat s.journal.records.length,
            (layouts none (s.journal.records.take k)).length ≤ 36 ∧
              (k < min n.toNat s.journal.records.length →
                36 < (layouts none (s.journal.records.take (k + 1))).length) ∧
              exec (.journalRead f) s = .next
                (answered s f .ok
                  (BitVec.ofNat 8 s.journal.records.length :: (inTwo s.journal.next.toNat ++ BitVec.ofNat 8 k ::
                    layouts none (s.journal.records.take k)))))) ∧
    ∀ (f : Frame) (s : State) (n : Word), Addressed f s → f.payload = inTwo n.toNat →
      ((∀ r ∈ s.journal.records, r.sequence ≠ n) → exec (.journalAck f) s = .next (answered s f .notHeld [])) ∧
        ∀ before r rest, s.journal.records = before ++ r :: rest → r.sequence = n →
          (∀ q ∈ before, q.sequence ≠ n) →
          exec (.journalAck f) s = .next
            (answered
              { s with journal := { s.journal with
                records := rest
                highArmed := s.journal.highArmed || decide (rest.length < s.journal.threshold) } }
              f .ok
              ([BitVec.ofNat 8 (before.length + 1), BitVec.ofNat 8 rest.length] ++ (match rest with
                | q :: _ => inTwo q.sequence.toNat
                | [] => [0#8, 0#8])))

/-- R143. -/
def Obligations.JournalSetTakesSettings : Prop :=
  ∀ (f : Frame) (s : State) (pol th : Byte), Addressed f s → f.payload = [pol, th] →
    (1 < pol.toNat ∨ th = 0#8 ∨ 64 < th.toNat → exec (.journalSet f) s = .next (answered s f .range [])) ∧
      ∀ policy : JournalPolicy, pol = (if policy = .keepOldest then 0#8 else 1#8) → 1 ≤ th.toNat → th.toNat ≤ 64 →
        exec (.journalSet f) s = .next
            (answered
              { s with journal := { s.journal with
                policy := policy
                threshold := th.toNat
                highArmed := if s.journal.records.length < th.toNat then true else s.journal.highArmed } }
              f .ok [BitVec.ofNat 8 s.journal.records.length]) ∧
          (JournalSound s → policy = s.journal.policy → th.toNat = s.journal.threshold →
            exec (.journalSet f) s = .next (answered s f .ok [BitVec.ofNat 8 s.journal.records.length]))

/-- R136 to R139: the arrival of a record, its number given: dropped where a held record carries the number, appended below 64
records, and in a full list dropped or put in the place of the oldest by the policy; each loss posts JOURNAL_LOSS with the
number lost, and then the threshold test posts JOURNAL_HIGH once while armed. -/
def Obligations.RecordArrivalKeepsOrLoses : Prop :=
  ∀ (s : State) (r : JournalRecord),
    let held := s.journal.records
    let outcome : List JournalRecord × Option Word :=
      if held.any (fun q => q.sequence == r.sequence) then (held, some r.sequence)
      else if held.length < 64 then (held ++ [r], none)
      else if s.journal.policy = .keepOldest then (held, some r.sequence)
      else (held.tail ++ [r], held.head?.map JournalRecord.sequence)
    let high := s.journal.highArmed && decide (s.journal.threshold ≤ outcome.1.length)
    let s1 : State :=
      { s with journal := { s.journal with
        records := outcome.1
        next := s.journal.next + 1
        highArmed := s.journal.highArmed && !high } }
    let s2 := match outcome.2 with
      | some n => s1.post (.journalLoss n)
      | none => s1
    s.recordArrives r = if high then s2.post (.journalHigh outcome.1.length) else s2

/-! ## Notices (chapter 9) -/

/-- R148, R149: a posting of a kind that is not held appends a notice with repeat count 1; of a held kind it adds 1 to that
notice's repeat count, up to 255, and changes no other notice and no order. It changes nothing else. -/
def Obligations.PostingAppendsOrRepeats : Prop :=
  ∀ (d : Detail) (s : State),
    s.post d = { s with notices := (s.post d).notices } ∧ (s.post d).notices.mask = s.notices.mask ∧
      ((∀ n ∈ s.notices.queue, kindCode n.detail ≠ kindCode d) → (s.post d).notices.queue = s.notices.queue ++ [⟨d, 1⟩]) ∧
      ((∃ n ∈ s.notices.queue, kindCode n.detail = kindCode d) →
        ∀ i : Nat, (s.post d).notices.queue[i]? = s.notices.queue[i]?.map fun n =>
          if kindCode n.detail = kindCode d then ⟨n.detail, min 255 (n.count + 1)⟩ else n)

namespace Sys2Proof.Claim

/-- R152: some held notice is of an enabled kind, RESET_N being negated. -/
def drivesAlert (s : State) (mask : BitVec 13) : Bool :=
  !s.pins.resetN && s.notices.queue.any fun n => mask.getLsbD (kindCode n.detail - 1)

/-- The mask bytes of R172. -/
def maskAnswer (mask : BitVec 13) : List Byte := [BitVec.ofNat 8 (mask.toNat / 256), BitVec.ofNat 8 mask.toNat]

end Sys2Proof.Claim

/-- R152 to R154, R172: NOTICE.READ answers the 24 bytes of R172 and changes nothing; NOTICE.ACK removes the notice of the kind
named and answers its repeat count and the number still held, or refuses RANGE or NOT_HELD. -/
def Obligations.NoticeReadAndAck : Prop :=
  (∀ (f : Frame) (s : State), Addressed f s → f.payload = [] →
      exec (.noticeRead f) s = .next
        (answered s f .ok
          (BitVec.ofNat 8 s.notices.queue.length :: (s.notices.queue.map (fun n => BitVec.ofNat 8 (kindCode n.detail))
            ++ List.replicate (13 - s.notices.queue.length) 0#8
            ++ (match s.notices.queue with
              | n :: _ => [BitVec.ofNat 8 (kindCode n.detail), BitVec.ofNat 8 n.count] ++ detailBytes n.detail
              | [] => List.replicate 7 0#8)
            ++ maskAnswer s.notices.mask ++ [if drivesAlert s s.notices.mask then 1#8 else 0#8])))) ∧
    ∀ (f : Frame) (s : State) (c : Byte), Addressed f s → f.payload = [c] →
      (c = 0#8 ∨ 13 < c.toNat → exec (.noticeAck f) s = .next (answered s f .range [])) ∧
        (1 ≤ c.toNat → c.toNat ≤ 13 → (∀ n ∈ s.notices.queue, kindCode n.detail ≠ c.toNat) →
          exec (.noticeAck f) s = .next (answered s f .notHeld [])) ∧
        ∀ before n after, 1 ≤ c.toNat → c.toNat ≤ 13 → s.notices.queue = before ++ n :: after →
          kindCode n.detail = c.toNat → (∀ m ∈ before ++ after, kindCode m.detail ≠ c.toNat) →
          exec (.noticeAck f) s = .next
            (answered { s with notices := { s.notices with queue := before ++ after } } f .ok
              [BitVec.ofNat 8 n.count, BitVec.ofNat 8 (before ++ after).length])

/-- R155. -/
def Obligations.NoticeMaskReplacesMask : Prop :=
  ∀ (f : Frame) (s : State) (high low : Byte), Addressed f s → f.payload = [high, low] →
    let mask : BitVec 13 := BitVec.ofNat 13 (256 * high.toNat + low.toNat)
    exec (.noticeMask f) s = .next
        (answered { s with notices := { s.notices with mask := mask } } f .ok
          (maskAnswer mask ++ [if drivesAlert s mask then 1#8 else 0#8])) ∧
      State.alert { s with notices := { s.notices with mask := mask } } = drivesAlert s mask ∧
      (mask = s.notices.mask →
        exec (.noticeMask f) s = .next
          (answered s f .ok (maskAnswer mask ++ [if drivesAlert s mask then 1#8 else 0#8])))

/-! ## Status commands -/

/-- R76, R94, R116, R130, R144, R173: the status commands answer their blocks' state in the layouts of the table of 10.5, every
field as it stands, and change nothing. -/
def Obligations.StatusCommandsReportState : Prop :=
  ∀ (f : Frame) (s : State), Addressed f s → f.payload = [] →
    exec (.partInfo f) s = .next
        (answered s f .ok
          ([0x4D#8, 0x24#8, 0x43#8, BitVec.ofNat 8 s.straps.unit.toNat,
              BitVec.ofNat 8 (s.straps.hold.toNat + 2 * s.straps.lock.toNat + 4 * s.hau.hold.toNat
                + 8 * s.hau.lockdown.toNat)]
            ++ inTwo s.gen.generation.toNat ++ [commitValue s.gen.commit])) ∧
      exec (.genStatus f) s = .next
        (answered s f .ok
          (commitValue s.gen.commit :: (inTwo s.gen.generation.toNat ++ (match s.gen.commit with
            | .none => List.replicate 13 0#8
            | .pending p =>
              [boundaryValue p.boundary] ++ inThree (match p.boundary with
                | .mark a => a
                | _ => 0#24).toNat ++ [if p.trial then 1#8 else 0#8, p.window, if p.due then 1#8 else 0#8]
                ++ List.replicate 6 0#8
            | .trial t =>
              List.replicate 7 0#8 ++ [t.windowLoaded, t.windowRemaining, if t.armed then 1#8 else 0#8]
                ++ inTwo t.fallbackGeneration.toNat ++ [if t.revertDue then 1#8 else 0#8])))) ∧
      exec (.seqStatus f) s = .next
        (answered s f .ok
          (configLayout s.seq.config ++ [BitVec.ofNat 8 s.seq.phase.toNat] ++ inTwo s.seq.counter.toNat
            ++ inFour s.seq.epochAccesses.toNat ++ inFour s.seq.epochNumber.toNat
            ++ [BitVec.ofNat 8 (s.seq.parked.toNat + 2 * s.seq.overrunPosted.toNat + 4 * s.seq.accepted.toNat)])) ∧
      exec (.devStatus f) s = .next
        (answered s f .ok
          (((List.finRange 4).flatMap fun d => deviceLayout s.mpc.devices[d])
            ++ [s.mpc.timeout, BitVec.ofNat 8 s.mpc.share,
              (match s.mpc.access with
                | none => 0#8
                | some p => if p.owner = .host then 1#8 else 2#8),
              BitVec.ofNat 8 (s.mpc.hostRequest.toNat + 2 * s.mpc.captureRequest.toNat),
              BitVec.ofNat 8 s.mpc.passOver])) ∧
      exec (.captureStatus f) s = .next
        (answered s f .ok
          ([captureValue s.capture.status] ++ (match s.capture.job with
            | some j => BitVec.ofNat 8 j.run.val :: (inTwo j.offset ++ inThree j.source.toNat ++ inTwo j.length)
            | none => List.replicate 8 0#8) ++ inTwo s.capture.wordsDone ++ (match s.capture.job with
            | some j => inTwo (8 * j.length)
            | none => [0#8, 0#8]) ++ [if s.capture.abortPending then 1#8 else 0#8,
              (match s.capture.status with
                | .failed .timeout => 1#8
                | .failed .fenced => 2#8
                | .failed .absent => 3#8
                | _ => 0#8)])) ∧
      exec (.journalStatus f) s = .next
        (answered s f .ok
          (BitVec.ofNat 8 s.journal.records.length :: (inTwo s.journal.next.toNat
            ++ (match s.journal.records.head? with
              | some r => inTwo r.sequence.toNat
              | none => [0#8, 0#8])
            ++ (match s.journal.records.getLast? with
              | some r => inTwo r.sequence.toNat
              | none => [0#8, 0#8])
            ++ [if s.journal.policy = .keepOldest then 0#8 else 1#8, BitVec.ofNat 8 s.journal.threshold,
              if s.journal.highArmed then 1#8 else 0#8])))
end

