-- ==== Sys2Proof/Laws/State.lean ====
section
/-! SUPPORT. What each shared operation leaves of the state: one lemma per field and operation, so that no proof unfolds a
record update. -/

namespace Sys2Proof.Machine

/-! ### State.post -/

@[simp] theorem State.post_pending (s : State) (d : Detail) :
    (s.post d).pending = s.pending := rfl
@[simp] theorem State.post_pins (s : State) (d : Detail) :
    (s.post d).pins = s.pins := rfl
@[simp] theorem State.post_straps (s : State) (d : Detail) :
    (s.post d).straps = s.straps := rfl
@[simp] theorem State.post_hau (s : State) (d : Detail) :
    (s.post d).hau = s.hau := rfl
@[simp] theorem State.post_maps (s : State) (d : Detail) :
    (s.post d).maps = s.maps := rfl
@[simp] theorem State.post_overlay (s : State) (d : Detail) :
    (s.post d).overlay = s.overlay := rfl
@[simp] theorem State.post_gen (s : State) (d : Detail) :
    (s.post d).gen = s.gen := rfl
@[simp] theorem State.post_seq (s : State) (d : Detail) :
    (s.post d).seq = s.seq := rfl
@[simp] theorem State.post_mpc (s : State) (d : Detail) :
    (s.post d).mpc = s.mpc := rfl
@[simp] theorem State.post_capture (s : State) (d : Detail) :
    (s.post d).capture = s.capture := rfl
@[simp] theorem State.post_journal (s : State) (d : Detail) :
    (s.post d).journal = s.journal := rfl
@[simp] theorem State.post_mpu (s : State) (d : Detail) :
    (s.post d).mpu = s.mpu := rfl
@[simp] theorem State.post_freeIndex (s : State) (d : Detail) :
    (s.post d).freeIndex = s.freeIndex := rfl

/-! ### State.releaseTest -/

theorem State.releaseTest_frame (s : State) :
    s.releaseTest.pending = s.pending ∧ s.releaseTest.pins = s.pins ∧ s.releaseTest.straps = s.straps ∧
      s.releaseTest.hau = s.hau ∧ s.releaseTest.maps = s.maps ∧ s.releaseTest.gen = s.gen ∧
      s.releaseTest.seq = s.seq ∧ s.releaseTest.mpc = s.mpc ∧ s.releaseTest.capture = s.capture ∧
      s.releaseTest.journal = s.journal ∧ s.releaseTest.notices = s.notices ∧ s.releaseTest.mpu = s.mpu ∧
      s.releaseTest.freeIndex = s.freeIndex := by
  simp only [State.releaseTest, and_self]
@[simp] theorem State.releaseTest_pending (s : State) :
    s.releaseTest.pending = s.pending := (State.releaseTest_frame s).1
@[simp] theorem State.releaseTest_pins (s : State) :
    s.releaseTest.pins = s.pins := (State.releaseTest_frame s).2.1
@[simp] theorem State.releaseTest_straps (s : State) :
    s.releaseTest.straps = s.straps := (State.releaseTest_frame s).2.2.1
@[simp] theorem State.releaseTest_hau (s : State) :
    s.releaseTest.hau = s.hau := (State.releaseTest_frame s).2.2.2.1
@[simp] theorem State.releaseTest_maps (s : State) :
    s.releaseTest.maps = s.maps := (State.releaseTest_frame s).2.2.2.2.1
@[simp] theorem State.releaseTest_gen (s : State) :
    s.releaseTest.gen = s.gen := (State.releaseTest_frame s).2.2.2.2.2.1
@[simp] theorem State.releaseTest_seq (s : State) :
    s.releaseTest.seq = s.seq := (State.releaseTest_frame s).2.2.2.2.2.2.1
@[simp] theorem State.releaseTest_mpc (s : State) :
    s.releaseTest.mpc = s.mpc := (State.releaseTest_frame s).2.2.2.2.2.2.2.1
@[simp] theorem State.releaseTest_capture (s : State) :
    s.releaseTest.capture = s.capture := (State.releaseTest_frame s).2.2.2.2.2.2.2.2.1
@[simp] theorem State.releaseTest_journal (s : State) :
    s.releaseTest.journal = s.journal := (State.releaseTest_frame s).2.2.2.2.2.2.2.2.2.1
@[simp] theorem State.releaseTest_notices (s : State) :
    s.releaseTest.notices = s.notices := (State.releaseTest_frame s).2.2.2.2.2.2.2.2.2.2.1
@[simp] theorem State.releaseTest_mpu (s : State) :
    s.releaseTest.mpu = s.mpu := (State.releaseTest_frame s).2.2.2.2.2.2.2.2.2.2.2.1
@[simp] theorem State.releaseTest_freeIndex (s : State) :
    s.releaseTest.freeIndex = s.freeIndex := (State.releaseTest_frame s).2.2.2.2.2.2.2.2.2.2.2.2

/-! ### State.editStaged -/

theorem State.editStaged_frame (s : State) (i : Fin 32) (e : Option Entry) :
    (s.editStaged i e).pending = s.pending ∧ (s.editStaged i e).pins = s.pins ∧
      (s.editStaged i e).straps = s.straps ∧ (s.editStaged i e).hau = s.hau ∧ (s.editStaged i e).gen = s.gen ∧
      (s.editStaged i e).seq = s.seq ∧ (s.editStaged i e).mpc = s.mpc ∧ (s.editStaged i e).capture = s.capture ∧
      (s.editStaged i e).journal = s.journal ∧ (s.editStaged i e).notices = s.notices ∧
      (s.editStaged i e).mpu = s.mpu ∧ (s.editStaged i e).freeIndex = s.freeIndex := by
  unfold State.editStaged; dsimp only; split <;> simp
@[simp] theorem State.editStaged_pending (s : State) (i : Fin 32) (e : Option Entry) :
    (s.editStaged i e).pending = s.pending := (State.editStaged_frame s i e).1
@[simp] theorem State.editStaged_pins (s : State) (i : Fin 32) (e : Option Entry) :
    (s.editStaged i e).pins = s.pins := (State.editStaged_frame s i e).2.1
@[simp] theorem State.editStaged_straps (s : State) (i : Fin 32) (e : Option Entry) :
    (s.editStaged i e).straps = s.straps := (State.editStaged_frame s i e).2.2.1
@[simp] theorem State.editStaged_hau (s : State) (i : Fin 32) (e : Option Entry) :
    (s.editStaged i e).hau = s.hau := (State.editStaged_frame s i e).2.2.2.1
@[simp] theorem State.editStaged_gen (s : State) (i : Fin 32) (e : Option Entry) :
    (s.editStaged i e).gen = s.gen := (State.editStaged_frame s i e).2.2.2.2.1
@[simp] theorem State.editStaged_seq (s : State) (i : Fin 32) (e : Option Entry) :
    (s.editStaged i e).seq = s.seq := (State.editStaged_frame s i e).2.2.2.2.2.1
@[simp] theorem State.editStaged_mpc (s : State) (i : Fin 32) (e : Option Entry) :
    (s.editStaged i e).mpc = s.mpc := (State.editStaged_frame s i e).2.2.2.2.2.2.1
@[simp] theorem State.editStaged_capture (s : State) (i : Fin 32) (e : Option Entry) :
    (s.editStaged i e).capture = s.capture := (State.editStaged_frame s i e).2.2.2.2.2.2.2.1
@[simp] theorem State.editStaged_journal (s : State) (i : Fin 32) (e : Option Entry) :
    (s.editStaged i e).journal = s.journal := (State.editStaged_frame s i e).2.2.2.2.2.2.2.2.1
@[simp] theorem State.editStaged_notices (s : State) (i : Fin 32) (e : Option Entry) :
    (s.editStaged i e).notices = s.notices := (State.editStaged_frame s i e).2.2.2.2.2.2.2.2.2.1
@[simp] theorem State.editStaged_mpu (s : State) (i : Fin 32) (e : Option Entry) :
    (s.editStaged i e).mpu = s.mpu := (State.editStaged_frame s i e).2.2.2.2.2.2.2.2.2.2.1
@[simp] theorem State.editStaged_freeIndex (s : State) (i : Fin 32) (e : Option Entry) :
    (s.editStaged i e).freeIndex = s.freeIndex := (State.editStaged_frame s i e).2.2.2.2.2.2.2.2.2.2.2

/-! ### State.replaceActive -/

@[simp] theorem State.replaceActive_pending (s : State) (m : SlotMap) (c : CommitState) :
    (s.replaceActive m c).pending = s.pending := rfl
@[simp] theorem State.replaceActive_pins (s : State) (m : SlotMap) (c : CommitState) :
    (s.replaceActive m c).pins = s.pins := rfl
@[simp] theorem State.replaceActive_straps (s : State) (m : SlotMap) (c : CommitState) :
    (s.replaceActive m c).straps = s.straps := rfl
@[simp] theorem State.replaceActive_hau (s : State) (m : SlotMap) (c : CommitState) :
    (s.replaceActive m c).hau = s.hau := rfl
@[simp] theorem State.replaceActive_overlay (s : State) (m : SlotMap) (c : CommitState) :
    (s.replaceActive m c).overlay = s.overlay := rfl
@[simp] theorem State.replaceActive_seq (s : State) (m : SlotMap) (c : CommitState) :
    (s.replaceActive m c).seq = s.seq := rfl
@[simp] theorem State.replaceActive_mpc (s : State) (m : SlotMap) (c : CommitState) :
    (s.replaceActive m c).mpc = s.mpc := rfl
@[simp] theorem State.replaceActive_capture (s : State) (m : SlotMap) (c : CommitState) :
    (s.replaceActive m c).capture = s.capture := rfl
@[simp] theorem State.replaceActive_journal (s : State) (m : SlotMap) (c : CommitState) :
    (s.replaceActive m c).journal = s.journal := rfl
@[simp] theorem State.replaceActive_notices (s : State) (m : SlotMap) (c : CommitState) :
    (s.replaceActive m c).notices = s.notices := rfl
@[simp] theorem State.replaceActive_mpu (s : State) (m : SlotMap) (c : CommitState) :
    (s.replaceActive m c).mpu = s.mpu := rfl
@[simp] theorem State.replaceActive_freeIndex (s : State) (m : SlotMap) (c : CommitState) :
    (s.replaceActive m c).freeIndex = s.freeIndex := rfl

/-! ### State.takeEffect -/

theorem State.takeEffect_frame (s : State) (p : PendingCommit) :
    (s.takeEffect p).pending = s.pending ∧ (s.takeEffect p).pins = s.pins ∧ (s.takeEffect p).straps = s.straps ∧
      (s.takeEffect p).hau = s.hau ∧ (s.takeEffect p).seq = s.seq ∧ (s.takeEffect p).mpc = s.mpc ∧
      (s.takeEffect p).capture = s.capture ∧ (s.takeEffect p).journal = s.journal ∧ (s.takeEffect p).mpu = s.mpu ∧
      (s.takeEffect p).freeIndex = s.freeIndex := by
  simp [State.takeEffect]
@[simp] theorem State.takeEffect_pending (s : State) (p : PendingCommit) :
    (s.takeEffect p).pending = s.pending := (State.takeEffect_frame s p).1
@[simp] theorem State.takeEffect_pins (s : State) (p : PendingCommit) :
    (s.takeEffect p).pins = s.pins := (State.takeEffect_frame s p).2.1
@[simp] theorem State.takeEffect_straps (s : State) (p : PendingCommit) :
    (s.takeEffect p).straps = s.straps := (State.takeEffect_frame s p).2.2.1
@[simp] theorem State.takeEffect_hau (s : State) (p : PendingCommit) :
    (s.takeEffect p).hau = s.hau := (State.takeEffect_frame s p).2.2.2.1
@[simp] theorem State.takeEffect_seq (s : State) (p : PendingCommit) :
    (s.takeEffect p).seq = s.seq := (State.takeEffect_frame s p).2.2.2.2.1
@[simp] theorem State.takeEffect_mpc (s : State) (p : PendingCommit) :
    (s.takeEffect p).mpc = s.mpc := (State.takeEffect_frame s p).2.2.2.2.2.1
@[simp] theorem State.takeEffect_capture (s : State) (p : PendingCommit) :
    (s.takeEffect p).capture = s.capture := (State.takeEffect_frame s p).2.2.2.2.2.2.1
@[simp] theorem State.takeEffect_journal (s : State) (p : PendingCommit) :
    (s.takeEffect p).journal = s.journal := (State.takeEffect_frame s p).2.2.2.2.2.2.2.1
@[simp] theorem State.takeEffect_mpu (s : State) (p : PendingCommit) :
    (s.takeEffect p).mpu = s.mpu := (State.takeEffect_frame s p).2.2.2.2.2.2.2.2.1
@[simp] theorem State.takeEffect_freeIndex (s : State) (p : PendingCommit) :
    (s.takeEffect p).freeIndex = s.freeIndex := (State.takeEffect_frame s p).2.2.2.2.2.2.2.2.2

/-! ### State.confirm -/

theorem State.confirm_frame (s : State) (c : ConfirmCause) :
    (s.confirm c).pending = s.pending ∧ (s.confirm c).pins = s.pins ∧ (s.confirm c).straps = s.straps ∧
      (s.confirm c).hau = s.hau ∧ (s.confirm c).maps = s.maps ∧ (s.confirm c).seq = s.seq ∧
      (s.confirm c).mpc = s.mpc ∧ (s.confirm c).capture = s.capture ∧ (s.confirm c).journal = s.journal ∧
      (s.confirm c).mpu = s.mpu ∧ (s.confirm c).freeIndex = s.freeIndex := by
  simp [State.confirm]
@[simp] theorem State.confirm_pending (s : State) (c : ConfirmCause) :
    (s.confirm c).pending = s.pending := (State.confirm_frame s c).1
@[simp] theorem State.confirm_pins (s : State) (c : ConfirmCause) :
    (s.confirm c).pins = s.pins := (State.confirm_frame s c).2.1
@[simp] theorem State.confirm_straps (s : State) (c : ConfirmCause) :
    (s.confirm c).straps = s.straps := (State.confirm_frame s c).2.2.1
@[simp] theorem State.confirm_hau (s : State) (c : ConfirmCause) :
    (s.confirm c).hau = s.hau := (State.confirm_frame s c).2.2.2.1
@[simp] theorem State.confirm_maps (s : State) (c : ConfirmCause) :
    (s.confirm c).maps = s.maps := (State.confirm_frame s c).2.2.2.2.1
@[simp] theorem State.confirm_seq (s : State) (c : ConfirmCause) :
    (s.confirm c).seq = s.seq := (State.confirm_frame s c).2.2.2.2.2.1
@[simp] theorem State.confirm_mpc (s : State) (c : ConfirmCause) :
    (s.confirm c).mpc = s.mpc := (State.confirm_frame s c).2.2.2.2.2.2.1
@[simp] theorem State.confirm_capture (s : State) (c : ConfirmCause) :
    (s.confirm c).capture = s.capture := (State.confirm_frame s c).2.2.2.2.2.2.2.1
@[simp] theorem State.confirm_journal (s : State) (c : ConfirmCause) :
    (s.confirm c).journal = s.journal := (State.confirm_frame s c).2.2.2.2.2.2.2.2.1
@[simp] theorem State.confirm_mpu (s : State) (c : ConfirmCause) :
    (s.confirm c).mpu = s.mpu := (State.confirm_frame s c).2.2.2.2.2.2.2.2.2.1
@[simp] theorem State.confirm_freeIndex (s : State) (c : ConfirmCause) :
    (s.confirm c).freeIndex = s.freeIndex := (State.confirm_frame s c).2.2.2.2.2.2.2.2.2.2

/-! ### State.revert -/

theorem State.revert_frame (s : State) (t : Trial) (c : RevertCause) :
    (s.revert t c).pending = s.pending ∧ (s.revert t c).pins = s.pins ∧ (s.revert t c).straps = s.straps ∧
      (s.revert t c).hau = s.hau ∧ (s.revert t c).seq = s.seq ∧ (s.revert t c).mpc = s.mpc ∧
      (s.revert t c).capture = s.capture ∧ (s.revert t c).journal = s.journal ∧ (s.revert t c).mpu = s.mpu ∧
      (s.revert t c).freeIndex = s.freeIndex := by
  simp [State.revert]
@[simp] theorem State.revert_pending (s : State) (t : Trial) (c : RevertCause) :
    (s.revert t c).pending = s.pending := (State.revert_frame s t c).1
@[simp] theorem State.revert_pins (s : State) (t : Trial) (c : RevertCause) :
    (s.revert t c).pins = s.pins := (State.revert_frame s t c).2.1
@[simp] theorem State.revert_straps (s : State) (t : Trial) (c : RevertCause) :
    (s.revert t c).straps = s.straps := (State.revert_frame s t c).2.2.1
@[simp] theorem State.revert_hau (s : State) (t : Trial) (c : RevertCause) :
    (s.revert t c).hau = s.hau := (State.revert_frame s t c).2.2.2.1
@[simp] theorem State.revert_seq (s : State) (t : Trial) (c : RevertCause) :
    (s.revert t c).seq = s.seq := (State.revert_frame s t c).2.2.2.2.1
@[simp] theorem State.revert_mpc (s : State) (t : Trial) (c : RevertCause) :
    (s.revert t c).mpc = s.mpc := (State.revert_frame s t c).2.2.2.2.2.1
@[simp] theorem State.revert_capture (s : State) (t : Trial) (c : RevertCause) :
    (s.revert t c).capture = s.capture := (State.revert_frame s t c).2.2.2.2.2.2.1
@[simp] theorem State.revert_journal (s : State) (t : Trial) (c : RevertCause) :
    (s.revert t c).journal = s.journal := (State.revert_frame s t c).2.2.2.2.2.2.2.1
@[simp] theorem State.revert_mpu (s : State) (t : Trial) (c : RevertCause) :
    (s.revert t c).mpu = s.mpu := (State.revert_frame s t c).2.2.2.2.2.2.2.2.1
@[simp] theorem State.revert_freeIndex (s : State) (t : Trial) (c : RevertCause) :
    (s.revert t c).freeIndex = s.freeIndex := (State.revert_frame s t c).2.2.2.2.2.2.2.2.2

/-! ### State.boundaryOccurs -/

theorem State.boundaryOccurs_frame (s : State) (p : PendingCommit) :
    (s.boundaryOccurs p).pending = s.pending ∧ (s.boundaryOccurs p).pins = s.pins ∧
      (s.boundaryOccurs p).straps = s.straps ∧ (s.boundaryOccurs p).hau = s.hau ∧
      (s.boundaryOccurs p).seq = s.seq ∧ (s.boundaryOccurs p).mpc = s.mpc ∧
      (s.boundaryOccurs p).capture = s.capture ∧ (s.boundaryOccurs p).journal = s.journal ∧
      (s.boundaryOccurs p).mpu = s.mpu ∧ (s.boundaryOccurs p).freeIndex = s.freeIndex := by
  unfold State.boundaryOccurs; split <;> simp
@[simp] theorem State.boundaryOccurs_pending (s : State) (p : PendingCommit) :
    (s.boundaryOccurs p).pending = s.pending := (State.boundaryOccurs_frame s p).1
@[simp] theorem State.boundaryOccurs_pins (s : State) (p : PendingCommit) :
    (s.boundaryOccurs p).pins = s.pins := (State.boundaryOccurs_frame s p).2.1
@[simp] theorem State.boundaryOccurs_straps (s : State) (p : PendingCommit) :
    (s.boundaryOccurs p).straps = s.straps := (State.boundaryOccurs_frame s p).2.2.1
@[simp] theorem State.boundaryOccurs_hau (s : State) (p : PendingCommit) :
    (s.boundaryOccurs p).hau = s.hau := (State.boundaryOccurs_frame s p).2.2.2.1
@[simp] theorem State.boundaryOccurs_seq (s : State) (p : PendingCommit) :
    (s.boundaryOccurs p).seq = s.seq := (State.boundaryOccurs_frame s p).2.2.2.2.1
@[simp] theorem State.boundaryOccurs_mpc (s : State) (p : PendingCommit) :
    (s.boundaryOccurs p).mpc = s.mpc := (State.boundaryOccurs_frame s p).2.2.2.2.2.1
@[simp] theorem State.boundaryOccurs_capture (s : State) (p : PendingCommit) :
    (s.boundaryOccurs p).capture = s.capture := (State.boundaryOccurs_frame s p).2.2.2.2.2.2.1
@[simp] theorem State.boundaryOccurs_journal (s : State) (p : PendingCommit) :
    (s.boundaryOccurs p).journal = s.journal := (State.boundaryOccurs_frame s p).2.2.2.2.2.2.2.1
@[simp] theorem State.boundaryOccurs_mpu (s : State) (p : PendingCommit) :
    (s.boundaryOccurs p).mpu = s.mpu := (State.boundaryOccurs_frame s p).2.2.2.2.2.2.2.2.1
@[simp] theorem State.boundaryOccurs_freeIndex (s : State) (p : PendingCommit) :
    (s.boundaryOccurs p).freeIndex = s.freeIndex := (State.boundaryOccurs_frame s p).2.2.2.2.2.2.2.2.2

/-! ### State.epochReported -/

theorem State.epochReported_frame (s : State) :
    s.epochReported.pending = s.pending ∧ s.epochReported.pins = s.pins ∧ s.epochReported.straps = s.straps ∧
      s.epochReported.hau = s.hau ∧ s.epochReported.seq = s.seq ∧ s.epochReported.mpc = s.mpc ∧
      s.epochReported.capture = s.capture ∧ s.epochReported.journal = s.journal ∧ s.epochReported.mpu = s.mpu ∧
      s.epochReported.freeIndex = s.freeIndex := by
  unfold State.epochReported; (repeat' split) <;> simp
@[simp] theorem State.epochReported_pending (s : State) :
    s.epochReported.pending = s.pending := (State.epochReported_frame s).1
@[simp] theorem State.epochReported_pins (s : State) :
    s.epochReported.pins = s.pins := (State.epochReported_frame s).2.1
@[simp] theorem State.epochReported_straps (s : State) :
    s.epochReported.straps = s.straps := (State.epochReported_frame s).2.2.1
@[simp] theorem State.epochReported_hau (s : State) :
    s.epochReported.hau = s.hau := (State.epochReported_frame s).2.2.2.1
@[simp] theorem State.epochReported_seq (s : State) :
    s.epochReported.seq = s.seq := (State.epochReported_frame s).2.2.2.2.1
@[simp] theorem State.epochReported_mpc (s : State) :
    s.epochReported.mpc = s.mpc := (State.epochReported_frame s).2.2.2.2.2.1
@[simp] theorem State.epochReported_capture (s : State) :
    s.epochReported.capture = s.capture := (State.epochReported_frame s).2.2.2.2.2.2.1
@[simp] theorem State.epochReported_journal (s : State) :
    s.epochReported.journal = s.journal := (State.epochReported_frame s).2.2.2.2.2.2.2.1
@[simp] theorem State.epochReported_mpu (s : State) :
    s.epochReported.mpu = s.mpu := (State.epochReported_frame s).2.2.2.2.2.2.2.2.1
@[simp] theorem State.epochReported_freeIndex (s : State) :
    s.epochReported.freeIndex = s.freeIndex := (State.epochReported_frame s).2.2.2.2.2.2.2.2.2

/-! ### State.changeAtEnd -/

theorem State.changeAtEnd_frame (s : State) (a : Access) :
    (s.changeAtEnd a).pending = s.pending ∧ (s.changeAtEnd a).pins = s.pins ∧ (s.changeAtEnd a).straps = s.straps ∧
      (s.changeAtEnd a).hau = s.hau ∧ (s.changeAtEnd a).seq = s.seq ∧ (s.changeAtEnd a).mpc = s.mpc ∧
      (s.changeAtEnd a).capture = s.capture ∧ (s.changeAtEnd a).journal = s.journal ∧
      (s.changeAtEnd a).mpu = s.mpu ∧ (s.changeAtEnd a).freeIndex = s.freeIndex := by
  unfold State.changeAtEnd; (repeat' split) <;> simp
@[simp] theorem State.changeAtEnd_pending (s : State) (a : Access) :
    (s.changeAtEnd a).pending = s.pending := (State.changeAtEnd_frame s a).1
@[simp] theorem State.changeAtEnd_pins (s : State) (a : Access) :
    (s.changeAtEnd a).pins = s.pins := (State.changeAtEnd_frame s a).2.1
@[simp] theorem State.changeAtEnd_straps (s : State) (a : Access) :
    (s.changeAtEnd a).straps = s.straps := (State.changeAtEnd_frame s a).2.2.1
@[simp] theorem State.changeAtEnd_hau (s : State) (a : Access) :
    (s.changeAtEnd a).hau = s.hau := (State.changeAtEnd_frame s a).2.2.2.1
@[simp] theorem State.changeAtEnd_seq (s : State) (a : Access) :
    (s.changeAtEnd a).seq = s.seq := (State.changeAtEnd_frame s a).2.2.2.2.1
@[simp] theorem State.changeAtEnd_mpc (s : State) (a : Access) :
    (s.changeAtEnd a).mpc = s.mpc := (State.changeAtEnd_frame s a).2.2.2.2.2.1
@[simp] theorem State.changeAtEnd_capture (s : State) (a : Access) :
    (s.changeAtEnd a).capture = s.capture := (State.changeAtEnd_frame s a).2.2.2.2.2.2.1
@[simp] theorem State.changeAtEnd_journal (s : State) (a : Access) :
    (s.changeAtEnd a).journal = s.journal := (State.changeAtEnd_frame s a).2.2.2.2.2.2.2.1
@[simp] theorem State.changeAtEnd_mpu (s : State) (a : Access) :
    (s.changeAtEnd a).mpu = s.mpu := (State.changeAtEnd_frame s a).2.2.2.2.2.2.2.2.1
@[simp] theorem State.changeAtEnd_freeIndex (s : State) (a : Access) :
    (s.changeAtEnd a).freeIndex = s.freeIndex := (State.changeAtEnd_frame s a).2.2.2.2.2.2.2.2.2

/-! ### State.changeAtHostReset -/

theorem State.changeAtHostReset_frame (s : State) :
    s.changeAtHostReset.pending = s.pending ∧ s.changeAtHostReset.pins = s.pins ∧
      s.changeAtHostReset.straps = s.straps ∧ s.changeAtHostReset.hau = s.hau ∧ s.changeAtHostReset.seq = s.seq ∧
      s.changeAtHostReset.mpc = s.mpc ∧ s.changeAtHostReset.capture = s.capture ∧
      s.changeAtHostReset.journal = s.journal ∧ s.changeAtHostReset.mpu = s.mpu ∧
      s.changeAtHostReset.freeIndex = s.freeIndex := by
  unfold State.changeAtHostReset; (repeat' split) <;> simp
@[simp] theorem State.changeAtHostReset_pending (s : State) :
    s.changeAtHostReset.pending = s.pending := (State.changeAtHostReset_frame s).1
@[simp] theorem State.changeAtHostReset_pins (s : State) :
    s.changeAtHostReset.pins = s.pins := (State.changeAtHostReset_frame s).2.1
@[simp] theorem State.changeAtHostReset_straps (s : State) :
    s.changeAtHostReset.straps = s.straps := (State.changeAtHostReset_frame s).2.2.1
@[simp] theorem State.changeAtHostReset_hau (s : State) :
    s.changeAtHostReset.hau = s.hau := (State.changeAtHostReset_frame s).2.2.2.1
@[simp] theorem State.changeAtHostReset_seq (s : State) :
    s.changeAtHostReset.seq = s.seq := (State.changeAtHostReset_frame s).2.2.2.2.1
@[simp] theorem State.changeAtHostReset_mpc (s : State) :
    s.changeAtHostReset.mpc = s.mpc := (State.changeAtHostReset_frame s).2.2.2.2.2.1
@[simp] theorem State.changeAtHostReset_capture (s : State) :
    s.changeAtHostReset.capture = s.capture := (State.changeAtHostReset_frame s).2.2.2.2.2.2.1
@[simp] theorem State.changeAtHostReset_journal (s : State) :
    s.changeAtHostReset.journal = s.journal := (State.changeAtHostReset_frame s).2.2.2.2.2.2.2.1
@[simp] theorem State.changeAtHostReset_mpu (s : State) :
    s.changeAtHostReset.mpu = s.mpu := (State.changeAtHostReset_frame s).2.2.2.2.2.2.2.2.1
@[simp] theorem State.changeAtHostReset_freeIndex (s : State) :
    s.changeAtHostReset.freeIndex = s.freeIndex := (State.changeAtHostReset_frame s).2.2.2.2.2.2.2.2.2

/-! ### State.seqNews -/

theorem State.seqNews_frame (s : State) (r : Seq × SeqNews) :
    (s.seqNews r).pending = s.pending ∧ (s.seqNews r).pins = s.pins ∧ (s.seqNews r).straps = s.straps ∧
      (s.seqNews r).hau = s.hau ∧ (s.seqNews r).mpc = s.mpc ∧ (s.seqNews r).capture = s.capture ∧
      (s.seqNews r).journal = s.journal ∧ (s.seqNews r).mpu = s.mpu ∧ (s.seqNews r).freeIndex = s.freeIndex := by
  unfold State.seqNews; dsimp only; (repeat' split) <;> simp
@[simp] theorem State.seqNews_pending (s : State) (r : Seq × SeqNews) :
    (s.seqNews r).pending = s.pending := (State.seqNews_frame s r).1
@[simp] theorem State.seqNews_pins (s : State) (r : Seq × SeqNews) :
    (s.seqNews r).pins = s.pins := (State.seqNews_frame s r).2.1
@[simp] theorem State.seqNews_straps (s : State) (r : Seq × SeqNews) :
    (s.seqNews r).straps = s.straps := (State.seqNews_frame s r).2.2.1
@[simp] theorem State.seqNews_hau (s : State) (r : Seq × SeqNews) :
    (s.seqNews r).hau = s.hau := (State.seqNews_frame s r).2.2.2.1
@[simp] theorem State.seqNews_mpc (s : State) (r : Seq × SeqNews) :
    (s.seqNews r).mpc = s.mpc := (State.seqNews_frame s r).2.2.2.2.1
@[simp] theorem State.seqNews_capture (s : State) (r : Seq × SeqNews) :
    (s.seqNews r).capture = s.capture := (State.seqNews_frame s r).2.2.2.2.2.1
@[simp] theorem State.seqNews_journal (s : State) (r : Seq × SeqNews) :
    (s.seqNews r).journal = s.journal := (State.seqNews_frame s r).2.2.2.2.2.2.1
@[simp] theorem State.seqNews_mpu (s : State) (r : Seq × SeqNews) :
    (s.seqNews r).mpu = s.mpu := (State.seqNews_frame s r).2.2.2.2.2.2.2.1
@[simp] theorem State.seqNews_freeIndex (s : State) (r : Seq × SeqNews) :
    (s.seqNews r).freeIndex = s.freeIndex := (State.seqNews_frame s r).2.2.2.2.2.2.2.2

/-! ### State.countHit -/

theorem State.countHit_frame (s : State) (i : Option (Fin 32)) :
    (s.countHit i).pending = s.pending ∧ (s.countHit i).pins = s.pins ∧ (s.countHit i).straps = s.straps ∧
      (s.countHit i).hau = s.hau ∧ (s.countHit i).overlay = s.overlay ∧ (s.countHit i).gen = s.gen ∧
      (s.countHit i).seq = s.seq ∧ (s.countHit i).mpc = s.mpc ∧ (s.countHit i).capture = s.capture ∧
      (s.countHit i).journal = s.journal ∧ (s.countHit i).notices = s.notices ∧ (s.countHit i).mpu = s.mpu ∧
      (s.countHit i).freeIndex = s.freeIndex := by cases i <;> exact ⟨rfl, rfl, rfl, rfl, rfl, rfl, rfl, rfl, rfl, rfl, rfl, rfl, rfl⟩
@[simp] theorem State.countHit_pending (s : State) (i : Option (Fin 32)) :
    (s.countHit i).pending = s.pending := (State.countHit_frame s i).1
@[simp] theorem State.countHit_pins (s : State) (i : Option (Fin 32)) :
    (s.countHit i).pins = s.pins := (State.countHit_frame s i).2.1
@[simp] theorem State.countHit_straps (s : State) (i : Option (Fin 32)) :
    (s.countHit i).straps = s.straps := (State.countHit_frame s i).2.2.1
@[simp] theorem State.countHit_hau (s : State) (i : Option (Fin 32)) :
    (s.countHit i).hau = s.hau := (State.countHit_frame s i).2.2.2.1
@[simp] theorem State.countHit_overlay (s : State) (i : Option (Fin 32)) :
    (s.countHit i).overlay = s.overlay := (State.countHit_frame s i).2.2.2.2.1
@[simp] theorem State.countHit_gen (s : State) (i : Option (Fin 32)) :
    (s.countHit i).gen = s.gen := (State.countHit_frame s i).2.2.2.2.2.1
@[simp] theorem State.countHit_seq (s : State) (i : Option (Fin 32)) :
    (s.countHit i).seq = s.seq := (State.countHit_frame s i).2.2.2.2.2.2.1
@[simp] theorem State.countHit_mpc (s : State) (i : Option (Fin 32)) :
    (s.countHit i).mpc = s.mpc := (State.countHit_frame s i).2.2.2.2.2.2.2.1
@[simp] theorem State.countHit_capture (s : State) (i : Option (Fin 32)) :
    (s.countHit i).capture = s.capture := (State.countHit_frame s i).2.2.2.2.2.2.2.2.1
@[simp] theorem State.countHit_journal (s : State) (i : Option (Fin 32)) :
    (s.countHit i).journal = s.journal := (State.countHit_frame s i).2.2.2.2.2.2.2.2.2.1
@[simp] theorem State.countHit_notices (s : State) (i : Option (Fin 32)) :
    (s.countHit i).notices = s.notices := (State.countHit_frame s i).2.2.2.2.2.2.2.2.2.2.1
@[simp] theorem State.countHit_mpu (s : State) (i : Option (Fin 32)) :
    (s.countHit i).mpu = s.mpu := (State.countHit_frame s i).2.2.2.2.2.2.2.2.2.2.2.1
@[simp] theorem State.countHit_freeIndex (s : State) (i : Option (Fin 32)) :
    (s.countHit i).freeIndex = s.freeIndex := (State.countHit_frame s i).2.2.2.2.2.2.2.2.2.2.2.2

/-! ### State.recordArrives -/

theorem State.recordArrives_frame (s : State) (r : JournalRecord) :
    (s.recordArrives r).pending = s.pending ∧ (s.recordArrives r).pins = s.pins ∧
      (s.recordArrives r).straps = s.straps ∧ (s.recordArrives r).hau = s.hau ∧ (s.recordArrives r).maps = s.maps ∧
      (s.recordArrives r).overlay = s.overlay ∧ (s.recordArrives r).gen = s.gen ∧ (s.recordArrives r).seq = s.seq ∧
      (s.recordArrives r).mpc = s.mpc ∧ (s.recordArrives r).capture = s.capture ∧ (s.recordArrives r).mpu = s.mpu ∧
      (s.recordArrives r).freeIndex = s.freeIndex := by
  unfold State.recordArrives; (repeat' split) <;> simp
@[simp] theorem State.recordArrives_pending (s : State) (r : JournalRecord) :
    (s.recordArrives r).pending = s.pending := (State.recordArrives_frame s r).1
@[simp] theorem State.recordArrives_pins (s : State) (r : JournalRecord) :
    (s.recordArrives r).pins = s.pins := (State.recordArrives_frame s r).2.1
@[simp] theorem State.recordArrives_straps (s : State) (r : JournalRecord) :
    (s.recordArrives r).straps = s.straps := (State.recordArrives_frame s r).2.2.1
@[simp] theorem State.recordArrives_hau (s : State) (r : JournalRecord) :
    (s.recordArrives r).hau = s.hau := (State.recordArrives_frame s r).2.2.2.1
@[simp] theorem State.recordArrives_maps (s : State) (r : JournalRecord) :
    (s.recordArrives r).maps = s.maps := (State.recordArrives_frame s r).2.2.2.2.1
@[simp] theorem State.recordArrives_overlay (s : State) (r : JournalRecord) :
    (s.recordArrives r).overlay = s.overlay := (State.recordArrives_frame s r).2.2.2.2.2.1
@[simp] theorem State.recordArrives_gen (s : State) (r : JournalRecord) :
    (s.recordArrives r).gen = s.gen := (State.recordArrives_frame s r).2.2.2.2.2.2.1
@[simp] theorem State.recordArrives_seq (s : State) (r : JournalRecord) :
    (s.recordArrives r).seq = s.seq := (State.recordArrives_frame s r).2.2.2.2.2.2.2.1
@[simp] theorem State.recordArrives_mpc (s : State) (r : JournalRecord) :
    (s.recordArrives r).mpc = s.mpc := (State.recordArrives_frame s r).2.2.2.2.2.2.2.2.1
@[simp] theorem State.recordArrives_capture (s : State) (r : JournalRecord) :
    (s.recordArrives r).capture = s.capture := (State.recordArrives_frame s r).2.2.2.2.2.2.2.2.2.1
@[simp] theorem State.recordArrives_mpu (s : State) (r : JournalRecord) :
    (s.recordArrives r).mpu = s.mpu := (State.recordArrives_frame s r).2.2.2.2.2.2.2.2.2.2.1
@[simp] theorem State.recordArrives_freeIndex (s : State) (r : JournalRecord) :
    (s.recordArrives r).freeIndex = s.freeIndex := (State.recordArrives_frame s r).2.2.2.2.2.2.2.2.2.2.2

/-! ### State.reportEnd -/

theorem State.reportEnd_frame (s : State) (a : Access) (d : Decision) (c : Bool) :
    (s.reportEnd a d c).pending = s.pending ∧ (s.reportEnd a d c).pins = s.pins ∧
      (s.reportEnd a d c).straps = s.straps ∧ (s.reportEnd a d c).hau = s.hau ∧ (s.reportEnd a d c).maps = s.maps ∧
      (s.reportEnd a d c).overlay = s.overlay ∧ (s.reportEnd a d c).gen = s.gen ∧ (s.reportEnd a d c).seq = s.seq ∧
      (s.reportEnd a d c).mpc = s.mpc ∧ (s.reportEnd a d c).capture = s.capture ∧ (s.reportEnd a d c).mpu = s.mpu ∧
      (s.reportEnd a d c).freeIndex = s.freeIndex := by
  unfold State.reportEnd; (repeat' split) <;> simp
@[simp] theorem State.reportEnd_pending (s : State) (a : Access) (d : Decision) (c : Bool) :
    (s.reportEnd a d c).pending = s.pending := (State.reportEnd_frame s a d c).1
@[simp] theorem State.reportEnd_pins (s : State) (a : Access) (d : Decision) (c : Bool) :
    (s.reportEnd a d c).pins = s.pins := (State.reportEnd_frame s a d c).2.1
@[simp] theorem State.reportEnd_straps (s : State) (a : Access) (d : Decision) (c : Bool) :
    (s.reportEnd a d c).straps = s.straps := (State.reportEnd_frame s a d c).2.2.1
@[simp] theorem State.reportEnd_hau (s : State) (a : Access) (d : Decision) (c : Bool) :
    (s.reportEnd a d c).hau = s.hau := (State.reportEnd_frame s a d c).2.2.2.1
@[simp] theorem State.reportEnd_maps (s : State) (a : Access) (d : Decision) (c : Bool) :
    (s.reportEnd a d c).maps = s.maps := (State.reportEnd_frame s a d c).2.2.2.2.1
@[simp] theorem State.reportEnd_overlay (s : State) (a : Access) (d : Decision) (c : Bool) :
    (s.reportEnd a d c).overlay = s.overlay := (State.reportEnd_frame s a d c).2.2.2.2.2.1
@[simp] theorem State.reportEnd_gen (s : State) (a : Access) (d : Decision) (c : Bool) :
    (s.reportEnd a d c).gen = s.gen := (State.reportEnd_frame s a d c).2.2.2.2.2.2.1
@[simp] theorem State.reportEnd_seq (s : State) (a : Access) (d : Decision) (c : Bool) :
    (s.reportEnd a d c).seq = s.seq := (State.reportEnd_frame s a d c).2.2.2.2.2.2.2.1
@[simp] theorem State.reportEnd_mpc (s : State) (a : Access) (d : Decision) (c : Bool) :
    (s.reportEnd a d c).mpc = s.mpc := (State.reportEnd_frame s a d c).2.2.2.2.2.2.2.2.1
@[simp] theorem State.reportEnd_capture (s : State) (a : Access) (d : Decision) (c : Bool) :
    (s.reportEnd a d c).capture = s.capture := (State.reportEnd_frame s a d c).2.2.2.2.2.2.2.2.2.1
@[simp] theorem State.reportEnd_mpu (s : State) (a : Access) (d : Decision) (c : Bool) :
    (s.reportEnd a d c).mpu = s.mpu := (State.reportEnd_frame s a d c).2.2.2.2.2.2.2.2.2.2.1
@[simp] theorem State.reportEnd_freeIndex (s : State) (a : Access) (d : Decision) (c : Bool) :
    (s.reportEnd a d c).freeIndex = s.freeIndex := (State.reportEnd_frame s a d c).2.2.2.2.2.2.2.2.2.2.2

/-! ### State.absorb -/

theorem State.absorb_frame (s : State) (a : Access) (d : Decision) :
    (s.absorb a d).pending = s.pending ∧ (s.absorb a d).pins = s.pins ∧ (s.absorb a d).straps = s.straps ∧
      (s.absorb a d).hau = s.hau ∧ (s.absorb a d).maps = s.maps ∧ (s.absorb a d).gen = s.gen ∧
      (s.absorb a d).seq = s.seq ∧ (s.absorb a d).mpc = s.mpc ∧ (s.absorb a d).capture = s.capture ∧
      (s.absorb a d).journal = s.journal ∧ (s.absorb a d).notices = s.notices ∧ (s.absorb a d).mpu = s.mpu ∧
      (s.absorb a d).freeIndex = s.freeIndex := by
  unfold State.absorb; split <;> simp
@[simp] theorem State.absorb_pending (s : State) (a : Access) (d : Decision) :
    (s.absorb a d).pending = s.pending := (State.absorb_frame s a d).1
@[simp] theorem State.absorb_pins (s : State) (a : Access) (d : Decision) :
    (s.absorb a d).pins = s.pins := (State.absorb_frame s a d).2.1
@[simp] theorem State.absorb_straps (s : State) (a : Access) (d : Decision) :
    (s.absorb a d).straps = s.straps := (State.absorb_frame s a d).2.2.1
@[simp] theorem State.absorb_hau (s : State) (a : Access) (d : Decision) :
    (s.absorb a d).hau = s.hau := (State.absorb_frame s a d).2.2.2.1
@[simp] theorem State.absorb_maps (s : State) (a : Access) (d : Decision) :
    (s.absorb a d).maps = s.maps := (State.absorb_frame s a d).2.2.2.2.1
@[simp] theorem State.absorb_gen (s : State) (a : Access) (d : Decision) :
    (s.absorb a d).gen = s.gen := (State.absorb_frame s a d).2.2.2.2.2.1
@[simp] theorem State.absorb_seq (s : State) (a : Access) (d : Decision) :
    (s.absorb a d).seq = s.seq := (State.absorb_frame s a d).2.2.2.2.2.2.1
@[simp] theorem State.absorb_mpc (s : State) (a : Access) (d : Decision) :
    (s.absorb a d).mpc = s.mpc := (State.absorb_frame s a d).2.2.2.2.2.2.2.1
@[simp] theorem State.absorb_capture (s : State) (a : Access) (d : Decision) :
    (s.absorb a d).capture = s.capture := (State.absorb_frame s a d).2.2.2.2.2.2.2.2.1
@[simp] theorem State.absorb_journal (s : State) (a : Access) (d : Decision) :
    (s.absorb a d).journal = s.journal := (State.absorb_frame s a d).2.2.2.2.2.2.2.2.2.1
@[simp] theorem State.absorb_notices (s : State) (a : Access) (d : Decision) :
    (s.absorb a d).notices = s.notices := (State.absorb_frame s a d).2.2.2.2.2.2.2.2.2.2.1
@[simp] theorem State.absorb_mpu (s : State) (a : Access) (d : Decision) :
    (s.absorb a d).mpu = s.mpu := (State.absorb_frame s a d).2.2.2.2.2.2.2.2.2.2.2.1
@[simp] theorem State.absorb_freeIndex (s : State) (a : Access) (d : Decision) :
    (s.absorb a d).freeIndex = s.freeIndex := (State.absorb_frame s a d).2.2.2.2.2.2.2.2.2.2.2.2

/-! ### State.respond -/

theorem State.respond_frame (s : State) (a : Access) (e : HostResponse) :
    (s.respond a e).pending = s.pending ∧ (s.respond a e).pins = s.pins ∧ (s.respond a e).straps = s.straps ∧
      (s.respond a e).maps = s.maps ∧ (s.respond a e).overlay = s.overlay ∧ (s.respond a e).gen = s.gen ∧
      (s.respond a e).seq = s.seq ∧ (s.respond a e).mpc = s.mpc ∧ (s.respond a e).capture = s.capture ∧
      (s.respond a e).journal = s.journal ∧ (s.respond a e).notices = s.notices ∧ (s.respond a e).mpu = s.mpu ∧
      (s.respond a e).freeIndex = s.freeIndex := by
  unfold State.respond; split <;> simp
@[simp] theorem State.respond_pending (s : State) (a : Access) (e : HostResponse) :
    (s.respond a e).pending = s.pending := (State.respond_frame s a e).1
@[simp] theorem State.respond_pins (s : State) (a : Access) (e : HostResponse) :
    (s.respond a e).pins = s.pins := (State.respond_frame s a e).2.1
@[simp] theorem State.respond_straps (s : State) (a : Access) (e : HostResponse) :
    (s.respond a e).straps = s.straps := (State.respond_frame s a e).2.2.1
@[simp] theorem State.respond_maps (s : State) (a : Access) (e : HostResponse) :
    (s.respond a e).maps = s.maps := (State.respond_frame s a e).2.2.2.1
@[simp] theorem State.respond_overlay (s : State) (a : Access) (e : HostResponse) :
    (s.respond a e).overlay = s.overlay := (State.respond_frame s a e).2.2.2.2.1
@[simp] theorem State.respond_gen (s : State) (a : Access) (e : HostResponse) :
    (s.respond a e).gen = s.gen := (State.respond_frame s a e).2.2.2.2.2.1
@[simp] theorem State.respond_seq (s : State) (a : Access) (e : HostResponse) :
    (s.respond a e).seq = s.seq := (State.respond_frame s a e).2.2.2.2.2.2.1
@[simp] theorem State.respond_mpc (s : State) (a : Access) (e : HostResponse) :
    (s.respond a e).mpc = s.mpc := (State.respond_frame s a e).2.2.2.2.2.2.2.1
@[simp] theorem State.respond_capture (s : State) (a : Access) (e : HostResponse) :
    (s.respond a e).capture = s.capture := (State.respond_frame s a e).2.2.2.2.2.2.2.2.1
@[simp] theorem State.respond_journal (s : State) (a : Access) (e : HostResponse) :
    (s.respond a e).journal = s.journal := (State.respond_frame s a e).2.2.2.2.2.2.2.2.2.1
@[simp] theorem State.respond_notices (s : State) (a : Access) (e : HostResponse) :
    (s.respond a e).notices = s.notices := (State.respond_frame s a e).2.2.2.2.2.2.2.2.2.2.1
@[simp] theorem State.respond_mpu (s : State) (a : Access) (e : HostResponse) :
    (s.respond a e).mpu = s.mpu := (State.respond_frame s a e).2.2.2.2.2.2.2.2.2.2.2.1
@[simp] theorem State.respond_freeIndex (s : State) (a : Access) (e : HostResponse) :
    (s.respond a e).freeIndex = s.freeIndex := (State.respond_frame s a e).2.2.2.2.2.2.2.2.2.2.2.2

/-! ### State.start -/

@[simp] theorem State.start_pending (s : State) (p : PortAccess) :
    (s.start p).pending = s.pending := rfl
@[simp] theorem State.start_pins (s : State) (p : PortAccess) :
    (s.start p).pins = s.pins := rfl
@[simp] theorem State.start_straps (s : State) (p : PortAccess) :
    (s.start p).straps = s.straps := rfl
@[simp] theorem State.start_hau (s : State) (p : PortAccess) :
    (s.start p).hau = s.hau := rfl
@[simp] theorem State.start_maps (s : State) (p : PortAccess) :
    (s.start p).maps = s.maps := rfl
@[simp] theorem State.start_overlay (s : State) (p : PortAccess) :
    (s.start p).overlay = s.overlay := rfl
@[simp] theorem State.start_gen (s : State) (p : PortAccess) :
    (s.start p).gen = s.gen := rfl
@[simp] theorem State.start_seq (s : State) (p : PortAccess) :
    (s.start p).seq = s.seq := rfl
@[simp] theorem State.start_capture (s : State) (p : PortAccess) :
    (s.start p).capture = s.capture := rfl
@[simp] theorem State.start_journal (s : State) (p : PortAccess) :
    (s.start p).journal = s.journal := rfl
@[simp] theorem State.start_notices (s : State) (p : PortAccess) :
    (s.start p).notices = s.notices := rfl
@[simp] theorem State.start_mpu (s : State) (p : PortAccess) :
    (s.start p).mpu = s.mpu := rfl
@[simp] theorem State.start_freeIndex (s : State) (p : PortAccess) :
    (s.start p).freeIndex = s.freeIndex := rfl

/-! ### State.freePort -/

@[simp] theorem State.freePort_pending (s : State) :
    s.freePort.pending = s.pending := rfl
@[simp] theorem State.freePort_pins (s : State) :
    s.freePort.pins = s.pins := rfl
@[simp] theorem State.freePort_straps (s : State) :
    s.freePort.straps = s.straps := rfl
@[simp] theorem State.freePort_hau (s : State) :
    s.freePort.hau = s.hau := rfl
@[simp] theorem State.freePort_maps (s : State) :
    s.freePort.maps = s.maps := rfl
@[simp] theorem State.freePort_overlay (s : State) :
    s.freePort.overlay = s.overlay := rfl
@[simp] theorem State.freePort_gen (s : State) :
    s.freePort.gen = s.gen := rfl
@[simp] theorem State.freePort_seq (s : State) :
    s.freePort.seq = s.seq := rfl
@[simp] theorem State.freePort_capture (s : State) :
    s.freePort.capture = s.capture := rfl
@[simp] theorem State.freePort_journal (s : State) :
    s.freePort.journal = s.journal := rfl
@[simp] theorem State.freePort_notices (s : State) :
    s.freePort.notices = s.notices := rfl
@[simp] theorem State.freePort_mpu (s : State) :
    s.freePort.mpu = s.mpu := rfl
@[simp] theorem State.freePort_freeIndex (s : State) :
    s.freePort.freeIndex = s.freeIndex := rfl

/-! ### State.copyWord -/

@[simp] theorem State.copyWord_pending (s : State) (j : CaptureJob) (w : Word) :
    (s.copyWord j w).pending = s.pending := rfl
@[simp] theorem State.copyWord_pins (s : State) (j : CaptureJob) (w : Word) :
    (s.copyWord j w).pins = s.pins := rfl
@[simp] theorem State.copyWord_straps (s : State) (j : CaptureJob) (w : Word) :
    (s.copyWord j w).straps = s.straps := rfl
@[simp] theorem State.copyWord_hau (s : State) (j : CaptureJob) (w : Word) :
    (s.copyWord j w).hau = s.hau := rfl
@[simp] theorem State.copyWord_maps (s : State) (j : CaptureJob) (w : Word) :
    (s.copyWord j w).maps = s.maps := rfl
@[simp] theorem State.copyWord_gen (s : State) (j : CaptureJob) (w : Word) :
    (s.copyWord j w).gen = s.gen := rfl
@[simp] theorem State.copyWord_seq (s : State) (j : CaptureJob) (w : Word) :
    (s.copyWord j w).seq = s.seq := rfl
@[simp] theorem State.copyWord_mpc (s : State) (j : CaptureJob) (w : Word) :
    (s.copyWord j w).mpc = s.mpc := rfl
@[simp] theorem State.copyWord_journal (s : State) (j : CaptureJob) (w : Word) :
    (s.copyWord j w).journal = s.journal := rfl
@[simp] theorem State.copyWord_notices (s : State) (j : CaptureJob) (w : Word) :
    (s.copyWord j w).notices = s.notices := rfl
@[simp] theorem State.copyWord_mpu (s : State) (j : CaptureJob) (w : Word) :
    (s.copyWord j w).mpu = s.mpu := rfl
@[simp] theorem State.copyWord_freeIndex (s : State) (j : CaptureJob) (w : Word) :
    (s.copyWord j w).freeIndex = s.freeIndex := rfl

/-! ### State.captureEnd -/

@[simp] theorem State.captureEnd_pending (s : State) (j : CaptureJob) (c : CaptureStatus) :
    (s.captureEnd j c).pending = s.pending := rfl
@[simp] theorem State.captureEnd_pins (s : State) (j : CaptureJob) (c : CaptureStatus) :
    (s.captureEnd j c).pins = s.pins := rfl
@[simp] theorem State.captureEnd_straps (s : State) (j : CaptureJob) (c : CaptureStatus) :
    (s.captureEnd j c).straps = s.straps := rfl
@[simp] theorem State.captureEnd_hau (s : State) (j : CaptureJob) (c : CaptureStatus) :
    (s.captureEnd j c).hau = s.hau := rfl
@[simp] theorem State.captureEnd_maps (s : State) (j : CaptureJob) (c : CaptureStatus) :
    (s.captureEnd j c).maps = s.maps := rfl
@[simp] theorem State.captureEnd_gen (s : State) (j : CaptureJob) (c : CaptureStatus) :
    (s.captureEnd j c).gen = s.gen := rfl
@[simp] theorem State.captureEnd_seq (s : State) (j : CaptureJob) (c : CaptureStatus) :
    (s.captureEnd j c).seq = s.seq := rfl
@[simp] theorem State.captureEnd_journal (s : State) (j : CaptureJob) (c : CaptureStatus) :
    (s.captureEnd j c).journal = s.journal := rfl
@[simp] theorem State.captureEnd_mpu (s : State) (j : CaptureJob) (c : CaptureStatus) :
    (s.captureEnd j c).mpu = s.mpu := rfl
@[simp] theorem State.captureEnd_freeIndex (s : State) (j : CaptureJob) (c : CaptureStatus) :
    (s.captureEnd j c).freeIndex = s.freeIndex := rfl

/-! ### State.captureFails -/

theorem State.captureFails_frame (s : State) (c : CaptureCause) :
    (s.captureFails c).pending = s.pending ∧ (s.captureFails c).pins = s.pins ∧
      (s.captureFails c).straps = s.straps ∧ (s.captureFails c).hau = s.hau ∧ (s.captureFails c).maps = s.maps ∧
      (s.captureFails c).gen = s.gen ∧ (s.captureFails c).seq = s.seq ∧ (s.captureFails c).journal = s.journal ∧
      (s.captureFails c).mpu = s.mpu ∧ (s.captureFails c).freeIndex = s.freeIndex := by
  unfold State.captureFails; split <;> simp
@[simp] theorem State.captureFails_pending (s : State) (c : CaptureCause) :
    (s.captureFails c).pending = s.pending := (State.captureFails_frame s c).1
@[simp] theorem State.captureFails_pins (s : State) (c : CaptureCause) :
    (s.captureFails c).pins = s.pins := (State.captureFails_frame s c).2.1
@[simp] theorem State.captureFails_straps (s : State) (c : CaptureCause) :
    (s.captureFails c).straps = s.straps := (State.captureFails_frame s c).2.2.1
@[simp] theorem State.captureFails_hau (s : State) (c : CaptureCause) :
    (s.captureFails c).hau = s.hau := (State.captureFails_frame s c).2.2.2.1
@[simp] theorem State.captureFails_maps (s : State) (c : CaptureCause) :
    (s.captureFails c).maps = s.maps := (State.captureFails_frame s c).2.2.2.2.1
@[simp] theorem State.captureFails_gen (s : State) (c : CaptureCause) :
    (s.captureFails c).gen = s.gen := (State.captureFails_frame s c).2.2.2.2.2.1
@[simp] theorem State.captureFails_seq (s : State) (c : CaptureCause) :
    (s.captureFails c).seq = s.seq := (State.captureFails_frame s c).2.2.2.2.2.2.1
@[simp] theorem State.captureFails_journal (s : State) (c : CaptureCause) :
    (s.captureFails c).journal = s.journal := (State.captureFails_frame s c).2.2.2.2.2.2.2.1
@[simp] theorem State.captureFails_mpu (s : State) (c : CaptureCause) :
    (s.captureFails c).mpu = s.mpu := (State.captureFails_frame s c).2.2.2.2.2.2.2.2.1
@[simp] theorem State.captureFails_freeIndex (s : State) (c : CaptureCause) :
    (s.captureFails c).freeIndex = s.freeIndex := (State.captureFails_frame s c).2.2.2.2.2.2.2.2.2

/-! ### State.captureWord -/

theorem State.captureWord_frame (s : State) (w : Word) :
    (s.captureWord w).pending = s.pending ∧ (s.captureWord w).pins = s.pins ∧ (s.captureWord w).straps = s.straps ∧
      (s.captureWord w).hau = s.hau ∧ (s.captureWord w).maps = s.maps ∧ (s.captureWord w).gen = s.gen ∧
      (s.captureWord w).seq = s.seq ∧ (s.captureWord w).journal = s.journal ∧ (s.captureWord w).mpu = s.mpu ∧
      (s.captureWord w).freeIndex = s.freeIndex := by
  unfold State.captureWord; (repeat' split) <;> simp
@[simp] theorem State.captureWord_pending (s : State) (w : Word) :
    (s.captureWord w).pending = s.pending := (State.captureWord_frame s w).1
@[simp] theorem State.captureWord_pins (s : State) (w : Word) :
    (s.captureWord w).pins = s.pins := (State.captureWord_frame s w).2.1
@[simp] theorem State.captureWord_straps (s : State) (w : Word) :
    (s.captureWord w).straps = s.straps := (State.captureWord_frame s w).2.2.1
@[simp] theorem State.captureWord_hau (s : State) (w : Word) :
    (s.captureWord w).hau = s.hau := (State.captureWord_frame s w).2.2.2.1
@[simp] theorem State.captureWord_maps (s : State) (w : Word) :
    (s.captureWord w).maps = s.maps := (State.captureWord_frame s w).2.2.2.2.1
@[simp] theorem State.captureWord_gen (s : State) (w : Word) :
    (s.captureWord w).gen = s.gen := (State.captureWord_frame s w).2.2.2.2.2.1
@[simp] theorem State.captureWord_seq (s : State) (w : Word) :
    (s.captureWord w).seq = s.seq := (State.captureWord_frame s w).2.2.2.2.2.2.1
@[simp] theorem State.captureWord_journal (s : State) (w : Word) :
    (s.captureWord w).journal = s.journal := (State.captureWord_frame s w).2.2.2.2.2.2.2.1
@[simp] theorem State.captureWord_mpu (s : State) (w : Word) :
    (s.captureWord w).mpu = s.mpu := (State.captureWord_frame s w).2.2.2.2.2.2.2.2.1
@[simp] theorem State.captureWord_freeIndex (s : State) (w : Word) :
    (s.captureWord w).freeIndex = s.freeIndex := (State.captureWord_frame s w).2.2.2.2.2.2.2.2.2

/-! ### State.snoop -/

theorem State.snoop_frame (s : State) (p : PortAccess) :
    (s.snoop p).pending = s.pending ∧ (s.snoop p).pins = s.pins ∧ (s.snoop p).straps = s.straps ∧
      (s.snoop p).hau = s.hau ∧ (s.snoop p).maps = s.maps ∧ (s.snoop p).gen = s.gen ∧ (s.snoop p).seq = s.seq ∧
      (s.snoop p).mpc = s.mpc ∧ (s.snoop p).capture = s.capture ∧ (s.snoop p).journal = s.journal ∧
      (s.snoop p).notices = s.notices ∧ (s.snoop p).mpu = s.mpu ∧ (s.snoop p).freeIndex = s.freeIndex := by
  unfold State.snoop; split
  · dsimp only; split <;> simp
  · simp
@[simp] theorem State.snoop_pending (s : State) (p : PortAccess) :
    (s.snoop p).pending = s.pending := (State.snoop_frame s p).1
@[simp] theorem State.snoop_pins (s : State) (p : PortAccess) :
    (s.snoop p).pins = s.pins := (State.snoop_frame s p).2.1
@[simp] theorem State.snoop_straps (s : State) (p : PortAccess) :
    (s.snoop p).straps = s.straps := (State.snoop_frame s p).2.2.1
@[simp] theorem State.snoop_hau (s : State) (p : PortAccess) :
    (s.snoop p).hau = s.hau := (State.snoop_frame s p).2.2.2.1
@[simp] theorem State.snoop_maps (s : State) (p : PortAccess) :
    (s.snoop p).maps = s.maps := (State.snoop_frame s p).2.2.2.2.1
@[simp] theorem State.snoop_gen (s : State) (p : PortAccess) :
    (s.snoop p).gen = s.gen := (State.snoop_frame s p).2.2.2.2.2.1
@[simp] theorem State.snoop_seq (s : State) (p : PortAccess) :
    (s.snoop p).seq = s.seq := (State.snoop_frame s p).2.2.2.2.2.2.1
@[simp] theorem State.snoop_mpc (s : State) (p : PortAccess) :
    (s.snoop p).mpc = s.mpc := (State.snoop_frame s p).2.2.2.2.2.2.2.1
@[simp] theorem State.snoop_capture (s : State) (p : PortAccess) :
    (s.snoop p).capture = s.capture := (State.snoop_frame s p).2.2.2.2.2.2.2.2.1
@[simp] theorem State.snoop_journal (s : State) (p : PortAccess) :
    (s.snoop p).journal = s.journal := (State.snoop_frame s p).2.2.2.2.2.2.2.2.2.1
@[simp] theorem State.snoop_notices (s : State) (p : PortAccess) :
    (s.snoop p).notices = s.notices := (State.snoop_frame s p).2.2.2.2.2.2.2.2.2.2.1
@[simp] theorem State.snoop_mpu (s : State) (p : PortAccess) :
    (s.snoop p).mpu = s.mpu := (State.snoop_frame s p).2.2.2.2.2.2.2.2.2.2.2.1
@[simp] theorem State.snoop_freeIndex (s : State) (p : PortAccess) :
    (s.snoop p).freeIndex = s.freeIndex := (State.snoop_frame s p).2.2.2.2.2.2.2.2.2.2.2.2

/-! ### State.fence -/

theorem State.fence_frame (s : State) (p : PortAccess) :
    (s.fence p).pending = s.pending ∧ (s.fence p).pins = s.pins ∧ (s.fence p).straps = s.straps ∧
      (s.fence p).hau = s.hau ∧ (s.fence p).maps = s.maps ∧ (s.fence p).overlay = s.overlay ∧
      (s.fence p).gen = s.gen ∧ (s.fence p).seq = s.seq ∧ (s.fence p).capture = s.capture ∧
      (s.fence p).journal = s.journal ∧ (s.fence p).mpu = s.mpu ∧ (s.fence p).freeIndex = s.freeIndex := by
  unfold State.fence; split <;> simp
@[simp] theorem State.fence_pending (s : State) (p : PortAccess) :
    (s.fence p).pending = s.pending := (State.fence_frame s p).1
@[simp] theorem State.fence_pins (s : State) (p : PortAccess) :
    (s.fence p).pins = s.pins := (State.fence_frame s p).2.1
@[simp] theorem State.fence_straps (s : State) (p : PortAccess) :
    (s.fence p).straps = s.straps := (State.fence_frame s p).2.2.1
@[simp] theorem State.fence_hau (s : State) (p : PortAccess) :
    (s.fence p).hau = s.hau := (State.fence_frame s p).2.2.2.1
@[simp] theorem State.fence_maps (s : State) (p : PortAccess) :
    (s.fence p).maps = s.maps := (State.fence_frame s p).2.2.2.2.1
@[simp] theorem State.fence_overlay (s : State) (p : PortAccess) :
    (s.fence p).overlay = s.overlay := (State.fence_frame s p).2.2.2.2.2.1
@[simp] theorem State.fence_gen (s : State) (p : PortAccess) :
    (s.fence p).gen = s.gen := (State.fence_frame s p).2.2.2.2.2.2.1
@[simp] theorem State.fence_seq (s : State) (p : PortAccess) :
    (s.fence p).seq = s.seq := (State.fence_frame s p).2.2.2.2.2.2.2.1
@[simp] theorem State.fence_capture (s : State) (p : PortAccess) :
    (s.fence p).capture = s.capture := (State.fence_frame s p).2.2.2.2.2.2.2.2.1
@[simp] theorem State.fence_journal (s : State) (p : PortAccess) :
    (s.fence p).journal = s.journal := (State.fence_frame s p).2.2.2.2.2.2.2.2.2.1
@[simp] theorem State.fence_mpu (s : State) (p : PortAccess) :
    (s.fence p).mpu = s.mpu := (State.fence_frame s p).2.2.2.2.2.2.2.2.2.2.1
@[simp] theorem State.fence_freeIndex (s : State) (p : PortAccess) :
    (s.fence p).freeIndex = s.freeIndex := (State.fence_frame s p).2.2.2.2.2.2.2.2.2.2.2

/-! ### State.grantCapture -/

theorem State.grantCapture_frame (s : State) :
    s.grantCapture.pending = s.pending ∧ s.grantCapture.pins = s.pins ∧ s.grantCapture.straps = s.straps ∧
      s.grantCapture.hau = s.hau ∧ s.grantCapture.maps = s.maps ∧ s.grantCapture.gen = s.gen ∧
      s.grantCapture.seq = s.seq ∧ s.grantCapture.journal = s.journal ∧ s.grantCapture.mpu = s.mpu ∧
      s.grantCapture.freeIndex = s.freeIndex := by
  unfold State.grantCapture; (repeat' split) <;> simp
@[simp] theorem State.grantCapture_pending (s : State) :
    s.grantCapture.pending = s.pending := (State.grantCapture_frame s).1
@[simp] theorem State.grantCapture_pins (s : State) :
    s.grantCapture.pins = s.pins := (State.grantCapture_frame s).2.1
@[simp] theorem State.grantCapture_straps (s : State) :
    s.grantCapture.straps = s.straps := (State.grantCapture_frame s).2.2.1
@[simp] theorem State.grantCapture_hau (s : State) :
    s.grantCapture.hau = s.hau := (State.grantCapture_frame s).2.2.2.1
@[simp] theorem State.grantCapture_maps (s : State) :
    s.grantCapture.maps = s.maps := (State.grantCapture_frame s).2.2.2.2.1
@[simp] theorem State.grantCapture_gen (s : State) :
    s.grantCapture.gen = s.gen := (State.grantCapture_frame s).2.2.2.2.2.1
@[simp] theorem State.grantCapture_seq (s : State) :
    s.grantCapture.seq = s.seq := (State.grantCapture_frame s).2.2.2.2.2.2.1
@[simp] theorem State.grantCapture_journal (s : State) :
    s.grantCapture.journal = s.journal := (State.grantCapture_frame s).2.2.2.2.2.2.2.1
@[simp] theorem State.grantCapture_mpu (s : State) :
    s.grantCapture.mpu = s.mpu := (State.grantCapture_frame s).2.2.2.2.2.2.2.2.1
@[simp] theorem State.grantCapture_freeIndex (s : State) :
    s.grantCapture.freeIndex = s.freeIndex := (State.grantCapture_frame s).2.2.2.2.2.2.2.2.2

/-! ### State.abandon -/

theorem State.abandon_frame (s : State) :
    s.abandon.pending = s.pending ∧ s.abandon.pins = s.pins ∧ s.abandon.straps = s.straps ∧
      s.abandon.maps = s.maps ∧ s.abandon.overlay = s.overlay ∧ s.abandon.gen = s.gen ∧ s.abandon.seq = s.seq ∧
      s.abandon.capture = s.capture ∧ s.abandon.journal = s.journal ∧ s.abandon.notices = s.notices ∧
      s.abandon.mpu = s.mpu ∧ s.abandon.freeIndex = s.freeIndex := by
  unfold State.abandon; split <;> simp
@[simp] theorem State.abandon_pending (s : State) :
    s.abandon.pending = s.pending := (State.abandon_frame s).1
@[simp] theorem State.abandon_pins (s : State) :
    s.abandon.pins = s.pins := (State.abandon_frame s).2.1
@[simp] theorem State.abandon_straps (s : State) :
    s.abandon.straps = s.straps := (State.abandon_frame s).2.2.1
@[simp] theorem State.abandon_maps (s : State) :
    s.abandon.maps = s.maps := (State.abandon_frame s).2.2.2.1
@[simp] theorem State.abandon_overlay (s : State) :
    s.abandon.overlay = s.overlay := (State.abandon_frame s).2.2.2.2.1
@[simp] theorem State.abandon_gen (s : State) :
    s.abandon.gen = s.gen := (State.abandon_frame s).2.2.2.2.2.1
@[simp] theorem State.abandon_seq (s : State) :
    s.abandon.seq = s.seq := (State.abandon_frame s).2.2.2.2.2.2.1
@[simp] theorem State.abandon_capture (s : State) :
    s.abandon.capture = s.capture := (State.abandon_frame s).2.2.2.2.2.2.2.1
@[simp] theorem State.abandon_journal (s : State) :
    s.abandon.journal = s.journal := (State.abandon_frame s).2.2.2.2.2.2.2.2.1
@[simp] theorem State.abandon_notices (s : State) :
    s.abandon.notices = s.notices := (State.abandon_frame s).2.2.2.2.2.2.2.2.2.1
@[simp] theorem State.abandon_mpu (s : State) :
    s.abandon.mpu = s.mpu := (State.abandon_frame s).2.2.2.2.2.2.2.2.2.2.1
@[simp] theorem State.abandon_freeIndex (s : State) :
    s.abandon.freeIndex = s.freeIndex := (State.abandon_frame s).2.2.2.2.2.2.2.2.2.2.2

/-! ### State.store -/

@[simp] theorem State.store_pending (s : State) (t : Byte) (c : Status) (p : List Byte) :
    (s.store t c p).pending = s.pending := rfl
@[simp] theorem State.store_pins (s : State) (t : Byte) (c : Status) (p : List Byte) :
    (s.store t c p).pins = s.pins := rfl
@[simp] theorem State.store_straps (s : State) (t : Byte) (c : Status) (p : List Byte) :
    (s.store t c p).straps = s.straps := rfl
@[simp] theorem State.store_hau (s : State) (t : Byte) (c : Status) (p : List Byte) :
    (s.store t c p).hau = s.hau := rfl
@[simp] theorem State.store_maps (s : State) (t : Byte) (c : Status) (p : List Byte) :
    (s.store t c p).maps = s.maps := rfl
@[simp] theorem State.store_overlay (s : State) (t : Byte) (c : Status) (p : List Byte) :
    (s.store t c p).overlay = s.overlay := rfl
@[simp] theorem State.store_gen (s : State) (t : Byte) (c : Status) (p : List Byte) :
    (s.store t c p).gen = s.gen := rfl
@[simp] theorem State.store_seq (s : State) (t : Byte) (c : Status) (p : List Byte) :
    (s.store t c p).seq = s.seq := rfl
@[simp] theorem State.store_mpc (s : State) (t : Byte) (c : Status) (p : List Byte) :
    (s.store t c p).mpc = s.mpc := rfl
@[simp] theorem State.store_capture (s : State) (t : Byte) (c : Status) (p : List Byte) :
    (s.store t c p).capture = s.capture := rfl
@[simp] theorem State.store_journal (s : State) (t : Byte) (c : Status) (p : List Byte) :
    (s.store t c p).journal = s.journal := rfl
@[simp] theorem State.store_notices (s : State) (t : Byte) (c : Status) (p : List Byte) :
    (s.store t c p).notices = s.notices := rfl
@[simp] theorem State.store_freeIndex (s : State) (t : Byte) (c : Status) (p : List Byte) :
    (s.store t c p).freeIndex = s.freeIndex := rfl

/-! ### State.setDevice -/

@[simp] theorem State.setDevice_pending (s : State) (d : Fin 4) (r : Device) :
    (s.setDevice d r).pending = s.pending := rfl
@[simp] theorem State.setDevice_pins (s : State) (d : Fin 4) (r : Device) :
    (s.setDevice d r).pins = s.pins := rfl
@[simp] theorem State.setDevice_straps (s : State) (d : Fin 4) (r : Device) :
    (s.setDevice d r).straps = s.straps := rfl
@[simp] theorem State.setDevice_hau (s : State) (d : Fin 4) (r : Device) :
    (s.setDevice d r).hau = s.hau := rfl
@[simp] theorem State.setDevice_maps (s : State) (d : Fin 4) (r : Device) :
    (s.setDevice d r).maps = s.maps := rfl
@[simp] theorem State.setDevice_overlay (s : State) (d : Fin 4) (r : Device) :
    (s.setDevice d r).overlay = s.overlay := rfl
@[simp] theorem State.setDevice_gen (s : State) (d : Fin 4) (r : Device) :
    (s.setDevice d r).gen = s.gen := rfl
@[simp] theorem State.setDevice_seq (s : State) (d : Fin 4) (r : Device) :
    (s.setDevice d r).seq = s.seq := rfl
@[simp] theorem State.setDevice_capture (s : State) (d : Fin 4) (r : Device) :
    (s.setDevice d r).capture = s.capture := rfl
@[simp] theorem State.setDevice_journal (s : State) (d : Fin 4) (r : Device) :
    (s.setDevice d r).journal = s.journal := rfl
@[simp] theorem State.setDevice_notices (s : State) (d : Fin 4) (r : Device) :
    (s.setDevice d r).notices = s.notices := rfl
@[simp] theorem State.setDevice_mpu (s : State) (d : Fin 4) (r : Device) :
    (s.setDevice d r).mpu = s.mpu := rfl
@[simp] theorem State.setDevice_freeIndex (s : State) (d : Fin 4) (r : Device) :
    (s.setDevice d r).freeIndex = s.freeIndex := rfl

/-! ### State.withMask -/

@[simp] theorem State.withMask_pending (s : State) (m : BitVec 13) :
    (s.withMask m).pending = s.pending := rfl
@[simp] theorem State.withMask_pins (s : State) (m : BitVec 13) :
    (s.withMask m).pins = s.pins := rfl
@[simp] theorem State.withMask_straps (s : State) (m : BitVec 13) :
    (s.withMask m).straps = s.straps := rfl
@[simp] theorem State.withMask_hau (s : State) (m : BitVec 13) :
    (s.withMask m).hau = s.hau := rfl
@[simp] theorem State.withMask_maps (s : State) (m : BitVec 13) :
    (s.withMask m).maps = s.maps := rfl
@[simp] theorem State.withMask_overlay (s : State) (m : BitVec 13) :
    (s.withMask m).overlay = s.overlay := rfl
@[simp] theorem State.withMask_gen (s : State) (m : BitVec 13) :
    (s.withMask m).gen = s.gen := rfl
@[simp] theorem State.withMask_seq (s : State) (m : BitVec 13) :
    (s.withMask m).seq = s.seq := rfl
@[simp] theorem State.withMask_mpc (s : State) (m : BitVec 13) :
    (s.withMask m).mpc = s.mpc := rfl
@[simp] theorem State.withMask_capture (s : State) (m : BitVec 13) :
    (s.withMask m).capture = s.capture := rfl
@[simp] theorem State.withMask_journal (s : State) (m : BitVec 13) :
    (s.withMask m).journal = s.journal := rfl
@[simp] theorem State.withMask_mpu (s : State) (m : BitVec 13) :
    (s.withMask m).mpu = s.mpu := rfl
@[simp] theorem State.withMask_freeIndex (s : State) (m : BitVec 13) :
    (s.withMask m).freeIndex = s.freeIndex := rfl

/-! ### State.mcsHigh -/

@[simp] theorem State.mcsHigh_pending (s : State) :
    s.mcsHigh.pending = s.pending := rfl
@[simp] theorem State.mcsHigh_straps (s : State) :
    s.mcsHigh.straps = s.straps := rfl
@[simp] theorem State.mcsHigh_hau (s : State) :
    s.mcsHigh.hau = s.hau := rfl
@[simp] theorem State.mcsHigh_maps (s : State) :
    s.mcsHigh.maps = s.maps := rfl
@[simp] theorem State.mcsHigh_overlay (s : State) :
    s.mcsHigh.overlay = s.overlay := rfl
@[simp] theorem State.mcsHigh_gen (s : State) :
    s.mcsHigh.gen = s.gen := rfl
@[simp] theorem State.mcsHigh_seq (s : State) :
    s.mcsHigh.seq = s.seq := rfl
@[simp] theorem State.mcsHigh_mpc (s : State) :
    s.mcsHigh.mpc = s.mpc := rfl
@[simp] theorem State.mcsHigh_capture (s : State) :
    s.mcsHigh.capture = s.capture := rfl
@[simp] theorem State.mcsHigh_journal (s : State) :
    s.mcsHigh.journal = s.journal := rfl
@[simp] theorem State.mcsHigh_notices (s : State) :
    s.mcsHigh.notices = s.notices := rfl
@[simp] theorem State.mcsHigh_freeIndex (s : State) :
    s.mcsHigh.freeIndex = s.freeIndex := rfl

/-! ### State.setPort -/

@[simp] theorem State.setPort_pending (s : State) (p : SpiPort) :
    (s.setPort p).pending = s.pending := rfl
@[simp] theorem State.setPort_pins (s : State) (p : SpiPort) :
    (s.setPort p).pins = s.pins := rfl
@[simp] theorem State.setPort_straps (s : State) (p : SpiPort) :
    (s.setPort p).straps = s.straps := rfl
@[simp] theorem State.setPort_hau (s : State) (p : SpiPort) :
    (s.setPort p).hau = s.hau := rfl
@[simp] theorem State.setPort_maps (s : State) (p : SpiPort) :
    (s.setPort p).maps = s.maps := rfl
@[simp] theorem State.setPort_overlay (s : State) (p : SpiPort) :
    (s.setPort p).overlay = s.overlay := rfl
@[simp] theorem State.setPort_gen (s : State) (p : SpiPort) :
    (s.setPort p).gen = s.gen := rfl
@[simp] theorem State.setPort_seq (s : State) (p : SpiPort) :
    (s.setPort p).seq = s.seq := rfl
@[simp] theorem State.setPort_mpc (s : State) (p : SpiPort) :
    (s.setPort p).mpc = s.mpc := rfl
@[simp] theorem State.setPort_capture (s : State) (p : SpiPort) :
    (s.setPort p).capture = s.capture := rfl
@[simp] theorem State.setPort_journal (s : State) (p : SpiPort) :
    (s.setPort p).journal = s.journal := rfl
@[simp] theorem State.setPort_notices (s : State) (p : SpiPort) :
    (s.setPort p).notices = s.notices := rfl
@[simp] theorem State.setPort_freeIndex (s : State) (p : SpiPort) :
    (s.setPort p).freeIndex = s.freeIndex := rfl

/-! ### State.mcsFalls -/

@[simp] theorem State.mcsFalls_pending (s : State) :
    s.mcsFalls.pending = s.pending := rfl
@[simp] theorem State.mcsFalls_pins (s : State) :
    s.mcsFalls.pins = s.pins := rfl
@[simp] theorem State.mcsFalls_straps (s : State) :
    s.mcsFalls.straps = s.straps := rfl
@[simp] theorem State.mcsFalls_hau (s : State) :
    s.mcsFalls.hau = s.hau := rfl
@[simp] theorem State.mcsFalls_maps (s : State) :
    s.mcsFalls.maps = s.maps := rfl
@[simp] theorem State.mcsFalls_overlay (s : State) :
    s.mcsFalls.overlay = s.overlay := rfl
@[simp] theorem State.mcsFalls_gen (s : State) :
    s.mcsFalls.gen = s.gen := rfl
@[simp] theorem State.mcsFalls_seq (s : State) :
    s.mcsFalls.seq = s.seq := rfl
@[simp] theorem State.mcsFalls_mpc (s : State) :
    s.mcsFalls.mpc = s.mpc := rfl
@[simp] theorem State.mcsFalls_capture (s : State) :
    s.mcsFalls.capture = s.capture := rfl
@[simp] theorem State.mcsFalls_journal (s : State) :
    s.mcsFalls.journal = s.journal := rfl
@[simp] theorem State.mcsFalls_notices (s : State) :
    s.mcsFalls.notices = s.notices := rfl
@[simp] theorem State.mcsFalls_freeIndex (s : State) :
    s.mcsFalls.freeIndex = s.freeIndex := rfl

/-! ### State.mcsRises -/

theorem State.mcsRises_frame (s : State) :
    s.mcsRises.pins = s.pins ∧ s.mcsRises.straps = s.straps ∧ s.mcsRises.hau = s.hau ∧ s.mcsRises.maps = s.maps ∧
      s.mcsRises.overlay = s.overlay ∧ s.mcsRises.gen = s.gen ∧ s.mcsRises.seq = s.seq ∧ s.mcsRises.mpc = s.mpc ∧
      s.mcsRises.capture = s.capture ∧ s.mcsRises.journal = s.journal ∧ s.mcsRises.notices = s.notices ∧
      s.mcsRises.freeIndex = s.freeIndex := by
  unfold State.mcsRises; split <;> simp
@[simp] theorem State.mcsRises_pins (s : State) :
    s.mcsRises.pins = s.pins := (State.mcsRises_frame s).1
@[simp] theorem State.mcsRises_straps (s : State) :
    s.mcsRises.straps = s.straps := (State.mcsRises_frame s).2.1
@[simp] theorem State.mcsRises_hau (s : State) :
    s.mcsRises.hau = s.hau := (State.mcsRises_frame s).2.2.1
@[simp] theorem State.mcsRises_maps (s : State) :
    s.mcsRises.maps = s.maps := (State.mcsRises_frame s).2.2.2.1
@[simp] theorem State.mcsRises_overlay (s : State) :
    s.mcsRises.overlay = s.overlay := (State.mcsRises_frame s).2.2.2.2.1
@[simp] theorem State.mcsRises_gen (s : State) :
    s.mcsRises.gen = s.gen := (State.mcsRises_frame s).2.2.2.2.2.1
@[simp] theorem State.mcsRises_seq (s : State) :
    s.mcsRises.seq = s.seq := (State.mcsRises_frame s).2.2.2.2.2.2.1
@[simp] theorem State.mcsRises_mpc (s : State) :
    s.mcsRises.mpc = s.mpc := (State.mcsRises_frame s).2.2.2.2.2.2.2.1
@[simp] theorem State.mcsRises_capture (s : State) :
    s.mcsRises.capture = s.capture := (State.mcsRises_frame s).2.2.2.2.2.2.2.2.1
@[simp] theorem State.mcsRises_journal (s : State) :
    s.mcsRises.journal = s.journal := (State.mcsRises_frame s).2.2.2.2.2.2.2.2.2.1
@[simp] theorem State.mcsRises_notices (s : State) :
    s.mcsRises.notices = s.notices := (State.mcsRises_frame s).2.2.2.2.2.2.2.2.2.2.1
@[simp] theorem State.mcsRises_freeIndex (s : State) :
    s.mcsRises.freeIndex = s.freeIndex := (State.mcsRises_frame s).2.2.2.2.2.2.2.2.2.2.2

/-! ### State.headerSampled -/

theorem State.headerSampled_frame (s : State) (h : Byte) (b : List Bool) :
    (s.headerSampled h b).pending = s.pending ∧ (s.headerSampled h b).pins = s.pins ∧
      (s.headerSampled h b).straps = s.straps ∧ (s.headerSampled h b).hau = s.hau ∧
      (s.headerSampled h b).maps = s.maps ∧ (s.headerSampled h b).overlay = s.overlay ∧
      (s.headerSampled h b).gen = s.gen ∧ (s.headerSampled h b).seq = s.seq ∧ (s.headerSampled h b).mpc = s.mpc ∧
      (s.headerSampled h b).capture = s.capture ∧ (s.headerSampled h b).journal = s.journal ∧
      (s.headerSampled h b).notices = s.notices ∧ (s.headerSampled h b).freeIndex = s.freeIndex := by
  unfold State.headerSampled; split <;> simp
@[simp] theorem State.headerSampled_pending (s : State) (h : Byte) (b : List Bool) :
    (s.headerSampled h b).pending = s.pending := (State.headerSampled_frame s h b).1
@[simp] theorem State.headerSampled_pins (s : State) (h : Byte) (b : List Bool) :
    (s.headerSampled h b).pins = s.pins := (State.headerSampled_frame s h b).2.1
@[simp] theorem State.headerSampled_straps (s : State) (h : Byte) (b : List Bool) :
    (s.headerSampled h b).straps = s.straps := (State.headerSampled_frame s h b).2.2.1
@[simp] theorem State.headerSampled_hau (s : State) (h : Byte) (b : List Bool) :
    (s.headerSampled h b).hau = s.hau := (State.headerSampled_frame s h b).2.2.2.1
@[simp] theorem State.headerSampled_maps (s : State) (h : Byte) (b : List Bool) :
    (s.headerSampled h b).maps = s.maps := (State.headerSampled_frame s h b).2.2.2.2.1
@[simp] theorem State.headerSampled_overlay (s : State) (h : Byte) (b : List Bool) :
    (s.headerSampled h b).overlay = s.overlay := (State.headerSampled_frame s h b).2.2.2.2.2.1
@[simp] theorem State.headerSampled_gen (s : State) (h : Byte) (b : List Bool) :
    (s.headerSampled h b).gen = s.gen := (State.headerSampled_frame s h b).2.2.2.2.2.2.1
@[simp] theorem State.headerSampled_seq (s : State) (h : Byte) (b : List Bool) :
    (s.headerSampled h b).seq = s.seq := (State.headerSampled_frame s h b).2.2.2.2.2.2.2.1
@[simp] theorem State.headerSampled_mpc (s : State) (h : Byte) (b : List Bool) :
    (s.headerSampled h b).mpc = s.mpc := (State.headerSampled_frame s h b).2.2.2.2.2.2.2.2.1
@[simp] theorem State.headerSampled_capture (s : State) (h : Byte) (b : List Bool) :
    (s.headerSampled h b).capture = s.capture := (State.headerSampled_frame s h b).2.2.2.2.2.2.2.2.2.1
@[simp] theorem State.headerSampled_journal (s : State) (h : Byte) (b : List Bool) :
    (s.headerSampled h b).journal = s.journal := (State.headerSampled_frame s h b).2.2.2.2.2.2.2.2.2.2.1
@[simp] theorem State.headerSampled_notices (s : State) (h : Byte) (b : List Bool) :
    (s.headerSampled h b).notices = s.notices := (State.headerSampled_frame s h b).2.2.2.2.2.2.2.2.2.2.2.1
@[simp] theorem State.headerSampled_freeIndex (s : State) (h : Byte) (b : List Bool) :
    (s.headerSampled h b).freeIndex = s.freeIndex := (State.headerSampled_frame s h b).2.2.2.2.2.2.2.2.2.2.2.2

/-! ### State.mckRises -/

theorem State.mckRises_frame (s : State) :
    s.mckRises.pending = s.pending ∧ s.mckRises.pins = s.pins ∧ s.mckRises.straps = s.straps ∧
      s.mckRises.hau = s.hau ∧ s.mckRises.maps = s.maps ∧ s.mckRises.overlay = s.overlay ∧ s.mckRises.gen = s.gen ∧
      s.mckRises.seq = s.seq ∧ s.mckRises.mpc = s.mpc ∧ s.mckRises.capture = s.capture ∧
      s.mckRises.journal = s.journal ∧ s.mckRises.notices = s.notices ∧ s.mckRises.freeIndex = s.freeIndex := by
  unfold State.mckRises; (repeat' split) <;> simp
@[simp] theorem State.mckRises_pending (s : State) :
    s.mckRises.pending = s.pending := (State.mckRises_frame s).1
@[simp] theorem State.mckRises_pins (s : State) :
    s.mckRises.pins = s.pins := (State.mckRises_frame s).2.1
@[simp] theorem State.mckRises_straps (s : State) :
    s.mckRises.straps = s.straps := (State.mckRises_frame s).2.2.1
@[simp] theorem State.mckRises_hau (s : State) :
    s.mckRises.hau = s.hau := (State.mckRises_frame s).2.2.2.1
@[simp] theorem State.mckRises_maps (s : State) :
    s.mckRises.maps = s.maps := (State.mckRises_frame s).2.2.2.2.1
@[simp] theorem State.mckRises_overlay (s : State) :
    s.mckRises.overlay = s.overlay := (State.mckRises_frame s).2.2.2.2.2.1
@[simp] theorem State.mckRises_gen (s : State) :
    s.mckRises.gen = s.gen := (State.mckRises_frame s).2.2.2.2.2.2.1
@[simp] theorem State.mckRises_seq (s : State) :
    s.mckRises.seq = s.seq := (State.mckRises_frame s).2.2.2.2.2.2.2.1
@[simp] theorem State.mckRises_mpc (s : State) :
    s.mckRises.mpc = s.mpc := (State.mckRises_frame s).2.2.2.2.2.2.2.2.1
@[simp] theorem State.mckRises_capture (s : State) :
    s.mckRises.capture = s.capture := (State.mckRises_frame s).2.2.2.2.2.2.2.2.2.1
@[simp] theorem State.mckRises_journal (s : State) :
    s.mckRises.journal = s.journal := (State.mckRises_frame s).2.2.2.2.2.2.2.2.2.2.1
@[simp] theorem State.mckRises_notices (s : State) :
    s.mckRises.notices = s.notices := (State.mckRises_frame s).2.2.2.2.2.2.2.2.2.2.2.1
@[simp] theorem State.mckRises_freeIndex (s : State) :
    s.mckRises.freeIndex = s.freeIndex := (State.mckRises_frame s).2.2.2.2.2.2.2.2.2.2.2.2

/-! ### State.mckFalls -/

theorem State.mckFalls_frame (s : State) :
    s.mckFalls.pending = s.pending ∧ s.mckFalls.pins = s.pins ∧ s.mckFalls.straps = s.straps ∧
      s.mckFalls.hau = s.hau ∧ s.mckFalls.maps = s.maps ∧ s.mckFalls.overlay = s.overlay ∧ s.mckFalls.gen = s.gen ∧
      s.mckFalls.seq = s.seq ∧ s.mckFalls.mpc = s.mpc ∧ s.mckFalls.capture = s.capture ∧
      s.mckFalls.journal = s.journal ∧ s.mckFalls.notices = s.notices ∧ s.mckFalls.freeIndex = s.freeIndex := by
  unfold State.mckFalls; split <;> simp
@[simp] theorem State.mckFalls_pending (s : State) :
    s.mckFalls.pending = s.pending := (State.mckFalls_frame s).1
@[simp] theorem State.mckFalls_pins (s : State) :
    s.mckFalls.pins = s.pins := (State.mckFalls_frame s).2.1
@[simp] theorem State.mckFalls_straps (s : State) :
    s.mckFalls.straps = s.straps := (State.mckFalls_frame s).2.2.1
@[simp] theorem State.mckFalls_hau (s : State) :
    s.mckFalls.hau = s.hau := (State.mckFalls_frame s).2.2.2.1
@[simp] theorem State.mckFalls_maps (s : State) :
    s.mckFalls.maps = s.maps := (State.mckFalls_frame s).2.2.2.2.1
@[simp] theorem State.mckFalls_overlay (s : State) :
    s.mckFalls.overlay = s.overlay := (State.mckFalls_frame s).2.2.2.2.2.1
@[simp] theorem State.mckFalls_gen (s : State) :
    s.mckFalls.gen = s.gen := (State.mckFalls_frame s).2.2.2.2.2.2.1
@[simp] theorem State.mckFalls_seq (s : State) :
    s.mckFalls.seq = s.seq := (State.mckFalls_frame s).2.2.2.2.2.2.2.1
@[simp] theorem State.mckFalls_mpc (s : State) :
    s.mckFalls.mpc = s.mpc := (State.mckFalls_frame s).2.2.2.2.2.2.2.2.1
@[simp] theorem State.mckFalls_capture (s : State) :
    s.mckFalls.capture = s.capture := (State.mckFalls_frame s).2.2.2.2.2.2.2.2.2.1
@[simp] theorem State.mckFalls_journal (s : State) :
    s.mckFalls.journal = s.journal := (State.mckFalls_frame s).2.2.2.2.2.2.2.2.2.2.1
@[simp] theorem State.mckFalls_notices (s : State) :
    s.mckFalls.notices = s.notices := (State.mckFalls_frame s).2.2.2.2.2.2.2.2.2.2.2.1
@[simp] theorem State.mckFalls_freeIndex (s : State) :
    s.mckFalls.freeIndex = s.freeIndex := (State.mckFalls_frame s).2.2.2.2.2.2.2.2.2.2.2.2

/-! ### State.spiEdges -/

theorem State.spiEdges_frame (s : State) (b : SpiLines) :
    (s.spiEdges b).pins = s.pins ∧ (s.spiEdges b).straps = s.straps ∧ (s.spiEdges b).hau = s.hau ∧
      (s.spiEdges b).maps = s.maps ∧ (s.spiEdges b).overlay = s.overlay ∧ (s.spiEdges b).gen = s.gen ∧
      (s.spiEdges b).seq = s.seq ∧ (s.spiEdges b).mpc = s.mpc ∧ (s.spiEdges b).capture = s.capture ∧
      (s.spiEdges b).journal = s.journal ∧ (s.spiEdges b).notices = s.notices ∧
      (s.spiEdges b).freeIndex = s.freeIndex := by
  unfold State.spiEdges; (repeat' split) <;> simp
@[simp] theorem State.spiEdges_pins (s : State) (b : SpiLines) :
    (s.spiEdges b).pins = s.pins := (State.spiEdges_frame s b).1
@[simp] theorem State.spiEdges_straps (s : State) (b : SpiLines) :
    (s.spiEdges b).straps = s.straps := (State.spiEdges_frame s b).2.1
@[simp] theorem State.spiEdges_hau (s : State) (b : SpiLines) :
    (s.spiEdges b).hau = s.hau := (State.spiEdges_frame s b).2.2.1
@[simp] theorem State.spiEdges_maps (s : State) (b : SpiLines) :
    (s.spiEdges b).maps = s.maps := (State.spiEdges_frame s b).2.2.2.1
@[simp] theorem State.spiEdges_overlay (s : State) (b : SpiLines) :
    (s.spiEdges b).overlay = s.overlay := (State.spiEdges_frame s b).2.2.2.2.1
@[simp] theorem State.spiEdges_gen (s : State) (b : SpiLines) :
    (s.spiEdges b).gen = s.gen := (State.spiEdges_frame s b).2.2.2.2.2.1
@[simp] theorem State.spiEdges_seq (s : State) (b : SpiLines) :
    (s.spiEdges b).seq = s.seq := (State.spiEdges_frame s b).2.2.2.2.2.2.1
@[simp] theorem State.spiEdges_mpc (s : State) (b : SpiLines) :
    (s.spiEdges b).mpc = s.mpc := (State.spiEdges_frame s b).2.2.2.2.2.2.2.1
@[simp] theorem State.spiEdges_capture (s : State) (b : SpiLines) :
    (s.spiEdges b).capture = s.capture := (State.spiEdges_frame s b).2.2.2.2.2.2.2.2.1
@[simp] theorem State.spiEdges_journal (s : State) (b : SpiLines) :
    (s.spiEdges b).journal = s.journal := (State.spiEdges_frame s b).2.2.2.2.2.2.2.2.2.1
@[simp] theorem State.spiEdges_notices (s : State) (b : SpiLines) :
    (s.spiEdges b).notices = s.notices := (State.spiEdges_frame s b).2.2.2.2.2.2.2.2.2.2.1
@[simp] theorem State.spiEdges_freeIndex (s : State) (b : SpiLines) :
    (s.spiEdges b).freeIndex = s.freeIndex := (State.spiEdges_frame s b).2.2.2.2.2.2.2.2.2.2.2

/-! ### State.levelsChange -/

theorem State.levelsChange_frame (s : State) :
    s.levelsChange.straps = s.straps ∧ s.levelsChange.hau = s.hau ∧ s.levelsChange.maps = s.maps ∧
      s.levelsChange.overlay = s.overlay ∧ s.levelsChange.gen = s.gen ∧ s.levelsChange.seq = s.seq ∧
      s.levelsChange.mpc = s.mpc ∧ s.levelsChange.capture = s.capture ∧ s.levelsChange.journal = s.journal ∧
      s.levelsChange.notices = s.notices ∧ s.levelsChange.freeIndex = s.freeIndex := by
  unfold State.levelsChange; (repeat' split) <;> simp
@[simp] theorem State.levelsChange_straps (s : State) :
    s.levelsChange.straps = s.straps := (State.levelsChange_frame s).1
@[simp] theorem State.levelsChange_hau (s : State) :
    s.levelsChange.hau = s.hau := (State.levelsChange_frame s).2.1
@[simp] theorem State.levelsChange_maps (s : State) :
    s.levelsChange.maps = s.maps := (State.levelsChange_frame s).2.2.1
@[simp] theorem State.levelsChange_overlay (s : State) :
    s.levelsChange.overlay = s.overlay := (State.levelsChange_frame s).2.2.2.1
@[simp] theorem State.levelsChange_gen (s : State) :
    s.levelsChange.gen = s.gen := (State.levelsChange_frame s).2.2.2.2.1
@[simp] theorem State.levelsChange_seq (s : State) :
    s.levelsChange.seq = s.seq := (State.levelsChange_frame s).2.2.2.2.2.1
@[simp] theorem State.levelsChange_mpc (s : State) :
    s.levelsChange.mpc = s.mpc := (State.levelsChange_frame s).2.2.2.2.2.2.1
@[simp] theorem State.levelsChange_capture (s : State) :
    s.levelsChange.capture = s.capture := (State.levelsChange_frame s).2.2.2.2.2.2.2.1
@[simp] theorem State.levelsChange_journal (s : State) :
    s.levelsChange.journal = s.journal := (State.levelsChange_frame s).2.2.2.2.2.2.2.2.1
@[simp] theorem State.levelsChange_notices (s : State) :
    s.levelsChange.notices = s.notices := (State.levelsChange_frame s).2.2.2.2.2.2.2.2.2.1
@[simp] theorem State.levelsChange_freeIndex (s : State) :
    s.levelsChange.freeIndex = s.freeIndex := (State.levelsChange_frame s).2.2.2.2.2.2.2.2.2.2

/-! ### What the changed fields become -/

@[simp] theorem State.post_notices (s : State) (d : Detail) :
    (s.post d).notices = s.notices.post d := rfl
@[simp] theorem State.replaceActive_active (s : State) (m : SlotMap) (c : CommitState) :
    (s.replaceActive m c).maps.active = m := rfl
@[simp] theorem State.replaceActive_staged (s : State) (m : SlotMap) (c : CommitState) :
    (s.replaceActive m c).maps.staged = s.maps.staged := rfl
@[simp] theorem State.replaceActive_hits (s : State) (m : SlotMap) (c : CommitState) :
    (s.replaceActive m c).maps.hits = zeroHits := rfl
@[simp] theorem State.replaceActive_commit (s : State) (m : SlotMap) (c : CommitState) :
    (s.replaceActive m c).gen.commit = c := rfl
@[simp] theorem State.replaceActive_generation (s : State) (m : SlotMap) (c : CommitState) :
    (s.replaceActive m c).gen.generation = s.gen.generation + 1 := rfl
@[simp] theorem State.takeEffect_maps (s : State) (p : PendingCommit) :
    (s.takeEffect p).maps = ⟨s.maps.staged, s.maps.staged, zeroHits⟩ := by simp [State.takeEffect, State.replaceActive]
@[simp] theorem State.takeEffect_gen (s : State) (p : PendingCommit) :
    (s.takeEffect p).gen = ⟨s.trialOf p, s.gen.generation + 1⟩ := by simp [State.takeEffect, State.replaceActive]
@[simp] theorem State.confirm_gen (s : State) (c : ConfirmCause) :
    (s.confirm c).gen = ⟨.none, s.gen.generation⟩ := by simp [State.confirm]
@[simp] theorem State.revert_maps (s : State) (t : Trial) (c : RevertCause) :
    (s.revert t c).maps = ⟨s.maps.staged, t.fallback, zeroHits⟩ := by simp [State.revert, State.replaceActive]
@[simp] theorem State.revert_gen (s : State) (t : Trial) (c : RevertCause) :
    (s.revert t c).gen = ⟨.none, s.gen.generation + 1⟩ := by simp [State.revert, State.replaceActive]
@[simp] theorem State.editStaged_maps (s : State) (i : Fin 32) (e : Option Entry) :
    (s.editStaged i e).maps = { s.maps with staged := s.maps.staged.set i.val e } := by unfold State.editStaged; dsimp only; split <;> simp
@[simp] theorem State.seqNews_seq (s : State) (r : Seq × SeqNews) :
    (s.seqNews r).seq = r.1 := by unfold State.seqNews; dsimp only; (repeat' split) <;> simp
@[simp] theorem State.countHit_active (s : State) (i : Option (Fin 32)) :
    (s.countHit i).maps.active = s.maps.active := by cases i <;> rfl
@[simp] theorem State.countHit_staged (s : State) (i : Option (Fin 32)) :
    (s.countHit i).maps.staged = s.maps.staged := by cases i <;> rfl
@[simp] theorem State.start_access (s : State) (p : PortAccess) :
    (s.start p).mpc.access = some p := rfl
@[simp] theorem State.freePort_access (s : State) :
    s.freePort.mpc.access = none := rfl
@[simp] theorem State.store_softReset (s : State) (t : Byte) (c : Status) (p : List Byte) :
    (s.store t c p).mpu.softReset = s.mpu.softReset := rfl
@[simp] theorem State.store_buffer (s : State) (t : Byte) (c : Status) (p : List Byte) :
    (s.store t c p).mpu.buffer = ⟨t, c, p⟩ := rfl
@[simp] theorem State.setPort_port (s : State) (p : SpiPort) :
    (s.setPort p).mpu.port = p := rfl
@[simp] theorem State.setPort_mdo (s : State) (p : SpiPort) :
    (s.setPort p).mpu.mdo = s.mpu.mdo := rfl
@[simp] theorem State.mcsHigh_resetN (s : State) :
    s.mcsHigh.pins.resetN = s.pins.resetN := rfl
@[simp] theorem State.mcsHigh_buffer (s : State) :
    s.mcsHigh.mpu.buffer = s.mpu.buffer := rfl
@[simp] theorem State.mcsHigh_softReset (s : State) :
    s.mcsHigh.mpu.softReset = s.mpu.softReset := rfl
@[simp] theorem State.boundaryOccurs_staged (s : State) (p : PendingCommit) :
    (s.boundaryOccurs p).maps.staged = s.maps.staged := by unfold State.boundaryOccurs; split <;> simp
@[simp] theorem State.epochReported_staged (s : State) :
    s.epochReported.maps.staged = s.maps.staged := by unfold State.epochReported; (repeat' split) <;> simp
@[simp] theorem State.changeAtEnd_staged (s : State) (a : Access) :
    (s.changeAtEnd a).maps.staged = s.maps.staged := by unfold State.changeAtEnd; (repeat' split) <;> simp

/-! ### Updates within a block -/

@[simp] theorem Hau.toIdle_state (h : Hau) : h.toIdle.state = .idle := rfl
@[simp] theorem Hau.toIdle_access (h : Hau) : h.toIdle.access = none := rfl
@[simp] theorem Hau.toIdle_decision (h : Hau) : h.toIdle.decision = none := rfl
@[simp] theorem Hau.toIdle_response (h : Hau) : h.toIdle.response = h.response := rfl
@[simp] theorem Hau.toIdle_hold (h : Hau) : h.toIdle.hold = h.hold := rfl
@[simp] theorem Hau.toIdle_lockdown (h : Hau) : h.toIdle.lockdown = h.lockdown := rfl

@[simp] theorem Hau.carrying_state (h : Hau) (st : HauState) (a : Access) (d : Decision) : (h.carrying st a d).state = st := rfl
@[simp] theorem Hau.carrying_access (h : Hau) (st : HauState) (a : Access) (d : Decision) : (h.carrying st a d).access = some a := rfl
@[simp] theorem Hau.carrying_decision (h : Hau) (st : HauState) (a : Access) (d : Decision) : (h.carrying st a d).decision = some d := rfl
@[simp] theorem Hau.carrying_response (h : Hau) (st : HauState) (a : Access) (d : Decision) : (h.carrying st a d).response = h.response := rfl
@[simp] theorem Hau.carrying_hold (h : Hau) (st : HauState) (a : Access) (d : Decision) : (h.carrying st a d).hold = h.hold := rfl
@[simp] theorem Hau.carrying_lockdown (h : Hau) (st : HauState) (a : Access) (d : Decision) : (h.carrying st a d).lockdown = h.lockdown := rfl

@[simp] theorem Seq.restart_config (q : Seq) : q.restart.config = q.config := rfl
@[simp] theorem Seq.restart_phase (q : Seq) : q.restart.phase = q.config.initial := rfl
@[simp] theorem Seq.restart_counter (q : Seq) : q.restart.counter = 0#16 := rfl
@[simp] theorem Seq.restart_epochAccesses (q : Seq) : q.restart.epochAccesses = 0#32 := rfl
@[simp] theorem Seq.restart_epochNumber (q : Seq) : q.restart.epochNumber = q.epochNumber := rfl
@[simp] theorem Seq.restart_parked (q : Seq) : q.restart.parked = false := rfl
@[simp] theorem Seq.restart_overrunPosted (q : Seq) : q.restart.overrunPosted = false := rfl
@[simp] theorem Seq.restart_accepted (q : Seq) : q.restart.accepted = q.accepted := rfl
@[simp] theorem Seq.restart_filterCount (q : Seq) : q.restart.filterCount = q.filterCount := rfl

@[simp] theorem Seq.sample_config (q : Seq) (b : Bool) : (q.sample b).config = q.config := rfl
@[simp] theorem Seq.sample_phase (q : Seq) (b : Bool) : (q.sample b).phase = q.phase := rfl
@[simp] theorem Seq.sample_counter (q : Seq) (b : Bool) : (q.sample b).counter = q.counter := rfl
@[simp] theorem Seq.sample_epochAccesses (q : Seq) (b : Bool) : (q.sample b).epochAccesses = q.epochAccesses := rfl
@[simp] theorem Seq.sample_epochNumber (q : Seq) (b : Bool) : (q.sample b).epochNumber = q.epochNumber := rfl
@[simp] theorem Seq.sample_parked (q : Seq) (b : Bool) : (q.sample b).parked = q.parked := rfl
@[simp] theorem Seq.sample_overrunPosted (q : Seq) (b : Bool) : (q.sample b).overrunPosted = q.overrunPosted := rfl
@[simp] theorem Seq.sample_accepted (q : Seq) (b : Bool) : (q.sample b).accepted = b := rfl
@[simp] theorem Seq.sample_filterCount (q : Seq) (b : Bool) : (q.sample b).filterCount = 0 := rfl

@[simp] theorem Seq.boundary_config (q : Seq) : q.boundary.config = q.config := rfl
@[simp] theorem Seq.boundary_phase (q : Seq) : q.boundary.phase = q.config.initial := rfl
@[simp] theorem Seq.boundary_counter (q : Seq) : q.boundary.counter = 0#16 := rfl
@[simp] theorem Seq.boundary_epochAccesses (q : Seq) : q.boundary.epochAccesses = 0#32 := rfl
@[simp] theorem Seq.boundary_epochNumber (q : Seq) : q.boundary.epochNumber = q.epochNumber + 1 := rfl
@[simp] theorem Seq.boundary_parked (q : Seq) : q.boundary.parked = false := rfl
@[simp] theorem Seq.boundary_overrunPosted (q : Seq) : q.boundary.overrunPosted = false := rfl
@[simp] theorem Seq.boundary_accepted (q : Seq) : q.boundary.accepted = q.accepted := rfl
@[simp] theorem Seq.boundary_filterCount (q : Seq) : q.boundary.filterCount = q.filterCount := rfl

@[simp] theorem Seq.visit_config (q : Seq) (p : BitVec 2) : (q.visit p).config = q.config := rfl
@[simp] theorem Seq.visit_phase (q : Seq) (p : BitVec 2) : (q.visit p).phase = p := rfl
@[simp] theorem Seq.visit_counter (q : Seq) (p : BitVec 2) : (q.visit p).counter = 0#16 := rfl
@[simp] theorem Seq.visit_epochAccesses (q : Seq) (p : BitVec 2) : (q.visit p).epochAccesses = q.epochAccesses := rfl
@[simp] theorem Seq.visit_epochNumber (q : Seq) (p : BitVec 2) : (q.visit p).epochNumber = q.epochNumber := rfl
@[simp] theorem Seq.visit_parked (q : Seq) (p : BitVec 2) : (q.visit p).parked = q.parked := rfl
@[simp] theorem Seq.visit_overrunPosted (q : Seq) (p : BitVec 2) : (q.visit p).overrunPosted = false := rfl
@[simp] theorem Seq.visit_accepted (q : Seq) (p : BitVec 2) : (q.visit p).accepted = q.accepted := rfl
@[simp] theorem Seq.visit_filterCount (q : Seq) (p : BitVec 2) : (q.visit p).filterCount = q.filterCount := rfl

end Sys2Proof.Machine
end

