-- ==== Sys2Proof/Laws/Management.lean ====
section
/-! SUPPORT. How a command frame meets the unit, case by case, the layouts of numbers, and notice posting. -/

namespace Sys2Proof.Machine

/-! ### A command frame (R161, R164 to R167, R174, R176) -/

theorem State.isUnit_iff (s : State) (u : BitVec 3) : s.isUnit u = true ↔ u = s.straps.unit.setWidth 3 := by
  simp [State.isUnit]

/-- No unit's own field is the broadcast field. -/
theorem broadcastUnit_ne (u : BitVec 2) : u.setWidth 3 ≠ broadcastUnit := by
  revert u
  decide

/-- The MPU follows the bus: RESET_N is negated and MCS_N is high (R160, R176). -/
abbrev State.Listens (s : State) : Prop := s.pins.resetN = false ∧ s.pins.spi.mcs = false ∧ s.mpu.port = .idle

/-- Between transactions MCS_N is high already. -/
theorem State.mcsHigh_eq {s : State} (h : s.Listens) : s.mcsHigh = s := by
  obtain ⟨-, hm, hp⟩ := h
  rcases s with ⟨pending, ⟨a1, a2, a3, a4, a5, a6, a7, ⟨m, c, d⟩, sc⟩, st, ha, ma, ov, ge, se, mp, ca, jo, no, ⟨b1, b2, po, b4⟩, fi⟩
  obtain rfl : m = false := hm
  obtain rfl : po = .idle := hp
  rfl

theorem State.receive_reset {s : State} (h : s.pins.resetN = true) (f : Frame) (b l : Bool) (r : State → Reply) :
    s.receive f b l r = s := by
  simp [State.receive, h]

/-- A transaction row, whatever went on before its falling edge of MCS_N. -/
theorem State.receive_mcsHigh (s : State) (f : Frame) (b l : Bool) (r : State → Reply) (h : s.pins.resetN = false) :
    s.receive f b l r = s.mcsHigh.receive f b l r := by
  simp only [State.receive, State.mcsHigh_resetN, h]
  rfl

theorem State.receive_listens {s : State} (h : s.Listens) (f : Frame) (b l : Bool) (r : State → Reply) :
    s.receive f b l r = s.handle f b l r := by
  simp [State.receive, h.1, State.mcsHigh_eq h]

/-- A frame for this unit alone outside a soft-reset interval. -/
theorem State.receive_own {s : State} {f : Frame} (h : s.Listens) (hr : s.mpu.softReset = none)
    (hu : f.unit = s.straps.unit.setWidth 3) (b l : Bool) (r : State → Reply) :
    s.receive f b l r = if l then (r s).stored f.tag else s.store f.tag .length [] := by
  have h1 : f.unit ≠ broadcastUnit := hu ▸ broadcastUnit_ne _
  simp [State.receive_listens h, State.handle, h1, (State.isUnit_iff s f.unit).mpr hu, hr]

/-- A frame for this unit alone in a soft-reset interval. -/
theorem State.receive_interval {s : State} {f : Frame} (h : s.Listens) (hr : s.mpu.softReset.isSome = true)
    (hu : f.unit = s.straps.unit.setWidth 3) (b l : Bool) (r : State → Reply) :
    s.receive f b l r = s.store f.tag .busy [] := by
  have h1 : f.unit ≠ broadcastUnit := hu ▸ broadcastUnit_ne _
  simp [State.receive_listens h, State.handle, h1, (State.isUnit_iff s f.unit).mpr hu, hr]

/-- A broadcast. -/
theorem State.receive_broadcast {s : State} {f : Frame} (h : s.Listens) (hu : f.unit = broadcastUnit)
    (b l : Bool) (r : State → Reply) :
    s.receive f b l r = if s.mpu.softReset.isNone && b && l then (r s).state else s := by
  simp [State.receive_listens h, State.handle, hu]

/-- A frame for another unit. -/
theorem State.receive_other {s : State} {f : Frame} (h : s.Listens) (hb : f.unit ≠ broadcastUnit)
    (hu : f.unit ≠ s.straps.unit.setWidth 3) (b l : Bool) (r : State → Reply) : s.receive f b l r = s := by
  have h1 : s.isUnit f.unit = false := by simpa [State.isUnit] using hu
  simp [State.receive_listens h, State.handle, hb, h1]

/-! ### Layouts -/

@[simp] theorem byteAt_cons_zero (b : Byte) (p : List Byte) : byteAt (b :: p) 0 = b := rfl
@[simp] theorem byteAt_cons_succ (b : Byte) (p : List Byte) (i : Nat) : byteAt (b :: p) (i + 1) = byteAt p i := by
  simp [byteAt]

theorem extract_append_word (w : Word) : (w.extractLsb' 8 8 ++ w.setWidth 8 : BitVec 16) = w := by
  ext i hi
  simp only [BitVec.getElem_append, BitVec.getElem_extractLsb', BitVec.getElem_setWidth]
  split
  · next h => simp [BitVec.getLsbD_eq_getElem hi]
  · next h => rw [show 8 + (i - 8) = i by omega, BitVec.getLsbD_eq_getElem hi]

/-- A word sent most significant byte first is read back (R167). -/
@[simp] theorem wordAt_wordBytes (w : Word) (p : List Byte) : wordAt (wordBytes w ++ p) 0 = w := by
  simp only [wordAt, wordBytes, List.cons_append, List.nil_append, byteAt_cons_zero, Nat.zero_add]
  rw [show byteAt (highByte w :: lowByte w :: p) 1 = lowByte w from rfl]
  exact extract_append_word w

theorem wordBytes_wordAt (h l : Byte) : wordBytes (h ++ l : BitVec 16) = [h, l] := by
  simp only [wordBytes, highByte, lowByte, List.cons.injEq, and_true]
  constructor
  · ext i hi
    simp only [BitVec.getElem_extractLsb']
    exact (BitVec.getLsbD_append (x := h) (y := l)).trans (by simp [BitVec.getLsbD_eq_getElem hi])
  · ext i hi
    simp only [BitVec.getElem_setWidth]
    exact (BitVec.getLsbD_append (x := h) (y := l)).trans (by simp [hi])

/-! The bytes of a number in terms of its value, most significant byte first (R167). -/

theorem lowByte_eq (w : Word) : lowByte w = BitVec.ofNat 8 w.toNat := by
  apply BitVec.eq_of_toNat_eq
  simp [lowByte]

theorem highByte_eq (w : Word) : highByte w = BitVec.ofNat 8 (w.toNat / 256) := by
  apply BitVec.eq_of_toNat_eq
  simp [highByte, BitVec.extractLsb', Nat.shiftRight_eq_div_pow]

theorem wordBytes_eq (w : Word) : wordBytes w = [BitVec.ofNat 8 (w.toNat / 256), BitVec.ofNat 8 w.toNat] := by
  rw [wordBytes, highByte_eq, lowByte_eq]

theorem countBytes_eq (n : Nat) : countBytes n = [BitVec.ofNat 8 (n / 256), BitVec.ofNat 8 n] := by
  rw [countBytes, wordBytes_eq]
  simp only [BitVec.toNat_ofNat, List.cons.injEq, and_true]
  constructor <;> apply BitVec.eq_of_toNat_eq <;> simp only [BitVec.toNat_ofNat] <;> omega

theorem addrBytes_eq (a : Addr) :
    addrBytes a = [BitVec.ofNat 8 (a.toNat / 65536), BitVec.ofNat 8 (a.toNat / 256), BitVec.ofNat 8 a.toNat] := by
  simp only [addrBytes, List.cons.injEq, and_true]
  refine ⟨?_, ?_, ?_⟩ <;> apply BitVec.eq_of_toNat_eq <;> simp [BitVec.extractLsb', Nat.shiftRight_eq_div_pow]

theorem longBytes_eq (w : BitVec 32) :
    longBytes w =
      [BitVec.ofNat 8 (w.toNat / 16777216), BitVec.ofNat 8 (w.toNat / 65536), BitVec.ofNat 8 (w.toNat / 256),
        BitVec.ofNat 8 w.toNat] := by
  simp only [longBytes, List.cons.injEq, and_true]
  refine ⟨?_, ?_, ?_, ?_⟩ <;> apply BitVec.eq_of_toNat_eq <;> simp [BitVec.extractLsb', Nat.shiftRight_eq_div_pow]

theorem byteAddr_toNat (a : WordAddr) : (byteAddr a).toNat = 2 * a.toNat := by
  have := a.isLt
  simp only [byteAddr, BitVec.toNat_ofNat]
  omega

theorem index32_eq_some {b : Byte} {r : Fin 32} : index32 b = some r ↔ r.val = b.toNat := by
  unfold index32
  split
  · next h => simp only [Option.some.injEq, Fin.ext_iff]; omega
  · next h =>
    have := r.isLt
    simp only [reduceCtorEq, false_iff]; omega

theorem index32_eq_none {b : Byte} : index32 b = none ↔ 31 < b.toNat := by
  unfold index32
  split
  · next h => simp only [reduceCtorEq, false_iff]; omega
  · next h => simp only [true_iff]; omega

theorem index4_eq_some {b : Byte} {d : Fin 4} : index4 b = some d ↔ d.val = b.toNat := by
  unfold index4
  split
  · next h => simp only [Option.some.injEq, Fin.ext_iff]; omega
  · next h =>
    have := d.isLt
    simp only [reduceCtorEq, false_iff]; omega

theorem index4_eq_none {b : Byte} : index4 b = none ↔ 3 < b.toNat := by
  unfold index4
  split
  · next h => simp only [reduceCtorEq, false_iff]; omega
  · next h => simp only [true_iff]; omega

/-! ### Postings (R148, R149) -/

theorem Notices.post_new {q : Notices} {d : Detail} (h : q.holds d.code = false) :
    q.post d = { q with queue := q.queue ++ [⟨d, 1⟩] } := by
  simp [Notices.post, h]

theorem Notices.post_held {q : Notices} {d : Detail} (h : q.holds d.code = true) :
    q.post d = { q with queue := q.queue.map fun n => if n.code == d.code then n.again else n } := by
  simp [Notices.post, h]

@[simp] theorem Notices.post_mask (q : Notices) (d : Detail) : (q.post d).mask = q.mask := by
  unfold Notices.post
  split <;> rfl

@[simp] theorem Notice.again_code (n : Notice) : n.again.code = n.code := rfl

/-- A posting keeps the kind codes held and appends its own when it was not held. -/
theorem Notices.post_codes (q : Notices) (d : Detail) :
    (q.post d).queue.map Notice.code =
      q.queue.map Notice.code ++ (if q.holds d.code then [] else [d.code]) := by
  cases h : q.holds d.code
  · rw [Notices.post_new h]
    simp [Notice.code]
  · rw [Notices.post_held h]
    simp only [List.map_map, if_true, List.append_nil]
    refine List.map_congr_left fun n _ => ?_
    simp only [Function.comp]
    split <;> rfl

/-! ### Journal acknowledgement (R141) -/

theorem removeThrough_none {n : Word} {rs : List JournalRecord} (h : ∀ r ∈ rs, r.sequence ≠ n) :
    removeThrough n rs = none := by
  induction rs with
  | nil => rfl
  | cons r rs ih =>
    simp only [removeThrough, if_neg (h r (by simp)), ih fun q hq => h q (by simp [hq]), Option.map_none]

theorem removeThrough_some {n : Word} {before rest : List JournalRecord} {r : JournalRecord} (hr : r.sequence = n)
    (h : ∀ q ∈ before, q.sequence ≠ n) :
    removeThrough n (before ++ r :: rest) = some (before.length + 1, rest) := by
  induction before with
  | nil => simp [removeThrough, hr]
  | cons q qs ih =>
    simp only [List.cons_append, removeThrough, if_neg (h q (by simp)), ih fun x hx => h x (by simp [hx]),
      Option.map_some, List.length_cons]

end Sys2Proof.Machine
end

