-- ==== Sys2Proof/Laws/Memory.lean ====
section
/-! SUPPORT. Overlay RAM: every operation keeps its canonical form, what a read gives after each write, and what the
operations on runs leave of the run records. -/

namespace Sys2Proof.Machine

/-! ### The canonical form -/

theorem ramWfFrom_mono {lo lo' : Nat} (m : List Host.Cell) (h : lo' ≤ lo) (hm : ramWfFrom lo m = true) :
    ramWfFrom lo' m = true := by
  cases m with
  | nil => rfl
  | cons c m =>
    simp only [ramWfFrom, Bool.and_eq_true, decide_eq_true_eq] at hm ⊢
    exact ⟨⟨⟨by omega, hm.1.1.2⟩, hm.1.2⟩, hm.2⟩

theorem ramCons_wf {lo a : Nat} (v : Byte) (m : List Host.Cell) (hlo : lo ≤ a) (ha : a < ramSize)
    (hm : ramWfFrom (a + 1) m = true) : ramWfFrom lo (ramCons a v m) = true := by
  unfold ramCons
  split
  · exact ramWfFrom_mono m (by omega) hm
  · simp_all [ramWfFrom]

/-- A write keeps the canonical form. -/
theorem ramWrite_wfFrom {lo a : Nat} (v : Byte) (m : List Host.Cell) (hlo : lo ≤ a) (ha : a < ramSize)
    (hm : ramWfFrom lo m = true) : ramWfFrom lo (ramWrite m a v) = true := by
  induction m generalizing lo with
  | nil => exact ramCons_wf v [] hlo ha rfl
  | cons c m ih =>
    have hc := hm
    simp only [ramWfFrom, Bool.and_eq_true, decide_eq_true_eq] at hc
    unfold ramWrite
    split
    · next h =>
      refine ramCons_wf v _ hlo ha ?_
      simp only [ramWfFrom, Bool.and_eq_true, decide_eq_true_eq]
      exact ⟨⟨⟨by omega, hc.1.1.2⟩, hc.1.2⟩, hc.2⟩
    · split
      · next h => exact ramCons_wf v _ hlo ha (h ▸ hc.2)
      · next h1 h2 =>
        simp only [ramWfFrom, Bool.and_eq_true, decide_eq_true_eq]
        exact ⟨hc.1, ih (by omega) hc.2⟩

theorem ramWrite_wf {a : Nat} (v : Byte) (m : List Host.Cell) (ha : a < ramSize) (hm : Memory.wf m = true) :
    Memory.wf (ramWrite m a v) = true := ramWrite_wfFrom v m (Nat.zero_le a) ha hm

theorem ramWriteLanes_wf {a : Nat} (m : List Host.Cell) (lanes : Lanes) (w : Word) (ha : a + 1 < ramSize)
    (hm : Memory.wf m = true) : Memory.wf (ramWriteLanes m a lanes w) = true := by
  cases lanes
  · exact ramWrite_wf _ _ (by omega) hm
  · exact ramWrite_wf _ _ ha hm
  · exact ramWrite_wf _ _ ha (ramWrite_wf _ _ (by omega) hm)

theorem ramWfFrom_filter {lo : Nat} (q : Host.Cell → Bool) (m : List Host.Cell) (hm : ramWfFrom lo m = true) :
    ramWfFrom lo (m.filter q) = true := by
  induction m generalizing lo with
  | nil => rfl
  | cons c m ih =>
    simp only [ramWfFrom, Bool.and_eq_true, decide_eq_true_eq] at hm
    rw [List.filter_cons]
    split
    · simp only [ramWfFrom, Bool.and_eq_true, decide_eq_true_eq]
      exact ⟨hm.1, ih hm.2⟩
    · exact ramWfFrom_mono _ (by omega) (ih hm.2)

/-- A page filled keeps the canonical form. -/
theorem ramFillPage_wf (m : List Host.Cell) (p : Fin 128) (hm : Memory.wf m = true) :
    Memory.wf (ramFillPage m p) = true := ramWfFrom_filter _ m hm

theorem ramFillPages_wf (ps : List (Fin 128)) (m : List Host.Cell) (hm : Memory.wf m = true) :
    Memory.wf (ps.foldl ramFillPage m) = true := by
  induction ps generalizing m with
  | nil => exact hm
  | cons p ps ih => exact ih _ (ramFillPage_wf m p hm)

/-- A run word lies within overlay RAM, at an even address (R40, R44). -/
theorem Run.locate_bounds {r : Run} {w a : Nat} (h : r.locate w = some a) : a + 1 < ramSize ∧ a % 2 = 0 := by
  simp only [Run.locate, Option.map_eq_some_iff] at h
  obtain ⟨p, -, rfl⟩ := h
  have := p.isLt
  unfold ramSize
  omega

theorem Overlay.writeWord_wf (o : Overlay) (r : Fin 32) (w : Nat) (lanes : Lanes) (v : Word)
    (h : Memory.wf o.ram = true) : Memory.wf (o.writeWord r w lanes v).ram = true := by
  unfold Overlay.writeWord
  split
  · next a ha => exact ramWriteLanes_wf _ _ _ (Run.locate_bounds ha).1 h
  · exact h

theorem Overlay.writeWords_wf (o : Overlay) (r : Fin 32) (w : Nat) (vs : List Word) (h : Memory.wf o.ram = true) :
    Memory.wf (o.writeWords r w vs).ram = true := by
  induction vs generalizing o w with
  | nil => exact h
  | cons v vs ih => exact ih _ _ (Overlay.writeWord_wf o r w .both v h)

theorem Overlay.openRun_wf (o : Overlay) (r : Fin 32) (n : Nat) (h : Memory.wf o.ram = true) :
    Memory.wf (o.openRun r n).ram = true := ramFillPages_wf _ _ h

@[simp] theorem Overlay.release_ram (o : Overlay) (r : Fin 32) : (o.release r).ram = o.ram := rfl
@[simp] theorem Overlay.setState_ram (o : Overlay) (r : Fin 32) (st : RunState) : (o.setState r st).ram = o.ram := rfl
@[simp] theorem Overlay.setState_free (o : Overlay) (r : Fin 32) (st : RunState) : (o.setState r st).free = o.free := rfl
@[simp] theorem Overlay.atReset_ram (ram : List Host.Cell) : (Overlay.atReset ram).ram = ram := rfl

theorem releaseOne_ram (referenced : Fin 32 → Bool) (o : Overlay) (r : Fin 32) :
    (releaseOne referenced o r).ram = o.ram := by
  unfold releaseOne
  split <;> rfl

theorem releaseAll_ram (referenced : Fin 32 → Bool) (rs : List (Fin 32)) (o : Overlay) :
    (rs.foldl (releaseOne referenced) o).ram = o.ram := by
  induction rs generalizing o with
  | nil => rfl
  | cons r rs ih => rw [List.foldl_cons, ih, releaseOne_ram]

/-- The release test leaves overlay RAM as it is (R53). -/
@[simp] theorem State.releaseTest_ram (s : State) : s.releaseTest.overlay.ram = s.overlay.ram :=
  releaseAll_ram _ _ _

/-- Overlay RAM is in canonical form after reset. -/
theorem State.reset_ram_wf : Memory.wf State.reset.overlay.ram = true := rfl

/-! ### Reads after writes -/

theorem ramRead_of_wfFrom {lo a : Nat} (m : List Host.Cell) (hm : ramWfFrom lo m = true) (ha : a < lo) :
    ramRead m a = ramFill := by
  induction m generalizing lo with
  | nil => rfl
  | cons c m ih =>
    simp only [ramWfFrom, Bool.and_eq_true, decide_eq_true_eq] at hm
    rw [ramRead, if_neg (by omega)]
    exact ih hm.2 (by omega)

/-- A write leaves every other address, in any list of cells. -/
theorem ramRead_ramWrite_other {a b : Nat} (v : Byte) (m : List Host.Cell) (h : b ≠ a) :
    ramRead (ramWrite m a v) b = ramRead m b := by
  have hc : ∀ m, ramRead (ramCons a v m) b = ramRead m b := by
    intro m
    unfold ramCons
    split
    · rfl
    · rw [ramRead, if_neg (fun e => h e.symm)]
  induction m with
  | nil => exact hc []
  | cons c m ih =>
    unfold ramWrite
    split
    · exact hc _
    · split
      · next e => rw [hc, ramRead, if_neg (fun e' => h (e'.symm.trans e.symm))]
      · rw [ramRead, ih, ramRead]

/-- A write is read back, in a list in canonical form. -/
theorem ramRead_ramWrite_same {lo a : Nat} (v : Byte) (m : List Host.Cell) (hm : ramWfFrom lo m = true) :
    ramRead (ramWrite m a v) a = v := by
  have hc : ∀ m : List Host.Cell, (v = ramFill → ramRead m a = ramFill) → ramRead (ramCons a v m) a = v := by
    intro m h
    unfold ramCons
    split
    · next e => rw [h e, e]
    · rw [ramRead, if_pos rfl]
  induction m generalizing lo with
  | nil => exact hc [] fun _ => rfl
  | cons c m ih =>
    have hw := hm
    simp only [ramWfFrom, Bool.and_eq_true, decide_eq_true_eq] at hw
    unfold ramWrite
    split
    · next h =>
      refine hc _ fun _ => ?_
      rw [ramRead, if_neg (by omega)]
      exact ramRead_of_wfFrom m hw.2 (by omega)
    · split
      · next e => exact hc _ fun _ => ramRead_of_wfFrom m hw.2 (by omega)
      · next h1 h2 =>
        rw [ramRead, if_neg (fun e => h2 e.symm)]
        exact ih hw.2

theorem ramRead_ramWriteLanes_other {a b : Nat} (m : List Host.Cell) (lanes : Lanes) (w : Word) (h1 : b ≠ a)
    (h2 : b ≠ a + 1) : ramRead (ramWriteLanes m a lanes w) b = ramRead m b := by
  cases lanes <;> simp [ramWriteLanes, ramRead_ramWrite_other, h1, h2]

/-- What each byte reads after the lanes of a word are written: LOW the byte at the even address, HIGH the byte at the odd one,
BOTH both (R26, R126). -/
theorem ramRead_ramWriteLanes {a : Nat} (m : List Host.Cell) (lanes : Lanes) (w : Word) (b : Nat) (ha : a + 1 < ramSize)
    (hm : Memory.wf m = true) :
    ramRead (ramWriteLanes m a lanes w) b =
      if b = a ∧ lanes ≠ .high then lowByte w else if b = a + 1 ∧ lanes ≠ .low then highByte w else ramRead m b := by
  have h1 : ∀ v, ramRead (ramWrite m a v) b = if b = a then v else ramRead m b := fun v => by
    split
    · next e => exact e ▸ ramRead_ramWrite_same v m hm
    · next e => exact ramRead_ramWrite_other v m e
  have h2 : ∀ v m', Memory.wf m' = true → ramRead (ramWrite m' (a + 1) v) b = if b = a + 1 then v else ramRead m' b :=
    fun v m' h => by
      split
      · next e => exact e ▸ ramRead_ramWrite_same v m' h
      · next e => exact ramRead_ramWrite_other v m' e
  cases lanes
  · simp [ramWriteLanes, h1]
  · simp [ramWriteLanes, h2 _ m hm]
  · have h3 := h2 (highByte w) (ramWrite m a (lowByte w)) (ramWrite_wf _ m (by omega) hm)
    simp only [ramWriteLanes, h3, h1]
    by_cases e : b = a <;> simp [e]

theorem high_append_low (w : Word) : (highByte w ++ lowByte w : BitVec 16) = w := by
  simp only [highByte, lowByte]
  ext i hi
  simp only [BitVec.getElem_append, BitVec.getElem_extractLsb', BitVec.getElem_setWidth]
  split
  · next h => simp [BitVec.getLsbD_eq_getElem hi]
  · next h => rw [show 8 + (i - 8) = i by omega, BitVec.getLsbD_eq_getElem hi]

/-- A word written whole is read back. -/
theorem ramReadWord_ramWriteLanes_both {a : Nat} (m : List Host.Cell) (w : Word) (ha : a + 1 < ramSize)
    (hm : Memory.wf m = true) : ramReadWord (ramWriteLanes m a .both w) a = w := by
  unfold ramReadWord ramWriteLanes
  rw [ramRead_ramWrite_same (lo := 0) _ _ (ramWrite_wf _ _ (by omega) hm),
    ramRead_ramWrite_other _ _ (by omega : a ≠ a + 1), ramRead_ramWrite_same (lo := 0) _ _ hm, high_append_low]

/-- A filled page reads FFh, and every other byte as before. -/
theorem ramRead_ramFillPage (m : List Host.Cell) (p : Fin 128) (b : Nat) :
    ramRead (ramFillPage m p) b = if p.val = b / 256 then ramFill else ramRead m b := by
  unfold ramFillPage
  induction m with
  | nil => simp [ramRead]
  | cons c m ih =>
    rw [List.filter_cons]
    split
    · next h =>
      rw [ramRead, ramRead]
      split
      · next e =>
        have : ¬ p.val = b / 256 := by
          intro hp
          simp [e, hp] at h
        rw [if_neg this]
      · exact ih
    · next h =>
      have hp : c.1 / 256 = p.val := by simpa using h
      rw [ih, ramRead]
      split
      · rfl
      · next hb => rw [if_neg (fun e => hb (by rw [← hp, e]))]

/-- A run opened: its pages read FFh and every other byte as before (R48). -/
theorem Overlay.openRun_read (o : Overlay) (r : Fin 32) (n b : Nat) :
    ramRead (o.openRun r n).ram b =
      if (o.free.take n).any (fun page => page.val == b / 256) then ramFill else ramRead o.ram b := by
  unfold Overlay.openRun
  generalize o.free.take n = ps
  dsimp only
  generalize o.ram = m
  induction ps generalizing m with
  | nil => rfl
  | cons p ps ih =>
    rw [List.foldl_cons, ih, ramRead_ramFillPage]
    by_cases h1 : p.val = b / 256 <;> by_cases h2 : ps.any (fun page => page.val == b / 256) = true <;>
      simp [h1, h2]

/-! ### Words of a run -/

@[simp] theorem Overlay.writeWord_runs (o : Overlay) (r : Fin 32) (w : Nat) (lanes : Lanes) (v : Word) :
    (o.writeWord r w lanes v).runs = o.runs := by
  unfold Overlay.writeWord
  split <;> rfl

@[simp] theorem Overlay.writeWord_free (o : Overlay) (r : Fin 32) (w : Nat) (lanes : Lanes) (v : Word) :
    (o.writeWord r w lanes v).free = o.free := by
  unfold Overlay.writeWord
  split <;> rfl

@[simp] theorem Overlay.writeWords_runs (o : Overlay) (r : Fin 32) (w : Nat) (vs : List Word) :
    (o.writeWords r w vs).runs = o.runs := by
  induction vs generalizing o w with
  | nil => rfl
  | cons v vs ih => rw [Overlay.writeWords, ih, Overlay.writeWord_runs]

@[simp] theorem Overlay.writeWords_free (o : Overlay) (r : Fin 32) (w : Nat) (vs : List Word) :
    (o.writeWords r w vs).free = o.free := by
  induction vs generalizing o w with
  | nil => rfl
  | cons v vs ih => rw [Overlay.writeWords, ih, Overlay.writeWord_free]

/-- A lane write to a run word leaves every byte outside that word. -/
theorem Overlay.writeWord_read_other (o : Overlay) (r : Fin 32) (w : Nat) (lanes : Lanes) (v : Word) (b : Nat)
    (h : ∀ x, o.runs[r].locate w = some x → b ≠ x ∧ b ≠ x + 1) :
    ramRead (o.writeWord r w lanes v).ram b = ramRead o.ram b := by
  unfold Overlay.writeWord
  split
  · next a ha => exact ramRead_ramWriteLanes_other _ _ _ (h a ha).1 (h a ha).2
  · rfl

/-- What each byte reads after the lanes of a run word are written (R26, R44, R126). -/
theorem Overlay.writeWord_read (o : Overlay) (r : Fin 32) (w : Nat) (lanes : Lanes) (v : Word) (b : Nat)
    (hm : Memory.wf o.ram = true) :
    ramRead (o.writeWord r w lanes v).ram b =
      match o.runs[r].locate w with
      | some a =>
        if b = a ∧ lanes ≠ .high then lowByte v else if b = a + 1 ∧ lanes ≠ .low then highByte v else ramRead o.ram b
      | none => ramRead o.ram b := by
  unfold Overlay.writeWord
  split
  · next a ha =>
    rw [ha]
    exact ramRead_ramWriteLanes _ _ _ _ (Run.locate_bounds ha).1 hm
  · next h => rw [h]

/-- Consecutive words written leave every byte outside them. -/
theorem Overlay.writeWords_read_other (o : Overlay) (r : Fin 32) (w : Nat) (vs : List Word) (b : Nat)
    (h : ∀ k x, k < vs.length → o.runs[r].locate (w + k) = some x → b ≠ x ∧ b ≠ x + 1) :
    ramRead (o.writeWords r w vs).ram b = ramRead o.ram b := by
  induction vs generalizing o w with
  | nil => rfl
  | cons v vs ih =>
    rw [Overlay.writeWords, ih, Overlay.writeWord_read_other]
    · exact fun x hx => h 0 x (by simp) hx
    · intro k x hk hx
      rw [Overlay.writeWord_runs] at hx
      exact h (k + 1) x (by simpa using hk) (by rw [← hx]; congr 1; omega)

end Sys2Proof.Machine
end

