-- ==== Sys2Proof/Laws/Port.lean ====
section
/-! SUPPORT. The arbiter and the access end: when no grant is made, what each grant does, and what the end of an access
comes to, and that neither changes a byte of overlay RAM but by an ABSORB write. -/

namespace Sys2Proof.Machine

/-! ### Grants (R108 to R112) -/

theorem Mpc.winner_none {m : Mpc} (h : m.hostRequest = false) (c : m.captureRequest = false) : m.winner = none := by
  simp [Mpc.winner, h, c]

theorem Mpc.winner_host {m : Mpc} (h : m.hostRequest = true) (c : m.captureRequest = true → m.passOver < m.share) :
    m.winner = some .host := by
  cases hc : m.captureRequest <;> simp_all [Mpc.winner]

theorem Mpc.winner_capture {m : Mpc} (c : m.captureRequest = true) (h : m.hostRequest = true → m.share ≤ m.passOver) :
    m.winner = some .capture := by
  cases hh : m.hostRequest
  · simp [Mpc.winner, hh, c]
  · have := h hh
    simp only [Mpc.winner, hh, c]
    rw [if_neg (by omega)]

/-- On a port in use, or with no request, nothing is granted. -/
theorem State.grantOne_idle {s : State}
    (h : s.mpc.access.isSome = true ∨ (s.mpc.hostRequest = false ∧ s.mpc.captureRequest = false)) :
    s.grantOne = (s, none) := by
  unfold State.grantOne
  rcases h with h | ⟨h1, h2⟩
  · obtain ⟨p, hp⟩ := Option.isSome_iff_exists.mp h
    rw [hp]
  · rw [Mpc.winner_none h1 h2]
    cases s.mpc.access <;> rfl

theorem State.arbitrate_idle {s : State}
    (h : s.mpc.access.isSome = true ∨ (s.mpc.hostRequest = false ∧ s.mpc.captureRequest = false)) :
    s.arbitrate = (s, none) := by
  unfold State.arbitrate
  rw [State.grantOne_idle h]
  exact State.grantOne_idle h

/-- A host grant whose device is ONLINE starts the access, and the arbiter rests. -/
theorem State.arbitrate_host {s : State} {a : Access} {d : Decision} {eff : WordAddr} (hp : s.mpc.access = none)
    (hw : s.mpc.winner = some .host) (ha : s.hau.access = some a) (hd : s.hau.decision = some d)
    (he : d.effective = some eff) (ho : s.online (deviceOf eff) = true) :
    s.arbitrate =
      (({ s with mpc := s.mpc.grant .host, hau := { s.hau with state := .device } }).start (s.hostPortAccess a d eff),
        none) := by
  have h1 : s.grantOne =
      (({ s with mpc := s.mpc.grant .host, hau := { s.hau with state := .device } }).start (s.hostPortAccess a d eff),
        none) := by
    have ho' : State.online { s with mpc := s.mpc.grant .host } (deviceOf eff) = true := ho
    simp only [State.grantOne, hp, hw, State.grantHost, ha, hd, he, ho', if_true]
    rfl
  unfold State.arbitrate
  rw [h1]
  exact State.grantOne_idle (.inl rfl)

/-- A host grant whose device is not ONLINE is returned unused, and the access ends in error. -/
theorem State.arbitrate_host_returned {s : State} {a : Access} {d : Decision} {eff : WordAddr}
    (hp : s.mpc.access = none) (hw : s.mpc.winner = some .host) (ha : s.hau.access = some a)
    (hd : s.hau.decision = some d) (he : d.effective = some eff) (ho : s.online (deviceOf eff) = false) :
    s.arbitrate = ({ s with mpc := s.mpc.grant .host }, some (failedResponse a.kind)) := by
  have ho' : State.online { s with mpc := s.mpc.grant .host } (deviceOf eff) = false := ho
  simp only [State.arbitrate, State.grantOne, hp, hw, State.grantHost, ha, hd, he, ho', if_false, Bool.false_eq_true]

/-- A capture grant whose device is ONLINE starts the word's access, and the arbiter rests. -/
theorem State.arbitrate_capture {s : State} {j : CaptureJob} (hp : s.mpc.access = none)
    (hw : s.mpc.winner = some .capture) (hj : s.capture.job = some j)
    (ho : s.mpc.devices[deviceOf (j.wordAddress s.capture.wordsDone)].state = .online) :
    s.arbitrate =
      (({ s with mpc := s.mpc.grant .capture }).start (s.capturePortAccess (j.wordAddress s.capture.wordsDone)), none) := by
  have h1 : s.grantOne =
      (({ s with mpc := s.mpc.grant .capture }).start (s.capturePortAccess (j.wordAddress s.capture.wordsDone)),
        none) := by
    have ho' : (s.mpc.grant .capture).devices[deviceOf (j.wordAddress s.capture.wordsDone)].state = .online := ho
    simp only [State.grantOne, hp, hw, State.grantCapture, hj, ho']
    rfl
  unfold State.arbitrate
  rw [h1]
  exact State.grantOne_idle (.inl rfl)

/-! ### The access end (R31, R175) -/

theorem State.endAccess_eq {s : State} {a : Access} {d : Decision} (ha : s.hau.access = some a)
    (hd : s.hau.decision = some d) (e : HostResponse) :
    s.endAccess e =
      ((((((s.absorb a d).seqNews (s.seq.accessEnd a)).countHit d.slot).reportEnd a d e.completed).respond a e).changeAtEnd
        a) := by
  simp only [State.endAccess, ha, hd]

/-- The port is as it was through the end of an access. -/
@[simp] theorem State.endAccess_mpc (s : State) (e : HostResponse) : (s.endAccess e).mpc = s.mpc := by
  unfold State.endAccess
  split <;> simp

@[simp] theorem State.endAccess_mpu (s : State) (e : HostResponse) : (s.endAccess e).mpu = s.mpu := by
  unfold State.endAccess
  split <;> simp

@[simp] theorem State.endAccess_capture (s : State) (e : HostResponse) : (s.endAccess e).capture = s.capture := by
  unfold State.endAccess
  split <;> simp

@[simp] theorem State.endAccess_pins (s : State) (e : HostResponse) : (s.endAccess e).pins = s.pins := by
  unfold State.endAccess
  split <;> simp

/-! Overlay RAM through an access end and the arbiter: an ABSORB write alone changes a byte (R26). -/

@[simp] theorem State.takeEffect_ram (s : State) (p : PendingCommit) : (s.takeEffect p).overlay.ram = s.overlay.ram := by
  simp [State.takeEffect]

@[simp] theorem State.confirm_ram (s : State) (c : ConfirmCause) : (s.confirm c).overlay.ram = s.overlay.ram := by
  simp [State.confirm]

@[simp] theorem State.revert_ram (s : State) (t : Trial) (c : RevertCause) :
    (s.revert t c).overlay.ram = s.overlay.ram := by
  simp [State.revert]

@[simp] theorem State.epochReported_ram (s : State) : s.epochReported.overlay.ram = s.overlay.ram := by
  unfold State.epochReported State.boundaryOccurs
  repeat' split
  all_goals simp

@[simp] theorem State.seqNews_ram (s : State) (r : Seq × SeqNews) : (s.seqNews r).overlay.ram = s.overlay.ram := by
  unfold State.seqNews
  dsimp only
  repeat' split
  all_goals simp

@[simp] theorem State.changeAtEnd_ram (s : State) (a : Access) : (s.changeAtEnd a).overlay.ram = s.overlay.ram := by
  unfold State.changeAtEnd
  repeat' split
  all_goals simp

theorem State.endAccess_ram {s : State} {a : Access} {d : Decision} (ha : s.hau.access = some a)
    (hd : s.hau.decision = some d) (e : HostResponse) :
    (s.endAccess e).overlay.ram = (s.absorb a d).overlay.ram := by
  simp [State.endAccess_eq ha hd]

@[simp] theorem State.softResetIfDue_ram (s : State) : s.softResetIfDue.overlay.ram = s.overlay.ram := by
  unfold State.softResetIfDue State.softReset
  dsimp only
  repeat' split
  all_goals simp

@[simp] theorem State.captureEnd_ram (s : State) (j : CaptureJob) (c : CaptureStatus) :
    (s.captureEnd j c).overlay.ram = s.overlay.ram := by
  simp [State.captureEnd]

@[simp] theorem State.captureFails_ram (s : State) (c : CaptureCause) :
    (s.captureFails c).overlay.ram = s.overlay.ram := by
  unfold State.captureFails
  split <;> simp

@[simp] theorem State.grantOne_ram (s : State) : s.grantOne.1.overlay.ram = s.overlay.ram := by
  unfold State.grantOne State.grantHost State.grantCapture
  repeat' split
  all_goals simp

@[simp] theorem State.arbitrate_ram (s : State) : s.arbitrate.1.overlay.ram = s.overlay.ram := by
  unfold State.arbitrate
  dsimp only
  split <;> simp

/-- The end of an access while no soft reset waits and the arbiter has nothing to grant. -/
theorem Moment.finish_end {s : State} (e : HostResponse) (hr : s.mpu.softReset = none)
    (hp : s.mpc.access.isSome = true ∨ (s.mpc.hostRequest = false ∧ s.mpc.captureRequest = false)) :
    Moment.finish (s, some e) = s.endAccess e := by
  have h1 : (s.endAccess e).softResetIfDue = s.endAccess e := by
    simp only [State.softResetIfDue, State.endAccess_mpu, hr]
  have h2 : (s.endAccess e).arbitrate = (s.endAccess e, none) := State.arbitrate_idle (by simpa using hp)
  simp only [Moment.finish, h1, h2]

@[simp] theorem Moment.finish_none (s : State) : Moment.finish (s, none) = s := rfl

end Sys2Proof.Machine
end

