-- ==== Sys2Proof/Laws/Serial.lean ====
section
/-! SUPPORT. The management port at its lines: bits group into the bytes they were taken from, and what one period of the
lines does in each state of the port. -/

namespace Sys2Proof

@[simp] theorem byte_of_its_bits (b : Byte) :
    BitVec.ofBoolListBE [b.getLsbD 7, b.getLsbD 6, b.getLsbD 5, b.getLsbD 4, b.getLsbD 3, b.getLsbD 2, b.getLsbD 1,
      b.getLsbD 0] = b := by
  revert b
  decide

/-- Bytes sent bit 7 first are grouped into themselves (R160). -/
@[simp] theorem bytesOfBits_flatMap (bytes : List Byte) : bytesOfBits (bytes.flatMap bitsMsbFirst) = bytes := by
  induction bytes with
  | nil => rfl
  | cons b bytes ih =>
    simp only [List.flatMap_cons, bitsMsbFirst, List.cons_append, List.nil_append, bytesOfBits]
    exact congrArg₂ List.cons (byte_of_its_bits b) ih

@[simp] theorem bitsMsbFirst_length (b : Byte) : (bitsMsbFirst b).length = 8 := rfl

theorem flatMap_bits_length (bytes : List Byte) : (bytes.flatMap bitsMsbFirst).length = 8 * bytes.length := by
  induction bytes with
  | nil => rfl
  | cons b bytes ih => simp only [List.flatMap_cons, List.length_append, ih, bitsMsbFirst_length, List.length_cons]; omega

/-- The bits of a whole number of bytes are the row of the bytes. -/
theorem decodeBits_flatMap (bytes : List Byte) :
    decodeBits (bytes.flatMap bitsMsbFirst) = decodeTransaction bytes 0#3 := by
  have h : BitVec.ofNat 3 (8 * bytes.length) = 0#3 := by
    apply BitVec.eq_of_toNat_eq
    simp only [BitVec.toNat_ofNat]
    omega
  rw [decodeBits, bytesOfBits_flatMap, flatMap_bits_length, h]

namespace Machine

/-- With MCS_N high before and after, MCK and MDI do nothing (R160). -/
theorem State.spiEdges_high {s : State} {b : SpiLines} (h : s.pins.spi.mcs = false) (hb : b.mcs = false) :
    s.spiEdges b = s := by
  simp [State.spiEdges, h, hb]

/-- In a transaction only an edge of MCK acts. -/
theorem State.spiEdges_low {s : State} {b : SpiLines} (h : s.pins.spi.mcs = true) (hb : b.mcs = true) :
    s.spiEdges b =
      if s.pins.spi.mck && !b.mck then s.mckRises else if !s.pins.spi.mck && b.mck then s.mckFalls else s := by
  simp [State.spiEdges, h, hb]

/-- A rising edge of MCK that does not complete the header samples one bit. -/
theorem State.mckRises_samples {s : State} {bits : List Bool} (h : s.mpu.port = .receiving bits) (hl : bits.length ≠ 7) :
    s.mckRises = s.setPort (.receiving (bits ++ [s.pins.spi.mdi])) := by
  unfold State.mckRises
  rw [h]
  dsimp only
  split
  · next h7 => exact absurd h7 hl
  · rfl

/-- The rising edge of MCK that completes the header. -/
theorem State.mckRises_header {s : State} {bits : List Bool} {h : Byte} (hp : s.mpu.port = .receiving bits)
    (hb : bits ++ [s.pins.spi.mdi] = bitsMsbFirst h) : s.mckRises = s.headerSampled h (bitsMsbFirst h) := by
  have h7 : bits.length = 7 := by
    have := congrArg List.length hb
    simp only [List.length_append, List.length_cons, List.length_nil, bitsMsbFirst_length] at this
    omega
  have hh : bytesOfBits (bitsMsbFirst h) = [h] := by simpa using bytesOfBits_flatMap [h]
  unfold State.mckRises
  simp only [hp, hb, hh, h7]

/-- The end of a CLK period with levels left in the script. -/
theorem State.levelsChange_cons {s : State} {x : ClockSample} {rest : List ClockSample} (h : s.pins.resetN = false)
    (hs : s.pins.script = x :: rest) :
    s.levelsChange = State.spiEdges { s with pins := s.pins.take x rest } s.pins.spi := by
  simp [State.levelsChange, hs, h]

/-- Two periods that clock one bit in, MCK low and then high with MDI at the bit (R160). -/
theorem State.levelsChange_bit {s : State} {x y : ClockSample} {rest : List ClockSample} {b : Bool} {bits : List Bool}
    (h : s.pins.resetN = false) (hm : s.pins.spi.mcs = true) (hp : s.mpu.port = .receiving bits)
    (hs : s.pins.script = x :: y :: rest) (hx : x.spi = ⟨true, false, b⟩) (hy : y.spi = ⟨true, true, b⟩) :
    s.levelsChange.levelsChange = State.mckRises { s with pins := (s.pins.take x (y :: rest)).take y rest } := by
  have h1 : s.levelsChange = { s with pins := s.pins.take x (y :: rest) } := by
    rw [State.levelsChange_cons h hs, State.spiEdges_low (by simp [Pins.take, hx]) hm]
    simp [Pins.take, hx, State.mckFalls, hp]
  rw [h1, State.levelsChange_cons (by simpa [Pins.take] using h) rfl,
    State.spiEdges_low (by simp [Pins.take, hy]) (by simp [Pins.take, hx])]
  simp [Pins.take, hx, hy]

end Machine

end Sys2Proof
end

