-- ==== Sys2Proof/Tests/Slice0.lean ====
section
/-! SUPPORT. Tests: ill-formed terms refused, the spec's tables and worked examples, one step each, and for every statement
with hypotheses a witness that meets them. Expected values come from the sections of spec/ that the names give. -/

open Sys2Proof Sys2Proof.Machine Sys2Proof.Safety Sys2Proof.Claim

set_option maxRecDepth 20000

namespace Sys2Proof.Tests

/-! ## Helpers -/

/-- A frame for unit 0. -/
def fr (p : List Byte) : Frame := ⟨0#3, 0x5A#8, p⟩

/-- The state after a command. -/
def after (c : Instr) (s : State) : State :=
  match exec c s with
  | .next t => t
  | _ => s

/-- The response buffer after a command. -/
def answer (c : Instr) (s : State) : Status × List Byte :=
  ((after c s).mpu.buffer.status, (after c s).mpu.buffer.payload)

/-- The reset state without its RESTARTED notice. -/
def quiet : State := { State.reset with notices := ⟨[], maskAtReset⟩ }

def mapOf (l : List (Fin 32 × Entry)) : SlotMap := l.foldl (fun m x => m.set x.1.val (some x.2)) emptyMap

def runsOf (l : List (Fin 32 × Run)) : Vector Run 32 := l.foldl (fun v x => v.set x.1.val x.2) noRuns

/-- An entry for all phases and kinds of access. -/
def anyEntry (base : Addr) (length : Nat) (action : EntryAction) : Entry :=
  ⟨base, length, 0xF#4, true, true, true, false, action⟩

def withActive (m : SlotMap) (s : State) : State := { s with maps := { s.maps with active := m } }
def withStaged (m : SlotMap) (s : State) : State := { s with maps := { s.maps with staged := m } }
def withRuns (v : Vector Run 32) (free : List (Fin 128)) (s : State) : State := { s with overlay := ⟨v, free, s.overlay.ram⟩ }
def withCommit (c : CommitState) (g : Word) (s : State) : State := { s with gen := ⟨c, g⟩ }
def withSeq (f : Seq → Seq) (s : State) : State := { s with seq := f s.seq }
def withPins (f : Pins → Pins) (s : State) : State := { s with pins := f s.pins }

/-- A host READ at a byte address. -/
def readAt (a : Nat) : Access := ⟨.read, wordAddr a, .both, 0#16⟩
def fetchAt (a : Nat) : Access := ⟨.fetch, wordAddr a, .both, 0#16⟩
def writeAt (a : Nat) (lanes : Lanes) (w : Word) : Access := ⟨.write, wordAddr a, lanes, w⟩

/-- The decision of an access that no entry decides. -/
def byDefault (a : Access) : Decision := ⟨none, .default, 0#2, 0#16, a.addr, false⟩

/-- A strobe of the host path under the reset settings of MS0. -/
def strobeOf (a : Access) : PortAccess :=
  ⟨.host, a.addr, if a.kind = .write then some (a.lanes, a.data) else none, 24#5, true, 100#8, 0, false⟩

/-- A host access in DEVICE, its strobe on the port and asserted at the host. -/
def onDevice (a : Access) (s : State) : State :=
  { s with
    pins := { s.pins with rd := a.kind != .write, wr := a.kind == .write }
    hau := { s.hau with state := .device, access := some a, decision := some (byDefault a) }
    mpc := { s.mpc with access := some (strobeOf a) } }

/-- A capture of `j` with `n` words copied and its next word on the port. -/
def capturing (j : CaptureJob) (n : Nat) (s : State) : State :=
  { s with
    capture := ⟨.running, some j, n, false⟩
    overlay := s.overlay.setState j.run .filling
    mpc := { s.mpc with access := some (s.capturePortAccess (j.wordAddress n)) } }

/-- One period with each of the given lines. -/
def onLines (l : List SpiLines) : List ClockSample := l.map fun x => ⟨false, false, 0, x⟩

/-- The lines of a whole transaction with these bits on MDI. -/
def transaction (bits : List Bool) : List ClockSample := onLines (mcsDown :: (clocked bits ++ mcsUp))

def scripted (l : List ClockSample) (s : State) : State := withPins (fun p => { p with script := l }) s

/-- The state after as many periods as its script has entries. -/
def played (s : State) : State := State.levelsChange^[s.pins.script.length] s

/-! ## Well-formedness: an ill-formed term for each check -/

theorem test_wf_payload_of_41_refused : (Instr.mapPut (fr (List.replicate 41 0))).wf = false := by decide
theorem test_wf_payload_of_40 : (Instr.runWrite (fr (List.replicate 40 0))).wf = true := by decide
theorem test_wf_defined_code_refused : (Instr.unknownCommand (fr []) 0x10#8).wf = false := by decide
theorem test_wf_undefined_code : (Instr.unknownCommand (fr []) 0x03#8).wf = true := by decide
theorem test_wf_interval_payload_refused :
    (Instr.softResetIntervalBusy (fr (List.replicate 41 0)) 1#8).wf = false := by decide
theorem test_wf_empty_frame_error_refused : (Instr.frameError [] 0#3).wf = false := by decide
theorem test_wf_read_header_frame_error_refused : (Instr.frameError [0x05#8] 0#3).wf = false := by decide
theorem test_wf_good_frame_error_refused :
    (Instr.frameError [0x15, 0x01, 0x34, 0x00, crc8 [0x15, 0x01, 0x34, 0x00]] 0#3).wf = false := by decide
theorem test_wf_frame_error_left_over_bits :
    (Instr.frameError [0x15, 0x01, 0x34, 0x00, crc8 [0x15, 0x01, 0x34, 0x00]] 1#3).wf = true := by decide
theorem test_wf_command_header_read_refused : (Instr.responseRead 0x15#8 8).wf = false := by decide
theorem test_wf_no_strobe_refused : (Instr.accessArrives ⟨false, false, true, true, true, 0, 0⟩).wf = false := by decide
theorem test_wf_no_negation_refused : (Instr.hostStrobeNegated false false).wf = false := by decide
theorem test_wf_cause_refused :
    (Instr.park (.arrival ⟨false, false, true, true, true, 0, 0⟩)).wf = false ∧
      (Instr.overrun (.arrival ⟨false, false, true, true, true, 0, 0⟩)).wf = false ∧
      (Instr.countAdvance (.arrival ⟨false, false, true, true, true, 0, 0⟩)).wf = false ∧
      (Instr.dueCommitApplied (.arrival ⟨false, false, true, true, true, 0, 0⟩)).wf = false ∧
      (Instr.dueRevertApplied (.arrival ⟨false, false, true, true, true, 0, 0⟩)).wf = false ∧
      (Instr.trialWindowExpiry (.arrival ⟨false, false, true, true, true, 0, 0⟩)).wf = false ∧
      (Instr.softResetTakesEffect (.arrival ⟨false, false, true, true, true, 0, 0⟩)).wf = false := by decide

/-! ## Tables of chapter 10 -/

/-- R162's polynomial 2Fh, register FFh, no final inversion: the check value of "123456789" is 20h. -/
theorem test_crc8_check_value :
    crc8 [0x31, 0x32, 0x33, 0x34, 0x35, 0x36, 0x37, 0x38, 0x39] = 0x20#8 := by decide

/-- R161: unit field in bits 7:5, bit 4 the direction, marker 0101b. -/
theorem test_headers : commandHeader 0#3 = 0x15#8 ∧ commandHeader 7#3 = 0xF5#8 ∧ headerUnit 0x55#8 = 2#3 := by decide

/-- R168. -/
theorem test_status_values :
    [Status.ok, .accepted, .none, .frameError, .unknown, .length, .range, .busy, .frozen, .pending, .trialOpen, .noTrial,
      .notPending, .invalid, .noSpace, .noRun, .gone, .live, .pinned, .notHeld, .fenced, .absent, .idle].map Status.code =
      [0, 1, 2, 3, 4, 5, 6, 7, 8, 9, 0x0A, 0x0B, 0x0C, 0x0D, 0x0E, 0x0F, 0x10, 0x11, 0x12, 0x13, 0x14, 0x15, 0x16] := by
  decide

/-- R167: the codes of the 35 commands. -/
theorem test_codes_defined :
    ((List.range 256).filter fun n => codeDefined (BitVec.ofNat 8 n)) =
      [0x01, 0x02, 0x08, 0x09, 0x10, 0x11, 0x12, 0x13, 0x20, 0x21, 0x22, 0x23, 0x24, 0x30, 0x31, 0x32, 0x33, 0x34, 0x40,
        0x41, 0x42, 0x50, 0x51, 0x52, 0x53, 0x60, 0x61, 0x62, 0x70, 0x71, 0x72, 0x73, 0x80, 0x81, 0x82] := by decide

/-- R170: slot 9 of example 1.6, byte by byte. -/
theorem test_entry_layout :
    (⟨0x010000#24, 8192, 0x1#4, true, true, true, false, .relocate 0x810000#24 (some 6#5)⟩ : Entry).bytes =
      [0x02, 0x71, 0x01, 0x00, 0x00, 0x1F, 0xFF, 0x81, 0x00, 0x00, 0x86, 0, 0, 0, 0, 0, 0, 0] := by decide

/-- R171: two consecutive records, the second without number and generation. -/
theorem test_record_layout :
    packRecords none 36 4
        [⟨0x0102#16, 7#16, 1#2, some 2, wordAddr 0x012350, 0xBEEF#16, .low, .refused, none⟩,
          ⟨0x0103#16, 7#16, 0#2, none, wordAddr 0x020000, 1#16, .both, .relocated, some (wordAddr 0x820000)⟩] =
      (2, [0xE5, 0x01, 0x02, 0x00, 0x07, 0x14, 0x01, 0x23, 0x50, 0xBE, 0xEF,
        0x1C, 0x02, 0x02, 0x00, 0x00, 0x00, 0x01, 0x82, 0x00, 0x00]) := by decide

/-- R172: REVERTED (6, 4, HOST_RESET) and GUARD_HIT without a slot. -/
theorem test_notice_layout :
    Notice.bytes ⟨.reverted 6#16 4#16 .hostReset, 1⟩ = [3, 1, 0, 6, 0, 4, 1] ∧
      Notice.bytes ⟨.guardHit none (wordAddr 0x012350) .write, 255⟩ = [0x0D, 0xFF, 0xFF, 0x01, 0x23, 0x50, 2] := by decide

/-! ## Worked examples: the lookup (1.6) and Staged (1.7) -/

def map16 : SlotMap :=
  mapOf
    [(2, ⟨0x010000#24, 4096, 0x2#4, false, false, true, true, .guard .error 0#16⟩),
      (5, ⟨0x012340#24, 4, 0x3#4, true, true, false, false, .substitute 3 8 .refuse⟩),
      (9, ⟨0x010000#24, 8192, 0x1#4, true, true, true, false, .relocate 0x810000#24 (some 6#5)⟩)]

/-- The part of example 1.6: runs 3 and 6, phase 0 or 1. -/
def part16 (phase : BitVec 2) : State :=
  (quiet |> withActive map16 |> withStaged map16
    |> withRuns (runsOf [(3, ⟨.opened, [0]⟩), (6, ⟨.opened, [1, 2]⟩)]) ((List.finRange 128).drop 3)
    |> withSeq fun q => { q with config := { q.config with phaseCount := 2 }, phase := phase })

theorem test_1_6_a : (part16 0#2).decide (fetchAt 0x012350) =
    ⟨some 5, .substitute 3 72 .refuse, 0#2, 0#16, wordAddr 0x012350, false⟩ := by decide
theorem test_1_6_b : (part16 0#2).decide (writeAt 0x012350 .both 0) =
    ⟨some 9, .relocate (wordAddr 0x812350) (some 6#5), 0#2, 0#16, wordAddr 0x012350, false⟩ := by decide
theorem test_1_6_e : (part16 1#2).decide (writeAt 0x012350 .low 0) =
    ⟨some 2, .guard .error 0#16, 1#2, 0#16, wordAddr 0x012350, true⟩ := by decide
theorem test_1_6_f : (part16 1#2).decide (readAt 0x020000) =
    ⟨none, .default, 1#2, 0#16, wordAddr 0x020000, false⟩ := by decide
theorem test_1_6_lockdown :
    (State.decide { part16 1#2 with hau := Hau.atReset false true } (writeAt 0x020000 .both 0)).disposition = .lockdown ∧
      (State.decide { part16 1#2 with hau := Hau.atReset false true } (writeAt 0x400000 .both 0)).disposition = .default := by
  decide

/-- Access e carried through: error, record with slot 2 and outcome REFUSED, hit, GUARD_HIT, response without HD. -/
theorem test_1_6_e_ends :
    let t := after (.accessArrives ⟨false, true, false, true, false, wordAddr 0x012350, 0x1234#16⟩) (part16 1#2)
    (t.hrdy, t.herr, t.hd) = (false, true, none) ∧ t.maps.hits[2] = 1#16 ∧
      t.journal.records = [⟨0, 0, 1, some 2, wordAddr 0x012350, 0x1234, .low, .refused, none⟩] ∧
      t.notices.queue = [⟨.guardHit (some 2) (wordAddr 0x012350) .write, 1⟩] ∧ t.alert = true := by decide

/-- Access b starts a write strobe at MS2, offset 012350h, with wait 6. -/
theorem test_1_6_b_strobe :
    let s := { part16 0#2 with mpc := { (part16 0#2).mpc with devices := (part16 0#2).mpc.devices.set 2 ⟨.online, 24#5, true⟩ } }
    let t := after (.accessArrives ⟨false, true, false, true, true, wordAddr 0x012350, 0xCAFE#16⟩) s
    (t.ms, t.ma, t.mrd, t.mwr, t.mbe, t.mdOut) = (some 2, (0x012350 / 2 : BitVec 21), false, true, some .both, some 0xCAFE#16) ∧
      (t.mpc.access.map PortAccess.wait) = some 6#5 := by decide

def put17 (base : Addr) (length : Nat) (action : EntryAction) (slot : Byte) : Instr :=
  .mapPut (fr (slot :: (anyEntry base length action).bytes))

theorem test_1_7_put_beyond_capacity :
    answer (put17 0x012340#24 4 (.substitute 6 30 .absorb) 4) (part16 0#2) = (.range, []) := by decide
theorem test_1_7_put : answer (put17 0x012340#24 4 (.substitute 6 28 .absorb) 4) (part16 0#2) = (.ok, []) ∧
    (after (put17 0x012340#24 4 (.substitute 6 28 .absorb) 4) (part16 0#2)).maps.staged[4] =
      some (anyEntry 0x012340#24 4 (.substitute 6 28 .absorb)) := by decide
theorem test_1_7_put_two_windows :
    answer (put17 0x3FFF00#24 32 (.relocate 0x500000#24 none) 7) (part16 0#2) = (.range, []) := by decide
theorem test_1_7_clear : answer (.mapClear (fr [5])) (part16 0#2) = (.ok, []) ∧
    (after (.mapClear (fr [5])) (part16 0#2)).maps.staged[5] = none := by decide
/-- RUN.FREE of run 3 retires it, after which MAP.PUT naming it is answered GONE. -/
theorem test_1_7_free_retires : answer (.runFree (fr [3])) (part16 0#2) = (.ok, [3, 3]) ∧
    answer (put17 0x012340#24 4 (.substitute 3 0 .absorb) 4) (after (.runFree (fr [3])) (part16 0#2)) = (.gone, []) := by
  decide
theorem test_map_read_layout : answer (.mapRead (fr [1, 5])) (part16 0#2) =
    (.ok, [1, 5, 1, 0x01, 0x33, 0x01, 0x23, 0x40, 0, 3, 0, 0, 0, 0, 3, 0, 8, 2, 0, 0, 0, 0, 0, 0, 0]) := by decide
theorem test_map_restage_frozen :
    answer (.mapRestage (fr [])) (withCommit (.pending ⟨.reset, false, 0, false⟩) 0 quiet) = (.frozen, []) := by decide

/-! ## Host accesses (2.7) -/

def part27 : State :=
  (quiet |> withActive (mapOf [(0, { anyEntry 0x012340#24 4 (.substitute 6 28 .absorb) with journal := true })])
    |> withRuns (runsOf [(6, ⟨.opened, [1, 2]⟩)]) ((List.finRange 128).drop 3) |> withCommit .none 8)

/-- WRITE 012350h, LOW, 12A5h: word 104 of the run's second page takes the low byte alone. -/
theorem test_2_7_absorb :
    let t := after (.accessArrives ⟨false, true, false, true, false, wordAddr 0x012350, 0x12A5#16⟩) part27
    t.overlay.readWord 6 232 = 0xFFA5#16 ∧ t.overlay.ram = [(2 * 256 + 2 * 104, 0xA5#8)] ∧ t.maps.hits[0] = 1#16 ∧
      t.journal.records = [⟨0, 8, 0, some 0, wordAddr 0x012350, 0x12A5, .low, .absorbed, none⟩] ∧ t.hrdy = true := by
  decide
/-- HRST_N asserted during a write at MS0: no response, the strobe runs on, HOST_RESET posted. -/
theorem test_2_7_host_reset :
    let t := after .hostResetEvent (onDevice (writeAt 0x200000 .both 0x55AA) part27)
    t.hau.state = .idle ∧ t.notices.queue = [⟨.hostReset, 1⟩] ∧ (t.mpc.access.map PortAccess.abandoned) = some true ∧
      (after (.memoryAccessCompletes 0) t).mpc.access = none := by decide
/-- A strobe held through HRST_N is no access when HRST_N is negated. -/
theorem test_2_7_strobe_after_reset :
    (after .hrstNNegated (withPins (fun p => { p with hrst := true, wr := true }) part27)).hau.state = .idle := by decide
theorem test_hold : (after (.accessArrives ⟨true, false, true, false, false, wordAddr 4, 0⟩)
      { quiet with hau := Hau.atReset true false }).notices.queue = [⟨.hostHeld (wordAddr 4) .fetch, 1⟩] ∧
    (after (.hostRelease (fr [])) (after (.accessArrives ⟨true, false, true, false, false, wordAddr 4, 0⟩)
      { quiet with hau := Hau.atReset true false })).hau.state = .device := by decide
theorem test_lockdown_clear :
    (after (.lockdownClear (fr [])) { quiet with hau := Hau.atReset true true }).hau = Hau.atReset true false := by decide
theorem test_negation_ends : (after (.hostStrobeNegated true false)
      (withPins (fun p => { p with rd := true })
        { quiet with hau := ⟨.ended, some (readAt 4), some (byDefault (readAt 4)), some ⟨true, some 7⟩, false, false⟩ })).hau.state =
    .idle := by decide

/-! ## Page runs (3.8) -/

/-- The part after step 3 of 3.8. -/
def part38 : State :=
  withRuns (runsOf [(0, ⟨.opened, [0, 1, 2]⟩), (1, ⟨.opened, [3, 4]⟩), (2, ⟨.opened, [5, 6, 7, 8]⟩)])
    ((List.finRange 128).drop 9) quiet

theorem test_3_8_open : answer (.runOpen (fr [3])) quiet = (.ok, [0, 3]) ∧
    (after (.runOpen (fr [3])) quiet).overlay.runs[0] = ⟨.opened, [0, 1, 2]⟩ := by decide
theorem test_3_8_free : answer (.runFree (fr [1])) part38 = (.ok, [1, 0]) ∧
    (after (.runFree (fr [1])) part38).overlay.free = (List.finRange 128).drop 9 ++ [3, 4] := by decide

/-- The part before step 10 of 3.8: run 2 RETIRING, named by Active alone. -/
def part38b : State :=
  (quiet |> withActive (mapOf [(0, anyEntry 0 64 (.substitute 2 0 .absorb))])
    |> withRuns (runsOf [(1, ⟨.opened, [9, 10, 11]⟩), (2, ⟨.retiring, [5, 6, 7, 8]⟩)])
      ((List.finRange 128).drop 12 ++ [3, 4, 0, 1, 2]) |> withCommit .none 1)

theorem test_3_8_commit_releases :
    let t := after (.commit (fr [0, 0, 0, 0, 0, 0])) part38b
    t.mpu.buffer.payload = [0, 0, 2] ∧ t.overlay.runs[2] = ⟨.unused, []⟩ ∧
      t.overlay.free = (List.finRange 128).drop 12 ++ [3, 4, 0, 1, 2, 5, 6, 7, 8] ∧
      t.notices.queue = [⟨.committed 2 .now, 1⟩] := by decide
theorem test_3_8_write_live :
    answer (.runWrite (fr [2, 0, 0, 1, 0x12, 0x34]))
      (withRuns (runsOf [(2, ⟨.opened, [5]⟩)]) [] (withActive (mapOf [(0, anyEntry 0 4 (.substitute 2 0 .absorb))]) quiet)) =
      (.live, []) := by decide
/-- R44's example: in a run of pages 9, 10, 11 word 300 is word 44 of page 11. -/
theorem test_run_write_and_read :
    let s := withRuns (runsOf [(1, ⟨.opened, [9, 10, 11]⟩)]) [] quiet
    let t := after (.runWrite (fr [1, 0x01, 0x2C, 1, 0x12, 0x34])) s
    t.overlay.ram = [(11 * 256 + 2 * 44, 0x34#8), (11 * 256 + 2 * 44 + 1, 0x12#8)] ∧
      answer (.runRead (fr [1, 0x01, 0x2B, 2])) t = (.ok, [1, 0x01, 0x2B, 2, 0xFF, 0xFF, 0x12, 0x34]) := by decide
theorem test_run_read_end : answer (.runRead (fr [1, 0x01, 0x7F, 2]))
    (withRuns (runsOf [(1, ⟨.opened, [9, 10, 11]⟩)]) [] quiet) = (.range, []) := by decide
theorem test_run_info : answer (.runInfo (fr [2])) part38b = (.ok, [2, 3, 4, 0, 64, 0x0A, 121, 5, 6, 7, 8]) := by decide

/-! ## Commit and trial (4.11, 4.12) -/

def naming (r : Fin 32) : SlotMap := mapOf [(0, anyEntry 0x012340#24 4 (.substitute r 0 .absorb))]

/-- The part of 4.11 with the COMMIT RESET pending. -/
def part411 : State :=
  (quiet |> withActive (naming 2) |> withStaged (naming 5)
    |> withRuns (runsOf [(2, ⟨.retiring, [1]⟩), (5, ⟨.opened, [2]⟩)]) ((List.finRange 128).drop 3)
    |> withCommit (.pending ⟨.reset, true, 3, false⟩) 4)

theorem test_4_11_host_reset_1 :
    let t := after .hostResetEvent part411
    t.gen = ⟨.trial ⟨naming 2, 3, 3, true, 4, false⟩, 5⟩ ∧ t.maps.active = naming 5 ∧
      t.overlay.runs[2].state = .retiring ∧ t.notices.queue = [⟨.hostReset, 1⟩, ⟨.committed 5 .reset, 1⟩] := by decide

/-- The part of 4.11 with the trial open and window remaining 1. -/
def part411b : State :=
  (part411 |> withActive (naming 5) |> withCommit (.trial ⟨naming 2, 3, 1, true, 4, false⟩) 5
    |> withSeq fun q => { q with config := { q.config with mode := .syncRestart } })

theorem test_4_11_host_reset_2 :
    let t := after .hostResetEvent part411b
    t.gen = ⟨.none, 6⟩ ∧ t.maps.active = naming 2 ∧ t.overlay.runs[2].state = .retiring ∧
      t.notices.queue = [⟨.hostReset, 1⟩, ⟨.reverted 6 4 .hostReset, 1⟩] := by decide
theorem test_4_11_window :
    let t := after (.trialWindowExpiry .transition) part411b
    t.gen = ⟨.none, 5⟩ ∧ t.overlay.runs[2].state = .unused ∧ t.overlay.free = (List.finRange 128).drop 3 ++ [1] ∧
      t.notices.queue = [⟨.epoch 1, 1⟩, ⟨.confirmed 5 .window, 1⟩] := by decide

/-- The part of 4.12: a READ on MS0, window remaining 1, fallback generation 9. -/
def part412 : State :=
  onDevice (readAt 0x204000) (withCommit (.trial ⟨emptyMap, 1, 1, true, 9, false⟩) 10 quiet)

theorem test_4_12_revert_waits : answer (.trialRevert (fr [])) part412 = (.ok, [0, 10]) ∧
    (after (.trialRevert (fr [])) part412).gen.commit = .trial ⟨emptyMap, 1, 0, false, 9, true⟩ := by decide
theorem test_4_12_applied :
    let t := after (.dueRevertApplied (.completion 0xBEEF)) (after (.trialRevert (fr [])) part412)
    t.gen = ⟨.none, 11⟩ ∧ t.hd = some 0xBEEF ∧ t.notices.queue = [⟨.reverted 11 9 .command, 1⟩] := by decide
theorem test_4_12_confirm_refused :
    answer (.trialConfirm (fr [])) (after (.trialRevert (fr [])) part412) = (.noTrial, []) := by decide
theorem test_trial_confirm : answer (.trialConfirm (fr [])) part411b = (.ok, [0, 5]) ∧
    (after (.trialConfirm (fr [])) part411b).gen.commit = .none := by decide
theorem test_commit_mark_odd : answer (.commit (fr [2, 0, 0, 1, 0, 0])) quiet = (.range, []) := by decide
theorem test_commit_cancel :
    answer (.commitCancel (fr [])) (withCommit (.pending ⟨.now, false, 0, true⟩) 0 quiet) = (.notPending, []) ∧
      answer (.commitCancel (fr [])) (withCommit (.pending ⟨.epoch, false, 0, false⟩) 0 quiet) = (.ok, []) := by decide
theorem test_gen_status : answer (.genStatus (fr [])) (after (.trialRevert (fr [])) part412) =
    (.ok, [2, 0, 10, 0, 0, 0, 0, 0, 0, 0, 1, 0, 0, 0, 9, 1]) := by decide
/-- A due commit is applied in the read's end, after its response: 2.7. -/
theorem test_2_7_deferred_switch :
    let t := after (.dueCommitApplied (.completion 7))
      (onDevice (readAt 0x004000) (withCommit (.pending ⟨.epoch, false, 0, true⟩) 7 quiet))
    t.gen = ⟨.none, 8⟩ ∧ t.hau.state = .ended ∧ t.notices.queue = [⟨.committed 8 .epoch, 1⟩] := by decide

/-! ## Phase Sequencer (5.8 to 5.10) -/

def config58 : SeqConfig :=
  ⟨3, 1#2, .count, .fetchOnly, #v[2, 1, 2, 0], Vector.replicate 4 0#24, .rising, 0#8⟩

/-- The part of 5.8 at a phase and counts, with an access in DEVICE. -/
def part58 (a : Access) (phase : BitVec 2) (counter : Word) (n : BitVec 32) : State :=
  onDevice a (withSeq (fun q => { q with config := config58, phase := phase, counter := counter, epochAccesses := n, epochNumber := 40 }) quiet)

def place (s : State) : BitVec 2 × Word × BitVec 32 × BitVec 32 :=
  (s.seq.phase, s.seq.counter, s.seq.epochAccesses, s.seq.epochNumber)

theorem test_5_8_row_1 :
    place (after (.countAdvance (.completion 0)) (part58 (fetchAt 0) 1#2 0 0)) = (2#2, 0, 1, 40) := by decide
theorem test_5_8_row_7 :
    let t := after (.countAdvance (.completion 0)) (part58 (fetchAt 0) 0#2 1 4)
    place t = (1#2, 0, 0, 41) ∧ t.notices.queue = [⟨.epoch 41, 1⟩] := by decide
theorem test_5_8_row_2 :
    place (after (.memoryAccessCompletes 0) (part58 (readAt 0) 2#2 0 1)) = (2#2, 0, 1, 40) := by decide
theorem test_seq_set_and_status :
    answer (.seqStatus (fr [])) (after (.seqSet (fr config58.bytes)) (withSeq (fun q => { q with epochNumber := 40 }) quiet)) =
      (.ok, config58.bytes ++ [1, 0, 0, 0, 0, 0, 0, 0, 0, 0, 40, 0]) := by decide

/-- The part of 5.9: SYNC_STEP, two phases, lengths 3 and 0. -/
def part59 (phase : BitVec 2) (counter : Word) (n : BitVec 32) (posted : Bool) : State :=
  withSeq (fun q =>
    { q with
      config := { q.config with phaseCount := 2, mode := .syncStep, lengths := #v[3, 0, 0, 0] }
      phase := phase, counter := counter, epochAccesses := n, epochNumber := 5, overrunPosted := posted }) quiet

theorem test_5_9_ceiling :
    let t := after (.overrun (.completion 0)) (onDevice (writeAt 0 .both 0) (part59 0#2 2 2 false))
    place t = (0#2, 3, 3, 5) ∧ t.seq.overrunPosted = true ∧ t.notices.queue = [⟨.overrun 0, 1⟩] := by decide
theorem test_5_9_holds :
    place (after (.memoryAccessCompletes 0) (onDevice (readAt 0) (part59 0#2 3 3 true))) = (0#2, 3, 4, 5) := by decide
theorem test_5_9_edge : place (after .epochTransitionAccepted (part59 0#2 3 4 true)) = (1#2, 0, 4, 5) := by decide
theorem test_5_9_edge_lands_on_initial :
    let t := after .epochTransitionAccepted (part59 1#2 0 4 false)
    place t = (0#2, 0, 0, 6) ∧ t.notices.queue = [⟨.epoch 6, 1⟩] := by decide
/-- R88: SYNC_RESTART parks in its last phase. -/
theorem test_park :
    let t := after (.park (.completion 0)) (onDevice (readAt 0) (withSeq (fun q =>
      { q with config := { q.config with mode := .syncRestart, lengths := #v[1, 0, 0, 0] } }) quiet))
    t.seq.parked = true ∧ t.notices.queue = [⟨.overrun 0, 1⟩] := by decide
theorem test_seq_restart : answer (.seqRestart (fr [])) (part59 1#2 0 4 false) = (.ok, [0, 0, 0, 6]) := by decide

/-- The part of 5.10: filter 4, FALLING, accepted level high. -/
def part510 (level : Bool) (count : Nat) : State :=
  { (withSeq (fun q =>
      { q with
        config := { q.config with mode := .syncRestart, polarity := .falling, filter := 4 }
        accepted := true, filterCount := count }) quiet) with
    pins := { quiet.pins with epoch := level } }

/-- R80: a level that has changed on the pin but is not accepted is sampled by SEQ.SET and makes no edge in the next
period, with filter 0 too; without the SEQ.SET it is accepted there. -/
theorem test_seq_set_first :
    let s := played (scripted [⟨true, false, 0, ⟨false, false, false⟩⟩] quiet)
    let c := { SeqConfig.atReset with mode := .syncRestart }
    s.pins.epoch = true ∧ s.seq.accepted = false ∧
      (after (.seqSet (fr c.bytes)) s).filterPeriod.seq.epochNumber = 0 ∧
      (after (.seqSet (fr c.bytes)) s).filterPeriod.seq.accepted = true ∧
      (withSeq (fun q => { q with config := c }) s).filterPeriod.seq.epochNumber = 1 := by decide
theorem test_5_10_measuring : (State.filterPeriod (part510 false 2)).seq.filterCount = 3 := by decide
theorem test_5_10_discarded :
    (after .epochPulseDiscarded (part510 false 3)).seq = (part510 true 0).seq := by decide
theorem test_5_10_accepted :
    (State.filterPeriod (part510 false 3)).seq.accepted = false ∧
      (State.filterPeriod (part510 false 3)).seq.epochNumber = 1 := by decide

/-! ## Memory port (6.8, 6.9) -/

def part68 : State :=
  withActive (mapOf [(3, ⟨0x030000#24, 256, 0xF#4, false, true, true, true, .relocate 0x412000#24 none⟩)])
    { quiet with mpc := { quiet.mpc with
      devices := quiet.mpc.devices.set 1 ⟨.online, 10#5, true⟩
      timeout := 2 } }

def read68 : HostPins := ⟨true, false, false, false, false, wordAddr 0x030340, 0⟩

theorem test_6_8_strobe :
    let t := after (.accessArrives read68) part68
    (t.ms, t.ma, t.mrd) = (some 1, (0x012340 / 2 : BitVec 21), true) ∧ (t.mpc.access.map PortAccess.wait) = some 10#5 := by
  decide
theorem test_6_8_timeout :
    let t := after .accessTimeout (after (.accessArrives read68) part68)
    t.mpc.devices[1].state = .fenced 0x412340#24 .host ∧ t.hau.response = some ⟨false, some 0xFFFF⟩ ∧ t.maps.hits[3] = 1 ∧
      t.notices.queue = [⟨.deviceFenced 1 0x412340#24 .host, 1⟩] := by decide
/-- R101, R104: the strobe ends in period 2 + W unless lengthened, and is late in period 64 × T. -/
theorem test_6_8_periods :
    (strobeOf (readAt 0)).completesAt 25 false = false ∧ (strobeOf (readAt 0)).completesAt 26 false = true ∧
      (strobeOf (readAt 0)).completesAt 26 true = false ∧
      ({ strobeOf (readAt 0) with timeout := 2 } : PortAccess).lateAt 127 = false ∧
      ({ strobeOf (readAt 0) with timeout := 2 } : PortAccess).lateAt 128 = true := by decide

def fenced68 : State :=
  { part68 with mpc := { part68.mpc with devices := part68.mpc.devices.set 1 ⟨.fenced 0x412340#24 .host, 10#5, true⟩ } }

theorem test_6_8_write_fails :
    let t := after (.accessArrives ⟨false, true, false, true, true, wordAddr 0x030350, 9⟩) fenced68
    t.herr = true ∧ t.journal.records =
      [⟨0, 0, 0, some 3, wordAddr 0x030350, 9, .both, .failed, some (wordAddr 0x412350)⟩] := by decide
theorem test_6_8_restore : (after (.devRestore (fr [1])) fenced68).mpc.devices[1].state = .online ∧
    answer (.devRestore (fr [2])) fenced68 = (.absent, []) := by decide
theorem test_6_8_status : answer (.devStatus (fr [])) fenced68 =
    (.ok, [1, 24, 1, 0, 0, 0, 0, 2, 10, 1, 1, 0x41, 0x23, 0x40, 0, 24, 1, 0, 0, 0, 0, 0, 24, 1, 0, 0, 0, 0, 2, 4, 0, 0, 0]) := by
  decide
theorem test_dev_set_keeps_fence : answer (.devSet (fr [1, 1, 31, 0])) fenced68 =
    (.ok, [1, 2, 31, 0, 1, 0x41, 0x23, 0x40]) := by decide
theorem test_port_set : (after (.portSet (fr [0, 16])) quiet).mpc.share = 16 ∧
    answer (.portSet (fr [0, 17])) quiet = (.range, []) := by decide

/-- The requests of 6.9 on a free port: a host READ at MS0 and the next capture word, K = 2. -/
def part69 (passOver : Nat) : State :=
  { quiet with
    hau := { quiet.hau with state := .grant, access := some (readAt 0), decision := some (byDefault (readAt 0)) }
    capture := ⟨.running, some ⟨4, 0, 0x000100#24, 2⟩, 3, false⟩
    mpc := { quiet.mpc with share := 2, hostRequest := true, captureRequest := true, passOver := passOver } }

theorem test_6_9_host_wins : ((after .arbiterGrant (part69 1)).mpc.owner, (after .arbiterGrant (part69 1)).mpc.passOver) =
    (some .host, 2) := by decide
theorem test_6_9_capture_wins :
    ((after .arbiterGrant (part69 2)).mpc.owner, (after .arbiterGrant (part69 2)).mpc.passOver,
      (after .arbiterGrant (part69 2)).ma) = (some .capture, 0, (0x106 / 2 : BitVec 21)) := by decide

/-! ## Capture (7.10) -/

def job710 : CaptureJob := ⟨4, 2, 0x012340#24, 2⟩
def part710 : State := withRuns (runsOf [(4, ⟨.opened, [0]⟩)]) ((List.finRange 128).drop 1) quiet

theorem test_7_10_start :
    answer (.captureStart (fr [4, 0, 2, 0x01, 0x23, 0x40, 0, 2])) part710 = (.accepted, [4, 0, 16]) ∧
      (after (.captureStart (fr [4, 0, 2, 0x01, 0x23, 0x40, 0, 2])) part710).ma = (0x012340 / 2 : BitVec 21) := by decide
theorem test_7_10_word :
    let t := after (.memoryAccessCompletes 0x1234) (capturing job710 5 part710)
    t.overlay.readWord 4 21 = 0x1234 ∧ t.capture.wordsDone = 6 ∧ t.ma = (0x01234C / 2 : BitVec 21) := by decide
theorem test_7_10_done :
    let t := after (.memoryAccessCompletes 0x1234) (capturing job710 15 part710)
    t.capture.status = .done ∧ t.overlay.runs[4].state = .opened ∧ t.notices.queue = [⟨.captureEnded 4 .done 16, 1⟩] := by decide
/-- The host write of 5A5Ah at 012344h is snooped into run word 18. -/
theorem test_7_10_snoop :
    ((capturing job710 5 part710).snoop (strobeOf (writeAt 0x012344 .both 0x5A5A))).overlay.readWord 4 18 = 0x5A5A ∧
      (capturing job710 6 part710).snoop (strobeOf (writeAt 0x012358 .low 0x00C3)) = capturing job710 6 part710 := by decide
theorem test_7_10_abort : answer (.captureAbort (fr [])) (capturing job710 9 part710) = (.ok, [0, 9]) ∧
    answer (.captureAbort (fr [])) part710 = (.idle, []) := by decide
theorem test_7_10_status : answer (.captureStatus (fr [])) (capturing job710 9 part710) =
    (.ok, [1, 4, 0, 2, 0x01, 0x23, 0x40, 0, 2, 0, 9, 0, 16, 0, 0]) := by decide
theorem test_7_10_timeout :
    let t := after .accessTimeout (capturing job710 9 part710)
    t.capture.status = .failed .timeout ∧ t.notices.queue =
      [⟨.deviceFenced 0 0x012352#24 .capture, 1⟩, ⟨.captureEnded 4 .failed 9, 1⟩] := by decide

/-! ## Write Journal (8.9, 8.10) -/

/-- Record `n` of 8.9. -/
def recordN (n : Nat) : JournalRecord := ⟨BitVec.ofNat 16 n, 0, 0, some 0, 0, 0, .both, .refused, none⟩

/-- The journal of 8.9 holding `first` to `last`. -/
def part89 (first last : Nat) (policy : JournalPolicy) : State :=
  { quiet with journal :=
    ⟨(List.range' first (last + 1 - first)).map recordN, BitVec.ofNat 16 (last + 1), policy, 48, false⟩ }

def held (s : State) : List Nat := s.journal.records.map fun r => r.sequence.toNat

theorem test_8_9_drops :
    let t := (part89 100 163 .keepOldest).recordArrives (recordN 164)
    held t = List.range' 100 64 ∧ t.journal.next = 165 ∧ t.notices.queue = [⟨.journalLoss 164, 1⟩] := by decide
theorem test_8_10_replaces :
    let t := (part89 100 163 .keepNewest).recordArrives (recordN 164)
    held t = List.range' 101 64 ∧ t.journal.next = 165 ∧ t.notices.queue = [⟨.journalLoss 100, 1⟩] := by decide
theorem test_8_9_read : (answer (.journalRead (fr [4])) (part89 100 163 .keepOldest)).2.take 6 = [64, 0, 164, 4, 0xEC, 0] := by
  decide
theorem test_8_9_ack : answer (.journalAck (fr [0, 103])) (part89 100 163 .keepOldest) = (.ok, [4, 60, 0, 104]) ∧
    (after (.journalAck (fr [0, 103])) (part89 100 163 .keepOldest)).journal.highArmed = false := by decide
theorem test_8_9_ack_rearms : answer (.journalAck (fr [0, 117])) (part89 104 164 .keepOldest) = (.ok, [14, 47, 0, 118]) ∧
    (after (.journalAck (fr [0, 117])) (part89 104 164 .keepOldest)).journal.highArmed = true := by decide
theorem test_8_high : ({ part89 104 150 .keepOldest with journal := { (part89 104 150 .keepOldest).journal with highArmed := true } }
      |>.recordArrives (recordN 151)).notices.queue = [⟨.journalHigh 48, 1⟩] := by decide
theorem test_8_10_set : answer (.journalSet (fr [1, 48])) (part89 100 161 .keepOldest) = (.ok, [62]) ∧
    (after (.journalSet (fr [1, 48])) (part89 100 161 .keepOldest)).journal = (part89 100 161 .keepNewest).journal := by decide
theorem test_journal_status : answer (.journalStatus (fr [])) (part89 100 161 .keepOldest) =
    (.ok, [62, 0, 162, 0, 100, 0, 161, 0, 48, 0]) := by decide

/-! ## Notices (9.6) -/

def part96 : State :=
  { quiet with notices := ⟨[⟨.epoch 1, 3⟩, ⟨.deviceFenced 1 0x412340#24 .host, 1⟩], maskAtReset⟩ }

theorem test_9_6_read : answer (.noticeRead (fr [])) part96 =
    (.ok, [2, 5, 9, 0, 0, 0, 0, 0, 0, 0, 0, 0, 0, 0, 5, 3, 0, 0, 0, 1, 0, 0x1F, 0xEF, 1]) := by decide
theorem test_9_6_ack : answer (.noticeAck (fr [9])) part96 = (.ok, [1, 1]) ∧
    (after (.noticeAck (fr [9])) part96).alert = false := by decide
theorem test_9_6_ack_not_held : answer (.noticeAck (fr [13])) part96 = (.notHeld, []) ∧
    answer (.noticeAck (fr [14])) part96 = (.range, []) := by decide
theorem test_9_6_mask : answer (.noticeMask (fr [0xFF, 0xFF])) part96 = (.ok, [0x1F, 0xFF, 1]) ∧
    answer (.noticeMask (fr [0, 0])) part96 = (.ok, [0, 0, 0]) := by decide
theorem test_repeat_saturates : (State.post (.epoch 7) { quiet with notices := ⟨[⟨.epoch 1, 255⟩], 0⟩ }).notices.queue =
    [⟨.epoch 1, 255⟩] := by decide

/-! ## Management port (10.7, 10.8) -/

theorem test_part_info : answer (.partInfo (fr [])) { quiet with hau := Hau.atReset true false, straps := ⟨0, true, true⟩ } =
    (.ok, [0x4D, 0x24, 0x43, 0, 7, 0, 0, 0]) := by decide
theorem test_10_8_range : answer (.mapClear (fr [40])) quiet = (.range, []) := by decide
theorem test_10_8_length : answer (.mapClear (fr [1, 2])) quiet = (.length, []) := by decide
theorem test_10_8_frame_error :
    (after (.frameError [0x15, 0x34, 0x11, 0x01, 0x05, crc8 [0x15, 0x34, 0x11, 0x01, 0x05] + 1] 0#3) quiet).mpu.buffer =
      ⟨0x34, .frameError, []⟩ := by decide
theorem test_10_8_broadcast_commit :
    let t := after (.commit ⟨7#3, 0x35, [0, 0, 0, 0, 0, 0]⟩) quiet
    t.gen.generation = 1 ∧ t.mpu.buffer = ⟨0, .none, []⟩ ∧ t.notices.queue = [⟨.committed 1 .now, 1⟩] := by decide
theorem test_10_8_other_unit : after (.partReset ⟨5#3, 0x37, []⟩) quiet = quiet ∧
    after (.mapRestage ⟨7#3, 0x38, []⟩) quiet = quiet := by decide
/-- Transaction 2's form: tag, status, length, payload, CRC, then 1 bits. -/
theorem test_10_8_response_read :
    (after (.responseRead 0x05 40) { quiet with mpu := { quiet.mpu with buffer := ⟨0x32, .range, []⟩ } }).mpu.mdo =
      ([0x32, 0x06, 0x00, crc8 [0x32, 0x06, 0x00], 0xFF].flatMap bitsMsbFirst) := by decide
theorem test_unknown : answer (.unknownCommand (fr []) 0x7F) quiet = (.unknown, []) := by decide
theorem test_10_8_reset_waits :
    (after (.partReset (fr [])) part412).mpu.buffer = ⟨0x5A, .busy, []⟩ ∧
      (after (.softResetIntervalBusy ⟨0, 0x41, []⟩ 0x34) (after (.partReset (fr [])) part412)).mpu.buffer = ⟨0x41, .busy, []⟩ := by
  decide
theorem test_10_8_reset_takes_effect :
    let t := after (.softResetTakesEffect (.completion 5)) (after (.partReset (fr [])) part412)
    t.mpu.buffer = ⟨0x5A, .ok, []⟩ ∧ t.notices.queue = [⟨.restarted .soft, 1⟩] ∧ t.gen = Gen.atReset ∧ t.hau.state = .ended := by
  decide
theorem test_pin_reset : (after .pinReset part412).mpc.access = none ∧ (after .pinReset part412).alert = false ∧
    (after (.resetNRelease ⟨2, true, false, false, true⟩) (after .pinReset part412)).mpu = Mpu.atReset true := by decide
/-! ### The management port at its lines (10.2, R160, R165, R176) -/

def statusBits : List Bool := [0x15, 0x01, 0x34, 0x00, crc8 [0x15, 0x01, 0x34, 0x00]].flatMap bitsMsbFirst

/-- The frame of GEN.STATUS clocked in, bit 7 of each byte first, is queued when MCS_N rises; with one bit more it is a
FRAME_ERROR; with less than a header nothing comes. -/
theorem test_frame_on_the_lines :
    (played (scripted (transaction statusBits) quiet)).pending = [.genStatus ⟨0, 0x01, []⟩] := by decide
theorem test_left_over_bit_on_the_lines :
    (played (scripted (transaction (statusBits ++ [true])) quiet)).pending =
      [.frameError [0x15, 0x01, 0x34, 0x00, crc8 [0x15, 0x01, 0x34, 0x00]] 1] := by decide
theorem test_seven_bits_on_the_lines : (played (scripted (transaction (statusBits.take 7)) quiet)).pending = [] := by decide
/-- Edges of MCK while MCS_N is high are not sampled. -/
theorem test_mck_with_mcs_high :
    let t := played (scripted (onLines [⟨false, true, true⟩, ⟨false, false, true⟩, ⟨false, true, true⟩]) quiet)
    t.mpu = quiet.mpu ∧ t.pending = [] := by decide
/-- R176: with MCS_N low at the release, bits of the transaction in progress and its rise after fewer than 8 of them bring
nothing; the next transaction is executed. -/
theorem test_mcs_low_at_release :
    let s := { quiet with pins := { quiet.pins with spi := mcsDown }, mpu := Mpu.atReset true }
    let t := played (scripted (onLines (clocked [true, true, true] ++ mcsUp)) s)
    t.mpu.port = .idle ∧ t.pending = [] ∧ (answer (.genStatus (fr [])) s).1 = .ok := by decide
theorem test_mcs_low_then_a_frame :
    let s := { quiet with pins := { quiet.pins with spi := mcsDown }, mpu := Mpu.atReset true }
    (played (scripted (onLines mcsUp ++ transaction statusBits) s)).pending = [.genStatus ⟨0, 0x01, []⟩] := by decide
/-- R165: the copy is taken with the header's eighth bit; a response stored during the read is not driven. -/
theorem test_copy_outlives_the_buffer :
    let s := played (scripted (onLines (mcsDown :: clocked (bitsMsbFirst 0x05)))
      { quiet with mpu := { quiet.mpu with buffer := ⟨0x32, .range, []⟩ } })
    let t := played (scripted (onLines (clocked (List.replicate 8 false))) (s.store 0x5A .ok []))
    s.mpu.port = .answering (Response.bits ⟨0x32, .range, []⟩) ∧ t.mpu.buffer = ⟨0x5A, .ok, []⟩ ∧
      t.mpu.mdo = bitsMsbFirst 0x32 ∧ t.mdoPin = some false := by decide
theorem test_reset_alert : State.reset.alert = true ∧ State.reset.notices.queue = [⟨.restarted .pin, 1⟩] := by decide

/-! ## Witnesses: for each statement with hypotheses, states and operands that meet them, at the boundary values of each
clause -/

/-- A part in the middle of much: a trial open with its revert due and a soft reset waiting, a host READ waiting in GRANT
behind a capture word, one run OPEN, one FILLING, one RETIRING, a full repeat count and a reached threshold. -/
def busy : State where
  pending := [.memoryAccessCompletes 0x1234]
  pins := ⟨false, false, true, false, true, false, 0x00FF, ⟨false, false, false⟩, []⟩
  straps := ⟨2, true, true⟩
  hau := ⟨.grant, some (readAt 0x004000), some (byDefault (readAt 0x004000)), none, false, true⟩
  maps := ⟨naming 0, mapOf [(0, anyEntry 0x012340#24 4 (.substitute 1 12 .discard)), (31, anyEntry 0xFFFFF0#24 1 (.pass none))], zeroHits⟩
  overlay :=
    ⟨runsOf [(0, ⟨.opened, [0, 1]⟩), (1, ⟨.retiring, [2]⟩), (2, ⟨.filling, [3, 4]⟩)], (List.finRange 128).drop 5,
      [(0, 0x12), (32767, 0x00)]⟩
  gen := ⟨.trial ⟨naming 0, 3, 0, false, 6, true⟩, 7⟩
  seq := ⟨⟨4, 3, .count, .all, #v[2, 0, 5, 1], #v[0, 2, 0xFFFFFE, 4], .falling, 9⟩, 2, 5, 77, 8, false, true, true, 3⟩
  mpc :=
    ⟨devicesAtReset, 100, 16, some ⟨.capture, wordAddr 0x000108, none, 24, true, 100, 5, false⟩, true, false, 16, 0x84⟩
  capture := ⟨.running, some ⟨2, 0, 0x000100#24, 2⟩, 4, true⟩
  journal := ⟨[recordN 7, recordN 8], 9, .keepNewest, 2, false⟩
  notices := ⟨[⟨.epoch 1, 255⟩, ⟨.guardHit (some 3) 0 .write, 1⟩], 0x0010⟩
  mpu := ⟨⟨0x21, .busy, []⟩, some 0x21, .idle, []⟩
  freeIndex := 0

theorem witness_StepKeepsPagePool :
    (RamCanonical busy ∧ PagesPartitioned busy) ∧ ∃ t, step busy = .next t := ⟨by decide, _, rfl⟩
theorem witness_StepKeepsEntriesSound : EntriesSound busy ∧ ∃ t, step busy = .next t := ⟨by decide, _, rfl⟩
theorem witness_StepKeepsReferencesBacked : ReferencesBacked busy ∧ ∃ t, step busy = .next t := ⟨by decide, _, rfl⟩
theorem witness_StepKeepsNoticesSound : NoticesSound busy ∧ ∃ t, step busy = .next t := ⟨by decide, _, rfl⟩
theorem witness_StepKeepsJournalSound : JournalSound busy ∧ ∃ t, step busy = .next t := ⟨by decide, _, rfl⟩
theorem witness_StepKeepsSequencerSound : SequencerSound busy ∧ ∃ t, step busy = .next t := ⟨by decide, _, rfl⟩
theorem witness_StepKeepsPortCoherentAndWaits : (WaitsInFlight busy ∧ SpiFollowed busy) ∧ ∃ t, step busy = .next t := ⟨by decide, _, rfl⟩
theorem witness_StepKeepsCaptureCoherent : CaptureCoherent busy ∧ ∃ t, step busy = .next t := ⟨by decide, _, rfl⟩
theorem witness_StepKeepsRetiringReferenced : RetiringReferenced busy ∧ ∃ t, step busy = .next t := ⟨by decide, _, rfl⟩
/-- An access in flight before and after a host strobe's negation. -/
theorem witness_ActiveStandsWhileInFlight :
    let s := { busy with pending := [.hostStrobeNegated true false] }
    PortCoherent s ∧ s.inFlight = true ∧ ∃ t, step s = .next t ∧ t.inFlight = true := ⟨by decide, rfl, _, rfl, rfl⟩

/-- The strobe of `onDevice` after `n` periods with timeout `t`. -/
def atPeriod (n : Nat) (t : Byte) (mwait : Bool) : State :=
  let s := onDevice (readAt 4) quiet
  { s with pins := { s.pins with mwait := mwait }, mpc := { s.mpc with access := some { strobeOf (readAt 4) with elapsed := n, timeout := t } } }

/-- Neither last nor late; last alone in period 2 + 24; late alone in period 64 × 1; both in one period. -/
theorem witness_IdleStep_strobe :
    ((atPeriod 24 1 false).pending = [] ∧ (atPeriod 24 1 false).pins.resetN = false ∧
        (atPeriod 24 1 false).pins.epoch = (atPeriod 24 1 false).seq.accepted ∧ (atPeriod 24 1 false).seq.filterCount = 0 ∧
        ((atPeriod 24 1 false).mpc.access.map PortAccess.elapsed) = some 24) ∧
      ¬(2 + 24 ≤ 24 + 1) ∧ ¬(64 * 1 ≤ 24 + 1) ∧
      ((atPeriod 25 1 false).pins.mwait = false ∧ 2 + 24 ≤ 25 + 1 ∧ ¬(64 * 1 ≤ 25 + 1)) ∧
      ((atPeriod 63 1 true).pins.mwait = true ∧ 64 * 1 ≤ 63 + 1) ∧
      ((atPeriod 63 1 false).pins.mwait = false ∧ 2 + 24 ≤ 63 + 1 ∧ 64 * 1 ≤ 63 + 1) := by decide
/-- The filter at rest, below its setting, and reaching it. -/
theorem witness_IdleStep_filter :
    ((part510 true 0).mpc.access = none ∧ (part510 true 0).pins.epoch = (part510 true 0).seq.accepted) ∧
      ((part510 false 2).mpc.access = none ∧ (part510 false 2).pins.resetN = false ∧
        (part510 false 2).pins.epoch ≠ (part510 false 2).seq.accepted ∧
        (part510 false 2).seq.filterCount + 1 < (part510 false 2).seq.config.filter.toNat) ∧
      (part510 false 3).pins.epoch ≠ (part510 false 3).seq.accepted ∧
      (part510 false 3).seq.config.filter.toNat ≤ (part510 false 3).seq.filterCount + 1 := by decide

/-! ### Frames -/

theorem witness_TransactionDecodesToItsCommand :
    ((Instr.unknownCommand ⟨7#3, 0xFF, List.replicate 40 0xA5⟩ 0xFF).wf = true ∧
        ∃ bytes, encodeTransaction (.unknownCommand ⟨7#3, 0xFF, List.replicate 40 0xA5⟩ 0xFF) = some bytes) ∧
      (Instr.genStatus ⟨0#3, 1, []⟩).wf = true ∧
      encodeTransaction (.genStatus ⟨0#3, 1, []⟩) = some [0x15, 0x01, 0x34, 0x00, crc8 [0x15, 0x01, 0x34, 0x00]] ∧
      frameOfRow (.genStatus ⟨0#3, 1, []⟩) = some (0x34, ⟨0#3, 1, []⟩) ∧
      Listening (scripted (transaction statusBits) quiet) ∧
      (scripted (transaction statusBits) quiet).pins.script = transaction statusBits ++ [] ∧
      (transaction statusBits).map ClockSample.spi = mcsDown :: (clocked statusBits ++ mcsUp) :=
  ⟨⟨by decide, _, rfl⟩, by decide, rfl, rfl, by decide, by decide, by decide⟩

/-- Another unit's frame; a broadcast that is not broadcast-capable; a broadcast in a soft-reset interval. -/
theorem witness_UnaddressedFrameChangesNothing :
    (Listening quiet ∧ frameOfRow (.mapClear ⟨1#3, 1, [0]⟩) = some (0x11#8, ⟨1#3, 1, [0]⟩) ∧ 1#3 ≠ ownUnit quiet ∧ 1#3 ≠ 7#3) ∧
      (frameOfRow (.mapClear ⟨7#3, 1, [0]⟩) = some (0x11#8, ⟨7#3, 1, [0]⟩) ∧ 7#3 ≠ ownUnit quiet ∧ 0x11#8 ∉ broadcastCodes) ∧
      Listening busy ∧ frameOfRow (.commit ⟨7#3, 1, [0]⟩) = some (0x30#8, ⟨7#3, 1, [0]⟩) ∧ 7#3 ≠ ownUnit busy ∧
      busy.mpu.softReset ≠ none := by decide

theorem witness_BroadcastActsWithoutResponse :
    (Listening quiet ∧ quiet.mpu.softReset = none) ∧
      (∃ t, exec (.hostRelease ⟨ownUnit quiet, 1, []⟩) quiet = .next t) ∧
      (∃ t, exec (.commit ⟨ownUnit quiet, 1, [0, 0, 0, 0, 1, 1]⟩) quiet = .next t) ∧
      (∃ t, exec (.commitCancel ⟨ownUnit quiet, 1, []⟩) quiet = .next t) ∧
      (∃ t, exec (.trialConfirm ⟨ownUnit quiet, 1, []⟩) quiet = .next t) ∧
      (∃ t, exec (.trialRevert ⟨ownUnit quiet, 1, []⟩) quiet = .next t) ∧
      ∃ t, exec (.seqRestart ⟨ownUnit quiet, 1, []⟩) quiet = .next t :=
  ⟨by decide, ⟨_, rfl⟩, ⟨_, rfl⟩, ⟨_, rfl⟩, ⟨_, rfl⟩, ⟨_, rfl⟩, _, rfl⟩

/-- One byte too few and too many; RUN.WRITE with 3 bytes, and with 6 where c asks for 8. -/
theorem witness_WrongLengthAnswersLength :
    Addressed (fr []) quiet ∧ Addressed (fr [0, 0]) quiet ∧
      (∀ f, frameOfRow (.mapClear f) = some (0x11#8, f) ∧ Instr.mapClear f ≠ .unknownCommand f 0x11#8) ∧
      requestLength 0x11#8 = some 1 ∧ (fr []).payload.length ≠ 1 ∧ (fr [0, 0]).payload.length ≠ 1 ∧ (0x11#8 : Byte) ≠ 0x21#8 ∧
      (∀ f, frameOfRow (.runWrite f) = some (0x21#8, f) ∧ Instr.runWrite f ≠ .unknownCommand f 0x21#8) ∧
      requestLength 0x21#8 = none ∧ (fr [0, 0, 0]).payload.length < 4 ∧
      (fr [0, 0, 0, 2, 0, 0]).payload.length ≠ 4 + 2 * ((fr [0, 0, 0, 2, 0, 0]).payload.getD 3 0#8).toNat :=
  ⟨by decide, by decide, fun _ => ⟨rfl, nofun⟩, rfl, by decide, by decide, by decide, fun _ => ⟨rfl, nofun⟩, rfl,
    by decide, by decide⟩

theorem witness_IntervalAnswersBusy :
    Listening busy ∧ busy.mpu.softReset.isSome = true ∧ 2#3 = ownUnit busy ∧
      (Instr.genStatus ⟨2#3, 9, []⟩).wf = true ∧ frameOfRow (.genStatus ⟨2#3, 9, []⟩) = some (0x34#8, ⟨2#3, 9, []⟩) := by decide

/-- A header alone, a frame one byte short, one with a wrong marker, one with a bit left over and one whose length byte is 41;
broadcast, another unit and no unit; an undefined code. -/
theorem witness_BadFrameAndUnknownCodeAnswered :
    (Listening quiet ∧ (0x15#8 : Byte).toNat / 16 % 2 = 1 ∧ (0x15#8 : Byte).toNat / 32 = quiet.straps.unit.toNat ∧
        passesR163 [0x15#8] 0#3 = false ∧ passesR163 [0x15#8, 0xA5, 0x34, 0x00] 0#3 = false ∧
        passesR163 [0x14, 0x01, 0x34, 0x00, crc8 [0x14, 0x01, 0x34, 0x00]] 0#3 = false ∧
        passesR163 [0x15, 0x01, 0x34, 0x00, crc8 [0x15, 0x01, 0x34, 0x00]] 1#3 = false ∧
        passesR163 (0x15 :: 1 :: 0x34 :: 41 :: List.replicate 42 0) 0#3 = false ∧
        passesR163 [0x15, 0x01, 0x34, 0x00, crc8 [0x15, 0x01, 0x34, 0x00]] 0#3 = true) ∧
      (∀ h ∈ [(0xF5#8 : Byte), 0x35, 0xD5],
        h.toNat / 16 % 2 = 1 ∧ h.toNat / 32 ≠ quiet.straps.unit.toNat ∧ passesR163 [h, 0xA5, 0x34] 0#3 = false) ∧
      Addressed (fr []) quiet ∧ codeDefined 0x00#8 = false ∧ codeDefined 0xFF#8 = false := by decide
/-- R161, R166: a broadcast cut short stores no FRAME_ERROR. -/
theorem test_bad_broadcast_ignored : after (.frameError [0xF5, 0x35, 0x30] 0#3) quiet = quiet := by decide

/-- Addressed to this unit, on the lines for one bit; another unit; another marker; an answered read at its last bit and
beyond it, at a falling edge of MCK, at a rising one and at MCS_N's rise; MCS_N high before and after. -/
theorem witness_ResponseReadDrivesBuffer :
    (let l := mcsDown :: clocked (bitsMsbFirst 0x05 ++ [true]);
      Listening (scripted (onLines l) quiet) ∧ headerIsCommand 0x05#8 = false ∧ headerUnit 0x05#8 = ownUnit quiet ∧
        headerMarker 0x05#8 = 0b0101#4 ∧ (scripted (onLines l) quiet).pins.script = onLines l ++ [] ∧
        (onLines l).map ClockSample.spi = l) ∧
      (headerIsCommand 0x25#8 = false ∧ headerUnit 0x25#8 ≠ ownUnit quiet) ∧
      (headerIsCommand 0x0F#8 = false ∧ headerMarker 0x0F#8 ≠ 0b0101#4) ∧
      (∀ left ∈ [[], [true]], ∀ lines ∈ [(⟨true, false, false⟩ : SpiLines), ⟨true, true, false⟩, ⟨false, false, false⟩],
        let s := scripted (onLines [lines]) { quiet with
          pins := { quiet.pins with spi := ⟨true, true, false⟩ }
          mpu := { quiet.mpu with port := .answering left } }
        s.pins.resetN = false ∧ s.pins.script = onLines [lines] ∧ s.mpu.port = .answering left ∧ s.pins.spi.mcs = true ∧
          s.pins.spi.mck = true) ∧
      (scripted (onLines [⟨false, true, true⟩]) quiet).pins.spi.mcs = false := by decide

/-! ### Resets -/

/-- MCS_N low at a release, and then low or high. -/
theorem witness_PinResetAndRelease :
    busy.pins.resetN = false ∧ (after .pinReset busy).pins.resetN = true ∧
      frameOfRow (.genStatus (fr [])) = some (0x34, fr []) ∧
      ∀ x ∈ [true, false],
        let s := scripted (onLines [⟨x, false, false⟩])
          { quiet with pins := { quiet.pins with spi := mcsDown }, mpu := Mpu.atReset true }
        s.pins.resetN = false ∧ s.mpu.port = .waiting ∧ s.pins.spi.mcs = true ∧
          s.pins.script = onLines [⟨x, false, false⟩] := by decide

/-- A waiting soft reset over `onDevice`, the strobe held or already negated. -/
def resetWaits (a : Access) (heldStrobe : Bool) : State :=
  let s := onDevice a quiet
  { s with
    pins := { s.pins with rd := s.pins.rd && heldStrobe, wr := s.pins.wr && heldStrobe }
    mpu := { s.mpu with softReset := some 0x77 } }

/-- A waiting soft reset over an access in GRANT for the ABSENT device MS1, the port just freed, with or without a capture
request beside it. -/
def resetInGrant (capture : Bool) : State :=
  let a := readAt 0x400000
  { quiet with
    hau := { quiet.hau with state := .grant, access := some a, decision := some (byDefault a) }
    mpc := { quiet.mpc with hostRequest := true, captureRequest := capture, passOver := 3 }
    mpu := { quiet.mpu with softReset := some 0x77 } }

/-- Such a grant, alone and below the share: a state that ARBITER_GRANT leads out of. -/
theorem witness_SoftResetAtReturnedGrant :
    ∀ capture ∈ [true, false],
      (resetInGrant capture).mpu.softReset = some 0x77 ∧ (resetInGrant capture).hau.state = .grant ∧
        (resetInGrant capture).hau.access = some (readAt 0x400000) ∧
        (resetInGrant capture).hau.decision = some (byDefault (readAt 0x400000)) ∧
        (byDefault (readAt 0x400000)).effective = some (wordAddr 0x400000) ∧ (resetInGrant capture).mpc.access = none ∧
        (resetInGrant capture).mpc.hostRequest = true ∧
        ((resetInGrant capture).mpc.captureRequest = true → (resetInGrant capture).mpc.passOver < (resetInGrant capture).mpc.share) ∧
        (resetInGrant capture).mpc.devices[deviceOf (wordAddr 0x400000)].state ≠ .online ∧
        (after .arbiterGrant (resetInGrant capture)).mpu.softReset = none := by decide
/-- PART.RESET with and without an access in flight; a READ and a WRITE on the port with the strobe held and negated, with
the states that a completion and a timeout lead to, and one that a grant leaves as it is. -/
theorem witness_SoftResetNowOrAtAccessEnd :
    (Addressed (fr []) quiet ∧ quiet.inFlight = false ∧ Addressed (fr []) (onDevice (readAt 4) quiet) ∧
        (onDevice (readAt 4) quiet).inFlight = true) ∧
      (∀ a ∈ [readAt 4, writeAt 4 .high 0x55AA],
        (byDefault a).effective = some a.addr ∧ (strobeOf a).owner = .host ∧ (strobeOf a).abandoned = false ∧
          (strobeOf a).mwait = true ∧ (strobeOf a).timeout ≠ 0#8) ∧
      (∀ a ∈ [readAt 4, writeAt 4 .high 0x55AA], ∀ heldStrobe ∈ [true, false],
        let s := resetWaits a heldStrobe
        s.mpu.softReset = some 0x77 ∧ s.hau.state = .device ∧ s.hau.access = some a ∧ s.hau.decision = some (byDefault a) ∧
          s.mpc.access = some (strobeOf a) ∧ strobeHeld s a = heldStrobe) ∧
      (∀ a ∈ [readAt 4, writeAt 4 .high 0x55AA],
        (after (.memoryAccessCompletes 5) (resetWaits a true)).mpu.softReset = none ∧
          (after .accessTimeout (resetWaits a true)).mpu.softReset = none ∧
          (after .arbiterGrant (resetWaits a true)).mpu.softReset ≠ none) ∧
      (resetWaits (readAt 4) true).inFlight = true ∧ (resetWaits (readAt 4) true).pins.hrst = false ∧
      (resetWaits (readAt 4) true).pins.resetN = false := by decide
/-- R31, R39, R175: a WRITE ends with the strobe already negated; the soft reset follows, and the unit is in IDLE. -/
theorem test_soft_reset_after_write :
    let t := after (.softResetTakesEffect (.completion 0)) (resetWaits (writeAt 4 .high 0x55AA) false)
    t.hau.state = .idle ∧ t.hau.response = some ⟨true, none⟩ ∧ t.mpu.buffer = ⟨0x77, .ok, []⟩ ∧
      t.notices.queue = [⟨.restarted .soft, 1⟩] := by decide
/-- R29, R39, R104: by a timeout and by a grant returned unused, in error with FFFFh. -/
theorem test_soft_reset_after_error :
    (let t := after (.softResetTakesEffect .timeout) (resetWaits (readAt 4) true);
      (t.hd, t.herr, t.mpu.buffer, t.notices.queue, t.mpc.devices[0].state) =
        (some 0xFFFF, true, ⟨0x77, .ok, []⟩, [⟨.restarted .soft, 1⟩], .online)) ∧
      let t := after (.softResetTakesEffect .grant) (resetInGrant false)
      (t.hau.state, t.hau.response, t.mpu.buffer) = (.idle, some ⟨false, some 0xFFFF⟩, ⟨0x77, .ok, []⟩) := by decide

theorem witness_HostResetEventActs :
    (part411.pins.resetN = false ∧ part411.mpu.softReset = none ∧ part411.pins.hrst = false) ∧
      (withPins (fun p => { p with hrst := true }) quiet).pins.hrst = true := by decide

/-! ### Host port and lookup -/

def noStrobe : HostPins := ⟨false, false, false, false, false, 0, 0⟩

/-- A FETCH, a READ, and a WRITE in each choice of lanes; hold in force and not; a port free and in use; overlay RAM in
canonical form, and the bytes of an absorbed WRITE of 12A5h at word 104 of page 2 (2.7) under each choice of lanes. -/
theorem witness_ArrivalHeldOrCarriedOut :
    (quiet.pins.resetN = false ∧ quiet.pins.hrst = false ∧ quiet.hau.state = .idle ∧ quiet.pins.rd = false ∧
        quiet.pins.wr = false ∧ quiet.hau.hold = false ∧ quiet.mpu.softReset = none ∧ PortAtRest quiet) ∧
      strobed { noStrobe with rd := true, fetch := true } = some (fetchAt 0) ∧ strobed { noStrobe with rd := true } = some (readAt 0) ∧
      strobed { noStrobe with wr := true, low := true } = some (writeAt 0 .low 0) ∧
      strobed { noStrobe with wr := true, high := true } = some (writeAt 0 .high 0) ∧
      strobed { noStrobe with wr := true, low := true, high := true } = some (writeAt 0 .both 0) ∧
      (Hau.atReset true false).hold = true ∧ (Hau.atReset true false).state = .idle ∧
      (capturing job710 5 part710).hau.state = .idle ∧ (capturing job710 5 part710).mpc.access.isSome = true ∧
      PortAtRest (capturing job710 5 part710) ∧ RamCanonical part27 ∧
      (∀ lanes ∈ [Lanes.low, .high, .both],
        (part27.decide (writeAt 0x012350 lanes 0x12A5)).disposition = .substitute 6 232 .absorb) ∧
      wordPlace part27.overlay.runs[(6 : Fin 32)].pages 232 = some 720 ∧
      [Lanes.low, .high, .both].map (fun lanes =>
          [byteAbsorbed part27 (writeAt 0x012350 lanes 0x12A5) 720, byteAbsorbed part27 (writeAt 0x012350 lanes 0x12A5) 721]) =
        [[0xA5, 0xFF], [0xFF, 0x12], [0xA5, 0x12]] := by decide

/-- R26: HIGH alone, and BOTH, of the WRITE of 2.7. -/
theorem test_absorb_lanes :
    (after (.accessArrives ⟨false, true, false, false, true, wordAddr 0x012350, 0x12A5#16⟩) part27).overlay.ram = [(721, 0x12#8)] ∧
      (after (.accessArrives ⟨false, true, false, true, true, wordAddr 0x012350, 0x12A5#16⟩) part27).overlay.ram =
        [(720, 0xA5#8), (721, 0x12#8)] := by decide

theorem witness_StrobeThatIsNoAccessIgnored :
    (after .pinReset quiet).pins.resetN = true ∧ (withPins (fun p => { p with hrst := true }) quiet).pins.hrst = true ∧
      busy.hau.state ≠ .idle ∧
      ((quiet.pins.rd || true) = true ∧ (quiet.pins.wr || true) = true) ∧
      (noStrobe.rd = false ∧ quiet.pins.rd = false ∧ noStrobe.low = false ∧ noStrobe.high = false) ∧
      ((noStrobe.rd = true → quiet.pins.rd = true) ∧ (noStrobe.wr = true → quiet.pins.wr = true)) := by decide

/-- The deciding slot at the first and the last word of its region, behind lower slots that hold no candidate; no candidate
one word further. -/
theorem witness_LowestCandidateDecides :
    DecidedBy (part16 0#2) (fetchAt 0x012340) 5 ⟨0x012340#24, 4, 0x3#4, true, true, false, false, .substitute 3 8 .refuse⟩ ∧
      DecidedBy (part16 0#2) (fetchAt 0x01237E) 5 ⟨0x012340#24, 4, 0x3#4, true, true, false, false, .substitute 3 8 .refuse⟩ ∧
      DecidedBy busy (readAt 0xFFFFFE) 31 (anyEntry 0xFFFFF0#24 1 (.pass none)) ∧
      Undecided (part16 1#2) (readAt 0x012380) ∧ lockedDown busy (writeAt 0x3FFFFE .both 0) = true ∧
      Undecided busy (writeAt 0x3FFFFE .both 0) ∧ lockedDown busy (writeAt 0x400000 .both 0) = false := by decide

/-- A READ in ENDED. -/
def endedRead : State :=
  withPins (fun p => { p with rd := true })
    { quiet with hau := ⟨.ended, some (readAt 4), some (byDefault (readAt 4)), some ⟨true, some 7⟩, false, false⟩ }

theorem witness_StrobeAndResetNegation :
    (endedRead.hau.state = .ended ∧ endedRead.hau.access = some (readAt 4) ∧
        endedRead.hau.response = some ⟨true, some 7⟩ ∧ strobeHeld (negated endedRead true false) (readAt 4) = false) ∧
      (endedRead.hau.access.all (strobeHeld (negated endedRead false true)) = true) ∧ busy.hau.state ≠ .ended := by decide

/-- The held access of `test_hold`. -/
def heldRead : State := { quiet with hau := ⟨.held, some (readAt 4), none, none, true, true⟩ }

theorem witness_HoldAndLockdownEndByCommand :
    (Addressed (fr []) quiet ∧ quiet.hau.hold = false) ∧
      (Addressed (fr []) { quiet with hau := Hau.atReset true true } ∧ (Hau.atReset true true).hold = true ∧
        (Hau.atReset true true).state ≠ .held) ∧
      Addressed (fr []) heldRead ∧ heldRead.hau.hold = true ∧ heldRead.hau.state = .held ∧
      heldRead.hau.access = some (readAt 4) ∧ PortAtRest heldRead ∧ RamCanonical heldRead := by decide

/-! ### Overlay Map commands -/

/-- A MAP.PUT payload: slot, kind, flags and the bytes after them, padded to 19. -/
def putBytes (l : List Byte) : List Byte := l ++ List.replicate (19 - l.length) 0

/-- The largest entry and run offset the layout carries, a pending commit, and the refusals of the run and the windows. -/
theorem witness_MapPutStoresEntry :
    Addressed (fr (BitVec.ofNat 8 31 :: entryLayout (anyEntry 0xF00000#24 65536 (.substitute 31 511 .refuse)))) quiet ∧
      entryInRange (anyEntry 0xF00000#24 65536 (.substitute 31 511 .refuse)) = true ∧
      entryInRange (anyEntry 0xFFFFF0#24 1 (.relocate 0xFFFFF0#24 (some 31))) = true ∧
      putRefusal part38 (anyEntry 0 64 (.substitute 2 0 .absorb)) = none ∧
      putRefusal part38 (anyEntry 0 64 (.substitute 2 1 .absorb)) = some .range ∧
      putRefusal part38 (anyEntry 0 64 (.substitute 3 0 .absorb)) = some .noRun ∧
      putRefusal part38b (anyEntry 0 64 (.substitute 2 0 .absorb)) = some .gone ∧
      putRefusal quiet (anyEntry 0x3FFFF0#24 2 (.pass none)) = some .range ∧
      putRefusal quiet (anyEntry 0 2 (.relocate 0x3FFFF0#24 none)) = some .range ∧
      (withCommit (.pending ⟨.now, false, 0, true⟩) 0 quiet).gen.commit.isPending = true ∧
      Addressed (fr (putBytes [32])) (withCommit (.pending ⟨.now, false, 0, true⟩) 0 quiet) := by decide

/-- R170: each field out of range refuses its kind, and a kind ignores the bytes it does not use. -/
theorem test_put_fields :
    (∀ l ∈ ([[32, 0, 0x7F], [0, 4, 0x7F], [0, 0, 0x70], [0, 0, 0x8F], [0, 0, 0x7F, 0, 0, 8],
        [0, 0, 0x7F, 0, 0, 0, 0, 0, 0, 0, 0, 0x20], [0, 1, 0x7F, 0, 0, 0, 0, 0, 0, 0, 0, 0, 32],
        [0, 1, 0x7F, 0, 0, 0, 0, 0, 0, 0, 0, 0, 0, 2, 0], [0, 1, 0x7F, 0, 0, 0, 0, 0, 0, 0, 0, 0, 0, 0, 0, 3],
        [0, 2, 0x7F, 0, 0, 0, 0, 0, 0, 0, 8], [0, 2, 0x7F, 0, 0, 0, 0, 0, 0, 0, 0, 0x40],
        [0, 3, 0x7F, 0, 0, 0, 0, 0, 0, 0, 0, 0, 0, 0, 0, 0, 2]] : List (List Byte)),
      answer (.mapPut (fr (putBytes l))) quiet = (.range, [])) ∧
      answer (.mapPut (fr (putBytes [0, 0, 0x7F, 0, 0, 0, 0, 0, 0, 0, 8, 0x9F, 32, 2, 0, 3, 2]))) quiet = (.ok, []) ∧
      answer (.mapPut (fr (putBytes [32]))) (withCommit (.pending ⟨.now, false, 0, true⟩) 0 quiet) = (.frozen, []) := by
  decide

/-- Slot 31, slot 32, a pending commit, and the last reference to a RETIRING run removed. -/
theorem witness_MapClearEmptiesSlot :
    (Addressed (fr [31]) quiet ∧ quiet.gen.commit.isPending = false ∧ (31 : Fin 32).val = (31#8 : Byte).toNat ∧
        quiet.maps.staged[(31 : Fin 32)] = none) ∧
      31 < (32#8 : Byte).toNat ∧ (withCommit (.pending ⟨.now, false, 0, true⟩) 0 quiet).gen.commit.isPending = true ∧
      (let s := withStaged (mapOf [(0, anyEntry 0 64 (.substitute 2 0 .absorb))]) (withActive emptyMap part38b)
      (s.maps.staged[(0 : Fin 32)].any fun e => e.names 2) = true ∧ s.overlay.runs[(2 : Fin 32)].state = .retiring ∧
        (staged s 0 none).referenced 2 = false) := by decide

theorem witness_MapReadReportsSlot :
    Addressed (fr [2, 31]) part412 ∧ part412.gen.commit = .trial ⟨emptyMap, 1, 1, true, 9, false⟩ ∧
      quiet.gen.fallback = none ∧ 31 < (32#8 : Byte).toNat ∧ 2 < (3#8 : Byte).toNat ∧
      (31 : Fin 32).val = (31#8 : Byte).toNat := by decide

theorem witness_MapRestageCopiesActive : Addressed (fr []) quiet ∧ (fr []).payload = [] := by decide

/-! ### Runs -/

def allOpen : State := withRuns (Vector.replicate 32 ⟨.opened, [0]⟩) [] quiet
/-- Run 31 alone UNUSED, with `n` pages free. -/
def lastUnused (n : Nat) : State :=
  withRuns ((Vector.replicate 32 ⟨.opened, [0]⟩).set 31 ⟨.unused, []⟩) ((List.finRange 128).take n) quiet

theorem witness_RunOpenTakesPages :
    Addressed (fr [32]) quiet ∧ (0#8 : Byte).toNat < 1 ∧ 32 < (33#8 : Byte).toNat ∧
      (∀ r : Fin 32, allOpen.overlay.runs[r].state ≠ .unused) ∧
      (1 ≤ (32#8 : Byte).toNat ∧ (32#8 : Byte).toNat ≤ 32) ∧ (lastUnused 31).overlay.runs[(31 : Fin 32)].state = .unused ∧
      (∀ q : Fin 32, q < 31 → (lastUnused 31).overlay.runs[q].state ≠ .unused) ∧
      (lastUnused 31).overlay.free.length < (32#8 : Byte).toNat ∧
      (lastUnused 32).overlay.runs[(31 : Fin 32)].state = .unused ∧
      (∀ q : Fin 32, q < 31 → (lastUnused 32).overlay.runs[q].state ≠ .unused) ∧
      (32#8 : Byte).toNat ≤ (lastUnused 32).overlay.free.length := by decide

/-- Word 383 is the last of three pages; 384 lies beyond. -/
theorem witness_RunWriteStoresWords :
    (Addressed (fr [1, 0x01, 0x7F, 1, 0x12, 0x34]) part38 ∧
        (fr [1, 0x01, 0x7F, 1, 0x12, 0x34]).payload =
          BitVec.ofNat 8 (1 : Fin 32).val :: (inTwo 383 ++ BitVec.ofNat 8 1 :: [0x1234#16].flatMap fun v => inTwo v.toNat)) ∧
      runWriteRefusal part38 0 383 1 = none ∧ runWriteRefusal part38 0 384 1 = some .range ∧
      runWriteRefusal part38 0 368 16 = none ∧ runWriteRefusal part38 3 0 1 = some .noRun ∧
      runWriteRefusal part38b 2 0 1 = some .gone ∧ runWriteRefusal busy 2 0 1 = some .busy ∧
      runWriteRefusal busy 0 0 1 = some .live ∧
      runWriteRefusal (withCommit (.pending ⟨.reset, false, 0, false⟩) 0 (withActive emptyMap (part16 0))) 3 0 1 = some .pinned ∧
      RamCanonical part38 ∧ part38.overlay.runs[(0 : Fin 32)].pages.Nodup ∧
      wordPlace part38.overlay.runs[(0 : Fin 32)].pages 383 = some 766 ∧
      ((fr [0, 0, 0, 0]).payload.length = 4 + 2 * (byteAt (fr [0, 0, 0, 0]).payload 3).toNat ∧ byteAt (fr [0, 0, 0, 0]).payload 3 = 0#8) ∧
      31 < (byteAt (fr [32, 0, 0, 1, 0, 0]).payload 0).toNat ∧
      16 < (byteAt (fr (0 :: 0 :: 0 :: 17 :: List.replicate 34 0)).payload 3).toNat := by decide

theorem witness_RunReadAndInfoReport :
    Addressed (fr [0, 0x01, 0x70, 16]) part38 ∧ (fr [0, 0x01, 0x70, 16]).payload = 0 :: (inTwo 368 ++ [16]) ∧
      (0 : Fin 32).val = (0#8 : Byte).toNat ∧ 1 ≤ (16#8 : Byte).toNat ∧ (16#8 : Byte).toNat ≤ 16 ∧
      31 < (32#8 : Byte).toNat ∧ 16 < (17#8 : Byte).toNat ∧ Addressed (fr [31]) part38 ∧
      (31 : Fin 32).val = (31#8 : Byte).toNat := by decide

theorem witness_RunFreeReleasesOrRetires :
    Addressed (fr [0]) part38 ∧ 31 < (32#8 : Byte).toNat ∧ isReferenced part38 0 = false ∧ isReferenced busy 0 = true ∧
      part38.overlay.runs[(0 : Fin 32)].state = .opened ∧ busy.overlay.runs[(0 : Fin 32)].state = .opened ∧
      busy.overlay.runs[(1 : Fin 32)].state = .retiring ∧ busy.overlay.runs[(2 : Fin 32)].state = .filling := by decide

/-! ### Generations -/

/-- Each refusal's state and payload, the largest mark address, and the lowest slot naming a FILLING run. -/
theorem witness_CommitAcceptedOrRefused :
    (Addressed (fr [2, 0xFF, 0xFF, 0xFE, 1, 255]) quiet ∧ quiet.gen.commit = .none ∧
        (fr [2, 0xFF, 0xFF, 0xFE, 1, 255]).payload =
          boundaryValue (.mark 0xFFFFFE#24) :: (inThree 0xFFFFFE ++ [if true then 1#8 else 0#8, 255]) ∧
        (0xFFFFFE#24 : Addr).toNat % 2 = 0 ∧ ∀ i : Fin 32, namesFilling quiet i = false) ∧
      (let s := withRuns (runsOf [(4, ⟨.filling, [0]⟩)]) [] (withStaged (mapOf [(3, anyEntry 0 4 (.substitute 4 0 .absorb))]) quiet)
      namesFilling s 3 = true ∧ ∀ j : Fin 32, j < 3 → namesFilling s j = false) ∧
      3 < (byteAt (fr [4, 0, 0, 0, 0, 0]).payload 0).toNat ∧ 1 < (byteAt (fr [0, 0, 0, 0, 2, 0]).payload 4).toNat ∧
      (byteAt (fr [2, 0, 0, 1, 0, 0]).payload 0 = 2#8 ∧ (byteAt (fr [2, 0, 0, 1, 0, 0]).payload 3).toNat % 2 = 1) ∧
      Addressed (fr []) part411 ∧ part411.gen.commit = .pending ⟨.reset, true, 3, false⟩ ∧
      Addressed (fr []) part412 ∧ part412.gen.commit = .trial ⟨emptyMap, 1, 1, true, 9, false⟩ := by decide

theorem witness_CommitCancelRemovesPending :
    (Addressed (fr []) part411 ∧ part411.gen.commit = .pending ⟨.reset, true, 3, false⟩) ∧
      (Addressed (fr []) quiet ∧ quiet.gen.commit = .none) ∧
      (withCommit (.pending ⟨.now, false, 0, true⟩) 0 quiet).gen.commit = .pending ⟨.now, false, 0, true⟩ := by decide

theorem witness_TrialConfirmAndRevert :
    (Addressed (fr []) part412 ∧ part412.gen.commit = .trial ⟨emptyMap, 1, 1, true, 9, false⟩ ∧ part412.inFlight = true) ∧
      (Addressed (fr []) part411b ∧ part411b.gen.commit = .trial ⟨naming 2, 3, 1, true, 4, false⟩ ∧ part411b.inFlight = false) ∧
      (after (.trialRevert (fr [])) part412).gen.commit = .trial ⟨emptyMap, 1, 0, false, 9, true⟩ ∧ quiet.gen.commit = .none := by
  decide

theorem witness_DueChangeAppliedAtAccessEnd :
    let s := onDevice (readAt 0x004000) (withCommit (.pending ⟨.epoch, false, 0, true⟩) 7 quiet)
    (OnDevice s (readAt 0x004000) (byDefault (readAt 0x004000)) (strobeOf (readAt 0x004000)) ∧ s.mpu.softReset = none ∧
        (byDefault (readAt 0x004000)).effective.isSome = true ∧ s.gen.commit = .pending ⟨.epoch, false, 0, true⟩) ∧
      (let t := after (.trialRevert (fr [])) part412
      OnDevice t (readAt 0x204000) (byDefault (readAt 0x204000)) (strobeOf (readAt 0x204000)) ∧ t.mpu.softReset = none ∧
        t.gen.commit = .trial ⟨emptyMap, 1, 0, false, 9, true⟩) := by decide

theorem witness_TrialWindowExpiryConfirms :
    Listening part411b ∧ part411b.gen.commit = .trial ⟨naming 2, 3, 1, true, 4, false⟩ ∧ part411b.mpu.softReset = none ∧
      part411b.seq.config.mode = .syncRestart ∧ part411b.seq.config.polarity = .rising ∧ part411b.seq.accepted = false := by
  decide

/-! ### Phase Sequencer -/

theorem witness_SeqSetAndRestart :
    Addressed (fr (configLayout config58)) quiet ∧ configInRange config58 = true ∧
      configInRange ⟨4, 3, .mark, .all, #v[0xFFFF, 0, 0, 0], #v[0xFFFFFE, 0, 0, 0], .falling, 255⟩ = true ∧
      (fr (List.replicate 26 0)).payload.length = 26 ∧ (byteAt (List.replicate 26 0) 0).toNat = 0 ∧
      4 < (byteAt (5 :: List.replicate 25 0) 0).toNat ∧
      (byteAt (4 :: 4 :: List.replicate 24 0) 0).toNat ≤ (byteAt (4 :: 4 :: List.replicate 24 0) 1).toNat ∧
      3 < (byteAt (1 :: 0 :: 4 :: List.replicate 23 0) 2).toNat ∧ 1 < (byteAt (1 :: 0 :: 0 :: 2 :: List.replicate 22 0) 3).toNat ∧
      1 < (byteAt (1 :: List.replicate 23 0 ++ [2, 0]) 24).toNat ∧
      (∀ k ∈ [14, 17, 20, 23], (byteAt (1 :: (List.replicate (k - 1) 0 ++ 1 :: List.replicate (25 - k) 0)) k).toNat % 2 = 1) ∧
      Addressed (fr []) (part59 1 0 4 false) := by decide

theorem witness_EpochTransitionActsByMode :
    (part59 1 0 4 false).pins.resetN = false ∧ (part510 false 3).seq.config.filter ≠ 0#8 ∧
      phaseAfter (part59 1 0 4 false).seq = (part59 1 0 4 false).seq.config.initial ∧
      phaseAfter (part59 0 3 4 true).seq ≠ (part59 0 3 4 true).seq.config.initial := by decide

/-- A READ in DEVICE, one count below the length of the current phase, in a mode. -/
def filling (mode : SeqMode) (n : Nat) (phase : BitVec 2) (posted : Bool) : State :=
  onDevice (readAt 4) (withSeq (fun q =>
    { q with
      config := { q.config with phaseCount := n, mode := mode, lengths := #v[1, 0xFFFF, 1, 1] }
      phase := phase, counter := if phase = 1 then 0xFFFE else 0, overrunPosted := posted }) quiet)

theorem witness_FilledPhaseAdvancesParksOrOverruns :
    (∀ s ∈ [filling .count 2 0 false, filling .count 2 1 false, filling .syncRestart 2 0 false, filling .syncRestart 2 1 false,
        filling .syncStep 2 1 false, filling .mark 2 1 false],
      OnDevice s (readAt 4) (byDefault (readAt 4)) (strobeOf (readAt 4)) ∧ s.mpu.softReset = none ∧
        s.seq.config.qualifier = .all ∧ s.seq.parked = false ∧ s.seq.length ≠ 0#16 ∧
        s.seq.counter.toNat + 1 = s.seq.length.toNat ∧ (strobeDone s (strobeOf (readAt 4))).seq.overrunPosted = false) ∧
      (byDefault (readAt 4)).effective.isSome = true ∧ (readAt 4).kind ≠ .fetch ∧
      phaseAfter (filling .count 2 0 false).seq ≠ (filling .count 2 0 false).seq.config.initial ∧
      phaseAfter (filling .count 2 1 false).seq = (filling .count 2 1 false).seq.config.initial ∧
      (filling .syncRestart 2 0 false).seq.phase.toNat + 1 < (filling .syncRestart 2 0 false).seq.config.phaseCount ∧
      (filling .syncRestart 2 1 false).seq.config.phaseCount ≤ (filling .syncRestart 2 1 false).seq.phase.toNat + 1 := by decide

/-- A READ under FETCH_ONLY; an access while parked; a phase not filled, and of length 0; a ceiling reached; a FETCH at
the mark, from either phase. -/
theorem witness_CountWithoutFilling :
    (∀ s ∈ [part58 (readAt 0) 2#2 0 1,
        withSeq (fun q => { q with parked := true }) (filling .syncRestart 2 1 true)],
      OnDevice s ((s.hau.access).getD (readAt 4)) (byDefault ((s.hau.access).getD (readAt 4)))
          (strobeOf ((s.hau.access).getD (readAt 4))) ∧
        ¬Counts s.seq ((s.hau.access).getD (readAt 4)) ∧ s.seq.config.mode ≠ .mark) ∧
      (Counts (part58 (fetchAt 0) 0#2 0 3).seq (fetchAt 0) ∧ (0#16).toNat + 1 < (lengthNow (part58 (fetchAt 0) 0#2 0 3).seq).toNat) ∧
      lengthNow (part59 1#2 0 4 false).seq = 0#16 ∧
      (∀ mode ∈ [SeqMode.syncStep, .mark],
        let q := (withSeq (fun q => { q with counter := 1 }) (filling mode 2 0 true)).seq
        Counts q (readAt 4) ∧ q.counter = lengthNow q ∧ lengthNow q ≠ 0#16 ∧ q.overrunPosted = true ∧ ¬AtMark q (readAt 4)) ∧
      ∀ phase ∈ [0#2, 1#2],
        let s := onDevice (fetchAt 0) (withSeq (fun q =>
          { q with config := { q.config with phaseCount := 2, mode := .mark }, phase := phase }) quiet)
        OnDevice s (fetchAt 0) (byDefault (fetchAt 0)) (strobeOf (fetchAt 0)) ∧ AtMark s.seq (fetchAt 0) ∧
          (phaseAfter s.seq = s.seq.config.initial ↔ phase = 1#2) := by decide
/-- R89: a FETCH at the mark advances its phase in MARK mode. -/
theorem test_mark_advances :
    let s := onDevice (fetchAt 0) (withSeq (fun q =>
      { q with config := { q.config with phaseCount := 2, mode := .mark } }) quiet)
    place (after (.memoryAccessCompletes 0) s) = (1#2, 0, 1, 0) := by decide

/-! ### Memory port and capture -/

theorem witness_DeviceAndPortSettings :
    (Addressed (fr [3, 1, 31, 1]) fenced68 ∧ Addressed (fr [3]) fenced68 ∧ Addressed (fr [0, 16]) fenced68) ∧
      ((3 : Fin 4).val = (3#8 : Byte).toNat ∧ (1#8 : Byte).toNat ≤ 1 ∧ (31#8 : Byte).toNat ≤ 31) ∧
      3 < (4#8 : Byte).toNat ∧ 1 < (2#8 : Byte).toNat ∧ 31 < (32#8 : Byte).toNat := by decide

/-- `part69` with both requests, with the host's alone on a device that is not ONLINE, and with the capture's alone on
devices ONLINE, FENCED and ABSENT. -/
def hostAlone : State :=
  let a := readAt 0x400000
  { part69 2 with
    hau := { (part69 2).hau with access := some a, decision := some (byDefault a) }
    mpc := { (part69 2).mpc with captureRequest := false } }

def captureAlone (st : DeviceState) : State :=
  { part69 2 with mpc := { (part69 2).mpc with hostRequest := false, devices := devicesAtReset.set 0 ⟨st, 24, true⟩ } }

theorem witness_ArbiterGrantsByPassOver :
    (busy.mpc.access.isSome = true ∧ quiet.mpc.hostRequest = false ∧ quiet.mpc.captureRequest = false) ∧
      ((part69 1).mpc.access = none ∧ (part69 1).hau.access = some (readAt 0) ∧
        (part69 1).hau.decision = some (byDefault (readAt 0)) ∧ (byDefault (readAt 0)).effective = some 0 ∧
        (part69 1).mpc.hostRequest = true ∧ (part69 1).mpc.captureRequest = true ∧ (part69 1).mpc.passOver < (part69 1).mpc.share ∧
        (part69 1).mpc.devices[deviceOf 0].state = .online) ∧
      (hostAlone.mpc.access = none ∧ hostAlone.mpc.hostRequest = true ∧ hostAlone.mpc.captureRequest = false ∧
        (byDefault (readAt 0x400000)).effective = some (wordAddr 0x400000) ∧
        hostAlone.mpc.devices[deviceOf (wordAddr 0x400000)].state ≠ .online ∧ hostAlone.mpu.softReset = none) ∧
      ((part69 2).capture.job = some ⟨4, 0, 0x000100#24, 2⟩ ∧ (part69 2).mpc.captureRequest = true ∧
        (part69 2).mpc.share ≤ (part69 2).mpc.passOver ∧
        (part69 2).mpc.devices[deviceOf (BitVec.ofNat 23 ((0x000100 + 2 * 3) / 2))].state = .online) ∧
      (∀ st ∈ [DeviceState.absent, .fenced 0 .host],
        (captureAlone st).mpc.access = none ∧ (captureAlone st).mpc.captureRequest = true ∧
          (captureAlone st).mpc.hostRequest = false ∧ (captureAlone st).capture.abortPending = false ∧
          (captureAlone st).mpc.devices[deviceOf (nextWord (captureAlone st) ⟨4, 0, 0x000100#24, 2⟩)].state = st) ∧
      (let s := { part69 2 with mpc := { (part69 2).mpc with devices := devicesAtReset.set 0 ⟨.fenced 0 .host, 24, true⟩ } }
      s.mpc.hostRequest = true ∧ s.mpc.share ≤ s.mpc.passOver ∧
        s.mpc.devices[deviceOf (nextWord s ⟨4, 0, 0x000100#24, 2⟩)].state = .fenced 0 .host) := by decide

/-- A host READ at MS1 on the port while the next word of a capture, in MS0, waits (6.9). -/
def captureWaits : State :=
  let s := onDevice (readAt 0x400000) (capturing job710 5 part710)
  { s with mpc := { s.mpc with captureRequest := true, devices := devicesAtReset.set 1 ⟨.online, 24, true⟩ } }

theorem test_6_9_word_after_host :
    let t := after (.memoryAccessCompletes 7) captureWaits
    t.hd = some 7 ∧ t.mpc.owner = some .capture ∧ t.ma = ((0x012340 + 10) / 2 : BitVec 21) ∧ t.mpc.captureRequest = false := by
  decide

/-- A host WRITE of 12A5h at 012344h, source word 2 of a capture that has copied 5 words to run word 16 on. -/
def snoopedWrite (lanes : Lanes) : State := onDevice (writeAt 0x012344 lanes 0x12A5) (capturing job710 5 part710)

/-- R126: LOW replaces the byte at the even address of run word 18 (page 0), HIGH the one at the odd address. -/
theorem test_snoop_lanes :
    (after (.memoryAccessCompletes 0) (snoopedWrite .low)).overlay.ram = [(36, 0xA5#8)] ∧
      (after (.memoryAccessCompletes 0) (snoopedWrite .high)).overlay.ram = [(37, 0x12#8)] := by decide

/-- A write of an access still in hand, the same write after a host reset abandoned it, a capture request waiting behind a
host access, and an access whose pins are driven; overlay RAM in canonical form, and the bytes snooped. -/
theorem witness_HostStrobeCompletes :
    let a := writeAt 0x200000 .high 0x55AA
    let s := onDevice a quiet
    (s.mpc.access = some (strobeOf a) ∧ (strobeOf a).owner = .host ∧ s.mpc.hostRequest = false ∧ s.mpc.captureRequest = false ∧
        s.hau.state = .device ∧ s.hau.access = some a ∧ s.hau.decision = some (byDefault a) ∧
        (byDefault a).effective.isSome = true ∧ (strobeOf a).abandoned = false ∧ s.mpu.softReset = none) ∧
      (after .hostResetEvent s).mpc.access = some { strobeOf a with abandoned := true } ∧
      (captureWaits.mpc.access = some (strobeOf (readAt 0x400000)) ∧ captureWaits.mpc.hostRequest = false ∧
        captureWaits.mpc.captureRequest = true ∧ captureWaits.capture.job = some job710 ∧
        captureWaits.mpc.devices[deviceOf (nextWord captureWaits job710)].state = .online) ∧
      (PortCoherent busy ∧ busy.mpc.access.isSome = true ∧ quiet.mpc.access = none) ∧
      (∀ lanes ∈ [Lanes.low, .high, .both], RamCanonical (snoopedWrite lanes) ∧
        (snoopedWrite lanes).mpc.access = some (strobeOf (writeAt 0x012344 lanes 0x12A5)) ∧
        ((snoopedWrite lanes).hau.decision.any fun d => d.effective.isSome) = true) ∧
      [Lanes.low, .high, .both].map (fun lanes =>
          [byteSnooped (snoopedWrite lanes) (strobeOf (writeAt 0x012344 lanes 0x12A5)) 36,
            byteSnooped (snoopedWrite lanes) (strobeOf (writeAt 0x012344 lanes 0x12A5)) 37]) =
        [[0xA5, 0xFF], [0xFF, 0x12], [0xA5, 0x12]] := by decide

/-- Capture word `n` on the port and a host READ behind it, at a pass-over count. -/
def hostBehind (n passOver : Nat) : State :=
  let s := after (.accessArrives ⟨true, false, false, false, false, 0, 0⟩) (capturing job710 n part710)
  { s with mpc := { s.mpc with passOver := passOver } }

/-- The last word of a capture, the word before it, an abort pending, and a host request waiting, below the share, at it,
and at the capture's end. -/
theorem witness_CaptureWordCompletes :
    (∀ n ∈ [14, 15],
      let s := capturing job710 n part710
      s.mpc.access = some (s.capturePortAccess (job710.wordAddress n)) ∧ s.capture.job = some job710 ∧
        s.mpc.captureRequest = false ∧ s.mpc.hostRequest = false ∧ s.capture.abortPending = false ∧
        s.mpc.devices[deviceOf (BitVec.ofNat 23 ((job710.source.toNat + 2 * (n + 1)) / 2))].state = .online) ∧
      14 + 1 ≠ 8 * job710.length ∧ 15 + 1 = 8 * job710.length ∧
      (after (.captureAbort (fr [])) (capturing job710 9 part710)).capture.abortPending = true ∧
      (let s := after (.accessArrives ⟨true, false, false, false, false, 0, 0⟩) (capturing job710 9 part710)
      s.mpc.hostRequest = true ∧ s.hau.access = some (readAt 0) ∧ s.hau.decision = some (byDefault (readAt 0)) ∧
        (byDefault (readAt 0)).effective = some 0 ∧ s.mpc.devices[deviceOf 0].state = .online ∧ s.mpc.passOver < s.mpc.share) ∧
      (hostBehind 15 4).mpc.hostRequest = true ∧ (hostBehind 9 4).mpc.share ≤ (hostBehind 9 4).mpc.passOver ∧
      (hostBehind 9 4).mpc.access = some ((hostBehind 9 4).capturePortAccess (job710.wordAddress 9)) ∧
      RamCanonical (capturing job710 14 part710) := by
  decide

/-- Word 10 wins over the host at the share; after the last word the host access starts. -/
theorem test_capture_word_then_grant :
    (let t := after (.memoryAccessCompletes 7) (hostBehind 9 4);
      (t.mpc.owner, t.mpc.passOver, t.mpc.hostRequest, t.ma) = (some .capture, 0, true, ((0x012340 + 20) / 2 : BitVec 21))) ∧
      let t := after (.memoryAccessCompletes 7) (hostBehind 15 4)
      (t.mpc.owner, t.capture.status, t.hau.state) = (some .host, .done, .device) := by decide

theorem witness_TimeoutFencesDevice :
    let s := onDevice (readAt 4) quiet
    (s.mpc.access = some (strobeOf (readAt 4)) ∧ (strobeOf (readAt 4)).mwait = true ∧ (strobeOf (readAt 4)).timeout ≠ 0#8 ∧
        s.mpc.hostRequest = false ∧ s.mpc.captureRequest = false ∧ s.hau.state = .device ∧ s.hau.access = some (readAt 4) ∧
        s.hau.decision = some (byDefault (readAt 4)) ∧ s.mpu.softReset = none) ∧
      (after .hostResetEvent s).mpc.access = some { strobeOf (readAt 4) with abandoned := true } ∧
      ((capturing job710 9 part710).capturePortAccess 0).owner = .capture ∧
      ((capturing job710 9 part710).capturePortAccess 0).mwait = true ∧
      ((capturing job710 9 part710).capturePortAccess 0).timeout ≠ 0#8 ∧
      (capturing job710 9 part710).capture.job = some job710 ∧
      (captureWaits.mpc.captureRequest = true ∧ captureWaits.capture.job = some job710 ∧
        (fenced (portFree captureWaits) (strobeOf (readAt 0x400000))).mpc.devices[deviceOf (nextWord captureWaits job710)].state =
          .online) := by decide

/-- A capture at the largest offset and length it can state, each refusal, and the field bounds. -/
theorem witness_CaptureStartAndAbort :
    (Addressed (fr [4, 0, 2, 0x01, 0x23, 0x40, 0, 2]) part710 ∧
        (fr [4, 0, 2, 0x01, 0x23, 0x40, 0, 2]).payload =
          BitVec.ofNat 8 (4 : Fin 32).val :: (inTwo 2 ++ inThree 0x012340 ++ inTwo 2) ∧
        inOneWindow 0x012340 2 = true ∧ inOneWindow 0x3FFFF0 2 = false ∧ inOneWindow 0x3FE000 512 = true) ∧
      captureStartRefusal part710 job710 = none ∧ captureStartRefusal part710 ⟨4, 14, 0x012340#24, 2⟩ = none ∧
      captureStartRefusal part710 ⟨4, 15, 0x012340#24, 2⟩ = some .range ∧
      captureStartRefusal part710 ⟨5, 0, 0x012340#24, 2⟩ = some .noRun ∧
      captureStartRefusal part710 ⟨4, 0, 0x400000#24, 2⟩ = some .absent ∧
      captureStartRefusal { part710 with mpc := fenced68.mpc } ⟨4, 0, 0x400000#24, 2⟩ = some .fenced ∧
      captureStartRefusal busy ⟨0, 0, 0, 1⟩ = some .busy ∧
      captureStartRefusal part38b ⟨2, 0, 0, 1⟩ = some .gone ∧
      captureStartRefusal (part16 0) ⟨3, 0, 0, 1⟩ = some .live ∧
      captureStartRefusal (withCommit (.pending ⟨.reset, false, 0, false⟩) 0 (withActive emptyMap (part16 0))) ⟨3, 0, 0, 1⟩ = some .pinned ∧
      (part710.mpc.access = none ∧ part710.mpc.hostRequest = false ∧ part710.mpc.captureRequest = false) ∧
      (onDevice (readAt 4) part710).mpc.access.isSome = true ∧ captureStartRefusal (onDevice (readAt 4) part710) job710 = none ∧
      ((capturing job710 9 part710).capture.status = .running ∧ (capturing job710 9 part710).capture.job = some job710 ∧
        Addressed (fr []) (capturing job710 9 part710)) ∧ quiet.capture.status ≠ .running ∧
      31 < (byteAt (fr (32 :: List.replicate 7 0)).payload 0).toNat := by decide

/-! ### Journal and notices -/

theorem witness_JournalReadAndAck :
    let s := part89 100 163 .keepOldest
    Addressed (fr [4]) s ∧ 1 ≤ (4#8 : Byte).toNat ∧ (4#8 : Byte).toNat ≤ 4 ∧ 4 < (5#8 : Byte).toNat ∧
      Addressed (fr (inTwo 163)) s ∧ (∀ r ∈ s.journal.records, r.sequence ≠ 164) ∧
      s.journal.records = (List.range' 100 63).map recordN ++ recordN 163 :: [] ∧ (recordN 163).sequence = 163 ∧
      ∀ q ∈ (List.range' 100 63).map recordN, q.sequence ≠ 163 := by decide

theorem witness_JournalSetTakesSettings :
    let s := part89 100 163 .keepOldest
    Addressed (fr [0, 48]) s ∧ JournalSound s ∧ JournalPolicy.keepOldest = s.journal.policy ∧ (48#8 : Byte).toNat = s.journal.threshold ∧
      (0#8 : Byte) = (if JournalPolicy.keepOldest = .keepOldest then 0#8 else 1#8) ∧ (64#8 : Byte).toNat ≤ 64 ∧
      1 < (2#8 : Byte).toNat ∧ 64 < (65#8 : Byte).toNat := by decide

theorem witness_PostingAppendsOrRepeats :
    (∀ n ∈ part96.notices.queue, kindCode n.detail ≠ kindCode .hostReset) ∧
      ∃ n ∈ part96.notices.queue, kindCode n.detail = kindCode (.epoch 9) := by decide

theorem witness_NoticeReadAndAck :
    Addressed (fr []) part96 ∧ Addressed (fr [9]) part96 ∧ 13 < (14#8 : Byte).toNat ∧
      (∀ n ∈ part96.notices.queue, kindCode n.detail ≠ (13#8 : Byte).toNat) ∧
      part96.notices.queue = [⟨.epoch 1, 3⟩] ++ ⟨.deviceFenced 1 0x412340#24 .host, 1⟩ :: [] ∧
      (∀ m ∈ [(⟨.epoch 1, 3⟩ : Notice)] ++ [], kindCode m.detail ≠ (9#8 : Byte).toNat) := by decide

theorem witness_NoticeMaskReplacesMask :
    Addressed (fr [0x1F, 0xEF]) part96 ∧ BitVec.ofNat 13 (256 * (0x1F#8 : Byte).toNat + (0xEF#8 : Byte).toNat) = part96.notices.mask := by
  decide

theorem witness_StatusCommandsReportState :
    Addressed (fr []) quiet ∧ Addressed (fr []) (capturing job710 9 part710) ∧ Addressed (fr []) part412 ∧ (fr []).payload = [] := by
  decide

end Sys2Proof.Tests
end

section
/-! PROOFS. What a row of the table can do to the maps, Generation Control and the run records: most rows keep them, and the
others are one of the commands of `MapCommand`, one event of `State.bringAbout`, or a pin reset and its release. -/

namespace Sys2Proof.Machine

/-- The maps, Generation Control and the run records stand. -/
structure MapsKept (s t : State) : Prop where
  maps : t.maps = s.maps
  gen : t.gen = s.gen
  runs : t.overlay.runs = s.overlay.runs

theorem MapsKept.refl (s : State) : MapsKept s s := ⟨rfl, rfl, rfl⟩

/-- How a frame can meet the unit (R161, R164 to R167, R174, R176): it changes the lines and the buffer at most, or its
command is carried out with MCS_N high, with or without a response. -/
theorem State.receive_cases (s : State) (f : Frame) (b l : Bool) (r : State → Reply) :
    s.receive f b l r = s ∨ s.receive f b l r = s.mcsHigh ∨
      (∃ st, s.receive f b l r = s.mcsHigh.store f.tag st []) ∨
      s.receive f b l r = (r s.mcsHigh).state ∨ s.receive f b l r = (r s.mcsHigh).stored f.tag := by
  unfold State.receive State.handle
  split
  · exact .inl rfl
  · split
    · split
      · exact .inr (.inr (.inr (.inl rfl)))
      · exact .inr (.inl rfl)
    · split
      · split
        · exact .inr (.inr (.inl ⟨_, rfl⟩))
        · split
          · exact .inr (.inr (.inr (.inr rfl)))
          · exact .inr (.inr (.inl ⟨_, rfl⟩))
      · exact .inr (.inl rfl)

/-- A predicate that the lines and the response buffer do not enter holds after a frame if it holds before it and after its
command. -/
theorem State.receive_pred {P : State → Prop} (s : State) (f : Frame) (b l : Bool) (r : State → Reply) (hs : P s)
    (hm : P s.mcsHigh) (hst : ∀ u st p, P u → P (u.store f.tag st p)) (hr : P (r s.mcsHigh).state) :
    P (s.receive f b l r) := by
  rcases State.receive_cases s f b l r with h | h | ⟨st, h⟩ | h | h <;> rw [h]
  · exact hs
  · exact hm
  · exact hst _ _ _ hm
  · exact hr
  · exact hst _ _ _ hr

/-- A command whose reply keeps the maps keeps them however its frame meets the unit. -/
theorem State.receive_kept {r : State → Reply} (hr : ∀ s, MapsKept s (r s).state) (s : State) (f : Frame) (b l : Bool) :
    MapsKept s (s.receive f b l r) :=
  State.receive_pred s f b l r (MapsKept.refl s) ⟨rfl, rfl, rfl⟩ (fun _ _ _ h => ⟨h.maps, h.gen, h.runs⟩)
    ⟨(hr s.mcsHigh).maps, (hr s.mcsHigh).gen, (hr s.mcsHigh).runs⟩

/-! ### Commands that keep the maps -/

theorem mapReadReply_kept (p : List Byte) (s : State) : MapsKept s (mapReadReply p s).state := by
  unfold mapReadReply
  (repeat' split) <;> exact MapsKept.refl s

theorem runWriteReply_kept (p : List Byte) (s : State) : MapsKept s (runWriteReply p s).state := by
  unfold runWriteReply
  dsimp only
  (repeat' split) <;> exact ⟨rfl, rfl, by simp [State.refuse]⟩

theorem runReadReply_kept (p : List Byte) (s : State) : MapsKept s (runReadReply p s).state := by
  unfold runReadReply
  dsimp only
  (repeat' split) <;> exact MapsKept.refl s

theorem runInfoReply_kept (p : List Byte) (s : State) : MapsKept s (runInfoReply p s).state := by
  unfold runInfoReply
  split <;> exact MapsKept.refl s

theorem seqSetReply_kept (p : List Byte) (s : State) : MapsKept s (seqSetReply p s).state := by
  unfold seqSetReply
  split <;> exact ⟨rfl, rfl, rfl⟩

theorem devSetReply_kept (p : List Byte) (s : State) : MapsKept s (devSetReply p s).state := by
  unfold devSetReply
  (repeat' split) <;> exact ⟨rfl, rfl, rfl⟩

theorem devRestoreReply_kept (p : List Byte) (s : State) : MapsKept s (devRestoreReply p s).state := by
  unfold devRestoreReply
  (repeat' split) <;> exact ⟨rfl, rfl, rfl⟩

theorem portSetReply_kept (p : List Byte) (s : State) : MapsKept s (portSetReply p s).state := by
  unfold portSetReply
  split <;> exact ⟨rfl, rfl, rfl⟩

theorem journalReadReply_kept (p : List Byte) (s : State) : MapsKept s (journalReadReply p s).state := by
  unfold journalReadReply
  dsimp only
  split <;> exact MapsKept.refl s

theorem journalAckReply_kept (p : List Byte) (s : State) : MapsKept s (journalAckReply p s).state := by
  unfold journalAckReply
  split <;> exact ⟨rfl, rfl, rfl⟩

theorem journalSetReply_kept (p : List Byte) (s : State) : MapsKept s (journalSetReply p s).state := by
  unfold journalSetReply
  (repeat' split) <;> exact ⟨rfl, rfl, rfl⟩

theorem noticeAckReply_kept (p : List Byte) (s : State) : MapsKept s (noticeAckReply p s).state := by
  unfold noticeAckReply
  dsimp only
  (repeat' split) <;> exact ⟨rfl, rfl, rfl⟩

/-! ### Rows beside the commands -/

theorem execSoftResetIntervalBusy_kept (f : Frame) (s : State) :
    MapsKept s (if s.pins.resetN then s else s.mcsHigh.answerBusy f) := by
  unfold State.answerBusy
  (repeat' split) <;> exact ⟨rfl, rfl, rfl⟩

theorem execFrameError_kept (bytes : List Byte) (extra : BitVec 3) (s : State) :
    MapsKept s (if s.pins.resetN then s else s.mcsHigh.frameError bytes extra) := by
  unfold State.frameError
  (repeat' split) <;> exact ⟨rfl, rfl, rfl⟩

theorem execUnknownCommand_kept (f : Frame) (code : Byte) (s : State) :
    MapsKept s (if s.pins.resetN then s else s.mcsHigh.unknownCommand f code) := by
  unfold State.unknownCommand
  (repeat' split) <;> exact ⟨rfl, rfl, rfl⟩

theorem State.negateStrobes_kept (s : State) (rd wr : Bool) : MapsKept s (s.negateStrobes rd wr) := by
  unfold State.negateStrobes
  dsimp only
  (repeat' split) <;> exact ⟨rfl, rfl, rfl⟩

/-! ### The rows by what they can do -/

/-- The commands whose reply can change a map, Generation Control or a run record. -/
inductive MapCommand : (State → Reply) → Prop where
  | partReset (tag : Byte) : MapCommand (partResetReply tag)
  | hostRelease : MapCommand hostReleaseReply
  | mapPut (p : List Byte) : MapCommand (mapPutReply p)
  | mapClear (p : List Byte) : MapCommand (mapClearReply p)
  | mapRestage : MapCommand mapRestageReply
  | runOpen (p : List Byte) : MapCommand (runOpenReply p)
  | runFree (p : List Byte) : MapCommand (runFreeReply p)
  | commit (p : List Byte) : MapCommand (commitReply p)
  | commitCancel : MapCommand commitCancelReply
  | trialConfirm : MapCommand trialConfirmReply
  | trialRevert : MapCommand trialRevertReply
  | seqRestart : MapCommand seqRestartReply
  | captureStart (p : List Byte) : MapCommand (captureStartReply p)
  | captureAbort : MapCommand captureAbortReply

/-- What a row of the table can make of a state, as the maps, Generation Control and the run records see it. -/
inductive Effect (s : State) : State → Prop where
  | kept {t : State} (h : MapsKept s t) : Effect s t
  | command {r : State → Reply} (f : Frame) (b l : Bool) (h : MapCommand r) : Effect s (s.receive f b l r)
  | event (c : Cause) (b : Bool) : Effect s (s.bringAboutIf c b)
  | pinReset : Effect s s.pinReset
  | released (p : ReleasePins) : Effect s (s.resetReleased p)

/-- Every row answers a next state, by one of these effects. -/
theorem exec_effect (i : Instr) (s : State) : ∃ t, exec i s = .next t ∧ Effect s t := by
  cases i with
  | partInfo f => exact ⟨_, rfl, .kept (State.receive_kept MapsKept.refl s f _ _)⟩
  | partReset f => exact ⟨_, rfl, .command f _ _ (.partReset f.tag)⟩
  | softResetTakesEffect c => exact ⟨_, rfl, .event c _⟩
  | softResetIntervalBusy f code => exact ⟨_, rfl, .kept (execSoftResetIntervalBusy_kept f s)⟩
  | hostRelease f => exact ⟨_, rfl, .command f _ _ .hostRelease⟩
  | lockdownClear f => exact ⟨_, rfl, .kept (State.receive_kept (fun _ => ⟨rfl, rfl, rfl⟩) s f _ _)⟩
  | mapPut f => exact ⟨_, rfl, .command f _ _ (.mapPut _)⟩
  | mapClear f => exact ⟨_, rfl, .command f _ _ (.mapClear _)⟩
  | mapRead f => exact ⟨_, rfl, .kept (State.receive_kept (mapReadReply_kept _) s f _ _)⟩
  | mapRestage f => exact ⟨_, rfl, .command f _ _ .mapRestage⟩
  | runOpen f => exact ⟨_, rfl, .command f _ _ (.runOpen _)⟩
  | runWrite f => exact ⟨_, rfl, .kept (State.receive_kept (runWriteReply_kept _) s f _ _)⟩
  | runRead f => exact ⟨_, rfl, .kept (State.receive_kept (runReadReply_kept _) s f _ _)⟩
  | runFree f => exact ⟨_, rfl, .command f _ _ (.runFree _)⟩
  | runInfo f => exact ⟨_, rfl, .kept (State.receive_kept (runInfoReply_kept _) s f _ _)⟩
  | commit f => exact ⟨_, rfl, .command f _ _ (.commit _)⟩
  | dueCommitApplied c => exact ⟨_, rfl, .event c _⟩
  | commitCancel f => exact ⟨_, rfl, .command f _ _ .commitCancel⟩
  | trialConfirm f => exact ⟨_, rfl, .command f _ _ .trialConfirm⟩
  | trialWindowExpiry c => exact ⟨_, rfl, .event c _⟩
  | trialRevert f => exact ⟨_, rfl, .command f _ _ .trialRevert⟩
  | dueRevertApplied c => exact ⟨_, rfl, .event c _⟩
  | genStatus f => exact ⟨_, rfl, .kept (State.receive_kept MapsKept.refl s f _ _)⟩
  | seqSet f => exact ⟨_, rfl, .kept (State.receive_kept (seqSetReply_kept _) s f _ _)⟩
  | seqRestart f => exact ⟨_, rfl, .command f _ _ .seqRestart⟩
  | seqStatus f => exact ⟨_, rfl, .kept (State.receive_kept MapsKept.refl s f _ _)⟩
  | epochTransitionAccepted => exact ⟨_, rfl, .event .transition true⟩
  | countAdvance c => exact ⟨_, rfl, .event c _⟩
  | overrun c => exact ⟨_, rfl, .event c _⟩
  | park c => exact ⟨_, rfl, .event c _⟩
  | devSet f => exact ⟨_, rfl, .kept (State.receive_kept (devSetReply_kept _) s f _ _)⟩
  | devRestore f => exact ⟨_, rfl, .kept (State.receive_kept (devRestoreReply_kept _) s f _ _)⟩
  | devStatus f => exact ⟨_, rfl, .kept (State.receive_kept MapsKept.refl s f _ _)⟩
  | portSet f => exact ⟨_, rfl, .kept (State.receive_kept (portSetReply_kept _) s f _ _)⟩
  | captureStart f => exact ⟨_, rfl, .command f _ _ (.captureStart _)⟩
  | captureAbort f => exact ⟨_, rfl, .command f _ _ .captureAbort⟩
  | captureStatus f => exact ⟨_, rfl, .kept (State.receive_kept MapsKept.refl s f _ _)⟩
  | journalRead f => exact ⟨_, rfl, .kept (State.receive_kept (journalReadReply_kept _) s f _ _)⟩
  | journalAck f => exact ⟨_, rfl, .kept (State.receive_kept (journalAckReply_kept _) s f _ _)⟩
  | journalSet f => exact ⟨_, rfl, .kept (State.receive_kept (journalSetReply_kept _) s f _ _)⟩
  | journalStatus f => exact ⟨_, rfl, .kept (State.receive_kept MapsKept.refl s f _ _)⟩
  | noticeRead f => exact ⟨_, rfl, .kept (State.receive_kept MapsKept.refl s f _ _)⟩
  | noticeAck f => exact ⟨_, rfl, .kept (State.receive_kept (noticeAckReply_kept _) s f _ _)⟩
  | noticeMask f => exact ⟨_, rfl, .kept (State.receive_kept (fun _ => ⟨rfl, rfl, rfl⟩) s f _ _)⟩
  | frameError bytes extra => exact ⟨_, rfl, .kept (execFrameError_kept bytes extra s)⟩
  | unknownCommand f code => exact ⟨_, rfl, .kept (execUnknownCommand_kept f code s)⟩
  | responseRead header clocks => exact ⟨_, rfl, .kept (by split <;> exact ⟨rfl, rfl, rfl⟩)⟩
  | accessArrives p => exact ⟨_, rfl, .event (.arrival p) true⟩
  | hostStrobeNegated rd wr => exact ⟨_, rfl, .kept (State.negateStrobes_kept s rd wr)⟩
  | hostResetEvent => exact ⟨_, rfl, .event .hostReset true⟩
  | pinReset =>
    cases h : s.pins.resetN
    · exact ⟨s.pinReset, by simp [exec, execPinReset, h], .pinReset⟩
    · exact ⟨s, by simp [exec, execPinReset, h], .kept (MapsKept.refl s)⟩
  | resetNRelease p =>
    cases h : s.pins.resetN
    · exact ⟨s, by simp [exec, execResetNRelease, h], .kept (MapsKept.refl s)⟩
    · exact ⟨s.resetReleased p, by simp [exec, execResetNRelease, h], .released p⟩
  | arbiterGrant => exact ⟨_, rfl, .event .grant true⟩
  | memoryAccessCompletes md => exact ⟨_, rfl, .event (.completion md) true⟩
  | accessTimeout => exact ⟨_, rfl, .event .timeout true⟩
  | hrstNNegated => exact ⟨_, rfl, .kept ⟨rfl, rfl, rfl⟩⟩
  | epochPulseDiscarded => exact ⟨_, rfl, .kept (by split <;> exact ⟨rfl, rfl, rfl⟩)⟩

/-- A step is one CLK period, or an effect on the state without its front command. -/
theorem step_effect {s t : State} (h : step s = .next t) :
    t = s.clockPeriod ∨ ∃ rest, Effect { s with pending := rest } t := by
  unfold step at h
  split at h
  · exact .inl (by injection h with h; exact h.symm)
  · next c rest _ =>
    obtain ⟨t', ht, he⟩ := exec_effect c { s with pending := rest }
    rw [ht] at h
    injection h with h
    exact .inr ⟨rest, h ▸ he⟩

end Sys2Proof.Machine
end

section
/-! PROOFS. The entries of the three maps and the runs behind them: every operation but MAP.PUT leaves only entries that stood
before, and keeps the run of each entry it leaves. EntriesSound and ReferencesBacked follow for every step. -/

namespace Sys2Proof.Machine

open Sys2Proof.Safety

/-! ### The entries of a state -/

/-- A map holds an entry. -/
def mapHolds (m : SlotMap) (e : Entry) : Prop := ∃ i : Fin 32, m[i] = some e

/-- Staged, Active or Fallback holds an entry. -/
def State.hasEntry (s : State) (e : Entry) : Prop :=
  mapHolds s.maps.staged e ∨ mapHolds s.maps.active e ∨ ∃ m, s.gen.fallback = some m ∧ mapHolds m e

theorem mapAll_iff (m : SlotMap) (p : Entry → Bool) : MapAll m p ↔ ∀ e, mapHolds m e → p e = true := by
  simp only [MapAll, mapHolds, Option.all_eq_true]
  exact ⟨fun h e ⟨i, hi⟩ => h i e hi, fun h i e hi => h e ⟨i, hi⟩⟩

theorem everyEntry_iff (s : State) (p : Entry → Bool) : EveryEntry s p ↔ ∀ e, s.hasEntry e → p e = true := by
  simp only [EveryEntry, mapAll_iff, Option.all_eq_true, decide_eq_true_eq, State.hasEntry]
  constructor
  · rintro ⟨hs, ha, hf⟩ e (h | h | ⟨m, hm, h⟩)
    exacts [hs e h, ha e h, hf m hm e h]
  · exact fun h => ⟨fun e he => h e (.inl he), fun e he => h e (.inr (.inl he)),
      fun m hm e he => h e (.inr (.inr ⟨m, hm, he⟩))⟩

theorem mapNames_iff (m : SlotMap) (r : Fin 32) : mapNames m r = true ↔ ∃ e, mapHolds m e ∧ e.names r = true := by
  simp only [mapNames, List.any_eq_true, Option.any_eq_true, List.mem_finRange, true_and, mapHolds]
  exact ⟨fun ⟨i, e, hi, he⟩ => ⟨e, ⟨i, hi⟩, he⟩, fun ⟨e, ⟨i, hi⟩, he⟩ => ⟨i, e, hi, he⟩⟩

/-- A run is referred to when an entry of the state names it (R45). -/
theorem State.referenced_iff (s : State) (r : Fin 32) :
    s.referenced r = true ↔ ∃ e, s.hasEntry e ∧ e.names r = true := by
  simp only [State.referenced, State.inStaged, State.inActive, State.inFallback, Bool.or_eq_true, Option.any_eq_true,
    mapNames_iff, State.hasEntry]
  constructor
  · rintro ((⟨e, h, he⟩ | ⟨e, h, he⟩) | ⟨m, hm, e, h, he⟩)
    exacts [⟨e, .inl h, he⟩, ⟨e, .inr (.inl h), he⟩, ⟨e, .inr (.inr ⟨m, hm, h⟩), he⟩]
  · rintro ⟨e, h | h | ⟨m, hm, h⟩, he⟩
    exacts [.inl (.inl ⟨e, h, he⟩), .inl (.inr ⟨e, h, he⟩), .inr ⟨m, hm, e, h, he⟩]

theorem mapHolds_emptyMap (e : Entry) : ¬ mapHolds emptyMap e := by
  rintro ⟨i, h⟩
  simp [emptyMap] at h

/-- An entry of a map with one slot changed is the entry put there, or one the map held. -/
theorem mapHolds_set {m : SlotMap} {i : Fin 32} {x : Option Entry} {e : Entry} (h : mapHolds (m.set i.val x) e) :
    x = some e ∨ mapHolds m e := by
  obtain ⟨j, hj⟩ := h
  simp only [Fin.getElem_fin, Vector.getElem_set] at hj
  split at hj
  · exact .inl hj
  · exact .inr ⟨j, hj⟩

/-! ### The runs behind the entries -/

/-- A run that is in use stays in use with its pages. -/
def Overlay.Serves (o o' : Overlay) (r : Fin 32) : Prop :=
  o.runs[r].state ≠ .unused → o'.runs[r].state ≠ .unused ∧ o'.runs[r].pages = o.runs[r].pages

theorem Overlay.serves_of_runs_eq {o o' : Overlay} {r : Fin 32} (h : o'.runs[r] = o.runs[r]) : o.Serves o' r :=
  fun hu => ⟨h ▸ hu, by rw [h]⟩

/-- An entry stays backed when the run it names is served on. -/
theorem entryBacked_of_serves {o o' : Overlay} {e : Entry} (hr : ∀ r, e.names r = true → o.Serves o' r)
    (h : entryBacked o e = true) : entryBacked o' e = true := by
  unfold entryBacked at h ⊢
  split at h
  · next run offset policy ha =>
    simp only [Bool.and_eq_true, bne_iff_ne, decide_eq_true_eq] at h ⊢
    obtain ⟨hused, hfits⟩ := h
    obtain ⟨hu, hp⟩ := hr run (by simp [Entry.names, ha]) hused
    exact ⟨hu, by rwa [Run.capacity, Run.pageCount, hp]⟩
  · rfl

/-- `t` holds only entries of `s`, and each is backed in `t` if it was in `s`. -/
structure Traces (s t : State) : Prop where
  entries : ∀ e, t.hasEntry e → s.hasEntry e
  backed : ∀ e, t.hasEntry e → entryBacked s.overlay e = true → entryBacked t.overlay e = true

theorem Traces.refl (s : State) : Traces s s := ⟨fun _ h => h, fun _ _ h => h⟩

theorem Traces.trans {s t u : State} (h : Traces s t) (k : Traces t u) : Traces s u :=
  ⟨fun e he => h.entries e (k.entries e he), fun e he hb => k.backed e he (h.backed e (k.entries e he) hb)⟩

/-- Entries that stood before, with every run that the new maps refer to served on. -/
theorem Traces.of_serves {s t : State} (he : ∀ e, t.hasEntry e → s.hasEntry e)
    (hr : ∀ r, t.referenced r = true → s.overlay.Serves t.overlay r) : Traces s t :=
  ⟨he, fun e h => entryBacked_of_serves fun r hn => hr r ((State.referenced_iff t r).mpr ⟨e, h, hn⟩)⟩

theorem Traces.of_maps {s t : State} (hs : t.maps.staged = s.maps.staged) (ha : t.maps.active = s.maps.active)
    (hf : t.gen.fallback = s.gen.fallback) (hr : ∀ r, t.referenced r = true → s.overlay.Serves t.overlay r) :
    Traces s t :=
  Traces.of_serves (fun e h => by simpa only [State.hasEntry, hs, ha, hf] using h) hr

theorem Traces.of_runs {s t : State} (he : ∀ e, t.hasEntry e → s.hasEntry e) (hr : t.overlay.runs = s.overlay.runs) :
    Traces s t :=
  Traces.of_serves he fun _ _ => Overlay.serves_of_runs_eq (by rw [hr])

theorem MapsKept.traces {s t : State} (h : MapsKept s t) : Traces s t :=
  Traces.of_runs (fun e he => by simpa only [State.hasEntry, h.maps, h.gen] using he) h.runs

/-- What follows a change that keeps the maps. -/
theorem Traces.after {s t u : State} (k : Traces t u) (h : MapsKept s t) : Traces s u := h.traces.trans k

/-- After a reset no map holds an entry (R1, R57). -/
theorem State.not_hasEntry {t : State} (hm : t.maps = Maps.atReset) (hg : t.gen = Gen.atReset) (e : Entry) :
    ¬ t.hasEntry e := by
  simp only [State.hasEntry, hm, hg, Maps.atReset, Gen.atReset, Gen.fallback, mapHolds_emptyMap, reduceCtorEq,
    false_and, exists_false, or_self, not_false_eq_true]

theorem Traces.of_empty {s t : State} (hm : t.maps = Maps.atReset) (hg : t.gen = Gen.atReset) : Traces s t :=
  ⟨fun e he => absurd he (State.not_hasEntry hm hg e), fun e he => absurd he (State.not_hasEntry hm hg e)⟩

/-! ### Operations on runs -/

/-- The release test, run by run (R53). -/
theorem releaseAll_runs (referenced : Fin 32 → Bool) (rs : List (Fin 32)) (o : Overlay) (r : Fin 32) :
    (rs.foldl (releaseOne referenced) o).runs[r] =
      if r ∈ rs ∧ o.runs[r].state = .retiring ∧ referenced r = false then ⟨.unused, []⟩ else o.runs[r] := by
  induction rs generalizing o with
  | nil => simp
  | cons x rs ih =>
    have step_one : (releaseOne referenced o x).runs[r] =
        if x = r ∧ o.runs[r].state = .retiring ∧ referenced r = false then ⟨.unused, []⟩ else o.runs[r] := by
      unfold releaseOne Overlay.release
      by_cases hx : x = r
      · subst hx
        simp only [true_and]
        split <;> simp
      · have hx' : x.val ≠ r.val := fun h => hx (Fin.ext h)
        simp only [hx, false_and, if_false]
        split
        · simp [hx']
        · rfl
    rw [List.foldl_cons, ih, step_one]
    by_cases hc : o.runs[r].state = .retiring ∧ referenced r = false
    · by_cases hx : x = r
      · subst hx
        simp only [hc, and_self, if_true, reduceCtorEq, false_and, and_false, if_false, List.mem_cons, true_or]
      · simp only [hx, Ne.symm (a := x) (b := r) hx, hc, and_self, and_true, if_false, List.mem_cons, false_or]
    · simp only [hc, and_false, if_false]

theorem State.releaseTest_runs (s : State) (r : Fin 32) :
    s.releaseTest.overlay.runs[r] =
      if s.overlay.runs[r].state = .retiring ∧ s.referenced r = false then ⟨.unused, []⟩ else s.overlay.runs[r] := by
  have h := releaseAll_runs s.referenced (List.finRange 32) s.overlay r
  simp only [List.mem_finRange, true_and] at h
  exact h

@[simp] theorem State.releaseTest_referenced (s : State) (r : Fin 32) : s.releaseTest.referenced r = s.referenced r := by
  simp only [State.referenced, State.inStaged, State.inActive, State.inFallback, State.releaseTest_maps,
    State.releaseTest_gen]

/-- The release test frees no run that a map refers to. -/
theorem State.releaseTest_traces (s : State) : Traces s s.releaseTest :=
  Traces.of_maps (by simp) (by simp) (by simp) fun r hr => Overlay.serves_of_runs_eq <| by
    rw [State.releaseTest_referenced] at hr
    simp only [State.releaseTest_runs, hr, Bool.true_eq_false, and_false, if_false]

/-- A run put into a state of use keeps its pages, and the other runs stand. -/
theorem Overlay.setState_serves (o : Overlay) (x : Fin 32) {st : RunState} (h : st ≠ .unused) (r : Fin 32) :
    o.Serves (o.setState x st) r := by
  intro hu
  by_cases hx : x = r
  · subst hx
    simp [Overlay.setState, h]
  · have hx' : x.val ≠ r.val := fun h => hx (Fin.ext h)
    simpa [Overlay.setState, hx'] using hu

/-- RUN.OPEN takes an UNUSED run, so no run in use changes (R48). -/
theorem Overlay.openRun_serves {o : Overlay} {x : Fin 32} (h : o.runs[x].state = .unused) (n : Nat) (r : Fin 32) :
    o.Serves (o.openRun x n) r := by
  intro hu
  have hx : x.val ≠ r.val := fun hx => hu (by rw [← Fin.ext hx]; exact h)
  simpa [Overlay.openRun, hx] using hu

/-- A release takes only its own run out of use (R51). -/
theorem Overlay.release_serves {o : Overlay} {x r : Fin 32} (h : x ≠ r) : o.Serves (o.release x) r := by
  have hx : x.val ≠ r.val := fun hx => h (Fin.ext hx)
  exact Overlay.serves_of_runs_eq (by simp [Overlay.release, hx])

theorem Overlay.unusedRun_unused {o : Overlay} {r : Fin 32} (h : o.unusedRun = some r) : o.runs[r].state = .unused := by
  simpa using List.find?_some h

/-! ### Changes of Active (R64 to R74) -/

/-- A new Active map of entries that stood before, with a Fallback, if any, of such entries. -/
theorem State.replaceActive_traces (s : State) {m : SlotMap} {c : CommitState} (hm : ∀ e, mapHolds m e → s.hasEntry e)
    (hc : ∀ t, c = .trial t → ∀ e, mapHolds t.fallback e → s.hasEntry e) : Traces s (s.replaceActive m c) := by
  refine Traces.of_runs ?_ rfl
  rintro e (h | h | ⟨m', hm', h⟩)
  · exact .inl h
  · exact hm e h
  · cases c with
    | trial t => exact hc t rfl e (by cases hm'; exact h)
    | none => cases hm'
    | pending p => cases hm'

theorem State.post_traces (s : State) (d : Detail) : Traces s (s.post d) := MapsKept.traces ⟨rfl, rfl, rfl⟩

/-- Another commit state with the Fallback of the old one, or with none. -/
theorem State.setCommit_traces (s : State) {c : CommitState}
    (h : ∀ m, Gen.fallback ⟨c, s.gen.generation⟩ = some m → s.gen.fallback = some m) :
    Traces s { s with gen := { s.gen with commit := c } } := by
  refine Traces.of_runs ?_ rfl
  rintro e (he | he | ⟨m, hm, he⟩)
  exacts [.inl he, .inr (.inl he), .inr (.inr ⟨m, h m hm, he⟩)]

theorem State.takeEffect_traces (s : State) (p : PendingCommit) : Traces s (s.takeEffect p) := by
  refine ((s.replaceActive_traces (fun e h => .inl h) ?_).trans (State.releaseTest_traces _)).trans
    (State.post_traces _ _)
  intro t ht e he
  unfold State.trialOf at ht
  split at ht
  · injection ht with ht
    exact .inr (.inl (by rw [← ht] at he; exact he))
  · cases ht

theorem State.confirm_traces (s : State) (cause : ConfirmCause) : Traces s (s.confirm cause) :=
  ((s.setCommit_traces (c := .none) nofun).trans (State.releaseTest_traces _)).trans (State.post_traces _ _)

theorem State.revert_traces {s : State} {t : Trial} (h : s.gen.commit = .trial t) (cause : RevertCause) :
    Traces s (s.revert t cause) :=
  ((s.replaceActive_traces (fun e he => .inr (.inr ⟨t.fallback, by simp [Gen.fallback, h], he⟩))
    fun _ hc => by cases hc).trans
    (State.releaseTest_traces _)).trans (State.post_traces _ _)

theorem State.boundaryOccurs_traces (s : State) (p : PendingCommit) : Traces s (s.boundaryOccurs p) := by
  unfold State.boundaryOccurs
  split
  · exact s.setCommit_traces nofun
  · exact s.takeEffect_traces p

theorem State.epochReported_traces (s : State) : Traces s s.epochReported := by
  unfold State.epochReported
  split
  · exact Traces.refl s
  · split
    · exact s.boundaryOccurs_traces _
    · exact Traces.refl s
  · next t ht =>
    split
    · split
      · exact s.confirm_traces _
      · exact s.setCommit_traces fun m hm => by simpa [Gen.fallback, ht] using hm
    · exact Traces.refl s

theorem State.changeAtEnd_traces (s : State) (a : Access) : Traces s (s.changeAtEnd a) := by
  unfold State.changeAtEnd
  split
  · exact Traces.refl s
  · split
    · exact s.takeEffect_traces _
    · exact Traces.refl s
  · next t ht =>
    split
    · exact State.revert_traces ht _
    · exact Traces.refl s

theorem State.changeAtHostReset_traces (s : State) : Traces s s.changeAtHostReset := by
  unfold State.changeAtHostReset
  split
  · exact Traces.refl s
  · split
    · exact s.takeEffect_traces _
    · exact Traces.refl s
  · next t ht => exact State.revert_traces ht _

theorem State.seqNews_traces (s : State) (r : Seq × SeqNews) : Traces s (s.seqNews r) := by
  unfold State.seqNews
  dsimp only
  cases r.2.overrun <;> dsimp only <;> split
  · exact (State.epochReported_traces _).after ⟨rfl, rfl, rfl⟩
  · exact MapsKept.traces ⟨rfl, rfl, rfl⟩
  · exact (State.epochReported_traces _).after ⟨rfl, rfl, rfl⟩
  · exact MapsKept.traces ⟨rfl, rfl, rfl⟩

theorem State.acceptTransition_traces (s : State) : Traces s s.acceptTransition := by
  unfold State.acceptTransition
  exact (State.seqNews_traces _ _).after ⟨rfl, rfl, rfl⟩

theorem State.filterPeriod_traces (s : State) : Traces s s.filterPeriod := by
  unfold State.filterPeriod
  split
  · exact MapsKept.traces ⟨rfl, rfl, rfl⟩
  · split
    · exact s.acceptTransition_traces
    · exact MapsKept.traces ⟨rfl, rfl, rfl⟩

/-! ### The end of an access (R31, R175) and the arbiter -/

theorem State.softReset_maps (s : State) (tag : Byte) : (s.softReset tag).maps = Maps.atReset := by
  unfold State.softReset
  dsimp only
  split <;> rfl

theorem State.softReset_gen (s : State) (tag : Byte) : (s.softReset tag).gen = Gen.atReset := by
  unfold State.softReset
  dsimp only
  split <;> rfl

theorem State.softReset_traces (s : State) (tag : Byte) : Traces s (s.softReset tag) :=
  Traces.of_empty (s.softReset_maps tag) (s.softReset_gen tag)

theorem State.softResetIfDue_traces (s : State) : Traces s s.softResetIfDue := by
  unfold State.softResetIfDue
  split
  · exact s.softReset_traces _
  · exact Traces.refl s

theorem State.absorb_kept (s : State) (a : Access) (d : Decision) : MapsKept s (s.absorb a d) := by
  refine ⟨by simp, by simp, ?_⟩
  unfold State.absorb
  split <;> simp

theorem State.endAccess_traces (s : State) (e : HostResponse) : Traces s (s.endAccess e) := by
  unfold State.endAccess
  split
  · next a d _ _ =>
    have counted (u : State) : Traces u (u.countHit d.slot) :=
      Traces.of_maps (State.countHit_staged u _) (State.countHit_active u _) (by rw [State.countHit_gen]) fun r _ =>
        Overlay.serves_of_runs_eq (by rw [State.countHit_overlay])
    have reported (u : State) : Traces u ((u.reportEnd a d e.completed).respond a e) :=
      MapsKept.traces ⟨by simp, by simp, by simp⟩
    exact ((((s.absorb_kept a d).traces.trans (State.seqNews_traces _ _)).trans (counted _)).trans (reported _)).trans
      (State.changeAtEnd_traces _ a)
  · exact Traces.refl s

theorem State.captureEnd_traces (s : State) (j : CaptureJob) (status : CaptureStatus) :
    Traces s (s.captureEnd j status) :=
  Traces.of_maps rfl rfl rfl fun r _ => s.overlay.setState_serves j.run (by decide) r

theorem State.captureFails_traces (s : State) (cause : CaptureCause) : Traces s (s.captureFails cause) := by
  unfold State.captureFails
  split
  · exact Traces.refl s
  · exact s.captureEnd_traces _ _

theorem State.captureWord_traces (s : State) (md : Word) : Traces s (s.captureWord md) := by
  unfold State.captureWord
  split
  · exact Traces.refl s
  · next j _ =>
    have copied : MapsKept s (s.copyWord j md) := ⟨rfl, rfl, by simp [State.copyWord]⟩
    dsimp only
    split
    · exact copied.traces.trans (State.captureEnd_traces _ _ _)
    · split
      · exact copied.traces.trans (State.captureEnd_traces _ _ _)
      · exact MapsKept.traces ⟨copied.maps, copied.gen, copied.runs⟩

theorem State.grantCapture_traces (s : State) : Traces s s.grantCapture := by
  unfold State.grantCapture
  split
  · exact Traces.refl s
  · split
    · exact MapsKept.traces ⟨rfl, rfl, rfl⟩
    · exact s.captureFails_traces _
    · exact s.captureFails_traces _

theorem State.grantHost_traces (s : State) : Traces s s.grantHost.1 := by
  unfold State.grantHost
  (repeat' split) <;> exact MapsKept.traces ⟨rfl, rfl, rfl⟩

theorem State.grantOne_traces (s : State) : Traces s s.grantOne.1 := by
  unfold State.grantOne
  split
  · exact (State.grantHost_traces _).after ⟨rfl, rfl, rfl⟩
  · exact (State.grantCapture_traces _).after ⟨rfl, rfl, rfl⟩
  · exact Traces.refl s

theorem State.arbitrate_traces (s : State) : Traces s s.arbitrate.1 := by
  unfold State.arbitrate
  dsimp only
  split
  · exact s.grantOne_traces
  · exact s.grantOne_traces.trans (State.grantOne_traces _)

theorem Moment.finish_traces (m : Moment) : Traces m.1 m.finish := by
  unfold Moment.finish
  split
  · exact Traces.refl _
  · exact ((State.endAccess_traces _ _).trans (State.softResetIfDue_traces _)).trans (State.arbitrate_traces _)

/-! ### The events -/

theorem State.enterDeciding_traces (s : State) (a : Access) : Traces s (s.enterDeciding a).1 := by
  unfold State.enterDeciding
  dsimp only
  split
  · exact MapsKept.traces ⟨rfl, rfl, rfl⟩
  · exact MapsKept.traces ⟨rfl, rfl, rfl⟩
  · exact MapsKept.traces ⟨rfl, rfl, rfl⟩
  · split
    · exact (State.arbitrate_traces _).after ⟨rfl, rfl, rfl⟩
    · exact MapsKept.traces ⟨rfl, rfl, rfl⟩

theorem State.arrivalMoment_traces (s : State) (h : HostPins) : Traces s (s.arrivalMoment h).1 := by
  unfold State.arrivalMoment
  dsimp only
  split
  · exact MapsKept.traces ⟨rfl, rfl, rfl⟩
  · split
    · exact MapsKept.traces ⟨rfl, rfl, rfl⟩
    · exact (State.enterDeciding_traces _ _).after ⟨rfl, rfl, rfl⟩

theorem State.releaseMoment_traces (s : State) : Traces s s.releaseMoment.1 := by
  unfold State.releaseMoment
  split
  · dsimp only
    split
    · exact (State.enterDeciding_traces _ _).after ⟨rfl, rfl, rfl⟩
    · exact MapsKept.traces ⟨rfl, rfl, rfl⟩
  · exact Traces.refl s

theorem State.snoop_kept (s : State) (p : PortAccess) : MapsKept s (s.snoop p) := by
  refine ⟨by simp, by simp, ?_⟩
  unfold State.snoop
  split
  · dsimp only
    split <;> simp
  · rfl

theorem State.completionMoment_traces (s : State) (md : Word) : Traces s (s.completionMoment md).1 := by
  have freed : Traces s s.freePort := MapsKept.traces ⟨rfl, rfl, rfl⟩
  unfold State.completionMoment
  split
  · exact Traces.refl s
  · split
    · exact (freed.trans (State.captureWord_traces _ md)).trans (State.arbitrate_traces _)
    · split
      · exact (freed.trans (State.snoop_kept _ _).traces).trans (State.arbitrate_traces _)
      · exact freed.trans (State.snoop_kept _ _).traces

theorem State.fence_kept (s : State) (p : PortAccess) : MapsKept s (s.fence p) := ⟨by simp, by simp, by simp⟩

theorem State.timeoutMoment_traces (s : State) : Traces s s.timeoutMoment.1 := by
  have freed : Traces s s.freePort := MapsKept.traces ⟨rfl, rfl, rfl⟩
  unfold State.timeoutMoment
  split
  · exact Traces.refl s
  · next p _ =>
    have fenced : Traces s (s.freePort.fence p) := freed.trans (State.fence_kept _ _).traces
    split
    · split
      · exact (fenced.trans (State.captureFails_traces _ _)).trans (State.arbitrate_traces _)
      · split
        · exact fenced.trans (State.arbitrate_traces _)
        · exact fenced
    · exact Traces.refl s

theorem State.hostReset_traces (s : State) : Traces s s.hostReset := by
  have restarted : Traces s (State.post .hostReset
      { State.abandon { s with pins := { s.pins with hrst := true } } with
        seq := (State.abandon { s with pins := { s.pins with hrst := true } }).seq.restart }) :=
    MapsKept.traces ⟨by simp, by simp, by simp⟩
  unfold State.hostReset
  dsimp only
  split
  · exact (restarted.trans (State.changeAtHostReset_traces _)).trans (State.softResetIfDue_traces _)
  · exact restarted.trans (State.changeAtHostReset_traces _)

theorem State.seqRestart_traces (s : State) : Traces s s.seqRestart := s.seqNews_traces _

theorem State.momentOf_traces (s : State) (c : Cause) : Traces s (s.momentOf c).1 := by
  cases c with
  | arrival p => exact s.arrivalMoment_traces p
  | release =>
    unfold State.momentOf
    dsimp only
    split
    · exact (State.releaseMoment_traces _).after ⟨rfl, rfl, rfl⟩
    · exact Traces.refl s
  | completion md => exact s.completionMoment_traces md
  | timeout => exact s.timeoutMoment_traces
  | grant => exact s.arbitrate_traces
  | transition => exact Traces.refl s
  | restart => exact Traces.refl s
  | hostReset => exact Traces.refl s

theorem State.bringAbout_traces (s : State) (c : Cause) : Traces s (s.bringAbout c) := by
  have finished := (s.momentOf_traces c).trans (Moment.finish_traces _)
  cases c with
  | transition =>
    unfold State.bringAbout
    dsimp only
    split
    · exact Traces.refl s
    · exact s.acceptTransition_traces
  | restart =>
    unfold State.bringAbout
    dsimp only
    split
    · exact (State.seqRestart_traces _).after ⟨rfl, rfl, rfl⟩
    · exact Traces.refl s
  | hostReset =>
    unfold State.bringAbout State.hrstAsserted
    dsimp only
    split
    · exact MapsKept.traces ⟨rfl, rfl, rfl⟩
    · split
      · exact Traces.refl s
      · exact s.hostReset_traces
  | arrival p => exact finished
  | release => exact finished
  | completion md => exact finished
  | timeout => exact finished
  | grant => exact finished

theorem State.portPeriod_traces (s : State) : Traces s s.portPeriod := by
  unfold State.portPeriod
  split
  · exact Traces.refl s
  · split
    · exact (s.completionMoment_traces _).trans (Moment.finish_traces _)
    · split
      · exact s.timeoutMoment_traces.trans (Moment.finish_traces _)
      · exact MapsKept.traces ⟨rfl, rfl, rfl⟩

theorem State.levelsChange_kept (s : State) : MapsKept s s.levelsChange := ⟨by simp, by simp, by simp⟩

theorem State.clockPeriod_traces (s : State) : Traces s s.clockPeriod := by
  have counted : Traces s s.countPeriod := by
    have first : Traces s { s with freeIndex := s.freeIndex + 1 } := MapsKept.traces ⟨rfl, rfl, rfl⟩
    unfold State.countPeriod
    dsimp only
    split
    · exact first
    · split
      · exact (first.trans (State.filterPeriod_traces _)).trans (State.portPeriod_traces _)
      · exact (first.trans (State.portPeriod_traces _)).trans (State.filterPeriod_traces _)
  exact counted.trans (State.levelsChange_kept _).traces

/-! ### The commands -/

/-- A slot of Staged changed by an edit: the entries after it are entries that stood, or the one put there. -/
theorem State.editStaged_hasEntry {s : State} {i : Fin 32} {x : Option Entry} {e : Entry}
    (h : (s.editStaged i x).hasEntry e) : x = some e ∨ s.hasEntry e := by
  simp only [State.hasEntry, State.editStaged_maps, State.editStaged_gen] at h
  rcases h with h | h
  · rcases mapHolds_set h with h | h
    exacts [.inl h, .inr (.inl h)]
  · exact .inr (.inr h)

/-- A slot of Staged changed by an edit: no entry it leaves loses its run. -/
theorem State.editStaged_backed {s : State} {i : Fin 32} {x : Option Entry} {e : Entry}
    (h : (s.editStaged i x).hasEntry e) (hb : entryBacked s.overlay e = true) :
    entryBacked (s.editStaged i x).overlay e = true := by
  have kept := State.releaseTest_traces { s with maps := { s.maps with staged := s.maps.staged.set i.val x } }
  unfold State.editStaged at h ⊢
  dsimp only at h ⊢
  by_cases hs : isSubstitute s.maps.staged[i] = true
  · rw [if_pos hs] at h ⊢
    exact kept.backed e h hb
  · rwa [if_neg hs]

theorem runOpenReply_traces (p : List Byte) (s : State) : Traces s (runOpenReply p s).state := by
  unfold runOpenReply
  dsimp only
  split
  · exact Traces.refl s
  · split
    · exact Traces.refl s
    · next x hx =>
      split
      · exact Traces.refl s
      · exact Traces.of_maps rfl rfl rfl fun r _ => Overlay.openRun_serves (Overlay.unusedRun_unused hx) _ r

theorem runFreeReply_traces (p : List Byte) (s : State) : Traces s (runFreeReply p s).state := by
  unfold runFreeReply
  split
  · exact Traces.refl s
  · next x _ =>
    split
    · exact Traces.refl s
    · exact Traces.refl s
    · exact Traces.refl s
    · split
      · exact Traces.of_maps rfl rfl rfl fun r _ => s.overlay.setState_serves x (by decide) r
      · next hx =>
        refine Traces.of_maps rfl rfl rfl fun r hr => Overlay.release_serves fun hxr => hx ?_
        rw [hxr]
        exact hr

theorem commitReply_traces (p : List Byte) (s : State) : Traces s (commitReply p s).state := by
  unfold commitReply
  split
  · exact Traces.refl s
  · exact Traces.refl s
  · split
    · split
      · exact Traces.refl s
      · unfold commitAnswer State.acceptCommit
        split
        · split
          · exact s.setCommit_traces nofun
          · exact s.takeEffect_traces _
        · exact s.setCommit_traces nofun
    · exact Traces.refl s

theorem commitCancelReply_traces (s : State) : Traces s (commitCancelReply s).state := by
  unfold commitCancelReply
  split
  · split
    · exact Traces.refl s
    · exact s.setCommit_traces nofun
  · exact Traces.refl s

theorem trialConfirmReply_traces (s : State) : Traces s (trialConfirmReply s).state := by
  unfold trialConfirmReply
  split
  · split
    · exact Traces.refl s
    · exact s.confirm_traces _
  · exact Traces.refl s

theorem trialRevertReply_traces (s : State) : Traces s (trialRevertReply s).state := by
  unfold trialRevertReply
  split
  · next t ht =>
    split
    · exact Traces.refl s
    · split
      · exact s.setCommit_traces fun m hm => by simpa [Gen.fallback, ht, Trial.reverting] using hm
      · exact State.revert_traces ht _
  · exact Traces.refl s

theorem captureStartReply_traces (p : List Byte) (s : State) : Traces s (captureStartReply p s).state := by
  unfold captureStartReply
  split
  · exact Traces.refl s
  · next j _ =>
    split
    · exact Traces.refl s
    · have accepted : Traces s (s.captureAccepted j) :=
        Traces.of_maps rfl rfl rfl fun r _ => s.overlay.setState_serves j.run (by decide) r
      exact (accepted.trans (State.arbitrate_traces _)).trans (Moment.finish_traces _)

theorem captureAbortReply_traces (s : State) : Traces s (captureAbortReply s).state := by
  unfold captureAbortReply
  split
  · split
    · exact s.captureEnd_traces _ _
    · exact MapsKept.traces ⟨rfl, rfl, rfl⟩
  · exact Traces.refl s

theorem mapRestageReply_traces (s : State) : Traces s (mapRestageReply s).state := by
  unfold mapRestageReply
  split
  · exact Traces.refl s
  · have copied : Traces s { s with maps := { s.maps with staged := s.maps.active } } :=
      Traces.of_runs (fun e he => he.elim (fun h => .inr (.inl h)) .inr) rfl
    exact copied.trans (State.releaseTest_traces _)

theorem mapClearReply_traces (p : List Byte) (s : State) : Traces s (mapClearReply p s).state := by
  unfold mapClearReply
  split
  · exact Traces.refl s
  · split
    · exact ⟨fun e h => (State.editStaged_hasEntry h).resolve_left nofun, fun e h => State.editStaged_backed h⟩
    · exact Traces.refl s

theorem partResetReply_traces (tag : Byte) (s : State) : Traces s (partResetReply tag s).state := by
  unfold partResetReply
  split
  · exact MapsKept.traces ⟨rfl, rfl, rfl⟩
  · exact s.softReset_traces tag

/-! ### MAP.PUT alone brings a new entry, which its checks have found sound and backed (R16) -/

/-- The entries of `t` are entries of `s` that kept their runs, or new ones that are sound and backed. -/
def Derives (s t : State) : Prop :=
  ∀ e, t.hasEntry e →
    (s.hasEntry e ∧ (entryBacked s.overlay e = true → entryBacked t.overlay e = true)) ∨
      (entrySound e = true ∧ entryBacked t.overlay e = true)

theorem Traces.derives {s t : State} (h : Traces s t) : Derives s t :=
  fun e he => .inl ⟨h.entries e he, h.backed e he⟩

theorem Derives.keeps_entriesSound {s t : State} (h : Derives s t) (hs : EntriesSound s) : EntriesSound t := by
  rw [EntriesSound, everyEntry_iff] at hs ⊢
  intro e he
  rcases h e he with ⟨old, -⟩ | ⟨sound, -⟩
  exacts [hs e old, sound]

theorem Derives.keeps_referencesBacked {s t : State} (h : Derives s t) (hs : ReferencesBacked s) :
    ReferencesBacked t := by
  rw [ReferencesBacked, everyEntry_iff] at hs ⊢
  intro e he
  rcases h e he with ⟨old, kept⟩ | ⟨-, backed⟩
  exacts [kept (hs e old), backed]

/-- The bytes that check 2 of R16 passes carry the kind's fields within their ranges (R4, R5). -/
theorem action?_sound {p : List Byte} {i : Nat} {x : EntryAction} (h : action? p i = some x) :
    (∀ run offset policy, x = .substitute run offset policy → offset ≤ 511) ∧
      ∀ target wait, x = .relocate target wait → aligned target = true := by
  unfold action? at h
  split at h
  · obtain ⟨_, _, rfl⟩ := Option.map_eq_some_iff.mp h
    exact ⟨nofun, nofun⟩
  · split at h
    · split at h
      · next hle =>
        cases h
        exact ⟨fun _ _ _ hx => by cases hx; exact hle, nofun⟩
      · cases h
    · cases h
  · split at h
    · next hal =>
      obtain ⟨_, _, rfl⟩ := Option.map_eq_some_iff.mp h
      exact ⟨nofun, fun _ _ hx => by cases hx; exact hal⟩
    · cases h
  · obtain ⟨_, _, rfl⟩ := Option.map_eq_some_iff.mp h
    exact ⟨nofun, nofun⟩
  · cases h

/-- One of bits 6:4 of a byte is set. -/
theorem mask_bits (b : Byte) (h : b.toNat / 16 % 8 ≠ 0) : (b.getLsbD 4 || b.getLsbD 5 || b.getLsbD 6) = true := by
  revert b
  decide

/-- The low four bits of a byte are not all 0. -/
theorem low_bits (b : Byte) (h : b.toNat % 16 ≠ 0) : b.setWidth 4 ≠ 0#4 := by
  intro hz
  have := congrArg BitVec.toNat hz
  simp only [BitVec.toNat_setWidth, BitVec.toNat_ofNat] at this
  omega

/-- An entry that checks 2 and 3 of R16 pass is within the ranges and windows of R2 to R6. -/
theorem entry?_sound {p : List Byte} {i : Nat} {e : Entry} (h : entry? p i = some e) (hc : e.contained = true) :
    entrySound e = true := by
  unfold entry? at h
  split at h
  · next x hx =>
    split at h
    · next hm =>
      obtain ⟨hphases, hmask, haligned⟩ := hm
      injection h with h
      have hlen : e.length ≤ 65536 := by
        have := (wordAt p (i + 5)).isLt
        rw [← h]
        simp only
        omega
      obtain ⟨hoffset, htarget⟩ := action?_sound hx
      subst h
      simp only [entrySound, Bool.and_eq_true, decide_eq_true_eq, bne_iff_ne]
      refine ⟨⟨⟨⟨⟨⟨haligned, by omega⟩, hlen⟩, low_bits _ hphases⟩, mask_bits _ hmask⟩, hc⟩, ?_⟩
      split
      · exact decide_eq_true (hoffset _ _ _ rfl)
      · exact htarget _ _ rfl
      · rfl
    · cases h
  · cases h

/-- Checks 4 to 6 of R16 pass an entry only if its run is in use and holds its granules. -/
theorem Overlay.runRefusal_none {o : Overlay} {e : Entry} (h : o.runRefusal e = none) : entryBacked o e = true := by
  obtain ⟨_, length, _, _, _, _, _, action⟩ := e
  cases action with
  | pass wait => rfl
  | relocate target wait => rfl
  | guard response fill => rfl
  | substitute run offset policy =>
    unfold Overlay.runRefusal at h
    dsimp only at h
    split at h
    · cases h
    · cases h
    · next hu hr =>
      split at h
      · next hle =>
        simp only [entryBacked, Bool.and_eq_true, bne_iff_ne, decide_eq_true_eq]
        exact ⟨hu, hle⟩
      · cases h

theorem mapPutReply_derives (p : List Byte) (s : State) : Derives s (mapPutReply p s).state := by
  unfold mapPutReply
  split
  · exact (Traces.refl s).derives
  · split
    · next i e hi hent =>
      split
      · next hc =>
        split
        · exact (Traces.refl s).derives
        · next hrun =>
          intro x hx
          rcases State.editStaged_hasEntry hx with new | old
          · obtain rfl : e = x := Option.some.inj new
            exact .inr ⟨entry?_sound hent hc, State.editStaged_backed hx (Overlay.runRefusal_none hrun)⟩
          · exact .inl ⟨old, State.editStaged_backed hx⟩
      · exact (Traces.refl s).derives
    · exact (Traces.refl s).derives

theorem MapCommand.derives {r : State → Reply} (h : MapCommand r) (s : State) : Derives s (r s).state := by
  cases h with
  | partReset tag => exact (partResetReply_traces tag s).derives
  | hostRelease => exact (s.releaseMoment_traces.trans (Moment.finish_traces _)).derives
  | mapPut p => exact mapPutReply_derives p s
  | mapClear p => exact (mapClearReply_traces p s).derives
  | mapRestage => exact (mapRestageReply_traces s).derives
  | runOpen p => exact (runOpenReply_traces p s).derives
  | runFree p => exact (runFreeReply_traces p s).derives
  | commit p => exact (commitReply_traces p s).derives
  | commitCancel => exact (commitCancelReply_traces s).derives
  | trialConfirm => exact (trialConfirmReply_traces s).derives
  | trialRevert => exact (trialRevertReply_traces s).derives
  | seqRestart => exact s.seqRestart_traces.derives
  | captureStart p => exact (captureStartReply_traces p s).derives
  | captureAbort => exact (captureAbortReply_traces s).derives

theorem Effect.derives {s t : State} (h : Effect s t) : Derives s t := by
  cases h with
  | kept h => exact h.traces.derives
  | command f b l h =>
    exact State.receive_pred s f b l _ (Traces.refl s).derives (MapsKept.traces ⟨rfl, rfl, rfl⟩).derives
      (fun _ _ _ h => h) (h.derives s.mcsHigh)
  | event c b =>
    unfold State.bringAboutIf
    split
    · exact (s.bringAbout_traces c).derives
    · exact (Traces.refl s).derives
  | pinReset => exact (Traces.of_empty rfl rfl).derives
  | released p => exact (Traces.of_empty rfl rfl).derives

theorem step_derives {s t : State} (h : step s = .next t) : Derives s t := by
  rcases step_effect h with rfl | ⟨rest, he⟩
  · exact s.clockPeriod_traces.derives
  · exact he.derives

end Sys2Proof.Machine

namespace Sys2Proof

open Sys2Proof.Machine

/-- Settles O7: a step leaves entries that stood before, and MAP.PUT's, which its checks have found sound. -/
theorem stepKeepsEntriesSound : Obligations.StepKeepsEntriesSound :=
  fun _ _ hs h => (step_derives h).keeps_entriesSound hs

/-- Settles O8: no step takes the run of an entry it leaves, and MAP.PUT's entry names a run in use that holds its
granules. -/
theorem stepKeepsReferencesBacked : Obligations.StepKeepsReferencesBacked :=
  fun _ _ hs h => (step_derives h).keeps_referencesBacked hs

end Sys2Proof
end

section
/-! PROOFS. The Active map while an access is in flight (R7, R64, R71): a change of Active waits for the end of the access, and
the end leaves no access in flight, since no host request waits then. -/

namespace Sys2Proof.Machine

open Sys2Proof.Safety

/-- If an access is in flight in `t`, `t` has the Active map of `s`. -/
def HoldsActive (s t : State) : Prop := t.inFlight = true → t.maps.active = s.maps.active

theorem HoldsActive.of_maps {s t : State} (h : t.maps = s.maps) : HoldsActive s t := fun _ => by rw [h]

theorem HoldsActive.of_rest {s t : State} (h : t.inFlight = false) : HoldsActive s t := fun ht => by simp [h] at ht

/-! ### Generation Control while an access is in flight (R64) -/

theorem State.boundaryOccurs_maps {s : State} (h : s.inFlight = true) (p : PendingCommit) :
    (s.boundaryOccurs p).maps = s.maps := by
  simp [State.boundaryOccurs, h]

theorem State.epochReported_maps {s : State} (h : s.inFlight = true) : s.epochReported.maps = s.maps := by
  unfold State.epochReported
  split
  · rfl
  · split
    · exact State.boundaryOccurs_maps h _
    · rfl
  · split
    · split
      · exact s.confirm_maps _
      · rfl
    · rfl

theorem State.seqNews_maps {s : State} (h : s.inFlight = true) (r : Seq × SeqNews) : (s.seqNews r).maps = s.maps := by
  unfold State.seqNews
  cases r.2.overrun <;> dsimp only <;> split
  · exact State.epochReported_maps h
  · rfl
  · exact State.epochReported_maps h
  · rfl

theorem State.acceptTransition_maps {s : State} (h : s.inFlight = true) : s.acceptTransition.maps = s.maps := by
  unfold State.acceptTransition
  refine State.seqNews_maps ?_ _
  exact h

/-- The EPOCH filter leaves the HAU and the port, and in flight the maps. -/
theorem State.filterPeriod_frame (s : State) :
    s.filterPeriod.hau = s.hau ∧ s.filterPeriod.mpc = s.mpc ∧
      (s.inFlight = true → s.filterPeriod.maps = s.maps) := by
  unfold State.filterPeriod
  split
  · exact ⟨rfl, rfl, fun _ => rfl⟩
  · split
    · exact ⟨by simp [State.acceptTransition], by simp [State.acceptTransition], State.acceptTransition_maps⟩
    · exact ⟨rfl, rfl, fun _ => rfl⟩

/-! ### The arbiter -/

@[simp] theorem State.freePort_hostRequest (s : State) : s.freePort.mpc.hostRequest = s.mpc.hostRequest := rfl

theorem State.captureFails_hostRequest (s : State) (c : CaptureCause) :
    (s.captureFails c).mpc.hostRequest = s.mpc.hostRequest := by
  unfold State.captureFails
  split <;> rfl

theorem State.grantCapture_hostRequest (s : State) : s.grantCapture.mpc.hostRequest = s.mpc.hostRequest := by
  unfold State.grantCapture
  split
  · rfl
  · split
    · rfl
    · exact s.captureFails_hostRequest _
    · exact s.captureFails_hostRequest _

theorem Mpc.winner_ne_host {m : Mpc} (h : m.hostRequest = false) : m.winner ≠ some .host := by
  cases hc : m.captureRequest <;> simp [Mpc.winner, h, hc]

/-- With no host request waiting, a grant leaves the HAU and still no host request. -/
theorem State.grantOne_no_request {s : State} (h : s.mpc.hostRequest = false) :
    s.grantOne.1.hau = s.hau ∧ s.grantOne.1.mpc.hostRequest = false := by
  unfold State.grantOne
  split
  · next hw => exact absurd hw (Mpc.winner_ne_host h)
  · exact ⟨by simp, by rw [State.grantCapture_hostRequest]; exact h⟩
  · exact ⟨rfl, h⟩

theorem State.arbitrate_hau {s : State} (h : s.mpc.hostRequest = false) : s.arbitrate.1.hau = s.hau := by
  obtain ⟨hau, request⟩ := State.grantOne_no_request h
  unfold State.arbitrate
  dsimp only
  split
  · exact hau
  · exact (State.grantOne_no_request request).1.trans hau

theorem State.grantHost_maps (s : State) : s.grantHost.1.maps = s.maps := by
  unfold State.grantHost
  (repeat' split) <;> rfl

theorem State.grantOne_maps (s : State) : s.grantOne.1.maps = s.maps := by
  unfold State.grantOne
  split
  · exact State.grantHost_maps _
  · exact State.grantCapture_maps _
  · rfl

theorem State.arbitrate_maps (s : State) : s.arbitrate.1.maps = s.maps := by
  unfold State.arbitrate
  dsimp only
  split
  · exact s.grantOne_maps
  · exact (State.grantOne_maps _).trans s.grantOne_maps

/-! ### The end of an access -/

/-- An access that ends at a moment is recorded with its decision, and no host request waits. -/
def Moment.Ready (m : Moment) : Prop :=
  m.2.isSome = true →
    m.1.mpc.hostRequest = false ∧ m.1.hau.access.isSome = true ∧ m.1.hau.decision.isSome = true

theorem Moment.ready_none (s : State) : Moment.Ready (s, none) := nofun

theorem State.grantHost_ready {s : State} (h : s.mpc.hostRequest = false) : Moment.Ready s.grantHost := by
  unfold State.grantHost
  split
  · next a d ha hd =>
    split
    · split
      · exact Moment.ready_none _
      · exact fun _ => ⟨h, by simp [ha], by simp [hd]⟩
    · exact Moment.ready_none _
  · exact Moment.ready_none _

/-- A grant returned unused has removed the host request it answers. -/
theorem State.grantOne_ready (s : State) : Moment.Ready s.grantOne := by
  unfold State.grantOne
  split
  · exact State.grantHost_ready rfl
  · exact Moment.ready_none _
  · exact Moment.ready_none _

theorem State.arbitrate_ready (s : State) : Moment.Ready s.arbitrate := by
  unfold State.arbitrate
  dsimp only
  split
  · next e he => exact fun _ => s.grantOne_ready (by simp [he])
  · exact State.grantOne_ready _

theorem State.respond_rests (s : State) (a : Access) (e : HostResponse) : (s.respond a e).inFlight = false := by
  unfold State.respond
  split <;> rfl

theorem State.endAccess_rests {s : State} (ha : s.hau.access.isSome = true) (hd : s.hau.decision.isSome = true)
    (e : HostResponse) : (s.endAccess e).inFlight = false := by
  obtain ⟨a, ha⟩ := Option.isSome_iff_exists.mp ha
  obtain ⟨d, hd⟩ := Option.isSome_iff_exists.mp hd
  rw [State.endAccess_eq ha hd, State.inFlight, State.changeAtEnd_hau]
  exact State.respond_rests _ a e

theorem State.softResetIfDue_inFlight (s : State) : s.softResetIfDue.inFlight = s.inFlight := by
  unfold State.softResetIfDue State.softReset
  dsimp only
  split
  · split <;> rfl
  · rfl

theorem State.softResetIfDue_hostRequest {s : State} (h : s.mpc.hostRequest = false) :
    s.softResetIfDue.mpc.hostRequest = false := by
  unfold State.softResetIfDue State.softReset
  dsimp only
  split
  · split <;> rfl
  · exact h

/-- After the end of an access, a waiting soft reset and the next grant, no access is in flight. -/
theorem Moment.finish_holdsActive {s : State} {m : Moment} (h : Moment.Ready m) (hm : m.1.maps = s.maps) :
    HoldsActive s m.finish := by
  obtain ⟨u, r⟩ := m
  cases r with
  | none => exact HoldsActive.of_maps hm
  | some e =>
    obtain ⟨request, access, decision⟩ := h rfl
    refine HoldsActive.of_rest ?_
    have rest : (u.endAccess e).softResetIfDue.inFlight = false := by
      rw [State.softResetIfDue_inFlight, State.endAccess_rests access decision]
    have none_waits : (u.endAccess e).softResetIfDue.mpc.hostRequest = false :=
      State.softResetIfDue_hostRequest (by rw [State.endAccess_mpc]; exact request)
    rw [Moment.finish, State.inFlight, State.arbitrate_hau none_waits]
    exact rest

/-! ### The events, in states in which the HAU and the port agree -/

theorem portCoherent_congr {s t : State} (hh : t.hau = s.hau) (hm : t.mpc = s.mpc) (h : PortCoherent s) :
    PortCoherent t := by
  simpa only [PortCoherent, hh, hm] using h

/-- While the HAU's access is on the port no host request waits, and the access is recorded with its decision (R29). -/
theorem ready_on_port {s : State} {p : PortAccess} (h : PortCoherent s) (hp : s.mpc.access = some p)
    (ho : p.owner = .host) (ha : ¬p.abandoned = true) :
    s.mpc.hostRequest = false ∧ s.hau.access.isSome = true ∧ s.hau.decision.isSome = true := by
  obtain ⟨request, onPort, carries, -⟩ := h
  have device : s.hau.state = .device := by
    simpa [hostOnPort, hp, ho, ha] using onPort.symm
  have decided := carries (.inr device)
  simp only [carriesPortDecision, Bool.and_eq_true, Option.any_eq_true] at decided
  obtain ⟨access, d, hd, -⟩ := decided
  exact ⟨by rw [request, device]; rfl, access, by simp [hd]⟩

theorem State.completionMoment_ready {s : State} (h : PortCoherent s) (md : Word) :
    Moment.Ready (s.completionMoment md) := by
  unfold State.completionMoment
  split
  · exact Moment.ready_none _
  · next p hp =>
    split
    · exact State.arbitrate_ready _
    · next ho =>
      split
      · exact State.arbitrate_ready _
      · next ha =>
        intro _
        simpa using ready_on_port h hp ho ha

theorem State.completionMoment_maps (s : State) (md : Word) : (s.completionMoment md).1.maps = s.maps := by
  unfold State.completionMoment
  split
  · rfl
  · split
    · rw [State.arbitrate_maps, State.captureWord_maps, State.freePort_maps]
    · split
      · rw [State.arbitrate_maps, State.snoop_maps, State.freePort_maps]
      · rw [State.snoop_maps, State.freePort_maps]

theorem State.fence_hostRequest (s : State) (p : PortAccess) : (s.fence p).mpc.hostRequest = s.mpc.hostRequest := by
  unfold State.fence
  split <;> rfl

theorem State.timeoutMoment_ready {s : State} (h : PortCoherent s) : Moment.Ready s.timeoutMoment := by
  unfold State.timeoutMoment
  split
  · exact Moment.ready_none _
  · next p hp =>
    split
    · split
      · exact State.arbitrate_ready _
      · next ho =>
        split
        · exact State.arbitrate_ready _
        · next ha =>
          intro _
          simpa [State.fence_hostRequest] using ready_on_port h hp ho ha
    · exact Moment.ready_none _

theorem State.timeoutMoment_maps (s : State) : s.timeoutMoment.1.maps = s.maps := by
  unfold State.timeoutMoment
  split
  · rfl
  · split
    · split
      · rw [State.arbitrate_maps, State.captureFails_maps, State.fence_maps, State.freePort_maps]
      · split
        · rw [State.arbitrate_maps, State.fence_maps, State.freePort_maps]
        · rw [State.fence_maps, State.freePort_maps]
    · rfl

/-- No access arrives while one is in flight (R22). -/
theorem State.arrivalMoment_inFlight {s : State} (h : s.inFlight = true) (p : HostPins) :
    s.arrivalMoment p = ({ s with pins := s.pins.assertStrobes p }, none) := by
  have not_idle : (s.hau.state == .idle) = false := by
    cases hs : s.hau.state <;> simp [State.inFlight, HauState.inFlight, hs] at h ⊢
  simp [State.arrivalMoment, State.arriving, not_idle]

/-- No access is held while one is in flight (R34). -/
theorem State.releaseMoment_inFlight {s : State} (h : s.inFlight = true) :
    s.releaseMoment.2 = none ∧ s.releaseMoment.1.maps = s.maps := by
  unfold State.releaseMoment
  split
  · dsimp only
    split
    · next hs _ => simp [State.inFlight, HauState.inFlight, hs] at h
    · exact ⟨rfl, rfl⟩
  · exact ⟨rfl, rfl⟩

theorem State.releaseMoment_holdsActive {s : State} (h : s.inFlight = true) : HoldsActive s s.releaseMoment.finish := by
  obtain ⟨none_ends, maps⟩ := State.releaseMoment_inFlight h
  exact Moment.finish_holdsActive (fun hs => by simp [none_ends] at hs) maps

theorem State.abandon_rests (s : State) : s.abandon.inFlight = false := by
  unfold State.abandon
  split
  · next hs => simp [State.inFlight, HauState.inFlight, hs]
  all_goals rfl

theorem State.hostReset_rests (s : State) : s.hostReset.inFlight = false := by
  unfold State.hostReset
  dsimp only
  split
  · rw [State.softResetIfDue_inFlight, State.inFlight, State.changeAtHostReset_hau]
    exact State.abandon_rests _
  · rw [State.inFlight, State.changeAtHostReset_hau]
    exact State.abandon_rests _

theorem State.seqRestart_maps {s : State} (h : s.inFlight = true) : s.seqRestart.maps = s.maps :=
  State.seqNews_maps h _

theorem State.bringAbout_holdsActive {s : State} (hc : PortCoherent s) (h : s.inFlight = true) (c : Cause) :
    HoldsActive s (s.bringAbout c) := by
  cases c with
  | arrival p =>
    unfold State.bringAbout State.momentOf
    dsimp only
    rw [State.arrivalMoment_inFlight h]
    exact HoldsActive.of_maps rfl
  | release =>
    unfold State.bringAbout State.momentOf
    dsimp only
    split
    · exact State.releaseMoment_holdsActive (s := s.mcsHigh) h
    · exact HoldsActive.of_maps rfl
  | completion md => exact Moment.finish_holdsActive (State.completionMoment_ready hc md) (s.completionMoment_maps md)
  | timeout => exact Moment.finish_holdsActive (State.timeoutMoment_ready hc) s.timeoutMoment_maps
  | grant => exact Moment.finish_holdsActive s.arbitrate_ready s.arbitrate_maps
  | transition =>
    unfold State.bringAbout
    dsimp only
    split
    · exact HoldsActive.of_maps rfl
    · exact HoldsActive.of_maps (State.acceptTransition_maps h)
  | restart =>
    unfold State.bringAbout
    dsimp only
    split
    · exact HoldsActive.of_maps (State.seqRestart_maps (s := s.mcsHigh) h)
    · exact HoldsActive.of_maps rfl
  | hostReset =>
    unfold State.bringAbout State.hrstAsserted
    dsimp only
    split
    · exact HoldsActive.of_maps rfl
    · split
      · exact HoldsActive.of_maps rfl
      · exact HoldsActive.of_rest s.hostReset_rests

/-! ### The commands -/

theorem commitReply_maps {s : State} (h : s.inFlight = true) (p : List Byte) : (commitReply p s).state.maps = s.maps := by
  unfold commitReply
  split
  · rfl
  · rfl
  · split
    · split
      · rfl
      · unfold commitAnswer State.acceptCommit
        rw [if_pos h]
        split <;> rfl
    · rfl

theorem trialConfirmReply_maps (s : State) : (trialConfirmReply s).state.maps = s.maps := by
  unfold trialConfirmReply
  split
  · split
    · rfl
    · exact s.confirm_maps _
  · rfl

theorem trialRevertReply_maps {s : State} (h : s.inFlight = true) : (trialRevertReply s).state.maps = s.maps := by
  unfold trialRevertReply
  split
  · rw [if_pos h]
    split <;> rfl
  · rfl

theorem captureStartReply_holdsActive (p : List Byte) (s : State) : HoldsActive s (captureStartReply p s).state := by
  unfold captureStartReply
  split
  · exact HoldsActive.of_maps rfl
  · split
    · exact HoldsActive.of_maps rfl
    · exact Moment.finish_holdsActive (State.arbitrate_ready _) (State.arbitrate_maps _)

/-- An edit of Staged leaves Active (R15). -/
theorem mapPutReply_active (p : List Byte) (s : State) : (mapPutReply p s).state.maps.active = s.maps.active := by
  unfold mapPutReply
  (repeat' split) <;> simp [State.refuse]

theorem mapClearReply_active (p : List Byte) (s : State) : (mapClearReply p s).state.maps.active = s.maps.active := by
  unfold mapClearReply
  (repeat' split) <;> simp [State.refuse]

theorem mapRestageReply_active (s : State) : (mapRestageReply s).state.maps.active = s.maps.active := by
  unfold mapRestageReply
  split <;> simp [State.refuse]

theorem MapCommand.holdsActive {r : State → Reply} (hr : MapCommand r) {s : State} (h : s.inFlight = true) :
    HoldsActive s (r s).state := by
  cases hr with
  | partReset tag => exact HoldsActive.of_maps (by simp only [partResetReply, h, if_true])
  | hostRelease => exact State.releaseMoment_holdsActive h
  | mapPut p => exact fun _ => mapPutReply_active p s
  | mapClear p => exact fun _ => mapClearReply_active p s
  | mapRestage => exact fun _ => mapRestageReply_active s
  | runOpen p =>
    refine HoldsActive.of_maps ?_
    unfold runOpenReply
    dsimp only
    (repeat' split) <;> rfl
  | runFree p =>
    refine HoldsActive.of_maps ?_
    unfold runFreeReply
    (repeat' split) <;> rfl
  | commit p => exact HoldsActive.of_maps (commitReply_maps h p)
  | commitCancel =>
    refine HoldsActive.of_maps ?_
    unfold commitCancelReply
    (repeat' split) <;> rfl
  | trialConfirm => exact HoldsActive.of_maps (trialConfirmReply_maps s)
  | trialRevert => exact HoldsActive.of_maps (trialRevertReply_maps h)
  | seqRestart => exact HoldsActive.of_maps (State.seqRestart_maps h)
  | captureStart p => exact captureStartReply_holdsActive p s
  | captureAbort =>
    refine HoldsActive.of_maps ?_
    unfold captureAbortReply
    (repeat' split) <;> rfl

theorem Effect.holdsActive {s t : State} (he : Effect s t) (hc : PortCoherent s) (h : s.inFlight = true) :
    HoldsActive s t := by
  cases he with
  | kept k => exact HoldsActive.of_maps k.maps
  | command f b l hr =>
    exact State.receive_pred (P := HoldsActive s) s f b l _ (HoldsActive.of_maps rfl) (HoldsActive.of_maps rfl)
      (fun _ _ _ hu => hu) (hr.holdsActive (s := s.mcsHigh) h)
  | event c b =>
    unfold State.bringAboutIf
    split
    · exact State.bringAbout_holdsActive hc h c
    · exact HoldsActive.of_maps rfl
  | pinReset => exact HoldsActive.of_rest rfl
  | released p => exact HoldsActive.of_rest rfl

/-! ### One CLK period -/

theorem State.portPeriod_holdsActive {s : State} (hc : PortCoherent s) : HoldsActive s s.portPeriod := by
  unfold State.portPeriod
  split
  · exact HoldsActive.of_maps rfl
  · split
    · exact Moment.finish_holdsActive (State.completionMoment_ready hc _) (s.completionMoment_maps _)
    · split
      · exact Moment.finish_holdsActive (State.timeoutMoment_ready hc) s.timeoutMoment_maps
      · exact HoldsActive.of_maps rfl

/-- The filter and the port in either order: a change of Active in the filter needs the access already ended (R64, log 9). -/
theorem State.countPeriod_holdsActive {s : State} (hc : PortCoherent s) (h : s.inFlight = true) :
    HoldsActive s s.countPeriod := by
  unfold State.countPeriod
  dsimp only
  split
  · exact HoldsActive.of_maps rfl
  · split
    · obtain ⟨hau, mpc, maps⟩ := State.filterPeriod_frame { s with freeIndex := s.freeIndex + 1 }
      intro ht
      rw [State.portPeriod_holdsActive (portCoherent_congr hau mpc hc) ht, maps h]
    · intro ht
      obtain ⟨hau, -, maps⟩ := State.filterPeriod_frame (State.portPeriod { s with freeIndex := s.freeIndex + 1 })
      rw [State.inFlight, hau] at ht
      rw [maps ht]
      exact State.portPeriod_holdsActive (s := { s with freeIndex := s.freeIndex + 1 }) hc ht

theorem State.clockPeriod_holdsActive {s : State} (hc : PortCoherent s) (h : s.inFlight = true) :
    HoldsActive s s.clockPeriod := by
  intro ht
  rw [State.clockPeriod, State.inFlight, State.levelsChange_hau] at ht
  rw [State.clockPeriod, State.levelsChange_maps]
  exact State.countPeriod_holdsActive hc h ht

end Sys2Proof.Machine

namespace Sys2Proof

open Sys2Proof.Machine

/-- Settles O4: in flight a boundary only makes a change of Active due, and the end that applies it leaves no access in
flight. -/
theorem activeStandsWhileInFlight : Obligations.ActiveStandsWhileInFlight := by
  intro s t hc hstep hs ht
  rcases step_effect hstep with rfl | ⟨rest, he⟩
  · exact State.clockPeriod_holdsActive hc hs ht
  · exact he.holdsActive hc hs ht

end Sys2Proof
end

section
/-! PROOFS. The decision of an access (R7 to R12): the first slot of Active with a candidate, and lockdown or the default
without one. -/

namespace Sys2Proof.Machine

open Sys2Proof.Claim

/-- The Access Decoder's candidates are those of R7. -/
theorem Entry.candidate_eq (s : State) (a : Access) (e : Entry) :
    e.candidate s.seq.phase a = Claim.candidate s a e := by
  cases hk : a.kind <;>
    simp [Entry.candidate, Entry.takes, Entry.holds, Claim.candidate, byteAddr_toNat, hk, Bool.and_assoc]

theorem slotCandidate_eq (s : State) (a : Access) (i : Fin 32) :
    slotCandidate s.maps.active s.seq.phase a i = s.maps.active[i].any (Claim.candidate s a) := by
  simp only [slotCandidate, Entry.candidate_eq]

/-- R8: the slot in which a candidate stands and below which none does is the deciding one. -/
theorem decidingSlot_of_lowest {m : SlotMap} {phase : BitVec 2} {a : Access} {i : Fin 32}
    (hi : slotCandidate m phase a i = true) (hlow : ∀ j : Fin 32, j < i → slotCandidate m phase a j = false) :
    decidingSlot m phase a = some i := by
  rw [decidingSlot, List.find?_eq_some_iff_getElem]
  refine ⟨hi, i.val, by simp, by simp, fun j hj => ?_⟩
  rw [List.getElem_finRange, hlow _ hj]
  rfl

theorem decidingSlot_none {m : SlotMap} {phase : BitVec 2} {a : Access}
    (h : ∀ j : Fin 32, slotCandidate m phase a j = false) : decidingSlot m phase a = none := by
  simp [decidingSlot, h]

theorem State.decide_of_slot {s : State} {a : Access} {i : Fin 32} {e : Entry}
    (hi : decidingSlot s.maps.active s.seq.phase a = some i) (he : s.maps.active[i] = some e) :
    s.decide a =
      { slot := some i
        disposition := e.dispose a
        phase := s.seq.phase
        generation := s.gen.generation
        addr := a.addr
        journal := a.kind == .write && (e.journal || e.isGuard) } := by
  simp only [State.decide, hi, he, Option.bind_some, Option.map_some]

theorem State.decide_of_none {s : State} {a : Access} (h : decidingSlot s.maps.active s.seq.phase a = none) :
    s.decide a =
      { slot := none
        disposition := if s.locksDown a then .lockdown else .default
        phase := s.seq.phase
        generation := s.gen.generation
        addr := a.addr
        journal := s.locksDown a } := by
  simp only [State.decide, h, Option.bind_none]

/-- MS0 holds the byte addresses below 400000h (R9, R97). -/
theorem deviceOf_eq_zero (a : WordAddr) : (deviceOf a == 0) = decide (2 * a.toNat < 0x400000) := by
  rw [Bool.eq_iff_iff, beq_iff_eq, decide_eq_true_eq, Fin.ext_iff]
  simp only [deviceOf, Fin.isValue, Fin.val_zero]
  omega

theorem State.locksDown_eq (s : State) (a : Access) : s.locksDown a = lockedDown s a := by
  rw [State.locksDown, lockedDown, deviceOf_eq_zero]

end Sys2Proof.Machine

namespace Sys2Proof

open Sys2Proof.Machine Sys2Proof.Claim

/-- Settles O28: the decoder's search finds the lowest candidate, and the disposition is taken kind by kind. -/
theorem lowestCandidateDecides : Obligations.LowestCandidateDecides := by
  constructor
  · rintro s a i e ⟨he, hc, hlow⟩
    have deciding : decidingSlot s.maps.active s.seq.phase a = some i :=
      decidingSlot_of_lowest (by simpa [slotCandidate_eq, he] using hc) fun j hj => by
        rw [slotCandidate_eq, hlow j hj]
    rw [State.decide_of_slot deciding he]
    unfold Entry.dispose Entry.isGuard Entry.regionOffset
    rw [byteAddr_toNat]
    cases e.action with
    | pass wait => rfl
    | substitute run offset policy => simp only [Nat.mul_comm 8 offset]
    | relocate target wait => rfl
    | guard response fill => rfl
  · intro s a h
    have undecided : decidingSlot s.maps.active s.seq.phase a = none :=
      decidingSlot_none fun j => by rw [slotCandidate_eq, h j]
    rw [State.decide_of_none undecided, State.locksDown_eq]

end Sys2Proof
end

section
/-! PROOFS. The layout of an entry (R170): the bytes MAP.READ sends, and the bytes MAP.PUT takes with what check 2 of R16
refuses. -/

namespace Sys2Proof.Machine

open Sys2Proof.Claim

/-! ### Entries sent (R170) -/

theorem wordBytes_inTwo (w : Word) : wordBytes w = inTwo w.toNat := wordBytes_eq w

theorem countBytes_inTwo (n : Nat) : countBytes n = inTwo n := countBytes_eq n

theorem addrBytes_inThree (a : Addr) : addrBytes a = inThree a.toNat := addrBytes_eq a

theorem Entry.maskByte_eq (e : Entry) :
    e.maskByte =
      BitVec.ofNat 8
        (e.phases.toNat + 16 * e.fetches.toNat + 32 * e.reads.toNat + 64 * e.writes.toNat + 128 * e.journal.toNat) := by
  unfold Entry.maskByte byteOf
  cases e.fetches <;> cases e.reads <;> cases e.writes <;> cases e.journal <;> rfl

/-- An entry is sent in the layout of R170. -/
theorem Entry.bytes_eq (e : Entry) : e.bytes = entryLayout e := by
  unfold Entry.bytes entryLayout
  rw [Entry.maskByte_eq, addrBytes_inThree, countBytes_inTwo]
  cases e.action with
  | pass wait => cases wait <;> rfl
  | substitute run offset policy =>
    unfold EntryAction.bytes
    dsimp only
    rw [countBytes_inTwo]
    cases policy <;> rfl
  | relocate target wait =>
    unfold EntryAction.bytes
    dsimp only
    rw [addrBytes_inThree]
    cases wait <;> rfl
  | guard response fill =>
    unfold EntryAction.bytes
    dsimp only
    rw [wordBytes_inTwo]
    cases response <;> rfl

/-! ### Numbers taken (R167) -/

/-- A field in front of one of `n` bits weighs `2 ^ n`. -/
theorem toNat_append_eq {m n : Nat} (x : BitVec m) (y : BitVec n) : (x ++ y).toNat = 2 ^ n * x.toNat + y.toNat := by
  rw [BitVec.toNat_append, ← Nat.shiftLeft_add_eq_or_of_lt y.isLt, Nat.shiftLeft_eq, Nat.mul_comm]

theorem wordAt_toNat (p : List Byte) (i : Nat) : (wordAt p i).toNat = twoBytes p i := toNat_append_eq _ _

theorem wordAt_eq (p : List Byte) (i : Nat) : wordAt p i = BitVec.ofNat 16 (twoBytes p i) := by
  rw [← wordAt_toNat, BitVec.ofNat_toNat, BitVec.setWidth_eq]

theorem addrAt_toNat (p : List Byte) (i : Nat) : (addrAt p i).toNat = threeBytes p i := by
  unfold addrAt threeBytes twoBytes
  rw [toNat_append_eq, toNat_append_eq, show i + 1 + 1 = i + 2 from rfl]
  omega

theorem addrAt_eq (p : List Byte) (i : Nat) : addrAt p i = BitVec.ofNat 24 (threeBytes p i) := by
  rw [← addrAt_toNat, BitVec.ofNat_toNat, BitVec.setWidth_eq]

theorem aligned_addrAt (p : List Byte) (i : Nat) : aligned (addrAt p i) = decide (threeBytes p i % 16 = 0) := by
  rw [aligned, addrAt_toNat]
  rfl

theorem index32_of_le {b : Byte} (h : b.toNat ≤ 31) : index32 b = some (Fin.ofNat 32 b.toNat) :=
  index32_eq_some.mpr (Nat.mod_eq_of_lt (by omega))

/-! ### The fields of one byte (R170) -/

theorem waitOverride?_eq (b : Byte) :
    waitOverride? b = if b.toNat / 32 % 4 = 0 then some (waitField b) else none := by
  revert b
  decide

/-- The write policy of a byte in range. -/
def policyField (b : Byte) : WritePolicy :=
  match b.toNat with
  | 0 => .absorb
  | 1 => .discard
  | _ => .refuse

theorem writePolicy?_eq (b : Byte) : writePolicy? b = if b.toNat ≤ 2 then some (policyField b) else none := by
  revert b
  decide

theorem guardResponse?_eq (b : Byte) :
    guardResponse? b = if b.toNat ≤ 1 then some (if b = 0#8 then .error else .quiet) else none := by
  revert b
  decide

theorem phases_of_byte (b : Byte) : b.setWidth 4 = BitVec.ofNat 4 b.toNat := rfl

theorem flags_of_byte (b : Byte) :
    b.getLsbD 4 = decide (b.toNat / 16 % 2 = 1) ∧ b.getLsbD 5 = decide (b.toNat / 32 % 2 = 1) ∧
      b.getLsbD 6 = decide (b.toNat / 64 % 2 = 1) ∧ b.getLsbD 7 = decide (b.toNat / 128 = 1) := by
  revert b
  decide

/-! ### Entries taken (R16 check 2, R170) -/

/-- The part of `entryFieldsOk` that looks at the bytes of the kind. -/
def kindFieldsOk (p : List Byte) : Bool :=
  match (byteAt p 1).toNat with
  | 0 => decide ((byteAt p 11).toNat / 32 % 4 = 0)
  | 1 => decide ((byteAt p 12).toNat ≤ 31) && decide (twoBytes p 13 ≤ 511) && decide ((byteAt p 15).toNat ≤ 2)
  | 2 => decide (threeBytes p 8 % 16 = 0) && decide ((byteAt p 11).toNat / 32 % 4 = 0)
  | 3 => decide ((byteAt p 16).toNat ≤ 1)
  | _ => false

theorem entryFieldsOk_eq (p : List Byte) :
    entryFieldsOk p =
      (decide ((byteAt p 0).toNat ≤ 31) && decide ((byteAt p 2).toNat % 16 ≠ 0)
        && decide ((byteAt p 2).toNat / 16 % 8 ≠ 0) && decide (threeBytes p 3 % 16 = 0) && kindFieldsOk p) := rfl

/-! The kind's bytes, kind by kind. -/

section
variable {p : List Byte}

theorem kindFieldsOk_pass (h : (byteAt p 1).toNat = 0) :
    kindFieldsOk p = decide ((byteAt p 11).toNat / 32 % 4 = 0) := by
  simp only [kindFieldsOk, h]

theorem kindFieldsOk_substitute (h : (byteAt p 1).toNat = 1) :
    kindFieldsOk p =
      (decide ((byteAt p 12).toNat ≤ 31) && decide (twoBytes p 13 ≤ 511) && decide ((byteAt p 15).toNat ≤ 2)) := by
  simp only [kindFieldsOk, h]

theorem kindFieldsOk_relocate (h : (byteAt p 1).toNat = 2) :
    kindFieldsOk p = (decide (threeBytes p 8 % 16 = 0) && decide ((byteAt p 11).toNat / 32 % 4 = 0)) := by
  simp only [kindFieldsOk, h]

theorem kindFieldsOk_guard (h : (byteAt p 1).toNat = 3) : kindFieldsOk p = decide ((byteAt p 16).toNat ≤ 1) := by
  simp only [kindFieldsOk, h]

theorem entryFields_pass (h : (byteAt p 1).toNat = 0) :
    (entryFields p).action = .pass (waitField (byteAt p 11)) := by
  simp only [entryFields, h]

theorem entryFields_substitute (h : (byteAt p 1).toNat = 1) :
    (entryFields p).action =
      .substitute (Fin.ofNat 32 (byteAt p 12).toNat) (twoBytes p 13) (policyField (byteAt p 15)) := by
  simp only [entryFields, h]
  rfl

theorem entryFields_relocate (h : (byteAt p 1).toNat = 2) :
    (entryFields p).action = .relocate (BitVec.ofNat 24 (threeBytes p 8)) (waitField (byteAt p 11)) := by
  simp only [entryFields, h]

theorem entryFields_guard (h : (byteAt p 1).toNat = 3) :
    (entryFields p).action =
      .guard (if byteAt p 16 = 0#8 then .error else .quiet) (BitVec.ofNat 16 (twoBytes p 17)) := by
  simp only [entryFields, h]

/-- The kind-specific bytes give the kind of `entryFields`, or are refused. -/
theorem action?_eq (p : List Byte) :
    action? p 1 = if kindFieldsOk p then some (entryFields p).action else none := by
  unfold action?
  split
  · next h =>
    rw [kindFieldsOk_pass h, entryFields_pass h, waitOverride?_eq]
    by_cases hw : (byteAt p 11).toNat / 32 % 4 = 0 <;> simp [hw]
  · next h =>
    rw [kindFieldsOk_substitute h, entryFields_substitute h, wordAt_toNat, writePolicy?_eq]
    by_cases hr : (byteAt p 12).toNat ≤ 31
    · rw [index32_of_le hr]
      by_cases hp : (byteAt p 15).toNat ≤ 2 <;> simp [hr, hp]
    · simp [index32_eq_none.mpr (Nat.lt_of_not_le hr), hr]
  · next h =>
    rw [kindFieldsOk_relocate h, entryFields_relocate h, aligned_addrAt, waitOverride?_eq, addrAt_eq]
    by_cases ht : threeBytes p 8 % 16 = 0 <;> by_cases hw : (byteAt p 11).toNat / 32 % 4 = 0 <;> simp [ht, hw]
  · next h =>
    rw [kindFieldsOk_guard h, entryFields_guard h, guardResponse?_eq, wordAt_eq]
    by_cases hg : (byteAt p 16).toNat ≤ 1 <;> simp [hg]
  · next h0 h1 h2 h3 =>
    have refused : kindFieldsOk p = false := by
      unfold kindFieldsOk
      split
      · next h => exact absurd h h0
      · next h => exact absurd h h1
      · next h => exact absurd h h2
      · next h => exact absurd h h3
      · rfl
    simp [refused]

end

/-- MAP.PUT's bytes are refused by check 2 of R16, or carry `entryFields`. -/
theorem entry?_eq (p : List Byte) (h : (byteAt p 0).toNat ≤ 31) :
    entry? p 1 = if entryFieldsOk p then some (entryFields p) else none := by
  obtain ⟨h4, h5, h6, h7⟩ := flags_of_byte (byteAt p 2)
  have fields (x : EntryAction) (hx : x = (entryFields p).action) :
      Entry.mk (addrAt p 3) ((wordAt p 6).toNat + 1) ((byteAt p 2).setWidth 4) ((byteAt p 2).getLsbD 4)
        ((byteAt p 2).getLsbD 5) ((byteAt p 2).getLsbD 6) ((byteAt p 2).getLsbD 7) x = entryFields p := by
    rw [hx, addrAt_eq, wordAt_toNat, phases_of_byte, h4, h5, h6, h7]
    rfl
  unfold entry?
  rw [action?_eq, entryFieldsOk_eq, aligned_addrAt]
  cases kindFieldsOk p
  · simp
  · simp only [if_true, h, decide_true, Bool.true_and, Bool.and_true, Bool.and_eq_true, decide_eq_true_eq, and_assoc,
      fields _ rfl]

/-! ### The layout of an entry is read back (R170) -/

theorem inTwo_value {n : Nat} (h : n < 65536) :
    256 * (BitVec.ofNat 8 (n / 256)).toNat + (BitVec.ofNat 8 n).toNat = n := by
  simp only [BitVec.toNat_ofNat]
  omega

theorem inThree_value {n : Nat} (h : n < 16777216) :
    65536 * (BitVec.ofNat 8 (n / 65536)).toNat + (256 * (BitVec.ofNat 8 (n / 256)).toNat + (BitVec.ofNat 8 n).toNat) =
      n := by
  simp only [BitVec.toNat_ofNat]
  omega

theorem waitField_waitValue (w : Option (BitVec 5)) :
    waitField (waitValue w) = w ∧ (waitValue w).toNat / 32 % 4 = 0 := by
  cases w with
  | none => decide
  | some w =>
    revert w
    decide

theorem decide_toNat_eq_one (b : Bool) : decide (b.toNat = 1) = b := by
  cases b <;> rfl

/-- The mask byte carries the phases in bits 3:0 and one flag in each of bits 7:4. -/
theorem maskByte_fields (ph : BitVec 4) (f r w j : Bool) :
    let m := (BitVec.ofNat 8 (ph.toNat + 16 * f.toNat + 32 * r.toNat + 64 * w.toNat + 128 * j.toNat)).toNat
    m % 16 = ph.toNat ∧ m / 16 % 2 = f.toNat ∧ m / 32 % 2 = r.toNat ∧ m / 64 % 2 = w.toNat ∧ m / 128 = j.toNat := by
  have := ph.isLt
  have := f.toNat_le
  have := r.toNat_le
  have := w.toNat_le
  have := j.toNat_le
  simp only [BitVec.toNat_ofNat]
  omega

theorem entryLayout_length (e : Entry) : (entryLayout e).length = 18 := by
  unfold entryLayout
  cases e.action <;> rfl

section
variable (b : Byte) (e : Entry)

theorem layout_base : threeBytes (b :: entryLayout e) 3 = e.base.toNat := inThree_value e.base.isLt

theorem layout_length (h1 : 1 ≤ e.length) (h2 : e.length ≤ 65536) :
    twoBytes (b :: entryLayout e) 6 + 1 = e.length := by
  have := inTwo_value (n := e.length - 1) (by omega)
  have := (show twoBytes (b :: entryLayout e) 6 = _ from rfl).trans this
  omega

theorem layout_mask :
    byteAt (b :: entryLayout e) 2 =
      BitVec.ofNat 8
        (e.phases.toNat + 16 * e.fetches.toNat + 32 * e.reads.toNat + 64 * e.writes.toNat + 128 * e.journal.toNat) := rfl

variable {b e}

theorem layout_pass {wait : Option (BitVec 5)} (he : e.action = .pass wait) :
    (byteAt (b :: entryLayout e) 1).toNat = 0 ∧ byteAt (b :: entryLayout e) 11 = waitValue wait := by
  cases e
  cases he
  exact ⟨rfl, rfl⟩

theorem layout_substitute {run : Fin 32} {offset : Nat} {policy : WritePolicy}
    (he : e.action = .substitute run offset policy) (ho : offset ≤ 511) :
    (byteAt (b :: entryLayout e) 1).toNat = 1 ∧ (byteAt (b :: entryLayout e) 12).toNat = run.val ∧
      twoBytes (b :: entryLayout e) 13 = offset ∧ policyField (byteAt (b :: entryLayout e) 15) = policy ∧
      (byteAt (b :: entryLayout e) 15).toNat ≤ 2 := by
  cases e
  cases he
  have run_byte : (BitVec.ofNat 8 run.val).toNat = run.val := by
    simp only [BitVec.toNat_ofNat]
    omega
  refine ⟨rfl, run_byte, inTwo_value (by omega), ?_, ?_⟩
  · cases policy <;> rfl
  · cases policy <;> exact Nat.le_of_ble_eq_true rfl

theorem layout_relocate {target : Addr} {wait : Option (BitVec 5)} (he : e.action = .relocate target wait) :
    (byteAt (b :: entryLayout e) 1).toNat = 2 ∧ threeBytes (b :: entryLayout e) 8 = target.toNat ∧
      byteAt (b :: entryLayout e) 11 = waitValue wait := by
  cases e
  cases he
  exact ⟨rfl, inThree_value target.isLt, rfl⟩

theorem layout_guard {response : GuardResponse} {fill : Word} (he : e.action = .guard response fill) :
    (byteAt (b :: entryLayout e) 1).toNat = 3 ∧ (byteAt (b :: entryLayout e) 16).toNat ≤ 1 ∧
      (if byteAt (b :: entryLayout e) 16 = 0#8 then GuardResponse.error else .quiet) = response ∧
      twoBytes (b :: entryLayout e) 17 = fill.toNat := by
  cases e
  cases he
  refine ⟨rfl, ?_, ?_, inTwo_value fill.isLt⟩
  · cases response <;> exact Nat.le_of_ble_eq_true rfl
  · cases response <;> rfl

/-- The kind's bytes of an entry in range pass check 2 of R16 and carry the kind (R170). -/
theorem layout_kind (hoffset : ∀ run offset policy, e.action = .substitute run offset policy → offset ≤ 511)
    (htarget : ∀ target wait, e.action = .relocate target wait → target.toNat % 16 = 0) :
    kindFieldsOk (b :: entryLayout e) = true ∧ (entryFields (b :: entryLayout e)).action = e.action := by
  cases he : e.action with
  | pass wait =>
    obtain ⟨kind, byte⟩ := layout_pass (b := b) he
    obtain ⟨value, zero⟩ := waitField_waitValue wait
    rw [kindFieldsOk_pass kind, entryFields_pass kind, byte, value]
    exact ⟨decide_eq_true zero, rfl⟩
  | substitute run offset policy =>
    have ho := hoffset run offset policy he
    obtain ⟨kind, run_byte, offset_bytes, policy_value, policy_byte⟩ := layout_substitute (b := b) he ho
    rw [kindFieldsOk_substitute kind, entryFields_substitute kind, run_byte, offset_bytes, policy_value]
    refine ⟨?_, by rw [Fin.ofNat_val_eq_self]⟩
    simp only [ho, policy_byte, decide_true, Bool.and_true, decide_eq_true_eq]
    omega
  | relocate target wait =>
    obtain ⟨kind, target_bytes, byte⟩ := layout_relocate (b := b) he
    obtain ⟨value, zero⟩ := waitField_waitValue wait
    rw [kindFieldsOk_relocate kind, entryFields_relocate kind, target_bytes, byte, value, BitVec.ofNat_toNat,
      BitVec.setWidth_eq]
    exact ⟨by simp only [htarget target wait he, zero, decide_true, Bool.and_self], rfl⟩
  | guard response fill =>
    obtain ⟨kind, byte, value, fill_bytes⟩ := layout_guard (b := b) he
    rw [kindFieldsOk_guard kind, entryFields_guard kind, value, fill_bytes, BitVec.ofNat_toNat, BitVec.setWidth_eq]
    exact ⟨decide_eq_true byte, rfl⟩

/-- What `entryInRange` asks of an entry, condition by condition (R2, R4 to R6). -/
theorem entryInRange_iff :
    entryInRange e = true ↔
      e.base.toNat % 16 = 0 ∧ 1 ≤ e.length ∧ e.length ≤ 65536 ∧ e.phases ≠ 0#4 ∧
        (e.fetches || e.reads || e.writes) = true ∧
        (∀ run offset policy, e.action = .substitute run offset policy → offset ≤ 511) ∧
        ∀ target wait, e.action = .relocate target wait → target.toNat % 16 = 0 := by
  unfold entryInRange
  cases e.action <;> simp [and_assoc]

/-- The layout of an entry in range, behind a slot number, passes check 2 of R16 and is read back (R170). -/
theorem entryFields_entryLayout (h : entryInRange e = true) :
    entryFields (b :: entryLayout e) = e ∧ (b.toNat ≤ 31 → entryFieldsOk (b :: entryLayout e) = true) := by
  obtain ⟨hbase, hlen1, hlen2, hphases, hmask, hoffset, htarget⟩ := entryInRange_iff.mp h
  obtain ⟨mphases, mfetch, mread, mwrite, mjournal⟩ := maskByte_fields e.phases e.fetches e.reads e.writes e.journal
  obtain ⟨kind_ok, action⟩ := layout_kind (b := b) hoffset htarget
  rw [← layout_mask b e] at mphases mfetch mread mwrite mjournal
  constructor
  · have phases : BitVec.ofNat 4 (byteAt (b :: entryLayout e) 2).toNat = e.phases := by
      apply BitVec.eq_of_toNat_eq
      rw [BitVec.toNat_ofNat]
      exact mphases
    calc entryFields (b :: entryLayout e)
        = ⟨BitVec.ofNat 24 (threeBytes (b :: entryLayout e) 3), twoBytes (b :: entryLayout e) 6 + 1,
            BitVec.ofNat 4 (byteAt (b :: entryLayout e) 2).toNat,
            decide ((byteAt (b :: entryLayout e) 2).toNat / 16 % 2 = 1),
            decide ((byteAt (b :: entryLayout e) 2).toNat / 32 % 2 = 1),
            decide ((byteAt (b :: entryLayout e) 2).toNat / 64 % 2 = 1),
            decide ((byteAt (b :: entryLayout e) 2).toNat / 128 = 1), (entryFields (b :: entryLayout e)).action⟩ := rfl
      _ = ⟨e.base, e.length, e.phases, e.fetches, e.reads, e.writes, e.journal, e.action⟩ := by
        rw [layout_base, layout_length b e hlen1 hlen2, phases, mfetch, mread, mwrite, mjournal, action,
          BitVec.ofNat_toNat, BitVec.setWidth_eq]
        simp only [decide_toNat_eq_one]
  · intro hslot
    have slot : (byteAt (b :: entryLayout e) 0).toNat ≤ 31 := hslot
    have phase_set : (byteAt (b :: entryLayout e) 2).toNat % 16 ≠ 0 := by
      rw [mphases]
      exact fun hz => hphases (BitVec.eq_of_toNat_eq hz)
    have kind_set : (byteAt (b :: entryLayout e) 2).toNat / 16 % 8 ≠ 0 := by
      have some_set : e.fetches.toNat + e.reads.toNat + e.writes.toNat ≠ 0 := by
        revert hmask
        cases e.fetches <;> cases e.reads <;> cases e.writes <;> decide
      omega
    rw [entryFieldsOk_eq, layout_base, kind_ok]
    simp only [slot, phase_set, kind_set, hbase, decide_true, ne_eq, not_false_eq_true, Bool.and_self]

end

end Sys2Proof.Machine
end

section
/-! PROOFS. The Overlay Map commands (R15 to R20): MAP.PUT, MAP.CLEAR, MAP.READ and MAP.RESTAGE. -/

namespace Sys2Proof.Machine

open Sys2Proof.Claim

/-- A frame for this unit alone with its request length is handed to its block, and the buffer takes the answer (R164, R165). -/
theorem State.receive_addressed {s : State} {f : Frame} (h : Addressed f s) {l : Bool} (hl : l = true) (b : Bool)
    (r : State → Reply) :
    s.receive f b l r = answered (r s).state f (r s).status (r s).payload := by
  obtain ⟨listening, no_reset, own⟩ := h
  rw [State.receive_own listening no_reset own, if_pos hl]
  rfl

/-! ### Edits of Staged (R15, R54) -/

theorem staged_eq (s : State) (i : Fin 32) (x : Option Entry) : staged s i x = s.editStaged i x := by
  unfold staged State.editStaged
  dsimp only
  cases s.maps.staged[i] with
  | none => rfl
  | some e =>
    obtain ⟨_, _, _, _, _, _, _, action⟩ := e
    cases action <;> rfl

theorem State.editStaged_of_none {s : State} {i : Fin 32} (h : s.maps.staged[i] = none) : s.editStaged i none = s := by
  have same : s.maps.staged.set i.val none = s.maps.staged := by
    rw [← h]
    exact Vector.set_getElem_self i.isLt
  simp [State.editStaged, h, isSubstitute, same]

theorem isSubstitute_of_names {e : Entry} {r : Fin 32} (h : e.names r = true) : isSubstitute (some e) = true := by
  obtain ⟨_, _, _, _, _, _, _, action⟩ := e
  cases action with
  | substitute run offset policy => rfl
  | pass wait => exact absurd h Bool.false_ne_true
  | relocate target wait => exact absurd h Bool.false_ne_true
  | guard response fill => exact absurd h Bool.false_ne_true

/-- A RETIRING run named by the old entry and left without references is released by the edit (R53, R54). -/
theorem State.editStaged_releases {s : State} {i r : Fin 32} {x : Option Entry}
    (hn : (s.maps.staged[i].any fun e => e.names r) = true) (hr : s.overlay.runs[r].state = .retiring)
    (hu : (s.editStaged i x).referenced r = false) : (s.editStaged i x).overlay.runs[r] = ⟨.unused, []⟩ := by
  have substitute : isSubstitute s.maps.staged[i] = true := by
    obtain ⟨e, he, hn⟩ := (Option.any_eq_true _ _).mp hn
    rw [he]
    exact isSubstitute_of_names hn
  unfold State.editStaged at hu ⊢
  dsimp only at hu ⊢
  rw [if_pos substitute] at hu ⊢
  rw [State.releaseTest_referenced] at hu
  rw [State.releaseTest_runs, if_pos ⟨hr, hu⟩]

/-! ### MAP.PUT (R16, R17) -/

theorem oneWindow_eq (base length : Nat) : oneWindow base length = inOneWindow base length := by
  rw [Bool.eq_iff_iff]
  simp [oneWindow, inOneWindow]

/-- Checks 3 to 6 of R16 are the windows and the run. -/
theorem putRefusal_eq (s : State) (e : Entry) :
    putRefusal s e = if e.contained then s.overlay.runRefusal e else some .range := by
  unfold putRefusal Entry.contained Overlay.runRefusal
  rw [← oneWindow_eq]
  cases hw : oneWindow e.base.toNat e.length
  · rfl
  · cases e.action with
    | pass wait => rfl
    | guard response fill => rfl
    | relocate target wait =>
      dsimp only
      rw [← oneWindow_eq]
      rfl
    | substitute run offset policy =>
      dsimp only
      generalize s.overlay.runs[run] = record
      obtain ⟨state, pages⟩ := record
      have fits : (if 16 * pages.length < offset + e.length then some Status.range else none) =
          if offset + e.length ≤ Run.capacity ⟨state, pages⟩ then none else some Status.range := by
        rw [show Run.capacity ⟨state, pages⟩ = 16 * pages.length from rfl]
        by_cases hle : offset + e.length ≤ 16 * pages.length
        · rw [if_neg (Nat.not_lt.mpr hle), if_pos hle]
        · rw [if_pos (Nat.lt_of_not_le hle), if_neg hle]
      cases state with
      | unused => rfl
      | retiring => rfl
      | opened => exact fits
      | filling => exact fits

section
variable {p : List Byte} {s : State}

theorem mapPutReply_frozen (h : s.gen.commit.isPending = true) : mapPutReply p s = s.refuse .frozen := by
  rw [mapPutReply, if_pos h]

/-- MAP.PUT with no commit pending and its fields refused. -/
theorem mapPutReply_badFields (h : s.gen.commit.isPending = false) (hf : entryFieldsOk p = false) :
    mapPutReply p s = s.refuse .range := by
  unfold mapPutReply
  simp only [h, Bool.false_eq_true, if_false]
  by_cases hslot : (byteAt p 0).toNat ≤ 31
  · simp only [entry?_eq p hslot, hf, Bool.false_eq_true, if_false]
    cases index32 (byteAt p 0) <;> rfl
  · simp only [index32_eq_none.mpr (Nat.lt_of_not_le hslot)]

theorem slot_le_of_fieldsOk (hf : entryFieldsOk p = true) : (byteAt p 0).toNat ≤ 31 := by
  simp only [entryFieldsOk_eq, Bool.and_eq_true, decide_eq_true_eq] at hf
  obtain ⟨⟨⟨⟨hslot, -⟩, -⟩, -⟩, -⟩ := hf
  exact hslot

/-- MAP.PUT with no commit pending and its fields in range. -/
theorem mapPutReply_fieldsOk (h : s.gen.commit.isPending = false) (hf : entryFieldsOk p = true) :
    mapPutReply p s =
      (putRefusal s (entryFields p)).elim
        ⟨staged s (Fin.ofNat 32 (byteAt p 0).toNat) (some (entryFields p)), .ok, []⟩ s.refuse := by
  have hslot := slot_le_of_fieldsOk hf
  unfold mapPutReply
  simp only [h, Bool.false_eq_true, if_false, index32_of_le hslot, entry?_eq p hslot, hf, if_true, putRefusal_eq,
    staged_eq]
  split
  · cases s.overlay.runRefusal (entryFields p) <;> rfl
  · rfl

end

/-! ### MAP.READ (R19) -/

/-- MAP.READ's answer for a slot, in the layout of R170. -/
theorem State.slotReply_eq (s : State) (m b : Byte) (i : Fin 32) (map : SlotMap) (hits : Word) :
    s.slotReply [m, b] i map hits =
      ⟨s, .ok, [m, b] ++ map[i].elim (List.replicate 19 0#8) (fun e => 1#8 :: entryLayout e) ++ inTwo hits.toNat
        ++ inTwo s.gen.generation.toNat⟩ := by
  unfold State.slotReply
  rw [wordBytes_inTwo, wordBytes_inTwo]
  cases map[i] with
  | none => rfl
  | some e =>
    simp only [slotBytes, Entry.bytes_eq, Option.elim_some]
    rfl

section
variable {s : State} {b : Byte} {i : Fin 32}

theorem mapReadReply_range {m : Byte} (h : 31 < b.toNat ∨ 2 < m.toNat) :
    mapReadReply [m, b] s = s.refuse .range := by
  unfold mapReadReply
  split
  · rfl
  · next i hi =>
    have hb : i.val = b.toNat := index32_eq_some.mp hi
    have hm : 2 < (byteAt [m, b] 0).toNat := h.resolve_left (by omega)
    split
    · omega
    · omega
    · omega
    · rfl

theorem mapReadReply_staged (hi : index32 b = some i) :
    mapReadReply [0#8, b] s = s.slotReply [0#8, b] i s.maps.staged 0#16 := by
  simp only [mapReadReply, byteAt_cons_succ, byteAt_cons_zero, hi]
  rfl

theorem mapReadReply_active (hi : index32 b = some i) :
    mapReadReply [1#8, b] s = s.slotReply [1#8, b] i s.maps.active s.maps.hits[i] := by
  simp only [mapReadReply, byteAt_cons_succ, byteAt_cons_zero, hi]
  rfl

theorem mapReadReply_fallback (hi : index32 b = some i) {m : SlotMap} (hf : s.gen.fallback = some m) :
    mapReadReply [2#8, b] s = s.slotReply [2#8, b] i m 0#16 := by
  simp only [mapReadReply, byteAt_cons_succ, byteAt_cons_zero, hi, hf]
  rfl

theorem mapReadReply_noTrial (hi : index32 b = some i) (hf : s.gen.fallback = none) :
    mapReadReply [2#8, b] s = s.refuse .noTrial := by
  simp only [mapReadReply, byteAt_cons_succ, byteAt_cons_zero, hi, hf]
  rfl

end

end Sys2Proof.Machine

namespace Sys2Proof

open Sys2Proof.Machine Sys2Proof.Claim

/-- MAP.PUT of 19 bytes, whatever they are (R16). -/
theorem mapPut_answered {f : Frame} {s : State} (h : Addressed f s) (hl : f.payload.length = 19) :
    exec (.mapPut f) s = .next
      (if s.gen.commit.isPending then answered s f .frozen []
      else if entryFieldsOk f.payload = false then answered s f .range []
      else
        (putRefusal s (entryFields f.payload)).elim
          (answered (staged s (Fin.ofNat 32 (byteAt f.payload 0).toNat) (some (entryFields f.payload))) f .ok [])
          fun refusal => answered s f refusal []) := by
  change Host.Outcome.next (s.receive f false (payloadIs f 19) (mapPutReply f.payload)) = _
  rw [State.receive_addressed h (by simp [payloadIs, hl])]
  cases hp : s.gen.commit.isPending
  · cases hf : entryFieldsOk f.payload
    · rw [mapPutReply_badFields hp hf]
      rfl
    · rw [mapPutReply_fieldsOk hp hf]
      cases putRefusal s (entryFields f.payload) <;> rfl
  · rw [mapPutReply_frozen hp]
    rfl

/-- Settles O31: MAP.PUT's checks on every payload, and the layout of R170 as the payload of every entry in range. -/
theorem mapPutStoresEntry : Obligations.MapPutStoresEntry := by
  intro f s h
  constructor
  · intro length
    rw [mapPut_answered h length]
    cases putRefusal s (entryFields f.payload) <;> rfl
  intro i e hpayload hrange
  have length : f.payload.length = 19 := by rw [hpayload, List.length_cons, entryLayout_length]
  have slot_byte : (BitVec.ofNat 8 i.val).toNat = i.val := by
    simp only [BitVec.toNat_ofNat]
    omega
  obtain ⟨read_back, passes⟩ := entryFields_entryLayout (b := BitVec.ofNat 8 i.val) hrange
  rw [← hpayload] at read_back passes
  have fields_ok : entryFieldsOk f.payload = true := passes (by omega)
  have slot : Fin.ofNat 32 (byteAt f.payload 0).toNat = i := by
    rw [hpayload, byteAt_cons_zero, slot_byte, Fin.ofNat_val_eq_self]
  refine ⟨length, fields_ok, read_back, ?_⟩
  rw [mapPut_answered h length, read_back, slot, if_neg (c := entryFieldsOk f.payload = false) (by simp [fields_ok])]
  cases putRefusal s e <;> rfl

/-- Settles O32: the edit of a slot is MAP.CLEAR's one effect, and the release test in it frees the run named. -/
theorem mapClearEmptiesSlot : Obligations.MapClearEmptiesSlot := by
  intro f s b h hb
  have reply : exec (.mapClear f) s =
      .next (answered (mapClearReply [b] s).state f (mapClearReply [b] s).status (mapClearReply [b] s).payload) := by
    change Host.Outcome.next (s.receive f false (payloadIs f 1) (mapClearReply f.payload)) = _
    rw [State.receive_addressed h (by simp [payloadIs, hb]), hb]
  rw [reply]
  refine ⟨fun hp => ?_, fun hp hrange => ?_, fun i hp hi => ⟨?_, ?_, fun hnone => ?_, fun r hn hr hu => ?_⟩⟩
  · rw [mapClearReply, if_pos hp]
    rfl
  · simp only [mapClearReply, hp, byteAt_cons_zero, index32_eq_none.mpr hrange]
    rfl
  · simp only [mapClearReply, hp, byteAt_cons_zero, index32_eq_some.mpr hi, staged_eq]
    rfl
  · rw [staged_eq, State.editStaged_maps]
  · rw [staged_eq, State.editStaged_of_none hnone]
  · rw [staged_eq] at hu ⊢
    exact State.editStaged_releases hn hr hu

/-- Settles O33: MAP.READ looks at the slot, then at the map selector, and answers from the map named. -/
theorem mapReadReportsSlot : Obligations.MapReadReportsSlot := by
  intro f s m b h hp
  have reply : exec (.mapRead f) s =
      .next (answered (mapReadReply [m, b] s).state f (mapReadReply [m, b] s).status (mapReadReply [m, b] s).payload) := by
    change Host.Outcome.next (s.receive f false (payloadIs f 2) (mapReadReply f.payload)) = _
    rw [State.receive_addressed h (by simp [payloadIs, hp]), hp]
  rw [reply]
  constructor
  · intro hrange
    rw [mapReadReply_range hrange]
    rfl
  · intro i hi
    have slot := index32_eq_some.mpr hi
    dsimp only
    refine ⟨?_, ?_, ?_, ?_⟩
    · rintro rfl
      rw [mapReadReply_staged slot, State.slotReply_eq]
      cases s.maps.staged[i] <;> rfl
    · rintro rfl
      rw [mapReadReply_active slot, State.slotReply_eq]
      cases s.maps.active[i] <;> rfl
    · rintro rfl t ht
      rw [mapReadReply_fallback slot (m := t.fallback) (by simp [Gen.fallback, ht]), State.slotReply_eq]
      cases t.fallback[i] <;> rfl
    · rintro rfl hf
      rw [mapReadReply_noTrial slot hf]
      rfl

/-- Settles O34. -/
theorem mapRestageCopiesActive : Obligations.MapRestageCopiesActive := by
  intro f s h hp
  change Host.Outcome.next (s.receive f false (payloadIs f 0) mapRestageReply) = _
  rw [State.receive_addressed h (by simp [payloadIs, hp])]
  unfold mapRestageReply
  split <;> rfl

end Sys2Proof
end

section
/-! PROOFS. The part resets: the state after reset meets the invariants, and what an assertion of RESET_N and its release
leave (R38, R176). -/

namespace Sys2Proof.Machine

open Sys2Proof.Safety

/-! ### The state after reset -/

theorem noRuns_getElem (r : Fin 32) : noRuns[r] = ⟨.unused, []⟩ := by
  simp [noRuns]

/-- R56: every page is on the free list. -/
theorem allPages_atReset (ram : List Host.Cell) : allPages (Overlay.atReset ram) = List.finRange 128 := by
  have none_held : ((List.finRange 32).flatMap fun r => (Overlay.atReset ram).runs[r].pages) = [] := by
    rw [List.flatMap_eq_nil_iff]
    exact fun r _ => congrArg Run.pages (noRuns_getElem r)
  rw [allPages, none_held, List.append_nil]
  rfl

theorem reset_everyEntry (p : Entry → Bool) : EveryEntry State.reset p :=
  (everyEntry_iff _ _).mpr fun e he => absurd he (State.not_hasEntry rfl rfl e)

theorem reset_pagesPartitioned : PagesPartitioned State.reset := by
  have pages : allPages State.reset.overlay = List.finRange 128 := allPages_atReset []
  rw [PagesPartitioned, pages]
  exact ⟨List.nodup_finRange 128, List.length_finRange, fun r _ => congrArg Run.pages (noRuns_getElem r)⟩

/-- After reset every run is UNUSED. -/
theorem reset_run_state (r : Fin 32) : State.reset.overlay.runs[r].state = .unused :=
  congrArg Run.state (noRuns_getElem r)

theorem reset_captureCoherent : CaptureCoherent State.reset :=
  ⟨fun r h => absurd ((reset_run_state r).symm.trans h) (by decide), fun h => absurd h (by decide)⟩

theorem reset_retiringReferenced : RetiringReferenced State.reset :=
  fun r h => absurd ((reset_run_state r).symm.trans h) (by decide)

/-! ### Rows that carry a frame -/

/-- A row handed to `State.receive` acts on the state with MCS_N high, and not at all while RESET_N is asserted (R176). -/
theorem exec_of_receive {i : Instr} {f : Frame} {b l : Bool} {r : State → Reply}
    (h : ∀ s, exec i s = .next (s.receive f b l r)) :
    ∃ act : State → State, ∀ s, exec i s = .next (if s.pins.resetN then s else act s.mcsHigh) :=
  ⟨fun u => u.handle f b l r, h⟩

/-- Every row that carries a frame is a whole transaction (R160, R164, R176). -/
theorem exec_of_frame {i : Instr} {code : Byte} {f : Frame} (h : frameOfRow i = some (code, f)) :
    ∃ act : State → State, ∀ s, exec i s = .next (if s.pins.resetN then s else act s.mcsHigh) := by
  cases i with
  | unknownCommand f' code' => exact ⟨fun u => u.unknownCommand f' code', fun _ => rfl⟩
  | _ => cases h <;> exact exec_of_receive fun _ => rfl

/-! ### The lines while MCS_N has been low since the release (R176) -/

theorem State.spiEdges_waiting {s : State} {before : SpiLines} (hp : s.mpu.port = .waiting) (hb : before.mcs = true) :
    s.spiEdges before = s.setPort (if s.pins.spi.mcs then .waiting else .idle) := by
  cases hm : s.pins.spi.mcs
  · simp [State.spiEdges, hm, hb, State.mcsRises, hp]
  · have same : s.setPort .waiting = s := by rw [← hp]; rfl
    simp [State.spiEdges_low hm hb, State.mckRises, State.mckFalls, hp, same]

end Sys2Proof.Machine

namespace Sys2Proof

open Sys2Proof.Machine

/-- Settles O5: after reset every run is UNUSED and every map empty, and the other blocks are small enough to evaluate. -/
theorem resetStateMeetsInvariants : Obligations.ResetStateMeetsInvariants :=
  ⟨State.reset_ram_wf, reset_pagesPartitioned, reset_everyEntry _, reset_everyEntry _, by decide, by decide, by decide,
    by decide, by decide, reset_captureCoherent, reset_retiringReferenced⟩

/-- Settles O23, clause by clause: the assertion, a row with a frame, the lines, the release. -/
theorem pinResetAndRelease : Obligations.PinResetAndRelease := by
  refine ⟨fun s h => ?_, fun i code f s hf => ?_, fun s x rest h hp hm hs => ?_, fun p s h => ?_⟩
  · simp only [exec, execPinReset, h]
    rfl
  · obtain ⟨act, hact⟩ := exec_of_frame hf
    constructor
    · intro h
      rw [hact, if_pos h]
    · intro h
      have high : exec i s.mcsHigh = .next (act s.mcsHigh) := by
        rw [hact, if_neg (by simp [h])]
        rfl
      rw [hact, if_neg (by simp [h])]
      exact high.symm
  · rw [State.levelsChange_cons h hs]
    exact State.spiEdges_waiting hp hm
  · simp only [exec, execResetNRelease, h]
    rfl

end Sys2Proof
end

section
/-! PROOFS. What a step can do to the runs, to overlay RAM and to the capture: a chain of the moves of `RunMove`. -/

namespace Sys2Proof.Machine

/-! ### The moves -/

/-- What decides which runs are live, pinned or referred to stands: Staged, Active and the commit state (R45). -/
structure LinksKept (s t : State) : Prop where
  staged : t.maps.staged = s.maps.staged
  active : t.maps.active = s.maps.active
  commit : t.gen.commit = s.gen.commit

/-- The runs and the capture stand, and no FILLING run becomes live or pinned (R43, R131). -/
structure Relinked (s t : State) : Prop where
  overlay : t.overlay = s.overlay
  capture : t.capture = s.capture
  spared : ∀ r : Fin 32, s.overlay.runs[r].state = .filling → s.live r = false → s.pinned r = false →
    t.live r = false ∧ t.pinned r = false

/-- The changes of the runs, of overlay RAM and of the capture of which every step is made. -/
inductive RunMove (s t : State) : Prop where
  /-- the maps or the commit state change, and no reference goes -/
  | linked (h : Relinked s t) (referenced : ∀ r, s.referenced r = true → t.referenced r = true)
  /-- the maps or the commit state change, and the release test follows (R53) -/
  | tested {u : State} (h : Relinked s u) (ht : t = u.releaseTest)
  /-- a run word is written (R26, R49, R122, R126) -/
  | written (r : Fin 32) (w : Nat) (lanes : Lanes) (v : Word) (h : LinksKept s t) (capture : t.capture = s.capture)
      (overlay : t.overlay = s.overlay.writeWord r w lanes v)
  /-- the capture goes on: a word counted, or an abort asked for (R122, R128) -/
  | continued (h : LinksKept s t) (overlay : t.overlay = s.overlay) (status : t.capture.status = s.capture.status)
      (job : t.capture.job = s.capture.job)
      (words : ∀ j, s.capture.job = some j → s.capture.wordsDone < 8 * j.length → t.capture.wordsDone < 8 * j.length)
  /-- a capture starts (R119, R120) -/
  | begun (j : CaptureJob) (h : LinksKept s t) (accepted : s.captureRefusal j = none) (words : 1 ≤ j.length)
      (overlay : t.overlay = s.overlay.setState j.run .filling) (capture : t.capture = ⟨.running, some j, 0, false⟩)
  /-- a capture ends (R123) -/
  | ended (j : CaptureJob) (h : LinksKept s t) (job : s.capture.job = some j) (status : t.capture.status ≠ .running)
      (overlay : t.overlay = s.overlay.setState j.run .opened)
  /-- RUN.OPEN (R48) -/
  | opened (r : Fin 32) (n : Nat) (h : LinksKept s t) (capture : t.capture = s.capture)
      (state : s.overlay.runs[r].state = .unused) (overlay : t.overlay = s.overlay.openRun r n)
  /-- RUN.FREE of an OPEN run, its pages back on the free list (R51) -/
  | freed (r : Fin 32) (h : LinksKept s t) (capture : t.capture = s.capture)
      (state : s.overlay.runs[r].state = .opened) (overlay : t.overlay = s.overlay.release r)
  /-- RUN.FREE of a run that a map refers to (R52) -/
  | retired (r : Fin 32) (h : LinksKept s t) (capture : t.capture = s.capture)
      (state : s.overlay.runs[r].state = .opened) (referenced : s.referenced r = true)
      (overlay : t.overlay = s.overlay.setState r .retiring)
  /-- a reset: every run UNUSED, no capture, overlay RAM as it was (R56, R117) -/
  | reset (overlay : t.overlay = Overlay.atReset s.overlay.ram) (status : t.capture.status ≠ .running)

/-- A chain of moves. -/
abbrev RunMoves : State → State → Prop := Relation.ReflTransGen RunMove

/-! ### References that stand -/

theorem State.fallback_eq {s t : State} (h : t.gen.commit = s.gen.commit) : t.gen.fallback = s.gen.fallback := by
  rw [Gen.fallback, Gen.fallback, h]

theorem State.live_eq {s t : State} (ha : t.maps.active = s.maps.active) (hf : t.gen.fallback = s.gen.fallback)
    (r : Fin 32) : t.live r = s.live r := by
  simp only [State.live, State.inActive, State.inFallback, ha, hf]

theorem State.referenced_eq {s t : State} (hs : t.maps.staged = s.maps.staged)
    (ha : t.maps.active = s.maps.active) (hf : t.gen.fallback = s.gen.fallback) (r : Fin 32) :
    t.referenced r = s.referenced r := by
  simp only [State.referenced, State.inStaged, State.inActive, State.inFallback, hs, ha, hf]

theorem State.pinned_of_not_pending {s : State} (h : s.gen.commit.isPending = false) (r : Fin 32) :
    s.pinned r = false := by
  rw [State.pinned, h, Bool.and_false]

namespace LinksKept
variable {s t : State} (h : LinksKept s t)
include h

theorem live (r : Fin 32) : t.live r = s.live r := State.live_eq h.active (State.fallback_eq h.commit) r

theorem pinned (r : Fin 32) : t.pinned r = s.pinned r := by
  simp only [State.pinned, State.inStaged, h.staged, h.commit]

theorem referenced (r : Fin 32) : t.referenced r = s.referenced r :=
  State.referenced_eq h.staged h.active (State.fallback_eq h.commit) r

end LinksKept

/-- What the runs depend on. -/
def State.runView (s : State) : SlotMap × SlotMap × CommitState × Overlay × Capture :=
  (s.maps.staged, s.maps.active, s.gen.commit, s.overlay, s.capture)

/-- Nothing that the runs depend on has changed. -/
theorem RunMoves.kept {s t : State} (h : t.runView = s.runView) : RunMoves s t := by
  simp only [State.runView, Prod.mk.injEq] at h
  obtain ⟨staged, active, commit, overlay, capture⟩ := h
  have links : LinksKept s t := ⟨staged, active, commit⟩
  have relinked : Relinked s t :=
    ⟨overlay, capture, fun r _ hl hp => ⟨(links.live r).trans hl, (links.pinned r).trans hp⟩⟩
  exact .single (.linked relinked fun r hr => (links.referenced r).trans hr)

/-- What follows a change that leaves the runs alone. -/
theorem RunMoves.after {s t u : State} (k : RunMoves t u) (h : t.runView = s.runView) : RunMoves s u :=
  (RunMoves.kept h).trans k

/-- A new commit state with the Fallback of the old one, which pins no FILLING run. -/
theorem State.setCommit_moves {s : State} {c : CommitState}
    (hf : Gen.fallback ⟨c, s.gen.generation⟩ = s.gen.fallback)
    (hp : ∀ r : Fin 32, s.overlay.runs[r].state = .filling → s.pinned r = false →
      (s.inStaged r && c.isPending) = false) :
    RunMoves s { s with gen := { s.gen with commit := c } } := by
  let t : State := { s with gen := { s.gen with commit := c } }
  have live := State.live_eq (s := s) (t := t) rfl hf
  have referenced := State.referenced_eq (s := s) (t := t) rfl rfl hf
  exact .single (.linked ⟨rfl, rfl, fun r hr hl hn => ⟨(live r).trans hl, hp r hr hn⟩⟩ fun r hr =>
    (referenced r).trans hr)

/-! ### Generation Control (R64 to R74) -/

theorem State.post_moves (s : State) (d : Detail) : RunMoves s (s.post d) := RunMoves.kept rfl

/-- While a commit is pending, a run that Staged refers to is pinned (R45). -/
theorem State.pinned_of_pending {s : State} {p : PendingCommit} (h : s.gen.commit = .pending p) (r : Fin 32) :
    s.pinned r = s.inStaged r := by
  simp [State.pinned, h, CommitState.isPending]

/-- Staged becomes Active, and the old Active the Fallback of a trial, where Staged refers to no FILLING run (R65). -/
theorem State.takeEffect_moves {s : State} (p : PendingCommit)
    (h : ∀ r : Fin 32, s.overlay.runs[r].state = .filling → s.pinned r = false → s.inStaged r = false) :
    RunMoves s (s.takeEffect p) := by
  have relinked : Relinked s (s.replaceActive s.maps.staged (s.trialOf p)) := by
    refine ⟨rfl, rfl, fun r hr hl hp => ?_⟩
    have staged := h r hr hp
    obtain ⟨active, -⟩ := Bool.or_eq_false_iff.mp hl
    unfold State.trialOf
    split
    · exact ⟨Bool.or_eq_false_iff.mpr ⟨staged, active⟩, State.pinned_of_not_pending rfl r⟩
    · exact ⟨Bool.or_eq_false_iff.mpr ⟨staged, rfl⟩, State.pinned_of_not_pending rfl r⟩
  exact .head (.tested relinked rfl) (State.post_moves _ _)

theorem State.takeEffect_pending_moves {s : State} {p : PendingCommit} (h : s.gen.commit = .pending p) :
    RunMoves s (s.takeEffect p) :=
  State.takeEffect_moves p fun r _ hp => (State.pinned_of_pending h r).symm.trans hp

theorem State.confirm_moves (s : State) (cause : ConfirmCause) : RunMoves s (s.confirm cause) := by
  have relinked : Relinked s { s with gen := { s.gen with commit := .none } } := by
    refine ⟨rfl, rfl, fun r _ hl _ => ⟨?_, State.pinned_of_not_pending rfl r⟩⟩
    exact Bool.or_eq_false_iff.mpr ⟨(Bool.or_eq_false_iff.mp hl).1, rfl⟩
  exact .head (.tested relinked rfl) (State.post_moves _ _)

/-- The Fallback becomes Active; its runs were live before (R72). -/
theorem State.revert_moves {s : State} {t : Trial} (h : s.gen.commit = .trial t) (cause : RevertCause) :
    RunMoves s (s.revert t cause) := by
  have relinked : Relinked s (s.replaceActive t.fallback .none) := by
    refine ⟨rfl, rfl, fun r _ hl _ => ⟨?_, State.pinned_of_not_pending rfl r⟩⟩
    obtain ⟨-, fallback⟩ := Bool.or_eq_false_iff.mp hl
    rw [State.inFallback, Gen.fallback, h] at fallback
    exact Bool.or_eq_false_iff.mpr ⟨fallback, rfl⟩
  exact .head (.tested relinked rfl) (State.post_moves _ _)

theorem State.boundaryOccurs_moves {s : State} {p : PendingCommit} (h : s.gen.commit = .pending p) :
    RunMoves s (s.boundaryOccurs p) := by
  unfold State.boundaryOccurs
  split
  · refine State.setCommit_moves (by rw [Gen.fallback, Gen.fallback, h]) fun r _ hp => ?_
    rw [CommitState.isPending, Bool.and_true, ← State.pinned_of_pending h, hp]
  · exact State.takeEffect_pending_moves h

theorem State.epochReported_moves (s : State) : RunMoves s s.epochReported := by
  unfold State.epochReported
  split
  · exact .refl
  · next p hp =>
    split
    · exact State.boundaryOccurs_moves hp
    · exact .refl
  · next t ht =>
    split
    · split
      · exact s.confirm_moves _
      · exact State.setCommit_moves (by rw [Gen.fallback, Gen.fallback, ht]) fun r _ _ => Bool.and_false _
    · exact .refl

theorem State.changeAtEnd_moves (s : State) (a : Access) : RunMoves s (s.changeAtEnd a) := by
  unfold State.changeAtEnd
  split
  · exact .refl
  · next p hp =>
    split
    · exact State.takeEffect_pending_moves hp
    · exact .refl
  · next t ht =>
    split
    · exact State.revert_moves ht _
    · exact .refl

theorem State.changeAtHostReset_moves (s : State) : RunMoves s s.changeAtHostReset := by
  unfold State.changeAtHostReset
  split
  · exact .refl
  · next p hp =>
    split
    · exact State.takeEffect_pending_moves hp
    · exact .refl
  · next t ht => exact State.revert_moves ht _

theorem State.seqNews_moves (s : State) (r : Seq × SeqNews) : RunMoves s (s.seqNews r) := by
  unfold State.seqNews
  dsimp only
  cases r.2.overrun <;> dsimp only <;> split
  · exact (State.epochReported_moves _).after rfl
  · exact RunMoves.kept rfl
  · exact (State.epochReported_moves _).after rfl
  · exact RunMoves.kept rfl

theorem State.acceptTransition_moves (s : State) : RunMoves s s.acceptTransition := by
  unfold State.acceptTransition
  exact (State.seqNews_moves _ _).after rfl

theorem State.filterPeriod_moves (s : State) : RunMoves s s.filterPeriod := by
  unfold State.filterPeriod
  split
  · exact RunMoves.kept rfl
  · split
    · exact s.acceptTransition_moves
    · exact RunMoves.kept rfl

theorem State.seqRestart_moves (s : State) : RunMoves s s.seqRestart := s.seqNews_moves _

/-! ### The capture and the arbiter (R108 to R112, R121 to R128) -/

theorem State.captureEnd_moves {s : State} {j : CaptureJob} {status : CaptureStatus} (hj : s.capture.job = some j)
    (hs : status ≠ .running) : RunMoves s (s.captureEnd j status) :=
  .single (.ended j ⟨rfl, rfl, rfl⟩ hj hs rfl)

theorem State.captureFails_moves (s : State) (cause : CaptureCause) : RunMoves s (s.captureFails cause) := by
  unfold State.captureFails
  split
  · exact .refl
  · next j hj => exact State.captureEnd_moves hj (by split <;> nofun)

/-- A run word written. -/
theorem State.writeWord_moves (s : State) (r : Fin 32) (w : Nat) (lanes : Lanes) (v : Word) :
    RunMoves s { s with overlay := s.overlay.writeWord r w lanes v } :=
  .single (.written r w lanes v ⟨rfl, rfl, rfl⟩ rfl rfl)

theorem State.writeWords_moves (s : State) (r : Fin 32) (w : Nat) (vs : List Word) :
    RunMoves s { s with overlay := s.overlay.writeWords r w vs } := by
  induction vs generalizing s w with
  | nil => exact .refl
  | cons v vs ih => exact (s.writeWord_moves r w .both v).trans (ih { s with overlay := _ } (w + 1))

/-- A word is copied; the capture ends with it, or has words still to copy (R122). -/
theorem State.captureWord_moves (s : State) (md : Word) : RunMoves s (s.captureWord md) := by
  unfold State.captureWord
  split
  · exact .refl
  · next j hj =>
    refine (s.writeWord_moves j.run (j.offset * 8 + s.capture.wordsDone) .both md).trans (.single ?_)
    dsimp only
    split
    · exact .ended j ⟨rfl, rfl, rfl⟩ hj nofun rfl
    · split
      · exact .ended j ⟨rfl, rfl, rfl⟩ hj nofun rfl
      · next hmore =>
        refine .continued ⟨rfl, rfl, rfl⟩ rfl rfl rfl fun j' hj' hw => ?_
        cases hj.symm.trans hj'
        exact Nat.lt_of_le_of_ne hw hmore

theorem State.grantCapture_moves (s : State) : RunMoves s s.grantCapture := by
  unfold State.grantCapture
  split
  · exact .refl
  · split
    · exact RunMoves.kept rfl
    · exact s.captureFails_moves _
    · exact s.captureFails_moves _

theorem State.grantHost_moves (s : State) : RunMoves s s.grantHost.1 := by
  unfold State.grantHost
  (repeat' split) <;> exact RunMoves.kept rfl

theorem State.grantOne_moves (s : State) : RunMoves s s.grantOne.1 := by
  unfold State.grantOne
  split
  · exact (State.grantHost_moves _).after rfl
  · exact (State.grantCapture_moves _).after rfl
  · exact .refl

theorem State.arbitrate_moves (s : State) : RunMoves s s.arbitrate.1 := by
  unfold State.arbitrate
  dsimp only
  split
  · exact s.grantOne_moves
  · exact s.grantOne_moves.trans (State.grantOne_moves _)

/-! ### The end of an access (R31, R175) -/

theorem State.softReset_moves (s : State) (tag : Byte) : RunMoves s (s.softReset tag) := by
  unfold State.softReset
  dsimp only
  split <;> exact .single (.reset rfl (show CaptureStatus.none ≠ .running from nofun))

theorem State.softResetIfDue_moves (s : State) : RunMoves s s.softResetIfDue := by
  unfold State.softResetIfDue
  split
  · exact s.softReset_moves _
  · exact .refl

theorem State.absorb_moves (s : State) (a : Access) (d : Decision) : RunMoves s (s.absorb a d) := by
  unfold State.absorb
  split
  · exact s.writeWord_moves _ _ _ _
  · exact .refl

theorem State.endAccess_moves (s : State) (e : HostResponse) : RunMoves s (s.endAccess e) := by
  unfold State.endAccess
  split
  · next a d _ _ =>
    have recorded (u : State) : 
        State.runView (((u.countHit d.slot).reportEnd a d e.completed).respond a e) = u.runView := by
      simp [State.runView]
    exact ((s.absorb_moves a d).trans (State.seqNews_moves _ _)).trans
      ((State.changeAtEnd_moves _ a).after (recorded _))
  · exact .refl

theorem Moment.finish_moves (m : Moment) : RunMoves m.1 m.finish := by
  unfold Moment.finish
  split
  · exact .refl
  · exact ((State.endAccess_moves _ _).trans (State.softResetIfDue_moves _)).trans (State.arbitrate_moves _)

/-! ### The events -/

theorem State.enterDeciding_moves (s : State) (a : Access) : RunMoves s (s.enterDeciding a).1 := by
  unfold State.enterDeciding
  dsimp only
  split
  · exact RunMoves.kept rfl
  · exact RunMoves.kept rfl
  · exact RunMoves.kept rfl
  · split
    · exact (State.arbitrate_moves _).after rfl
    · exact RunMoves.kept rfl

theorem State.arrivalMoment_moves (s : State) (h : HostPins) : RunMoves s (s.arrivalMoment h).1 := by
  unfold State.arrivalMoment
  dsimp only
  split
  · exact RunMoves.kept rfl
  · split
    · exact RunMoves.kept rfl
    · exact (State.enterDeciding_moves _ _).after rfl

theorem State.releaseMoment_moves (s : State) : RunMoves s s.releaseMoment.1 := by
  unfold State.releaseMoment
  split
  · dsimp only
    split
    · exact (State.enterDeciding_moves _ _).after rfl
    · exact RunMoves.kept rfl
  · exact .refl

theorem State.snoop_moves (s : State) (p : PortAccess) : RunMoves s (s.snoop p) := by
  unfold State.snoop
  split
  · dsimp only
    split
    · exact s.writeWord_moves _ _ _ _
    · exact .refl
  · exact .refl

theorem State.completionMoment_moves (s : State) (md : Word) : RunMoves s (s.completionMoment md).1 := by
  have freed : s.freePort.runView = s.runView := rfl
  unfold State.completionMoment
  split
  · exact .refl
  · split
    · exact ((State.captureWord_moves _ md).after freed).trans (State.arbitrate_moves _)
    · split
      · exact ((State.snoop_moves _ _).after freed).trans (State.arbitrate_moves _)
      · exact (State.snoop_moves _ _).after freed

theorem State.timeoutMoment_moves (s : State) : RunMoves s s.timeoutMoment.1 := by
  unfold State.timeoutMoment
  split
  · exact .refl
  · next p _ =>
    have fenced : (s.freePort.fence p).runView = s.runView := by simp [State.runView]
    split
    · split
      · exact ((State.captureFails_moves _ _).after fenced).trans (State.arbitrate_moves _)
      · split
        · exact (State.arbitrate_moves _).after fenced
        · exact RunMoves.kept fenced
    · exact .refl

theorem State.hostReset_moves (s : State) : RunMoves s s.hostReset := by
  have restarted : (State.post .hostReset
      { State.abandon { s with pins := { s.pins with hrst := true } } with
        seq := (State.abandon { s with pins := { s.pins with hrst := true } }).seq.restart }).runView = s.runView := by
    simp [State.runView]
  unfold State.hostReset
  dsimp only
  split
  · exact ((State.changeAtHostReset_moves _).after restarted).trans (State.softResetIfDue_moves _)
  · exact (State.changeAtHostReset_moves _).after restarted

theorem State.momentOf_moves (s : State) (c : Cause) : RunMoves s (s.momentOf c).1 := by
  cases c with
  | arrival p => exact s.arrivalMoment_moves p
  | release =>
    unfold State.momentOf
    dsimp only
    split
    · exact (State.releaseMoment_moves _).after rfl
    · exact .refl
  | completion md => exact s.completionMoment_moves md
  | timeout => exact s.timeoutMoment_moves
  | grant => exact s.arbitrate_moves
  | transition | restart | hostReset => exact .refl

theorem State.bringAbout_moves (s : State) (c : Cause) : RunMoves s (s.bringAbout c) := by
  cases c with
  | transition =>
    unfold State.bringAbout
    dsimp only
    split
    · exact .refl
    · exact s.acceptTransition_moves
  | restart =>
    unfold State.bringAbout
    dsimp only
    split
    · exact (State.seqRestart_moves _).after rfl
    · exact .refl
  | hostReset =>
    unfold State.bringAbout State.hrstAsserted
    dsimp only
    split
    · exact RunMoves.kept rfl
    · split
      · exact .refl
      · exact s.hostReset_moves
  | arrival | release | completion | timeout | grant => exact (s.momentOf_moves _).trans (Moment.finish_moves _)

theorem State.bringAboutIf_moves (s : State) (c : Cause) (b : Bool) : RunMoves s (s.bringAboutIf c b) := by
  unfold State.bringAboutIf
  split
  · exact s.bringAbout_moves c
  · exact .refl

theorem State.portPeriod_moves (s : State) : RunMoves s s.portPeriod := by
  unfold State.portPeriod
  split
  · exact .refl
  · split
    · exact (s.completionMoment_moves _).trans (Moment.finish_moves _)
    · split
      · exact s.timeoutMoment_moves.trans (Moment.finish_moves _)
      · exact RunMoves.kept rfl

theorem State.countPeriod_moves (s : State) : RunMoves s s.countPeriod := by
  have first : State.runView { s with freeIndex := s.freeIndex + 1 } = s.runView := rfl
  unfold State.countPeriod
  dsimp only
  split
  · exact RunMoves.kept first
  · split
    · exact ((State.filterPeriod_moves _).after first).trans (State.portPeriod_moves _)
    · exact ((State.portPeriod_moves _).after first).trans (State.filterPeriod_moves _)

theorem State.levelsChange_runView (s : State) : s.levelsChange.runView = s.runView := by
  simp [State.runView]

theorem State.clockPeriod_moves (s : State) : RunMoves s s.clockPeriod :=
  s.countPeriod_moves.trans (RunMoves.kept (State.levelsChange_runView _))

/-! ### The commands -/

/-- While no commit is pending, another Staged map pins no run (R45). -/
theorem State.restage_relinked {s : State} (h : s.gen.commit.isPending = false) (m : SlotMap) :
    Relinked s { s with maps := { s.maps with staged := m } } :=
  ⟨rfl, rfl, fun _ _ hl _ => ⟨hl, by simp only [State.pinned, h, Bool.and_false]⟩⟩

/-- A slot of Staged changed by an edit while no commit is pending: a reference goes only with the release test (R54). -/
theorem State.editStaged_moves {s : State} (h : s.gen.commit.isPending = false) (i : Fin 32) (x : Option Entry) :
    RunMoves s (s.editStaged i x) := by
  have relinked := State.restage_relinked h (s.maps.staged.set i.val x)
  unfold State.editStaged
  dsimp only
  split
  · exact .single (.tested relinked rfl)
  · next hold =>
    refine .single (.linked relinked fun r hr => ?_)
    rw [State.referenced_iff] at hr ⊢
    obtain ⟨e, he, names⟩ := hr
    refine ⟨e, he.imp_left ?_, names⟩
    rintro ⟨k, hk⟩
    have other : i.val ≠ k.val := fun hik => by
      rw [Fin.ext hik, hk] at hold
      exact hold (isSubstitute_of_names names)
    exact ⟨k, by simpa [other] using hk⟩

theorem mapPutReply_moves (p : List Byte) (s : State) : RunMoves s (mapPutReply p s).state := by
  unfold mapPutReply
  split
  · exact .refl
  · next h =>
    split
    · split
      · split
        · exact .refl
        · exact State.editStaged_moves (Bool.eq_false_iff.mpr h) _ _
      · exact .refl
    · exact .refl

theorem mapClearReply_moves (p : List Byte) (s : State) : RunMoves s (mapClearReply p s).state := by
  unfold mapClearReply
  split
  · exact .refl
  · next h =>
    split
    · exact State.editStaged_moves (Bool.eq_false_iff.mpr h) _ _
    · exact .refl

theorem mapRestageReply_moves (s : State) : RunMoves s (mapRestageReply s).state := by
  unfold mapRestageReply
  split
  · exact .refl
  · next h =>
    exact .single (.tested (State.restage_relinked (Bool.eq_false_iff.mpr h) _) rfl)

theorem runOpenReply_moves (p : List Byte) (s : State) : RunMoves s (runOpenReply p s).state := by
  unfold runOpenReply
  dsimp only
  split
  · exact .refl
  · split
    · exact .refl
    · next r hr =>
      split
      · exact .refl
      · exact .single (.opened r _ ⟨rfl, rfl, rfl⟩ rfl (Overlay.unusedRun_unused hr) rfl)

theorem runWriteReply_moves (p : List Byte) (s : State) : RunMoves s (runWriteReply p s).state := by
  unfold runWriteReply
  dsimp only
  split
  · exact .refl
  · split
    · exact .refl
    · split
      · exact .refl
      · split
        · exact s.writeWords_moves _ _ _
        · exact .refl

theorem runFreeReply_moves (p : List Byte) (s : State) : RunMoves s (runFreeReply p s).state := by
  unfold runFreeReply
  split
  · exact .refl
  · next r _ =>
    split
    · exact .refl
    · exact .refl
    · exact .refl
    · next hr =>
      split
      · next referred => exact .single (.retired r ⟨rfl, rfl, rfl⟩ rfl hr referred rfl)
      · exact .single (.freed r ⟨rfl, rfl, rfl⟩ rfl hr rfl)

/-- With no slot to refuse INVALID for, Staged refers to no FILLING run (R58 check 4). -/
theorem State.inStaged_of_fillingSlot {s : State} (h : s.fillingSlot = none) {r : Fin 32}
    (hr : s.overlay.runs[r].state = .filling) : s.inStaged r = false := by
  rw [State.fillingSlot, List.find?_eq_none] at h
  rw [State.inStaged, Bool.eq_false_iff]
  intro named
  obtain ⟨e, ⟨i, hi⟩, names⟩ := (mapNames_iff _ _).mp named
  refine h i (List.mem_finRange i) ?_
  obtain ⟨_, _, _, _, _, _, _, action⟩ := e
  cases action with
  | substitute run offset policy =>
    obtain rfl : run = r := beq_iff_eq.mp names
    rw [hi, Option.any_some]
    exact beq_iff_eq.mpr hr
  | pass | relocate | guard => exact absurd names Bool.false_ne_true

theorem commitReply_moves (p : List Byte) (s : State) : RunMoves s (commitReply p s).state := by
  unfold commitReply
  split
  · exact .refl
  · exact .refl
  · next hc =>
    split
    · split
      · exact .refl
      · next hslot =>
        have pends (q : PendingCommit) : RunMoves s { s with gen := { s.gen with commit := .pending q } } :=
          State.setCommit_moves (by rw [Gen.fallback, Gen.fallback, hc]) fun r hr _ => by
            rw [State.inStaged_of_fillingSlot hslot hr, Bool.false_and]
        unfold commitAnswer State.acceptCommit
        split
        · split
          · exact pends _
          · exact State.takeEffect_moves _ fun r hr _ => State.inStaged_of_fillingSlot hslot hr
        · exact pends _
    · exact .refl

theorem commitCancelReply_moves (s : State) : RunMoves s (commitCancelReply s).state := by
  unfold commitCancelReply
  split
  · next p hp =>
    split
    · exact .refl
    · exact State.setCommit_moves (by rw [Gen.fallback, Gen.fallback, hp]) fun r _ _ => Bool.and_false _
  · exact .refl

theorem trialConfirmReply_moves (s : State) : RunMoves s (trialConfirmReply s).state := by
  unfold trialConfirmReply
  split
  · split
    · exact .refl
    · exact s.confirm_moves _
  · exact .refl

theorem trialRevertReply_moves (s : State) : RunMoves s (trialRevertReply s).state := by
  unfold trialRevertReply
  split
  · next t ht =>
    split
    · exact .refl
    · split
      · exact State.setCommit_moves (by rw [Gen.fallback, Gen.fallback, ht]; rfl) fun r _ _ => Bool.and_false _
      · exact State.revert_moves ht _
  · exact .refl

/-- Check 1 of R119 passes no empty capture. -/
theorem captureJob?_length {p : List Byte} {j : CaptureJob} (h : captureJob? p = some j) : 1 ≤ j.length := by
  unfold captureJob? at h
  split at h
  · cases h
  · split at h
    · next hj =>
      obtain ⟨-, hlength, -⟩ := hj
      cases h
      exact hlength
    · cases h

theorem captureStartReply_moves (p : List Byte) (s : State) : RunMoves s (captureStartReply p s).state := by
  unfold captureStartReply
  split
  · exact .refl
  · next j hj =>
    split
    · exact .refl
    · next accepted =>
      have begun : RunMoves s (s.captureAccepted j) :=
        .single (.begun j ⟨rfl, rfl, rfl⟩ accepted (captureJob?_length hj) rfl rfl)
      exact (begun.trans (State.arbitrate_moves _)).trans (Moment.finish_moves _)

theorem captureAbortReply_moves (s : State) : RunMoves s (captureAbortReply s).state := by
  unfold captureAbortReply
  split
  · next j _ hj =>
    split
    · exact State.captureEnd_moves hj nofun
    · exact .single (.continued ⟨rfl, rfl, rfl⟩ rfl rfl rfl fun _ _ hw => hw)
  · exact .refl

theorem partResetReply_moves (tag : Byte) (s : State) : RunMoves s (partResetReply tag s).state := by
  unfold partResetReply
  split
  · exact RunMoves.kept rfl
  · exact s.softReset_moves tag

/-! ### The rows of the table -/

/-- A frame moves the runs at most as its command does, however it meets the unit. -/
theorem State.receive_moves (s : State) (f : Frame) (b l : Bool) {r : State → Reply} (hr : ∀ s, RunMoves s (r s).state) :
    RunMoves s (s.receive f b l r) :=
  State.receive_pred s f b l r .refl (RunMoves.kept rfl) (fun _ _ _ h => h.trans (RunMoves.kept rfl))
    ((hr s.mcsHigh).after rfl)

/-- A reply that leaves the runs alone. -/
def LeavesRuns (r : State → Reply) : Prop := ∀ s, (r s).state.runView = s.runView

theorem mapReadReply_leavesRuns (p : List Byte) : LeavesRuns (mapReadReply p) := by
  intro s
  unfold mapReadReply
  (repeat' split) <;> rfl

theorem runReadReply_leavesRuns (p : List Byte) : LeavesRuns (runReadReply p) := by
  intro s
  unfold runReadReply
  dsimp only
  (repeat' split) <;> rfl

theorem runInfoReply_leavesRuns (p : List Byte) : LeavesRuns (runInfoReply p) := by
  intro s
  unfold runInfoReply
  split <;> rfl

theorem seqSetReply_leavesRuns (p : List Byte) : LeavesRuns (seqSetReply p) := by
  intro s
  unfold seqSetReply
  split <;> rfl

theorem devSetReply_leavesRuns (p : List Byte) : LeavesRuns (devSetReply p) := by
  intro s
  unfold devSetReply
  (repeat' split) <;> rfl

theorem devRestoreReply_leavesRuns (p : List Byte) : LeavesRuns (devRestoreReply p) := by
  intro s
  unfold devRestoreReply
  (repeat' split) <;> rfl

theorem portSetReply_leavesRuns (p : List Byte) : LeavesRuns (portSetReply p) := by
  intro s
  unfold portSetReply
  split <;> rfl

theorem journalReadReply_leavesRuns (p : List Byte) : LeavesRuns (journalReadReply p) := by
  intro s
  unfold journalReadReply
  dsimp only
  split <;> rfl

theorem journalAckReply_leavesRuns (p : List Byte) : LeavesRuns (journalAckReply p) := by
  intro s
  unfold journalAckReply
  split <;> rfl

theorem journalSetReply_leavesRuns (p : List Byte) : LeavesRuns (journalSetReply p) := by
  intro s
  unfold journalSetReply
  (repeat' split) <;> rfl

theorem noticeAckReply_leavesRuns (p : List Byte) : LeavesRuns (noticeAckReply p) := by
  intro s
  unfold noticeAckReply
  dsimp only
  (repeat' split) <;> rfl

theorem State.negateStrobes_runView (s : State) (rd wr : Bool) : (s.negateStrobes rd wr).runView = s.runView := by
  unfold State.negateStrobes
  dsimp only
  (repeat' split) <;> rfl

/-! Rows beside the commands. -/

theorem State.frameError_runView (s : State) (bytes : List Byte) (extra : BitVec 3) :
    (s.frameError bytes extra).runView = s.runView := by
  unfold State.frameError
  (repeat' split) <;> rfl

theorem State.unknownCommand_runView (s : State) (f : Frame) (code : Byte) :
    (s.unknownCommand f code).runView = s.runView := by
  unfold State.unknownCommand
  (repeat' split) <;> rfl

theorem State.answerBusy_runView (s : State) (f : Frame) : (s.answerBusy f).runView = s.runView := by
  unfold State.answerBusy
  split <;> rfl

/-- What a row does while RESET_N is negated, if it leaves the runs alone. -/
theorem RunMoves.ite_kept {s t : State} (b : Bool) (h : t.runView = s.runView) : RunMoves s (if b then s else t) := by
  split
  · exact .refl
  · exact RunMoves.kept h

/-- Every row answers a next state, to which the runs come by moves. -/
theorem exec_moves (i : Instr) (s : State) : ∃ t, exec i s = .next t ∧ RunMoves s t := by
  have answered (f : Frame) (b l : Bool) {r : State → Reply} (hr : LeavesRuns r) : RunMoves s (s.receive f b l r) :=
    s.receive_moves f b l fun s => RunMoves.kept (hr s)
  cases i with
  | partInfo f | genStatus f | seqStatus f | devStatus f | captureStatus f | journalStatus f | noticeRead f
  | lockdownClear f | noticeMask f => exact ⟨_, rfl, answered f _ _ fun _ => rfl⟩
  | mapRead f => exact ⟨_, rfl, answered f _ _ (mapReadReply_leavesRuns _)⟩
  | runRead f => exact ⟨_, rfl, answered f _ _ (runReadReply_leavesRuns _)⟩
  | runInfo f => exact ⟨_, rfl, answered f _ _ (runInfoReply_leavesRuns _)⟩
  | seqSet f => exact ⟨_, rfl, answered f _ _ (seqSetReply_leavesRuns _)⟩
  | devSet f => exact ⟨_, rfl, answered f _ _ (devSetReply_leavesRuns _)⟩
  | devRestore f => exact ⟨_, rfl, answered f _ _ (devRestoreReply_leavesRuns _)⟩
  | portSet f => exact ⟨_, rfl, answered f _ _ (portSetReply_leavesRuns _)⟩
  | journalRead f => exact ⟨_, rfl, answered f _ _ (journalReadReply_leavesRuns _)⟩
  | journalAck f => exact ⟨_, rfl, answered f _ _ (journalAckReply_leavesRuns _)⟩
  | journalSet f => exact ⟨_, rfl, answered f _ _ (journalSetReply_leavesRuns _)⟩
  | noticeAck f => exact ⟨_, rfl, answered f _ _ (noticeAckReply_leavesRuns _)⟩
  | partReset f => exact ⟨_, rfl, s.receive_moves f _ _ (partResetReply_moves _)⟩
  | hostRelease f =>
    exact ⟨_, rfl, s.receive_moves f _ _ fun s => s.releaseMoment_moves.trans (Moment.finish_moves _)⟩
  | mapPut f => exact ⟨_, rfl, s.receive_moves f _ _ (mapPutReply_moves _)⟩
  | mapClear f => exact ⟨_, rfl, s.receive_moves f _ _ (mapClearReply_moves _)⟩
  | mapRestage f => exact ⟨_, rfl, s.receive_moves f _ _ mapRestageReply_moves⟩
  | runOpen f => exact ⟨_, rfl, s.receive_moves f _ _ (runOpenReply_moves _)⟩
  | runWrite f => exact ⟨_, rfl, s.receive_moves f _ _ (runWriteReply_moves _)⟩
  | runFree f => exact ⟨_, rfl, s.receive_moves f _ _ (runFreeReply_moves _)⟩
  | commit f => exact ⟨_, rfl, s.receive_moves f _ _ (commitReply_moves _)⟩
  | commitCancel f => exact ⟨_, rfl, s.receive_moves f _ _ commitCancelReply_moves⟩
  | trialConfirm f => exact ⟨_, rfl, s.receive_moves f _ _ trialConfirmReply_moves⟩
  | trialRevert f => exact ⟨_, rfl, s.receive_moves f _ _ trialRevertReply_moves⟩
  | seqRestart f => exact ⟨_, rfl, s.receive_moves f _ _ State.seqRestart_moves⟩
  | captureStart f => exact ⟨_, rfl, s.receive_moves f _ _ (captureStartReply_moves _)⟩
  | captureAbort f => exact ⟨_, rfl, s.receive_moves f _ _ captureAbortReply_moves⟩
  | softResetTakesEffect c | dueCommitApplied c | dueRevertApplied c | trialWindowExpiry c | countAdvance c | overrun c
  | park c => exact ⟨_, rfl, s.bringAboutIf_moves c _⟩
  | epochTransitionAccepted => exact ⟨_, rfl, s.bringAbout_moves .transition⟩
  | accessArrives p => exact ⟨_, rfl, s.bringAbout_moves (.arrival p)⟩
  | hostResetEvent => exact ⟨_, rfl, s.bringAbout_moves .hostReset⟩
  | arbiterGrant => exact ⟨_, rfl, s.bringAbout_moves .grant⟩
  | memoryAccessCompletes md => exact ⟨_, rfl, s.bringAbout_moves (.completion md)⟩
  | accessTimeout => exact ⟨_, rfl, s.bringAbout_moves .timeout⟩
  | softResetIntervalBusy f code => exact ⟨_, rfl, .ite_kept _ (State.answerBusy_runView _ f)⟩
  | frameError bytes extra => exact ⟨_, rfl, .ite_kept _ (State.frameError_runView _ bytes extra)⟩
  | unknownCommand f code => exact ⟨_, rfl, .ite_kept _ (State.unknownCommand_runView _ f code)⟩
  | responseRead header clocks => exact ⟨_, rfl, .ite_kept _ rfl⟩
  | hostStrobeNegated rd wr => exact ⟨_, rfl, RunMoves.kept (s.negateStrobes_runView rd wr)⟩
  | hrstNNegated => exact ⟨_, rfl, RunMoves.kept rfl⟩
  | epochPulseDiscarded => exact ⟨_, rfl, .ite_kept _ rfl⟩
  | pinReset =>
    refine ⟨_, rfl, ?_⟩
    split
    · exact .refl
    · exact .single (.reset rfl nofun)
  | resetNRelease p =>
    refine ⟨_, rfl, ?_⟩
    split
    · exact .single (.reset rfl nofun)
    · exact .refl

/-- A step comes to the runs by moves. -/
theorem step_moves {s t : State} (h : step s = .next t) : RunMoves s t := by
  unfold step at h
  split at h
  · injection h with h
    exact h ▸ s.clockPeriod_moves
  · next c rest _ =>
    obtain ⟨t', ht, moves⟩ := exec_moves c { s with pending := rest }
    rw [ht] at h
    injection h with h
    exact h ▸ moves.after rfl

/-- What every move keeps, every step keeps. -/
theorem step_keeps {P : State → Prop} (hP : ∀ {s t}, RunMove s t → P s → P t) {s t : State} (h : step s = .next t)
    (hs : P s) : P t := by
  have moves := step_moves h
  clear h
  induction moves with
  | refl => exact hs
  | tail _ move ih => exact hP move ih

end Sys2Proof.Machine
end

section
/-! PROOFS. Each move of the runs keeps the page pool (R40 to R42), the FILLING run of the RUNNING capture (R43, R131), and the
reference of every RETIRING run (R53). -/

namespace Sys2Proof.Machine

open Sys2Proof.Safety

/-! ### The run records after an operation -/

/-- An operation that puts one run record and leaves the others. -/
def Overlay.Puts (o : Overlay) (r : Fin 32) (x : Run) (o' : Overlay) : Prop :=
  ∀ q : Fin 32, o'.runs[q] = if r = q then x else o.runs[q]

theorem Overlay.puts_of_set {o o' : Overlay} {r : Fin 32} {x : Run} (h : o'.runs = o.runs.set r.val x) :
    o.Puts r x o' := by
  intro q
  simp only [h, Fin.getElem_fin, Vector.getElem_set, Fin.ext_iff]

theorem Overlay.setState_puts (o : Overlay) (r : Fin 32) (st : RunState) :
    o.Puts r ⟨st, o.runs[r].pages⟩ (o.setState r st) := Overlay.puts_of_set rfl

theorem Overlay.openRun_puts (o : Overlay) (r : Fin 32) (n : Nat) :
    o.Puts r ⟨.opened, o.free.take n⟩ (o.openRun r n) := Overlay.puts_of_set rfl

theorem Overlay.release_puts (o : Overlay) (r : Fin 32) : o.Puts r ⟨.unused, []⟩ (o.release r) :=
  Overlay.puts_of_set rfl

namespace Overlay.Puts
variable {o o' : Overlay} {r : Fin 32} {x : Run} (h : o.Puts r x o')
include h

theorem same : o'.runs[r] = x := (h r).trans (if_pos rfl)

theorem other {q : Fin 32} (hq : r ≠ q) : o'.runs[q] = o.runs[q] := (h q).trans (if_neg hq)

/-- A run in a state that the operation does not put was in it before, and is another run. -/
theorem state_before {st : RunState} (hx : x.state ≠ st) {q : Fin 32} (hq : o'.runs[q].state = st) :
    r ≠ q ∧ o.runs[q].state = st := by
  by_cases hrq : r = q
  · subst hrq
    rw [h.same] at hq
    exact absurd hq hx
  · exact ⟨hrq, h.other hrq ▸ hq⟩

end Overlay.Puts

/-! ### The page pool (R40 to R42) -/

/-- Overlay RAM is canonical, every page is free or in one run, and UNUSED runs hold none. -/
structure Overlay.Pooled (o : Overlay) : Prop where
  ram : Memory.wf o.ram = true
  nodup : (allPages o).Nodup
  length : (allPages o).length = 128
  unused : ∀ r : Fin 32, o.runs[r].state = .unused → o.runs[r].pages = []

theorem pooled_iff (s : State) : RamCanonical s ∧ PagesPartitioned s ↔ s.overlay.Pooled :=
  ⟨fun ⟨ram, nodup, length, unused⟩ => ⟨ram, nodup, length, unused⟩,
    fun h => ⟨h.ram, h.nodup, h.length, h.unused⟩⟩

/-- The pages, those of one run first. -/
theorem allPages_perm_run (o : Overlay) (r : Fin 32) :
    (allPages o).Perm (o.free ++ o.runs[r].pages ++ ((List.finRange 32).erase r).flatMap fun q => o.runs[q].pages) := by
  rw [allPages, List.append_assoc]
  exact ((List.perm_cons_erase (List.mem_finRange r)).flatMap_right _).append_left _

/-- An operation that moves pages between the free list and one run keeps the pages as a whole. -/
theorem allPages_perm {o o' : Overlay} {r : Fin 32} {x : Run} (puts : o.Puts r x o')
    (moved : (o'.free ++ x.pages).Perm (o.free ++ o.runs[r].pages)) : (allPages o').Perm (allPages o) := by
  have rest : (((List.finRange 32).erase r).flatMap fun q => o'.runs[q].pages) =
      ((List.finRange 32).erase r).flatMap fun q => o.runs[q].pages := by
    refine List.flatMap_congr fun q hq => ?_
    rw [puts.other fun h => ((List.nodup_finRange 32).mem_erase_iff.mp hq).1 h.symm]
  have after := allPages_perm_run o' r
  rw [rest, puts.same] at after
  exact after.trans ((moved.append_right _).trans (allPages_perm_run o r).symm)

namespace Overlay.Pooled
variable {o : Overlay} (h : o.Pooled)
include h

/-- Such an operation keeps the pool if it keeps overlay RAM canonical and puts no page in an UNUSED run. -/
theorem put {o' : Overlay} {r : Fin 32} {x : Run} (puts : o.Puts r x o') (ram : Memory.wf o'.ram = true)
    (moved : (o'.free ++ x.pages).Perm (o.free ++ o.runs[r].pages)) (unused : x.state = .unused → x.pages = []) :
    o'.Pooled := by
  have perm := allPages_perm puts moved
  refine ⟨ram, perm.nodup_iff.mpr h.nodup, perm.length_eq.trans h.length, fun q hq => ?_⟩
  by_cases hrq : r = q
  · subst hrq
    rw [puts.same] at hq ⊢
    exact unused hq
  · rw [puts.other hrq] at hq ⊢
    exact h.unused q hq

theorem setState (r : Fin 32) {st : RunState} (hst : st ≠ .unused) : (o.setState r st).Pooled :=
  h.put (o.setState_puts r st) h.ram (.refl _) fun hu => absurd hu hst

/-- An UNUSED run takes pages from the head of the free list (R48). -/
theorem openRun {r : Fin 32} (hr : o.runs[r].state = .unused) (n : Nat) : (o.openRun r n).Pooled := by
  refine h.put (o.openRun_puts r n) (Overlay.openRun_wf o r n h.ram) ?_ nofun
  rw [h.unused r hr, List.append_nil]
  exact List.perm_append_comm.trans (by rw [Overlay.openRun, List.take_append_drop])

/-- A released run gives its pages to the tail of the free list (R51). -/
theorem release (r : Fin 32) : (o.release r).Pooled := by
  refine h.put (o.release_puts r) h.ram ?_ fun _ => rfl
  rw [List.append_nil]
  exact .refl _

theorem writeWord (r : Fin 32) (w : Nat) (lanes : Lanes) (v : Word) : (o.writeWord r w lanes v).Pooled := by
  have pages : allPages (o.writeWord r w lanes v) = allPages o := by
    simp only [allPages, Overlay.writeWord_free, Overlay.writeWord_runs]
  refine ⟨Overlay.writeWord_wf o r w lanes v h.ram, pages ▸ h.nodup, pages ▸ h.length, ?_⟩
  rw [Overlay.writeWord_runs]
  exact h.unused

end Overlay.Pooled

theorem releaseAll_pooled (referenced : Fin 32 → Bool) (rs : List (Fin 32)) {o : Overlay} (h : o.Pooled) :
    (rs.foldl (releaseOne referenced) o).Pooled := by
  induction rs generalizing o with
  | nil => exact h
  | cons r rs ih =>
    refine ih ?_
    unfold releaseOne
    split
    · exact h.release r
    · exact h

theorem State.releaseTest_overlay (s : State) :
    s.releaseTest.overlay = (List.finRange 32).foldl (releaseOne s.referenced) s.overlay := by
  unfold State.releaseTest
  with_reducible rfl

theorem State.releaseTest_pooled {s : State} (h : s.overlay.Pooled) : s.releaseTest.overlay.Pooled := by
  rw [State.releaseTest_overlay]
  exact releaseAll_pooled s.referenced (List.finRange 32) h

theorem Overlay.atReset_pooled {ram : List Host.Cell} (h : Memory.wf ram = true) : (Overlay.atReset ram).Pooled := by
  refine ⟨h, ?_, ?_, fun r _ => congrArg Run.pages (noRuns_getElem r)⟩
  · rw [allPages_atReset]
    exact List.nodup_finRange 128
  · rw [allPages_atReset, List.length_finRange]

theorem RunMove.keeps_pooled {s t : State} (move : RunMove s t) (h : s.overlay.Pooled) : t.overlay.Pooled := by
  cases move with
  | linked relinked _ => exact relinked.overlay ▸ h
  | tested relinked ht => exact ht ▸ State.releaseTest_pooled (relinked.overlay ▸ h)
  | written r w lanes v _ _ overlay => exact overlay ▸ h.writeWord r w lanes v
  | continued _ overlay _ _ _ => exact overlay ▸ h
  | begun j _ _ _ overlay _ => exact overlay ▸ h.setState j.run (by decide)
  | ended j _ _ _ overlay => exact overlay ▸ h.setState j.run (by decide)
  | opened r n _ _ state overlay => exact overlay ▸ h.openRun state n
  | freed r _ _ _ overlay => exact overlay ▸ h.release r
  | retired r _ _ _ _ overlay => exact overlay ▸ h.setState r (by decide)
  | reset overlay _ => exact overlay ▸ Overlay.atReset_pooled h.ram

/-! ### The RUNNING capture and its FILLING run (R43, R118, R131) -/

/-- The same runs are FILLING. -/
def Overlay.SameFilling (o o' : Overlay) : Prop :=
  ∀ r : Fin 32, o'.runs[r].state = .filling ↔ o.runs[r].state = .filling

theorem State.releaseTest_sameFilling (s : State) : s.overlay.SameFilling s.releaseTest.overlay := by
  intro r
  rw [State.releaseTest_runs]
  split
  · next h =>
    rw [h.1]
    exact iff_of_false nofun nofun
  · rfl

/-- An operation on one run that is not FILLING before or after. -/
theorem Overlay.Puts.sameFilling {o o' : Overlay} {r : Fin 32} {x : Run} (puts : o.Puts r x o')
    (before : o.runs[r].state ≠ .filling) (after : x.state ≠ .filling) : o.SameFilling o' := by
  refine fun q => ⟨fun hq => (puts.state_before after hq).2, fun hq => ?_⟩
  rwa [puts.other fun hrq => before (hrq ▸ hq)]

/-- With the same FILLING runs spared and the same capture, one word count aside, the capture stays coherent. -/
theorem captureCoherent_of_sameFilling {s t : State} (h : CaptureCoherent s)
    (same : s.overlay.SameFilling t.overlay) (status : t.capture.status = s.capture.status)
    (job : t.capture.job = s.capture.job)
    (words : ∀ j, s.capture.job = some j → s.capture.wordsDone < 8 * j.length → t.capture.wordsDone < 8 * j.length)
    (spared : ∀ r : Fin 32, s.overlay.runs[r].state = .filling → s.live r = false → s.pinned r = false →
      t.live r = false ∧ t.pinned r = false) : CaptureCoherent t := by
  obtain ⟨filling, running⟩ := h
  constructor
  · intro r hr
    obtain ⟨hstatus, hjob, live, pinned⟩ := filling r ((same r).mp hr)
    exact ⟨status.trans hstatus, job ▸ hjob, spared r ((same r).mp hr) live pinned⟩
  · intro hs
    have := running (status ▸ hs)
    rw [job]
    simp only [Option.any_eq_true, Bool.and_eq_true, beq_iff_eq, decide_eq_true_eq] at this ⊢
    obtain ⟨j, hj, hfilling, hwords⟩ := this
    exact ⟨j, hj, (same j.run).mpr hfilling, words j hj hwords⟩

/-- Without a FILLING run and a RUNNING capture there is nothing to keep. -/
theorem captureCoherent_of_rest {t : State} (none : ∀ r : Fin 32, t.overlay.runs[r].state ≠ .filling)
    (status : t.capture.status ≠ .running) : CaptureCoherent t :=
  ⟨fun r hr => absurd hr (none r), fun hs => absurd hs status⟩

/-- Checks 2 to 6 of R119: no capture is RUNNING, and the run is neither live nor pinned. -/
theorem State.captureRefusal_none {s : State} {j : CaptureJob} (h : s.captureRefusal j = none) :
    s.capture.status ≠ .running ∧ s.live j.run = false ∧ s.pinned j.run = false := by
  unfold State.captureRefusal at h
  split at h
  · cases h
  · next idle =>
    split at h
    · cases h
    · cases h
    · split at h
      · cases h
      · next live =>
        split at h
        · cases h
        · next pinned => exact ⟨idle, Bool.eq_false_iff.mpr live, Bool.eq_false_iff.mpr pinned⟩

/-- A capture that starts where none runs makes its run the one FILLING run (R120). -/
theorem captureCoherent_of_begun {s t : State} {j : CaptureJob} (h : CaptureCoherent s) (links : LinksKept s t)
    (accepted : s.captureRefusal j = none) (words : 1 ≤ j.length) (overlay : t.overlay = s.overlay.setState j.run .filling)
    (capture : t.capture = ⟨.running, some j, 0, false⟩) : CaptureCoherent t := by
  obtain ⟨idle, live, pinned⟩ := State.captureRefusal_none accepted
  have puts := s.overlay.setState_puts j.run .filling
  rw [← overlay] at puts
  constructor
  · intro r hr
    by_cases hjr : j.run = r
    · subst hjr
      exact ⟨by rw [capture], by simp [capture], (links.live _).trans live, (links.pinned _).trans pinned⟩
    · rw [puts.other hjr] at hr
      exact absurd (h.1 r hr).1 idle
  · intro _
    rw [capture, Option.any_some, puts.same, Bool.and_eq_true]
    exact ⟨rfl, decide_eq_true (show 0 < 8 * j.length by omega)⟩

/-- A capture that ends opens its run, and no other run was FILLING (R123). -/
theorem captureCoherent_of_ended {s t : State} {j : CaptureJob} (h : CaptureCoherent s) (job : s.capture.job = some j)
    (status : t.capture.status ≠ .running) (overlay : t.overlay = s.overlay.setState j.run .opened) :
    CaptureCoherent t := by
  refine captureCoherent_of_rest (fun r hr => ?_) status
  rw [overlay] at hr
  obtain ⟨other, filling⟩ := (s.overlay.setState_puts j.run .opened).state_before (st := .filling) nofun hr
  obtain ⟨-, hjob, -⟩ := h.1 r filling
  exact other (by simpa [job] using hjob)

theorem RunMove.keeps_captureCoherent {s t : State} (move : RunMove s t) (h : CaptureCoherent s) :
    CaptureCoherent t := by
  have unmoved {t : State} (links : LinksKept s t) (capture : t.capture = s.capture)
      (same : s.overlay.SameFilling t.overlay) : CaptureCoherent t :=
    captureCoherent_of_sameFilling h same (by rw [capture]) (by rw [capture]) (fun _ _ hw => by rwa [capture])
      fun r _ hl hp => ⟨(links.live r).trans hl, (links.pinned r).trans hp⟩
  have relinked {u : State} (k : Relinked s u) : CaptureCoherent u :=
    captureCoherent_of_sameFilling h (fun r => by rw [k.overlay]) (by rw [k.capture]) (by rw [k.capture])
      (fun _ _ hw => by rwa [k.capture]) k.spared
  cases move with
  | linked k _ => exact relinked k
  | @tested u k ht =>
    subst ht
    have links : LinksKept u u.releaseTest := ⟨by simp, by simp, by simp⟩
    exact captureCoherent_of_sameFilling (relinked k) u.releaseTest_sameFilling (by simp) (by simp) (by simp)
      fun r _ hl hp => ⟨(links.live r).trans hl, (links.pinned r).trans hp⟩
  | written r w lanes v links capture overlay =>
    exact unmoved links capture fun q => by rw [overlay, Overlay.writeWord_runs]
  | continued links overlay status job words =>
    exact captureCoherent_of_sameFilling h (fun r => by rw [overlay]) status job words
      fun r _ hl hp => ⟨(links.live r).trans hl, (links.pinned r).trans hp⟩
  | begun j links accepted words overlay capture => exact captureCoherent_of_begun h links accepted words overlay capture
  | ended j _ job status overlay => exact captureCoherent_of_ended h job status overlay
  | opened r n links capture state overlay =>
    exact unmoved links capture (overlay ▸ (s.overlay.openRun_puts r n).sameFilling (by rw [state]; nofun) nofun)
  | freed r links capture state overlay =>
    exact unmoved links capture (overlay ▸ (s.overlay.release_puts r).sameFilling (by rw [state]; nofun) nofun)
  | retired r links capture state _ overlay =>
    exact unmoved links capture (overlay ▸ (s.overlay.setState_puts r _).sameFilling (by rw [state]; nofun) nofun)
  | reset overlay status =>
    refine captureCoherent_of_rest (fun r => ?_) status
    rw [overlay]
    exact noRuns_getElem r ▸ nofun

/-! ### The references of RETIRING runs (R53) -/

/-- An operation on one run that does not retire it. -/
theorem Overlay.Puts.notRetiring {o o' : Overlay} {r : Fin 32} {x : Run} (puts : o.Puts r x o')
    (after : x.state ≠ .retiring) (q : Fin 32) (hq : o'.runs[q].state = .retiring) : o.runs[q].state = .retiring :=
  (puts.state_before after hq).2

/-- No run retires anew, and no reference goes. -/
theorem retiringReferenced_of {s t : State} (h : RetiringReferenced s)
    (retiring : ∀ r : Fin 32, t.overlay.runs[r].state = .retiring → s.overlay.runs[r].state = .retiring)
    (referenced : ∀ r, s.referenced r = true → t.referenced r = true) : RetiringReferenced t :=
  fun r hr => referenced r (h r (retiring r hr))

/-- After the release test no RETIRING run is left without a reference. -/
theorem State.releaseTest_retiringReferenced (s : State) : RetiringReferenced s.releaseTest := by
  intro r hr
  rw [State.releaseTest_runs] at hr
  rw [State.releaseTest_referenced]
  split at hr
  · cases hr
  · next kept => exact Bool.of_not_eq_false fun hu => kept ⟨hr, hu⟩

theorem RunMove.keeps_retiringReferenced {s t : State} (move : RunMove s t) (h : RetiringReferenced s) :
    RetiringReferenced t := by
  have kept (links : LinksKept s t)
      (retiring : ∀ r : Fin 32, t.overlay.runs[r].state = .retiring → s.overlay.runs[r].state = .retiring) :
      RetiringReferenced t := retiringReferenced_of h retiring fun r hr => (links.referenced r).trans hr
  cases move with
  | linked k referenced => exact retiringReferenced_of h (fun r hr => k.overlay ▸ hr) referenced
  | tested _ ht => exact ht ▸ State.releaseTest_retiringReferenced _
  | written r w lanes v links _ overlay =>
    exact kept links fun q hq => by rwa [overlay, Overlay.writeWord_runs] at hq
  | continued links overlay _ _ _ => exact kept links fun r hr => overlay ▸ hr
  | begun j links _ _ overlay _ => exact kept links (overlay ▸ (s.overlay.setState_puts j.run _).notRetiring nofun)
  | ended j links _ _ overlay => exact kept links (overlay ▸ (s.overlay.setState_puts j.run _).notRetiring nofun)
  | opened r n links _ _ overlay => exact kept links (overlay ▸ (s.overlay.openRun_puts r n).notRetiring nofun)
  | freed r links _ _ overlay => exact kept links (overlay ▸ (s.overlay.release_puts r).notRetiring nofun)
  | retired r links _ _ referenced overlay =>
    have puts := s.overlay.setState_puts r .retiring
    rw [← overlay] at puts
    intro q hq
    rw [links.referenced]
    by_cases hrq : r = q
    · exact hrq ▸ referenced
    · exact h q (puts.other hrq ▸ hq)
  | reset overlay _ =>
    intro r hr
    rw [overlay] at hr
    cases (congrArg Run.state (noRuns_getElem r)).symm.trans hr

end Sys2Proof.Machine

namespace Sys2Proof

open Sys2Proof.Machine Sys2Proof.Safety

/-- Settles O6: every move of the runs takes pages between the free list and one run at most, and writes overlay RAM in its
canonical form. -/
theorem stepKeepsPagePool : Obligations.StepKeepsPagePool := by
  intro s t hs h
  rw [pooled_iff] at hs ⊢
  exact step_keeps (P := fun s => s.overlay.Pooled) RunMove.keeps_pooled h hs

/-- Settles O13: a change of the maps spares the FILLING runs, a capture starts only where none runs, and its end opens its
run. -/
theorem stepKeepsCaptureCoherent : Obligations.StepKeepsCaptureCoherent :=
  fun _ _ hs h => step_keeps RunMove.keeps_captureCoherent h hs

/-- Settles O14: a reference goes only with the release test behind it, and RUN.FREE retires only a run referred to. -/
theorem stepKeepsRetiringReferenced : Obligations.StepKeepsRetiringReferenced :=
  fun _ _ hs h => step_keeps RunMove.keeps_retiringReferenced h hs

end Sys2Proof
end

section
/-! PROOFS. The page runs and their commands (R41 to R55): what refers to a run, the release test, RUN.OPEN, RUN.WRITE,
RUN.READ, RUN.FREE and RUN.INFO. -/

namespace Sys2Proof.Machine

open Sys2Proof.Claim

/-! ### What refers to a run (R45) -/

theorem refersTo_eq (m : SlotMap) (r : Fin 32) : refersTo m r = mapNames m r := by
  unfold refersTo mapNames
  congr 1
  funext i
  cases m[i] with
  | none => rfl
  | some e =>
    obtain ⟨_, _, _, _, _, _, _, action⟩ := e
    cases action <;> rfl

theorem inFallbackMap_eq (s : State) (r : Fin 32) : inFallbackMap s r = s.inFallback r := by
  unfold inFallbackMap State.inFallback Gen.fallback
  cases s.gen.commit with
  | none | pending => rfl
  | trial t => exact refersTo_eq t.fallback r

theorem isLive_eq (s : State) (r : Fin 32) : isLive s r = s.live r := by
  rw [isLive, refersTo_eq, inFallbackMap_eq]
  rfl

theorem isPinned_eq (s : State) (r : Fin 32) : isPinned s r = s.pinned r := by
  rw [isPinned, refersTo_eq]
  rfl

theorem isReferenced_eq (s : State) (r : Fin 32) : isReferenced s r = s.referenced r := by
  rw [isReferenced, refersTo_eq, isLive_eq, State.live, ← Bool.or_assoc]
  rfl

/-- A row for this unit alone with its request length: its block's reply, and the buffer takes the answer (R164, R165). -/
theorem exec_addressed {i : Instr} {f : Frame} {s : State} {b l : Bool} {r : State → Reply} (h : Addressed f s)
    (row : exec i s = .next (s.receive f b l r)) (length : l = true) :
    exec i s = .next (answered (r s).state f (r s).status (r s).payload) := by
  rw [row, State.receive_addressed h length]

/-! ### The release test (R53) -/

/-- Released runs give their pages in ascending run id, page-list order within a run (R41, R53). -/
theorem releaseAll_free (referenced : Fin 32 → Bool) {rs : List (Fin 32)} (distinct : rs.Nodup) (o : Overlay) :
    (rs.foldl (releaseOne referenced) o).free =
      o.free ++ rs.flatMap fun r =>
        if o.runs[r].state = .retiring ∧ referenced r = false then o.runs[r].pages else [] := by
  induction rs generalizing o with
  | nil => simp
  | cons x rs ih =>
    obtain ⟨fresh, distinct⟩ := List.nodup_cons.mp distinct
    have first : (releaseOne referenced o x).free =
        o.free ++ if o.runs[x].state = .retiring ∧ referenced x = false then o.runs[x].pages else [] := by
      unfold releaseOne
      split
      · rfl
      · rw [List.append_nil]
    have others (r : Fin 32) (hr : r ∈ rs) : (releaseOne referenced o x).runs[r] = o.runs[r] := by
      unfold releaseOne
      split
      · exact (o.release_puts x).other fun h => fresh (h ▸ hr)
      · rfl
    rw [List.foldl_cons, ih distinct, first, List.append_assoc, List.flatMap_cons]
    congr 2
    exact List.flatMap_congr fun r hr => by rw [others r hr]

/-! ### RUN.OPEN (R47, R48) -/

theorem Overlay.unusedRun_none {o : Overlay} (h : ∀ r : Fin 32, o.runs[r].state ≠ .unused) : o.unusedRun = none := by
  rw [Overlay.unusedRun, List.find?_eq_none]
  exact fun r _ => by simpa using h r

theorem Overlay.unusedRun_of_lowest {o : Overlay} {r : Fin 32} (hr : o.runs[r].state = .unused)
    (hlow : ∀ q : Fin 32, q < r → o.runs[q].state ≠ .unused) : o.unusedRun = some r := by
  rw [Overlay.unusedRun, List.find?_eq_some_iff_getElem]
  refine ⟨beq_iff_eq.mpr hr, r.val, by simp, by simp, fun q hq => ?_⟩
  rw [List.getElem_finRange]
  simpa using hlow ⟨q, _⟩ hq

section
variable {n : Byte} {s : State}

theorem runOpenReply_range (h : n.toNat < 1 ∨ 32 < n.toNat) : runOpenReply [n] s = s.refuse .range := by
  rw [runOpenReply]
  exact if_pos h

theorem runOpenReply_noRun (h1 : 1 ≤ n.toNat) (h2 : n.toNat ≤ 32) (hr : s.overlay.unusedRun = none) :
    runOpenReply [n] s = s.refuse .noRun := by
  rw [runOpenReply, hr]
  exact if_neg (show ¬(n.toNat < 1 ∨ 32 < n.toNat) by omega)

theorem runOpenReply_run {r : Fin 32} (h1 : 1 ≤ n.toNat) (h2 : n.toNat ≤ 32) (hr : s.overlay.unusedRun = some r) :
    runOpenReply [n] s =
      if s.overlay.free.length < n.toNat then s.refuse .noSpace
      else ⟨{ s with overlay := s.overlay.openRun r n.toNat }, .ok, [byteOf r.val, n]⟩ := by
  rw [runOpenReply, hr]
  exact if_neg (show ¬(n.toNat < 1 ∨ 32 < n.toNat) by omega)

end

/-! ### Words of a run (R44) -/

theorem Run.locate_eq (r : Run) (w : Nat) : r.locate w = wordPlace r.pages w := rfl

/-- With distinct pages no two words of a run share a byte (R44). -/
theorem Run.locate_disjoint {r : Run} (distinct : r.pages.Nodup) {v w x y : Nat} (hne : v ≠ w)
    (hv : r.locate v = some x) (hw : r.locate w = some y) : x ≠ y ∧ x ≠ y + 1 ∧ x + 1 ≠ y := by
  simp only [Run.locate, Option.map_eq_some_iff] at hv hw
  obtain ⟨p, hp, rfl⟩ := hv
  obtain ⟨q, hq, rfl⟩ := hw
  have apart : p.val ≠ q.val ∨ v % 128 ≠ w % 128 := by
    by_contra hboth
    obtain ⟨hpage, hword⟩ := not_or.mp hboth
    obtain rfl : p = q := Fin.ext (not_not.mp hpage)
    have inRange := (List.getElem?_eq_some_iff.mp hp).1
    have := (List.getElem?_inj inRange distinct).mp (hp.trans hq.symm)
    omega
  omega

/-- Words written change overlay RAM alone. -/
theorem Overlay.writeWords_eq (o : Overlay) (r : Fin 32) (w : Nat) (vs : List Word) :
    o.writeWords r w vs = { o with ram := (o.writeWords r w vs).ram } := by
  have runs := o.writeWords_runs r w vs
  have free := o.writeWords_free r w vs
  cases h : o.writeWords r w vs
  rw [h] at runs free
  rw [← runs, ← free]

/-- Consecutive words written to a run with distinct pages are read back, each at its place (R44, R49). -/
theorem Overlay.writeWords_read {o : Overlay} {r : Fin 32} (distinct : o.runs[r].pages.Nodup)
    (hm : Memory.wf o.ram = true) {w k x : Nat} {vs : List Word} {v : Word} (hk : vs[k]? = some v)
    (hx : o.runs[r].locate (w + k) = some x) : ramReadWord (o.writeWords r w vs).ram x = v := by
  induction vs generalizing o w k with
  | nil => simp at hk
  | cons u vs ih =>
    have wf := Overlay.writeWord_wf o r w .both u hm
    rw [Overlay.writeWords]
    cases k with
    | zero =>
      obtain rfl : u = v := by simpa using hk
      have apart (j y : Nat) (hy : (o.writeWord r w .both u).runs[r].locate (w + 1 + j) = some y) :
          x ≠ y ∧ x ≠ y + 1 ∧ x + 1 ≠ y := by
        rw [Overlay.writeWord_runs] at hy
        exact Run.locate_disjoint distinct (by omega) hx hy
      have stands (b : Nat) (hb : b = x ∨ b = x + 1) :
          ramRead ((o.writeWord r w .both u).writeWords r (w + 1) vs).ram b =
            ramRead (o.writeWord r w .both u).ram b :=
        Overlay.writeWords_read_other _ _ _ _ _ fun j y _ hy => by
          have := apart j y hy
          omega
      rw [ramReadWord, stands x (.inl rfl), stands (x + 1) (.inr rfl)]
      unfold Overlay.writeWord
      rw [show o.runs[r].locate w = some x from hx]
      exact ramReadWord_ramWriteLanes_both _ _ (Run.locate_bounds hx).1 hm
    | succ k =>
      refine ih (by rwa [Overlay.writeWord_runs]) wf (by simpa using hk) ?_
      rw [Overlay.writeWord_runs, ← hx]
      congr 1
      omega

/-- The words of a run as RUN.READ sends them, byte by byte (R50). -/
theorem Overlay.readWords_bytes (o : Overlay) (r : Fin 32) (w n : Nat) :
    (o.readWords r w n).flatMap wordBytes =
      (List.range n).flatMap fun k =>
        match wordPlace o.runs[r].pages (w + k) with
        | some x => [ramRead o.ram (x + 1), ramRead o.ram x]
        | none => [0xFF#8, 0xFF#8] := by
  induction n generalizing w with
  | zero => rfl
  | succ n ih =>
    rw [Overlay.readWords, List.flatMap_cons, ih, List.range_succ_eq_map, List.flatMap_cons, List.flatMap_map]
    congr 1
    · rw [Overlay.readWord, Run.locate_eq, Nat.add_zero]
      cases wordPlace o.runs[r].pages w with
      | none => exact (by decide : wordBytes 0xFFFF#16 = [0xFF#8, 0xFF#8])
      | some x => exact wordBytes_wordAt _ _
    · refine List.flatMap_congr fun k _ => ?_
      rw [show w + 1 + k = w + k.succ by omega]

/-! ### RUN.WRITE (R49) -/

theorem wordsAt_cons (b : Byte) (p : List Byte) (i n : Nat) : wordsAt (b :: p) (i + 1) n = wordsAt p i n := by
  induction n generalizing i with
  | zero => rfl
  | succ n ih =>
    rw [wordsAt, wordsAt, ih]
    simp only [wordAt, byteAt_cons_succ]

/-- Data words sent most significant byte first are read back (R167). -/
theorem wordsAt_flatMap (data : List Word) :
    wordsAt (data.flatMap fun v => inTwo v.toNat) 0 data.length = data := by
  induction data with
  | nil => rfl
  | cons v data ih =>
    rw [List.flatMap_cons, ← wordBytes_inTwo, List.length_cons, wordsAt, wordAt_wordBytes]
    congr 1
    exact (wordsAt_cons _ _ _ _).trans ((wordsAt_cons _ _ _ _).trans ih)

section
variable {p : List Byte} {s : State} {r : Fin 32}

theorem runWriteReply_range (h : 31 < (byteAt p 0).toNat ∨ byteAt p 3 = 0#8 ∨ 16 < (byteAt p 3).toNat) :
    runWriteReply p s = s.refuse .range := by
  unfold runWriteReply
  dsimp only
  split
  · rfl
  · next r hr =>
    have hid := index32_eq_some.mp hr
    have hcount : (byteAt p 3).toNat < 1 ∨ 16 < (byteAt p 3).toNat := by
      rcases h with h | h | h
      · omega
      · rw [h]
        exact .inl Nat.zero_lt_one
      · exact .inr h
    rw [if_pos hcount]

/-- Checks 2 to 7 of R49 are the run's state, its references and its capacity. -/
theorem runWriteRefusal_eq (s : State) (r : Fin 32) (w count : Nat) :
    runWriteRefusal s r w count =
      (s.writeRefusal r).or (if w + count ≤ s.overlay.runs[r].words then none else some .range) := by
  have words : s.overlay.runs[r].words = 128 * s.overlay.runs[r].pages.length := by
    rw [Run.words, Run.capacity, Run.pageCount]
    omega
  have fits : (if 128 * s.overlay.runs[r].pages.length < w + count then some Status.range else none) =
      if w + count ≤ 128 * s.overlay.runs[r].pages.length then none else some .range := by
    rw [← ite_not]
    simp only [Nat.not_lt]
  unfold runWriteRefusal State.writeRefusal
  rw [words, isLive_eq, isPinned_eq, fits]
  cases s.overlay.runs[r].state with
  | unused | filling | retiring => rfl
  | opened =>
    dsimp only
    cases s.live r
    · cases s.pinned r <;> rfl
    · rfl

/-- RUN.WRITE with its run and its count in range. -/
theorem runWriteReply_run (hr : index32 (byteAt p 0) = some r) (h1 : 1 ≤ (byteAt p 3).toNat)
    (h2 : (byteAt p 3).toNat ≤ 16) :
    runWriteReply p s =
      (runWriteRefusal s r (wordAt p 1).toNat (byteAt p 3).toNat).elim
        ⟨{ s with overlay :=
            s.overlay.writeWords r (wordAt p 1).toNat (wordsAt p 4 (byteAt p 3).toNat) }, .ok, []⟩
        s.refuse := by
  have count : ¬((byteAt p 3).toNat < 1 ∨ 16 < (byteAt p 3).toNat) := by omega
  rw [runWriteRefusal_eq]
  simp only [runWriteReply, hr, if_neg count]
  cases s.writeRefusal r with
  | some refusal => rfl
  | none =>
    dsimp only
    split <;> rfl

/-- What the bytes of a RUN.WRITE carry (R167). -/
theorem runWrite_payload {w : Nat} {data : List Word} (h2 : data.length ≤ 16) (hw : w ≤ 65535)
    (hp : p = BitVec.ofNat 8 r.val :: (inTwo w ++ BitVec.ofNat 8 data.length :: data.flatMap fun v => inTwo v.toNat)) :
    p.length = 4 + 2 * data.length ∧ index32 (byteAt p 0) = some r ∧ (wordAt p 1).toNat = w ∧
      (byteAt p 3).toNat = data.length ∧ wordsAt p 4 data.length = data := by
  subst hp
  refine ⟨?_, ?_, ?_, ?_, ?_⟩
  · simp [inTwo, Nat.mul_comm]
    omega
  · rw [byteAt_cons_zero, index32_eq_some, BitVec.toNat_ofNat]
    omega
  · rw [wordAt_toNat]
    exact inTwo_value (by omega)
  · change (BitVec.ofNat 8 data.length).toNat = data.length
    rw [BitVec.toNat_ofNat]
    omega
  · simp only [inTwo, List.cons_append, List.nil_append]
    rw [wordsAt_cons, wordsAt_cons, wordsAt_cons, wordsAt_cons]
    exact wordsAt_flatMap data

end

/-! ### RUN.READ and RUN.INFO (R50, R55) -/

section
variable {s : State} {b c : Byte} {w : Nat} {r : Fin 32}

theorem runReadReply_range (h : 31 < b.toNat ∨ c = 0#8 ∨ 16 < c.toNat) :
    runReadReply (b :: (inTwo w ++ [c])) s = s.refuse .range := by
  unfold runReadReply
  dsimp only
  split
  · rfl
  · next r hr =>
    have hid : r.val = b.toNat := index32_eq_some.mp hr
    have hcount : c.toNat < 1 ∨ 16 < c.toNat := by
      rcases h with h | rfl | h
      · omega
      · exact .inl Nat.zero_lt_one
      · exact .inr h
    exact if_pos hcount

theorem runReadReply_run (hr : r.val = b.toNat) (h1 : 1 ≤ c.toNat) (h2 : c.toNat ≤ 16) (hw : w ≤ 65535) :
    runReadReply (b :: (inTwo w ++ [c])) s =
      if s.overlay.runs[r].state = .unused then s.refuse .noRun
      else if 128 * s.overlay.runs[r].pages.length < w + c.toNat then s.refuse .range
      else ⟨s, .ok, b :: (inTwo w ++ c :: (s.overlay.readWords r w c.toNat).flatMap wordBytes)⟩ := by
  have run : index32 (byteAt (b :: (inTwo w ++ [c])) 0) = some r := index32_eq_some.mpr hr
  have count : ¬((byteAt (b :: (inTwo w ++ [c])) 3).toNat < 1 ∨ 16 < (byteAt (b :: (inTwo w ++ [c])) 3).toNat) :=
    show ¬(c.toNat < 1 ∨ 16 < c.toNat) by omega
  have offset : (wordAt (b :: (inTwo w ++ [c])) 1).toNat = w := by
    rw [wordAt_toNat]
    exact inTwo_value (by omega)
  have fits : w + (byteAt (b :: (inTwo w ++ [c])) 3).toNat ≤ s.overlay.runs[r].words ↔
      ¬128 * s.overlay.runs[r].pages.length < w + c.toNat := by
    change w + c.toNat ≤ 8 * (16 * s.overlay.runs[r].pages.length) ↔ _
    omega
  simp only [runReadReply, run, if_neg count, wordBytes_inTwo, offset, fits, ite_not]
  rfl

theorem runInfoReply_range (h : 31 < b.toNat) : runInfoReply [b] s = s.refuse .range := by
  rw [runInfoReply, show index32 (byteAt [b] 0) = none from index32_eq_none.mpr h]

/-- Five flags, the first in bit 0 (R169). -/
theorem flagsByte_five (a b c d e : Bool) :
    flagsByte [a, b, c, d, e] =
      BitVec.ofNat 8 (a.toNat + 2 * b.toNat + 4 * c.toNat + 8 * d.toNat + 16 * e.toNat) := by
  revert a b c d e
  decide

theorem State.referenceFlags_eq (s : State) (r : Fin 32) :
    s.referenceFlags r =
      BitVec.ofNat 8
        ((refersTo s.maps.staged r).toNat + 2 * (refersTo s.maps.active r).toNat + 4 * (inFallbackMap s r).toNat
          + 8 * (isLive s r).toNat + 16 * (isPinned s r).toNat) := by
  rw [State.referenceFlags, flagsByte_five, refersTo_eq, refersTo_eq, inFallbackMap_eq, isLive_eq, isPinned_eq]
  rfl

theorem RunState.code_eq (st : RunState) : st.code = runStateValue st := by
  cases st <;> rfl

theorem byteOf_toNat {n : Nat} (h : n = b.toNat) : byteOf n = b := by
  rw [byteOf, h, BitVec.ofNat_toNat, BitVec.setWidth_eq]

/-- RUN.INFO's answer, in the layout of R55. -/
theorem runInfoReply_run (hr : r.val = b.toNat) :
    runInfoReply [b] s =
      ⟨s, .ok,
        [b, runStateValue s.overlay.runs[r].state, BitVec.ofNat 8 s.overlay.runs[r].pages.length]
          ++ inTwo (16 * s.overlay.runs[r].pages.length)
          ++ [BitVec.ofNat 8
              ((refersTo s.maps.staged r).toNat + 2 * (refersTo s.maps.active r).toNat + 4 * (inFallbackMap s r).toNat
                + 8 * (isLive s r).toNat + 16 * (isPinned s r).toNat),
            BitVec.ofNat 8 s.overlay.free.length]
          ++ s.overlay.runs[r].pages.map fun page => BitVec.ofNat 8 page.val⟩ := by
  rw [runInfoReply, show index32 (byteAt [b] 0) = some r from index32_eq_some.mpr hr]
  dsimp only
  rw [byteOf_toNat hr, RunState.code_eq, countBytes_inTwo, State.referenceFlags_eq]
  rfl

/-! ### RUN.FREE (R51, R52) -/

theorem runFreeReply_range (h : 31 < b.toNat) : runFreeReply [b] s = s.refuse .range := by
  rw [runFreeReply, show index32 (byteAt [b] 0) = none from index32_eq_none.mpr h]

/-- RUN.FREE of a run, by its state (R51, R52). -/
theorem runFreeReply_run (hr : r.val = b.toNat) :
    runFreeReply [b] s =
      match s.overlay.runs[r].state with
      | .unused => s.refuse .noRun
      | .filling => s.refuse .busy
      | .retiring => ⟨s, .ok, [b, 3#8]⟩
      | .opened =>
        if isReferenced s r then ⟨{ s with overlay := s.overlay.setState r .retiring }, .ok, [b, 3#8]⟩
        else ⟨{ s with overlay := s.overlay.release r }, .ok, [b, 0#8]⟩ := by
  rw [runFreeReply, show index32 (byteAt [b] 0) = some r from index32_eq_some.mpr hr, isReferenced_eq]
  simp only [freeAnswer, byteOf_toNat hr]
  cases s.overlay.runs[r].state <;> rfl

end

end Sys2Proof.Machine

namespace Sys2Proof

open Sys2Proof.Machine Sys2Proof.Claim Sys2Proof.Safety

/-- Settles O39: the runs come from `State.releaseTest_runs`, the free list by induction on the run ids. -/
theorem releaseTestFreesUnreferenced : Obligations.ReleaseTestFreesUnreferenced := by
  intro s
  have goes (r : Fin 32) : ((s.overlay.runs[r].state == .retiring && !isReferenced s r) = true) ↔
      (s.overlay.runs[r].state = .retiring ∧ s.referenced r = false) := by
    rw [isReferenced_eq, Bool.and_eq_true, beq_iff_eq, Bool.not_eq_true']
  refine ⟨?_, s.releaseTest_ram, fun r => ?_, ?_⟩
  · simp only [State.releaseTest]
  · simp only [goes, State.releaseTest_runs]
  · simp only [goes, State.releaseTest_overlay, releaseAll_free _ (List.nodup_finRange 32)]

/-- Settles O35: the lowest UNUSED run is the one the Run Manager's search finds, and the fill reaches its pages alone. -/
theorem runOpenTakesPages : Obligations.RunOpenTakesPages := by
  intro f s n h hn
  rw [exec_addressed (i := .runOpen f) h rfl (by simp [payloadIs, hn]), hn]
  refine ⟨fun hrange => ?_, fun h1 h2 hnone => ?_, fun r h1 h2 hr hlow => ?_⟩
  · rw [runOpenReply_range hrange]
    rfl
  · rw [runOpenReply_noRun h1 h2 (Overlay.unusedRun_none hnone)]
    rfl
  · rw [runOpenReply_run h1 h2 (Overlay.unusedRun_of_lowest hr hlow)]
    refine ⟨fun hfew => ?_, fun henough => ⟨(s.overlay.openRun r n.toNat).ram, ?_, fun b => ?_⟩⟩
    · rw [if_pos hfew]
      rfl
    · rw [if_neg (Nat.not_lt.mpr henough)]
      rfl
    · exact s.overlay.openRun_read r n.toNat b

/-- Settles O36: the words written are read back since no two words of the run share a byte. -/
theorem runWriteStoresWords : Obligations.RunWriteStoresWords := by
  intro f s h
  have reply (length : f.payload.length = 4 + 2 * (byteAt f.payload 3).toNat) :=
    exec_addressed (i := .runWrite f) h rfl (by simp [runWriteLength, length])
  refine ⟨fun length hrange => ?_, fun r w data h1 h2 hw hp => ?_⟩
  · rw [reply length, runWriteReply_range hrange]
    rfl
  · obtain ⟨length, run, offset, count, words⟩ := runWrite_payload h2 hw hp
    rw [reply (by rw [length, count]), runWriteReply_run run (by omega) (by omega), offset, count, words]
    refine ⟨fun refusal href => ?_, fun hnone => ⟨(s.overlay.writeWords r w data).ram, ?_, fun b hb => ?_, ?_⟩⟩
    · rw [href]
      rfl
    · rw [hnone, Option.elim_none]
      rw [← Overlay.writeWords_eq]
    · exact Overlay.writeWords_read_other _ _ _ _ _ hb
    · exact fun canonical distinct k x v hk hx => Overlay.writeWords_read distinct canonical hk hx

/-- Settles O37: the words are those of `Overlay.readWords_bytes`, and the flags those of R45. -/
theorem runReadAndInfoReport : Obligations.RunReadAndInfoReport := by
  refine ⟨fun f s b c w h hw hp => ?_, fun f s b h hp => ?_⟩
  · rw [exec_addressed (i := .runRead f) h rfl (by simp [payloadIs, hp, inTwo]), hp]
    refine ⟨fun hrange => ?_, fun r hr h1 h2 => ?_⟩
    · rw [runReadReply_range hrange]
      rfl
    · rw [runReadReply_run hr h1 h2 hw, Overlay.readWords_bytes]
      (repeat' split) <;> rfl
  · rw [exec_addressed (i := .runInfo f) h rfl (by simp [payloadIs, hp]), hp]
    refine ⟨fun hrange => ?_, fun r hr => ?_⟩
    · rw [runInfoReply_range hrange]
      rfl
    · rw [runInfoReply_run hr]

/-- Settles O38: the run's state decides, and of an OPEN run its references. -/
theorem runFreeReleasesOrRetires : Obligations.RunFreeReleasesOrRetires := by
  intro f s b h hp
  rw [exec_addressed (i := .runFree f) h rfl (by simp [payloadIs, hp]), hp]
  refine ⟨fun hrange => ?_, fun r hr => ?_⟩
  · rw [runFreeReply_range hrange]
    rfl
  · rw [runFreeReply_run hr]
    cases s.overlay.runs[r].state with
    | unused | filling | retiring => rfl
    | opened =>
      dsimp only
      split <;> rfl

end Sys2Proof
end

section
/-! PROOFS. The commands of Generation Control (R58 to R72) and the expiry of a trial window: COMMIT, COMMIT.CANCEL,
TRIAL.CONFIRM, TRIAL.REVERT and TRIAL_WINDOW_EXPIRY. -/

namespace Sys2Proof.Machine

open Sys2Proof.Claim

/-! ### The changes of Active (R65, R69, R72) -/

theorem State.takeEffect_eq (s : State) (p : PendingCommit) : s.takeEffect p = committed s p := rfl

theorem State.confirm_eq (s : State) (cause : ConfirmCause) : s.confirm cause = confirmed s cause := rfl

theorem State.revert_eq (s : State) (t : Trial) (cause : RevertCause) : s.revert t cause = reverted s t cause := rfl

/-! ### A COMMIT's fields (R58 check 3, R167) -/

/-- A boundary above 3, or MARK with an odd address. -/
theorem boundary?_eq_none {p : List Byte}
    (h : 3 < (byteAt p 0).toNat ∨ byteAt p 0 = 2#8 ∧ (byteAt p 3).toNat % 2 = 1) : boundary? p = none := by
  unfold boundary?
  rcases h with above | ⟨isMark, odd⟩
  · split
    case h_5 => rfl
    all_goals omega
  · have parity : (addrAt p 1).toNat % 2 ≠ 0 := by
      rw [addrAt_toNat]
      change (65536 * (byteAt p 1).toNat + (256 * (byteAt p 2).toNat + (byteAt p 3).toNat)) % 2 ≠ 0
      omega
    rw [isMark]
    exact if_neg parity

/-- A boundary is read back from its value and, for MARK, its even address. -/
theorem boundary?_boundaryValue {b : Boundary} {mark : Addr} (rest : List Byte)
    (h : ∀ a, b = .mark a → a = mark ∧ mark.toNat % 2 = 0) :
    boundary? (boundaryValue b :: (inThree mark.toNat ++ rest)) = some b := by
  cases b with
  | now | epoch | reset => rfl
  | mark a =>
    obtain ⟨rfl, even⟩ := h a rfl
    have address : addrAt (boundaryValue (.mark a) :: (inThree a.toNat ++ rest)) 1 = a := by
      apply BitVec.eq_of_toNat_eq
      rw [addrAt_toNat]
      exact inThree_value a.isLt
    unfold boundary?
    rw [address]
    exact if_pos even

theorem flag?_eq_none {b : Byte} (h : 1 < b.toNat) : flag? b = none := by
  unfold flag?
  split
  case h_3 => rfl
  all_goals omega

theorem flag?_yes_no (x : Bool) : flag? (if x then 1#8 else 0#8) = some x := by
  cases x <;> rfl

/-! ### The slots of Staged that name a FILLING run (R58 check 4) -/

theorem State.fillingSlot_eq (s : State) : s.fillingSlot = (List.finRange 32).find? (namesFilling s) := by
  unfold State.fillingSlot
  congr 1
  funext i
  unfold namesFilling
  cases s.maps.staged[i] with
  | none => rfl
  | some e =>
    obtain ⟨_, _, _, _, _, _, _, action⟩ := e
    cases action <;> rfl

theorem State.fillingSlot_of_lowest {s : State} {i : Fin 32} (hi : namesFilling s i = true)
    (hlow : ∀ j : Fin 32, j < i → namesFilling s j = false) : s.fillingSlot = some i := by
  rw [State.fillingSlot_eq, List.find?_eq_some_iff_getElem]
  refine ⟨hi, i.val, by simp, by simp, fun j hj => ?_⟩
  rw [List.getElem_finRange, hlow _ hj]
  rfl

theorem State.fillingSlot_none {s : State} (h : ∀ i : Fin 32, namesFilling s i = false) : s.fillingSlot = none := by
  simp [State.fillingSlot_eq, h]

/-! ### COMMIT (R58 to R60, R65) -/

section
variable {s : State} {p : List Byte}

theorem commitReply_pending {q : PendingCommit} (h : s.gen.commit = .pending q) : commitReply p s = s.refuse .pending := by
  rw [commitReply, h]

theorem commitReply_trialOpen {t : Trial} (h : s.gen.commit = .trial t) : commitReply p s = s.refuse .trialOpen := by
  rw [commitReply, h]

theorem commitReply_range (h : s.gen.commit = .none) (bad : boundary? p = none ∨ flag? (byteAt p 4) = none) :
    commitReply p s = s.refuse .range := by
  simp only [commitReply, h]
  split
  · next hb hf => simp [hb, hf] at bad
  · rfl

/-- A COMMIT with no commit pending, no trial open and its fields in range: Staged decides. -/
theorem commitReply_fields (h : s.gen.commit = .none) {b : Boundary} {trial : Bool} (hb : boundary? p = some b)
    (hf : flag? (byteAt p 4) = some trial) :
    commitReply p s =
      s.fillingSlot.elim (commitAnswer (s.acceptCommit ⟨b, trial, byteAt p 5, false⟩))
        fun i => ⟨s, .invalid, [byteOf i.val]⟩ := by
  simp only [commitReply, h, hb, hf]
  cases s.fillingSlot <;> rfl

end

/-- A COMMIT accepted answers with the commit state and the generation number that it leaves (R59). -/
theorem answered_acceptCommit (s : State) (f : Frame) (q : PendingCommit) :
    answered (s.acceptCommit q) f .ok
        ((s.acceptCommit q).gen.commit.code :: wordBytes (s.acceptCommit q).gen.generation) =
      commitTaken s f q := by
  rw [wordBytes_inTwo]
  unfold State.acceptCommit commitTaken
  split
  · split
    · rfl
    · rw [State.takeEffect_gen, State.trialOf, State.takeEffect_eq]
      cases q.trial <;> rfl
  · rfl

/-! ### COMMIT.CANCEL (R67) -/

theorem commitCancelReply_waiting {s : State} {p : PendingCommit} (h : s.gen.commit = .pending p) (hd : p.due = false) :
    commitCancelReply s = ⟨{ s with gen := { s.gen with commit := .none } }, .ok, []⟩ := by
  simp [commitCancelReply, h, hd]

theorem commitCancelReply_notPending {s : State} (h : ∀ p, s.gen.commit = .pending p → p.due = true) :
    commitCancelReply s = s.refuse .notPending := by
  unfold commitCancelReply
  split
  · next p hp => exact if_pos (h p hp)
  · rfl

/-! ### TRIAL.CONFIRM and TRIAL.REVERT (R70, R71) -/

section
variable {s : State}

theorem trialConfirmReply_open {t : Trial} (h : s.gen.commit = .trial t) (hd : t.revertDue = false) :
    trialConfirmReply s = ⟨confirmed s .command, .ok, inTwo s.gen.generation.toNat⟩ := by
  simp only [trialConfirmReply, h, hd, Bool.false_eq_true, if_false, generationAnswer, wordBytes_inTwo, State.confirm_gen]
  rfl

theorem trialRevertReply_open {t : Trial} (h : s.gen.commit = .trial t) (hd : t.revertDue = false) :
    trialRevertReply s =
      if s.inFlight then
        ⟨{ s with gen := { s.gen with commit := .trial t.reverting } }, .ok, inTwo s.gen.generation.toNat⟩
      else ⟨reverted s t .command, .ok, inTwo (s.gen.generation + 1).toNat⟩ := by
  simp only [trialRevertReply, h, hd, Bool.false_eq_true, if_false, generationAnswer, wordBytes_inTwo, State.revert_gen]
  rfl

theorem trialConfirmReply_noTrial (h : ∀ t, s.gen.commit = .trial t → t.revertDue = true) :
    trialConfirmReply s = s.refuse .noTrial := by
  unfold trialConfirmReply
  split
  · next t ht => exact if_pos (h t ht)
  · rfl

theorem trialRevertReply_noTrial (h : ∀ t, s.gen.commit = .trial t → t.revertDue = true) :
    trialRevertReply s = s.refuse .noTrial := by
  unfold trialRevertReply
  split
  · next t ht => exact if_pos (h t ht)
  · rfl

end

/-! ### The last boundary of a trial window (R68, R84) -/

section
variable {s : State} {t : Trial}

/-- The boundary that brings window remaining to 0 confirms the trial (R68). -/
theorem State.epochReported_lastWindow (h : s.gen.commit = .trial t) (armed : t.armed = true)
    (last : t.windowRemaining = 1#8) : s.epochReported = confirmed s .window := by
  simp only [State.epochReported, h, armed, last, if_true]
  exact if_pos (BitVec.le_refl _)

/-- An epoch boundary posts EPOCH and is then reported to Generation Control (R84). -/
theorem State.seqNews_boundary_lastWindow (h : s.gen.commit = .trial t) (armed : t.armed = true)
    (last : t.windowRemaining = 1#8) (q : Seq) :
    s.seqNews (q, { boundary := true }) =
      confirmed (State.post (.epoch q.epochNumber) { s with seq := q }) .window :=
  State.epochReported_lastWindow (t := t) h armed last

theorem CommitState.lastWindow_trial (armed : t.armed = true) (last : t.windowRemaining = 1#8) :
    (CommitState.trial t).lastWindow = true := by
  simp [CommitState.lastWindow, armed, last]

end

/-- A rising edge accepted in SYNC_RESTART mode is an epoch boundary (R91). -/
theorem Seq.transition_restarts {q : Seq} (hm : q.config.mode = .syncRestart) (hp : q.config.polarity = .rising)
    (ha : q.accepted = false) : q.transition = ((q.sample true).boundary, { boundary := true }) := by
  have edge : (q.sample true).edge = ((q.sample true).boundary, { boundary := true }) := by
    rw [Seq.edge, show (q.sample true).config.mode = .syncRestart from hm]
  rw [Seq.transition, ha, hp, Bool.not_false, edge]
  rfl

theorem State.bringAbout_restart {s : State} (listens : s.Listens) (noReset : s.mpu.softReset = none) :
    s.takesBroadcast = true ∧ s.bringAbout .restart = s.seqRestart := by
  have taken : s.takesBroadcast = true := by simp [State.takesBroadcast, listens.1, noReset]
  refine ⟨taken, ?_⟩
  rw [State.bringAbout, if_pos taken, State.mcsHigh_eq listens]

theorem State.bringAbout_transition {s : State} (hr : s.pins.resetN = false) :
    s.bringAbout .transition =
      { s with pins := { s.pins with epoch := !s.seq.accepted } }.seqNews s.seq.transition :=
  if_neg (by simp [hr])

/-- A row TRIAL_WINDOW_EXPIRY whose event expires the window is that event, whole (log 3). -/
theorem exec_trialWindowExpiry {s : State} {c : Cause} (h : s.expiresWindow c = true) :
    exec (.trialWindowExpiry c) s = .next (s.bringAbout c) := by
  change Host.Outcome.next (s.bringAboutIf c (s.expiresWindow c)) = _
  rw [State.bringAboutIf, if_pos h]

end Sys2Proof.Machine

namespace Sys2Proof

open Sys2Proof.Machine Sys2Proof.Claim Sys2Proof.Safety

/-- Settles O40: the checks of R58 one after the other, and `answered_acceptCommit` where none applies. -/
theorem commitAcceptedOrRefused : Obligations.CommitAcceptedOrRefused := by
  intro f s h length
  rw [exec_addressed (i := .commit f) h rfl (by simp [payloadIs, length])]
  refine ⟨fun p hp => ?_, fun t ht => ?_, fun hnone => ⟨fun bad => ?_, fun b mark trial window hp hmark => ?_⟩⟩
  · rw [commitReply_pending hp]
    rfl
  · rw [commitReply_trialOpen ht]
    rfl
  · have refused : boundary? f.payload = none ∨ flag? (byteAt f.payload 4) = none := by
      rcases bad with above | odd | flag
      · exact .inl (boundary?_eq_none (.inl above))
      · exact .inl (boundary?_eq_none (.inr odd))
      · exact .inr (flag?_eq_none flag)
    rw [commitReply_range hnone refused]
    rfl
  · have boundary : boundary? f.payload = some b := hp ▸ boundary?_boundaryValue _ hmark
    have flag : flag? (byteAt f.payload 4) = some trial := hp ▸ flag?_yes_no trial
    have count : byteAt f.payload 5 = window := hp ▸ rfl
    rw [commitReply_fields hnone boundary flag, count]
    refine ⟨fun i hi hlow => ?_, fun hslots => ?_⟩
    · rw [State.fillingSlot_of_lowest hi hlow]
      rfl
    · rw [State.fillingSlot_none hslots]
      exact congrArg _ (answered_acceptCommit s f _)

/-- Settles O42: an open trial whose revert does not wait, and every other state. -/
theorem trialConfirmAndRevert : Obligations.TrialConfirmAndRevert := by
  intro f s h hp
  have length : payloadIs f 0 = true := by simp [payloadIs, hp]
  rw [exec_addressed (i := .trialConfirm f) h rfl length, exec_addressed (i := .trialRevert f) h rfl length]
  refine ⟨fun t ht hd => ?_, fun hno => ?_⟩
  · rw [trialConfirmReply_open ht hd, trialRevertReply_open ht hd]
    refine ⟨rfl, ?_⟩
    split <;> rfl
  · rw [trialConfirmReply_noTrial hno, trialRevertReply_noTrial hno]
    exact ⟨rfl, rfl⟩

/-- Settles O44: both events are epoch boundaries with the window at its last count. -/
theorem trialWindowExpiryConfirms : Obligations.TrialWindowExpiryConfirms := by
  intro t s listening ht armed last
  have lastWindow : s.gen.commit.lastWindow = true := ht ▸ CommitState.lastWindow_trial armed last
  refine ⟨fun noReset => ?_, fun hmode hpol hacc => ?_⟩
  · obtain ⟨taken, restart⟩ := State.bringAbout_restart listening noReset
    rw [exec_trialWindowExpiry (by simp [State.expiresWindow, lastWindow, taken]), restart]
    exact congrArg _ (State.seqNews_boundary_lastWindow ht armed last _)
  · have edge := Seq.transition_restarts hmode hpol hacc
    rw [exec_trialWindowExpiry (by simp [State.expiresWindow, lastWindow, listening.1, edge]),
      State.bringAbout_transition listening.1, edge, hacc]
    exact congrArg _
      (State.seqNews_boundary_lastWindow (s := { s with pins := { s.pins with epoch := true } }) ht armed last _)

/-- Settles O41: a commit waiting for its boundary, and every other state. -/
theorem commitCancelRemovesPending : Obligations.CommitCancelRemovesPending := by
  intro f s h hp
  rw [exec_addressed (i := .commitCancel f) h rfl (by simp [payloadIs, hp])]
  refine ⟨fun p hpending hd => ?_, fun hno => ?_⟩
  · rw [commitCancelReply_waiting hpending hd]
  · rw [commitCancelReply_notPending hno]
    rfl

end Sys2Proof
end

section
/-! PROOFS. The status commands (R76, R94, R116, R130, R144, R173): each block's answer in the layouts of 10.5. -/

namespace Sys2Proof.Machine

open Sys2Proof.Claim

/-! ### Values and flags (R169) -/

theorem CommitState.code_eq (c : CommitState) : c.code = commitValue c := by
  cases c <;> rfl

theorem Boundary.code_eq (b : Boundary) : b.code = boundaryValue b := by
  cases b <;> rfl

theorem Owner.code_eq (o : Owner) : o.code = ownerValue o := by
  cases o <;> rfl

theorem CaptureStatus.code_eq (st : CaptureStatus) : st.code = captureValue st := by
  cases st <;> rfl

theorem JournalPolicy.code_eq (p : JournalPolicy) : p.code = if p = .keepOldest then 0#8 else 1#8 := by
  cases p <;> rfl

theorem flagByte_eq (b : Bool) : flagByte b = if b then 1#8 else 0#8 := by
  cases b <;> rfl

theorem flagsByte_two (a b : Bool) : flagsByte [a, b] = BitVec.ofNat 8 (a.toNat + 2 * b.toNat) := by
  revert a b
  decide

theorem flagsByte_three (a b c : Bool) :
    flagsByte [a, b, c] = BitVec.ofNat 8 (a.toNat + 2 * b.toNat + 4 * c.toNat) := by
  revert a b c
  decide

theorem flagsByte_four (a b c d : Bool) :
    flagsByte [a, b, c, d] = BitVec.ofNat 8 (a.toNat + 2 * b.toNat + 4 * c.toNat + 8 * d.toNat) := by
  revert a b c d
  decide

/-! ### Layouts (R167, R169) -/

theorem longBytes_inFour (w : BitVec 32) : longBytes w = inFour w.toNat := by
  have shifted : w.toNat / 65536 / 256 = w.toNat / 16777216 := by rw [Nat.div_div_eq_div_mul]
  rw [longBytes_eq, ← shifted]
  rfl

theorem SeqConfig.bytes_eq (c : SeqConfig) : c.bytes = configLayout c := by
  unfold SeqConfig.bytes configLayout
  simp only [wordBytes_inTwo, addrBytes_inThree]
  rfl

theorem Device.bytes_eq (d : Device) : d.bytes = deviceLayout d := by
  unfold Device.bytes deviceLayout
  cases d.state with
  | absent | online =>
    dsimp only
    rw [flagByte_eq]
    rfl
  | fenced addr owner =>
    dsimp only
    rw [flagByte_eq, addrBytes_inThree, Owner.code_eq]
    rfl

/-- The bytes of GEN.STATUS that depend on the commit state, with a commit pending (R76). -/
theorem CommitState.bytes_pending (p : PendingCommit) :
    (CommitState.pending p).bytes =
      [boundaryValue p.boundary] ++ inThree p.boundary.markAddr.toNat
        ++ [if p.trial then 1#8 else 0#8, p.window, if p.due then 1#8 else 0#8] ++ List.replicate 6 0#8 := by
  rw [CommitState.bytes, Boundary.code_eq, addrBytes_inThree, flagByte_eq, flagByte_eq]
  rfl

/-- The same bytes with a trial open (R76). -/
theorem CommitState.bytes_trial (t : Trial) :
    (CommitState.trial t).bytes =
      List.replicate 7 0#8 ++ [t.windowLoaded, t.windowRemaining, if t.armed then 1#8 else 0#8]
        ++ inTwo t.fallbackGeneration.toNat ++ [if t.revertDue then 1#8 else 0#8] := by
  rw [CommitState.bytes, flagByte_eq, flagByte_eq, wordBytes_inTwo]
  rfl

/-- The port's owner, read off the access on it (R108). -/
theorem ownerByte_owner (m : Mpc) :
    ownerByte m.owner = m.access.elim 0#8 fun p => if p.owner = .host then 1#8 else 2#8 := by
  unfold Mpc.owner
  cases m.access with
  | none => rfl
  | some p =>
    change p.owner.code = if p.owner = .host then 1#8 else 2#8
    cases p.owner <;> rfl

theorem oldestBytes_eq (rs : List JournalRecord) :
    oldestBytes rs = rs.head?.elim [0#8, 0#8] fun r => inTwo r.sequence.toNat := by
  unfold oldestBytes
  cases rs.head? with
  | none => rfl
  | some r => exact wordBytes_inTwo r.sequence

theorem newestBytes_eq (rs : List JournalRecord) :
    newestBytes rs = rs.getLast?.elim [0#8, 0#8] fun r => inTwo r.sequence.toNat := by
  unfold newestBytes
  cases rs.getLast? with
  | none => rfl
  | some r => exact wordBytes_inTwo r.sequence

/-! ### The answers -/

section
variable (s : State)

theorem partInfoReply_eq :
    partInfoReply s =
      ⟨s, .ok,
        [0x4D#8, 0x24#8, 0x43#8, BitVec.ofNat 8 s.straps.unit.toNat,
          BitVec.ofNat 8 (s.straps.hold.toNat + 2 * s.straps.lock.toNat + 4 * s.hau.hold.toNat
            + 8 * s.hau.lockdown.toNat)]
          ++ inTwo s.gen.generation.toNat ++ [commitValue s.gen.commit]⟩ := by
  rw [partInfoReply, State.strapFlags, flagsByte_four, wordBytes_inTwo s.gen.generation, CommitState.code_eq]
  rfl

theorem genStatusReply_eq :
    genStatusReply s =
      ⟨s, .ok, commitValue s.gen.commit :: (inTwo s.gen.generation.toNat ++ s.gen.commit.bytes)⟩ := by
  rw [genStatusReply, CommitState.code_eq, wordBytes_inTwo]
  rfl

theorem seqStatusReply_eq :
    seqStatusReply s =
      ⟨s, .ok,
        configLayout s.seq.config ++ [BitVec.ofNat 8 s.seq.phase.toNat] ++ inTwo s.seq.counter.toNat
          ++ inFour s.seq.epochAccesses.toNat ++ inFour s.seq.epochNumber.toNat
          ++ [BitVec.ofNat 8 (s.seq.parked.toNat + 2 * s.seq.overrunPosted.toNat + 4 * s.seq.accepted.toNat)]⟩ := by
  rw [seqStatusReply, SeqConfig.bytes_eq, wordBytes_inTwo, longBytes_inFour, longBytes_inFour, Seq.flags,
    flagsByte_three]
  rfl

theorem devStatusReply_eq :
    devStatusReply s =
      ⟨s, .ok,
        ((List.finRange 4).flatMap fun d => deviceLayout s.mpc.devices[d])
          ++ [s.mpc.timeout, BitVec.ofNat 8 s.mpc.share,
            s.mpc.access.elim 0#8 fun p => if p.owner = .host then 1#8 else 2#8,
            BitVec.ofNat 8 (s.mpc.hostRequest.toNat + 2 * s.mpc.captureRequest.toNat),
            BitVec.ofNat 8 s.mpc.passOver]⟩ := by
  have records : ((List.finRange 4).flatMap fun d => deviceLayout s.mpc.devices[d]) =
      deviceLayout s.mpc.devices[0] ++ deviceLayout s.mpc.devices[1] ++ deviceLayout s.mpc.devices[2]
        ++ deviceLayout s.mpc.devices[3] := by
    simp [List.finRange_succ]
  rw [records, devStatusReply, ownerByte_owner, Mpc.requestFlags, flagsByte_two]
  simp only [Device.bytes_eq]
  rfl

theorem captureStatusReply_eq :
    captureStatusReply s =
      ⟨s, .ok,
        [captureValue s.capture.status]
          ++ (s.capture.job.elim (List.replicate 8 0#8) fun j =>
            BitVec.ofNat 8 j.run.val :: (inTwo j.offset ++ inThree j.source.toNat ++ inTwo j.length))
          ++ inTwo s.capture.wordsDone ++ (s.capture.job.elim [0#8, 0#8] fun j => inTwo (8 * j.length))
          ++ [if s.capture.abortPending then 1#8 else 0#8, causeByte s.capture.status]⟩ := by
  unfold captureStatusReply
  simp only [CaptureStatus.code_eq, countBytes_inTwo, addrBytes_inThree, flagByte_eq]
  cases s.capture.job <;> rfl

theorem journalStatusReply_eq :
    journalStatusReply s =
      ⟨s, .ok,
        BitVec.ofNat 8 s.journal.records.length :: (inTwo s.journal.next.toNat
          ++ (s.journal.records.head?.elim [0#8, 0#8] fun r => inTwo r.sequence.toNat)
          ++ (s.journal.records.getLast?.elim [0#8, 0#8] fun r => inTwo r.sequence.toNat)
          ++ [if s.journal.policy = .keepOldest then 0#8 else 1#8, BitVec.ofNat 8 s.journal.threshold,
            if s.journal.highArmed then 1#8 else 0#8])⟩ := by
  rw [journalStatusReply, wordBytes_inTwo, oldestBytes_eq, newestBytes_eq, JournalPolicy.code_eq, flagByte_eq]
  rfl

end

/-- A row for this unit alone that answers OK and keeps the state. -/
theorem exec_answers {i : Instr} {f : Frame} {s : State} {b l : Bool} {r : State → Reply} {p : List Byte}
    (h : Addressed f s) (length : l = true) (reply : r s = ⟨s, .ok, p⟩) (row : exec i s = .next (s.receive f b l r)) :
    exec i s = .next (answered s f .ok p) := by
  rw [exec_addressed h row length, reply]

end Sys2Proof.Machine

namespace Sys2Proof

open Sys2Proof.Machine Sys2Proof.Claim Sys2Proof.Safety

/-- Settles O60: each answer in its layout, and the fields that are absent or present by the state of the block. -/
theorem statusCommandsReportState : Obligations.StatusCommandsReportState := by
  intro f s h hp
  have length : payloadIs f 0 = true := by simp [payloadIs, hp]
  refine ⟨exec_answers h length (partInfoReply_eq s) rfl, ?_, exec_answers h length (seqStatusReply_eq s) rfl, ?_, ?_, ?_⟩
  · rw [exec_answers (i := .genStatus f) h length (genStatusReply_eq s) rfl]
    cases s.gen.commit with
    | none => rfl
    | pending p =>
      rw [CommitState.bytes_pending]
      rfl
    | trial t =>
      rw [CommitState.bytes_trial]
  · rw [exec_answers (i := .devStatus f) h length (devStatusReply_eq s) rfl]
    cases s.mpc.access <;> rfl
  · rw [exec_answers (i := .captureStatus f) h length (captureStatusReply_eq s) rfl]
    cases s.capture.status with
    | failed cause => cases cause <;> cases s.capture.job <;> rfl
    | none | running | done | aborted => cases s.capture.job <;> rfl
  · rw [exec_answers (i := .journalStatus f) h length (journalStatusReply_eq s) rfl]
    cases s.journal.records.head? <;> cases s.journal.records.getLast? <;> rfl

end Sys2Proof
end

section
/-! PROOFS. What a step can do to the sequencer's configuration, phase and phase counter: a chain of the moves of `SeqMove`,
each of which keeps them within their ranges (R78 to R95). -/

namespace Sys2Proof.Machine

open Sys2Proof.Safety

/-! ### The moves -/

/-- The changes of configuration, phase and phase counter of which every step is made. -/
inductive SeqMove (q : Seq) : Seq → Prop where
  /-- configuration, phase and phase counter stand -/
  | kept {q' : Seq} (config : q'.config = q.config) (phase : q'.phase = q.phase) (counter : q'.counter = q.counter) :
    SeqMove q q'
  /-- an access counts (R82) -/
  | counted : SeqMove q q.count
  /-- an advance that is no epoch boundary (R83) -/
  | visited : SeqMove q (q.visit q.nextPhase)
  /-- a restart at the initial phase (R84, R95) -/
  | restarted {q' : Seq} (config : q'.config = q.config) (phase : q'.phase = q.config.initial)
      (counter : q'.counter = 0#16) : SeqMove q q'
  /-- a SEQ.SET with a configuration in range (R80) -/
  | configured {q' : Seq} (p : List Byte) (config : seqConfig? p = some q'.config) (phase : q'.phase = q'.config.initial)
      (counter : q'.counter = 0#16) : SeqMove q q'
  /-- a part reset (R96) -/
  | reset (epoch : Bool) : SeqMove q (Seq.atReset epoch)

/-- A chain of moves. -/
abbrev SeqMoves : Seq → Seq → Prop := Relation.ReflTransGen SeqMove

theorem SeqMoves.of_eq {q q' : Seq} (h : q' = q) : SeqMoves q q' := h ▸ .refl

/-! ### Counting and the rules of the modes (R82 to R91) -/

theorem Seq.tally_moves (q : Seq) (k : AccessKind) : SeqMoves q (q.tally k) := by
  unfold Seq.tally
  split
  · exact .single .counted
  · exact .refl

theorem Seq.ceiling_moves (q : Seq) (k : AccessKind) : SeqMoves q (q.ceiling k) := by
  unfold Seq.ceiling
  split
  · exact (q.tally_moves k).tail (.kept rfl rfl rfl)
  · exact q.tally_moves k

theorem Seq.advance_moves (q : Seq) : SeqMoves q q.advance := by
  unfold Seq.advance
  split
  · exact .single (.restarted rfl rfl rfl)
  · exact .single .visited

@[simp] theorem Seq.tally_config (q : Seq) (k : AccessKind) : (q.tally k).config = q.config := by
  unfold Seq.tally
  split <;> rfl

@[simp] theorem Seq.tally_phase (q : Seq) (k : AccessKind) : (q.tally k).phase = q.phase := by
  unfold Seq.tally
  split <;> rfl

/-- The count leaves where an advance goes. -/
@[simp] theorem Seq.tally_nextPhase (q : Seq) (k : AccessKind) : (q.tally k).nextPhase = q.nextPhase := by
  simp only [Seq.nextPhase, Seq.tally_config, Seq.tally_phase]

theorem Seq.accessEnd_moves (q : Seq) (a : Access) : SeqMoves q (q.accessEnd a).1 := by
  have counted := q.tally_moves a.kind
  unfold Seq.accessEnd
  cases q.config.mode with
  | count =>
    dsimp only
    split
    · exact counted.trans (Seq.advance_moves _)
    · exact counted
  | syncRestart =>
    dsimp only
    split
    · split
      · exact counted.tail (q.tally_nextPhase a.kind ▸ .visited)
      · exact counted.tail (.kept rfl rfl rfl)
    · exact counted
  | syncStep => exact q.ceiling_moves a.kind
  | mark =>
    dsimp only
    split
    · exact (q.ceiling_moves a.kind).trans (Seq.advance_moves _)
    · exact q.ceiling_moves a.kind

theorem Seq.edge_moves (q : Seq) : SeqMoves q q.edge.1 := by
  unfold Seq.edge
  cases q.config.mode with
  | syncStep => exact q.advance_moves
  | syncRestart => exact .single (.restarted rfl rfl rfl)
  | count | mark => exact .refl

theorem Seq.transition_moves (q : Seq) : SeqMoves q q.transition.1 := by
  have sampled : SeqMoves q (q.sample (!q.accepted)) := .single (.kept rfl rfl rfl)
  unfold Seq.transition
  split
  · exact sampled.trans (Seq.edge_moves _)
  · exact sampled

theorem State.acceptTransition_seqMoves (s : State) : SeqMoves s.seq s.acceptTransition.seq := by
  rw [State.acceptTransition, State.seqNews_seq]
  exact s.seq.transition_moves

theorem State.filterPeriod_seqMoves (s : State) : SeqMoves s.seq s.filterPeriod.seq := by
  unfold State.filterPeriod
  split
  · exact .single (.kept rfl rfl rfl)
  · split
    · exact s.acceptTransition_seqMoves
    · exact .single (.kept rfl rfl rfl)

theorem State.seqRestart_seqMoves (s : State) : SeqMoves s.seq s.seqRestart.seq := by
  rw [State.seqRestart, State.seqNews_seq]
  exact .single (.restarted rfl rfl rfl)

/-! ### What leaves the sequencer and the pins: grants, and the moments of the events -/

@[simp] theorem State.grantHost_seq (s : State) : s.grantHost.1.seq = s.seq := by
  unfold State.grantHost
  (repeat' split) <;> rfl

@[simp] theorem State.grantHost_pins (s : State) : s.grantHost.1.pins = s.pins := by
  unfold State.grantHost
  (repeat' split) <;> rfl

@[simp] theorem State.grantOne_seq (s : State) : s.grantOne.1.seq = s.seq := by
  unfold State.grantOne
  split <;> simp

@[simp] theorem State.grantOne_pins (s : State) : s.grantOne.1.pins = s.pins := by
  unfold State.grantOne
  split <;> simp

@[simp] theorem State.arbitrate_seq (s : State) : s.arbitrate.1.seq = s.seq := by
  unfold State.arbitrate
  dsimp only
  split <;> simp

@[simp] theorem State.arbitrate_pins (s : State) : s.arbitrate.1.pins = s.pins := by
  unfold State.arbitrate
  dsimp only
  split <;> simp

theorem State.enterDeciding_seq (s : State) (a : Access) : (s.enterDeciding a).1.seq = s.seq := by
  unfold State.enterDeciding
  dsimp only
  (repeat' split) <;> simp

theorem State.arrivalMoment_seq (s : State) (h : HostPins) : (s.arrivalMoment h).1.seq = s.seq := by
  unfold State.arrivalMoment
  dsimp only
  split
  · rfl
  · split
    · rfl
    · rw [State.enterDeciding_seq]

theorem State.releaseMoment_seq (s : State) : s.releaseMoment.1.seq = s.seq := by
  unfold State.releaseMoment
  split
  · dsimp only
    split
    · rw [State.enterDeciding_seq]
    · rfl
  · rfl

theorem State.completionMoment_seq (s : State) (md : Word) : (s.completionMoment md).1.seq = s.seq := by
  unfold State.completionMoment
  (repeat' split) <;> simp

theorem State.completionMoment_pins (s : State) (md : Word) : (s.completionMoment md).1.pins = s.pins := by
  unfold State.completionMoment
  (repeat' split) <;> simp

theorem State.timeoutMoment_seq (s : State) : s.timeoutMoment.1.seq = s.seq := by
  unfold State.timeoutMoment
  (repeat' split) <;> simp

theorem State.timeoutMoment_pins (s : State) : s.timeoutMoment.1.pins = s.pins := by
  unfold State.timeoutMoment
  (repeat' split) <;> simp

theorem State.momentOf_seq (s : State) (c : Cause) : (s.momentOf c).1.seq = s.seq := by
  cases c with
  | arrival p => exact s.arrivalMoment_seq p
  | release =>
    unfold State.momentOf
    dsimp only
    split
    · exact s.mcsHigh.releaseMoment_seq
    · rfl
  | completion md => exact s.completionMoment_seq md
  | timeout => exact s.timeoutMoment_seq
  | grant => exact s.arbitrate_seq
  | transition | restart | hostReset => rfl

/-! ### The end of an access (R31, R175) and the events -/

@[simp] theorem State.softReset_seq (s : State) (tag : Byte) : (s.softReset tag).seq = Seq.atReset s.pins.epoch := by
  unfold State.softReset
  dsimp only
  split <;> rfl

theorem State.softResetIfDue_seqMoves (s : State) : SeqMoves s.seq s.softResetIfDue.seq := by
  unfold State.softResetIfDue
  split
  · rw [State.softReset_seq]
    exact .single (.reset _)
  · exact .refl

/-- An access end hands over to the sequencer once (R31 step 1); without an access there is none. -/
theorem State.endAccess_seq (s : State) (e : HostResponse) :
    (s.endAccess e).seq = s.seq ∨ ∃ a, (s.endAccess e).seq = (s.seq.accessEnd a).1 := by
  unfold State.endAccess
  split
  · next a d _ _ => exact .inr ⟨a, by simp⟩
  · exact .inl rfl

theorem State.endAccess_seqMoves (s : State) (e : HostResponse) : SeqMoves s.seq (s.endAccess e).seq := by
  rcases s.endAccess_seq e with h | ⟨a, h⟩ <;> rw [h]
  exact s.seq.accessEnd_moves a

theorem Moment.finish_seqMoves (m : Moment) : SeqMoves m.1.seq m.finish.seq := by
  unfold Moment.finish
  split
  · exact .refl
  · rw [State.arbitrate_seq]
    exact (State.endAccess_seqMoves _ _).trans (State.softResetIfDue_seqMoves _)

/-- A moment that leaves the sequencer moves it at most at its end. -/
theorem Moment.finish_seqMoves_of {s : State} {m : Moment} (h : m.1.seq = s.seq) : SeqMoves s.seq m.finish.seq :=
  h ▸ m.finish_seqMoves

theorem State.hostReset_seqMoves (s : State) : SeqMoves s.seq s.hostReset.seq := by
  have restarted : SeqMoves s.seq s.seq.restart := .single (.restarted rfl rfl rfl)
  unfold State.hostReset
  dsimp only
  split
  · refine .trans ?_ (State.softResetIfDue_seqMoves _)
    simpa using restarted
  · simpa using restarted

theorem State.bringAbout_seqMoves (s : State) (c : Cause) : SeqMoves s.seq (s.bringAbout c).seq := by
  cases c with
  | transition =>
    unfold State.bringAbout
    dsimp only
    split
    · exact .refl
    · exact s.acceptTransition_seqMoves
  | restart =>
    unfold State.bringAbout
    dsimp only
    split
    · exact s.mcsHigh.seqRestart_seqMoves
    · exact .refl
  | hostReset =>
    unfold State.bringAbout State.hrstAsserted
    dsimp only
    split
    · exact .refl
    · split
      · exact .refl
      · exact s.hostReset_seqMoves
  | arrival | release | completion | timeout | grant => exact Moment.finish_seqMoves_of (s.momentOf_seq _)

theorem State.bringAboutIf_seqMoves (s : State) (c : Cause) (b : Bool) : SeqMoves s.seq (s.bringAboutIf c b).seq := by
  unfold State.bringAboutIf
  split
  · exact s.bringAbout_seqMoves c
  · exact .refl

/-! ### One CLK period -/

theorem State.portPeriod_seqMoves (s : State) : SeqMoves s.seq s.portPeriod.seq := by
  unfold State.portPeriod
  split
  · exact .refl
  · split
    · exact Moment.finish_seqMoves_of (s.completionMoment_seq _)
    · split
      · exact Moment.finish_seqMoves_of s.timeoutMoment_seq
      · exact .refl

theorem State.clockPeriod_seqMoves (s : State) : SeqMoves s.seq s.clockPeriod.seq := by
  rw [State.clockPeriod, State.levelsChange_seq]
  unfold State.countPeriod
  dsimp only
  split
  · exact .refl
  · split
    · exact (State.filterPeriod_seqMoves { s with freeIndex := s.freeIndex + 1 }).trans (State.portPeriod_seqMoves _)
    · exact (State.portPeriod_seqMoves { s with freeIndex := s.freeIndex + 1 }).trans (State.filterPeriod_seqMoves _)

/-! ### The commands: all but PART.RESET, HOST.RELEASE, SEQ.SET, SEQ.RESTART and CAPTURE.START
leave the sequencer -/

/-- A reply that leaves the sequencer alone. -/
def LeavesSeq (r : State → Reply) : Prop := ∀ s, (r s).state.seq = s.seq

theorem mapPutReply_leavesSeq (p : List Byte) : LeavesSeq (mapPutReply p) := by
  intro s
  unfold mapPutReply
  (repeat' split) <;> simp [State.refuse]

theorem mapClearReply_leavesSeq (p : List Byte) : LeavesSeq (mapClearReply p) := by
  intro s
  unfold mapClearReply
  (repeat' split) <;> simp [State.refuse]

theorem mapReadReply_leavesSeq (p : List Byte) : LeavesSeq (mapReadReply p) := by
  intro s
  unfold mapReadReply
  (repeat' split) <;> rfl

theorem mapRestageReply_leavesSeq : LeavesSeq mapRestageReply := by
  intro s
  unfold mapRestageReply
  split <;> simp [State.refuse]

theorem runOpenReply_leavesSeq (p : List Byte) : LeavesSeq (runOpenReply p) := by
  intro s
  unfold runOpenReply
  dsimp only
  (repeat' split) <;> rfl

theorem runWriteReply_leavesSeq (p : List Byte) : LeavesSeq (runWriteReply p) := by
  intro s
  unfold runWriteReply
  dsimp only
  (repeat' split) <;> rfl

theorem runReadReply_leavesSeq (p : List Byte) : LeavesSeq (runReadReply p) := by
  intro s
  unfold runReadReply
  dsimp only
  (repeat' split) <;> rfl

theorem runFreeReply_leavesSeq (p : List Byte) : LeavesSeq (runFreeReply p) := by
  intro s
  unfold runFreeReply
  (repeat' split) <;> rfl

theorem runInfoReply_leavesSeq (p : List Byte) : LeavesSeq (runInfoReply p) := by
  intro s
  unfold runInfoReply
  split <;> rfl

theorem State.acceptCommit_seq (s : State) (p : PendingCommit) : (s.acceptCommit p).seq = s.seq := by
  unfold State.acceptCommit
  (repeat' split) <;> simp

theorem commitReply_leavesSeq (p : List Byte) : LeavesSeq (commitReply p) := by
  intro s
  unfold commitReply
  (repeat' split) <;> simp [State.refuse, commitAnswer, State.acceptCommit_seq]

theorem commitCancelReply_leavesSeq : LeavesSeq commitCancelReply := by
  intro s
  unfold commitCancelReply
  (repeat' split) <;> rfl

theorem trialConfirmReply_leavesSeq : LeavesSeq trialConfirmReply := by
  intro s
  unfold trialConfirmReply
  (repeat' split) <;> simp [State.refuse, generationAnswer]

theorem trialRevertReply_leavesSeq : LeavesSeq trialRevertReply := by
  intro s
  unfold trialRevertReply
  (repeat' split) <;> simp [State.refuse, generationAnswer]

theorem devSetReply_leavesSeq (p : List Byte) : LeavesSeq (devSetReply p) := by
  intro s
  unfold devSetReply
  (repeat' split) <;> rfl

theorem devRestoreReply_leavesSeq (p : List Byte) : LeavesSeq (devRestoreReply p) := by
  intro s
  unfold devRestoreReply
  (repeat' split) <;> rfl

theorem portSetReply_leavesSeq (p : List Byte) : LeavesSeq (portSetReply p) := by
  intro s
  unfold portSetReply
  split <;> rfl

theorem captureAbortReply_leavesSeq : LeavesSeq captureAbortReply := by
  intro s
  unfold captureAbortReply
  (repeat' split) <;> rfl

theorem journalReadReply_leavesSeq (p : List Byte) : LeavesSeq (journalReadReply p) := by
  intro s
  unfold journalReadReply
  dsimp only
  split <;> rfl

theorem journalAckReply_leavesSeq (p : List Byte) : LeavesSeq (journalAckReply p) := by
  intro s
  unfold journalAckReply
  split <;> rfl

theorem journalSetReply_leavesSeq (p : List Byte) : LeavesSeq (journalSetReply p) := by
  intro s
  unfold journalSetReply
  (repeat' split) <;> rfl

theorem noticeAckReply_leavesSeq (p : List Byte) : LeavesSeq (noticeAckReply p) := by
  intro s
  unfold noticeAckReply
  dsimp only
  (repeat' split) <;> rfl

theorem partResetReply_seqMoves (tag : Byte) (s : State) : SeqMoves s.seq (partResetReply tag s).state.seq := by
  unfold partResetReply
  split
  · exact .refl
  · rw [State.softReset_seq]
    exact .single (.reset _)

/-- The grant that a CAPTURE.START makes can return a waiting host request, which ends its access (R112). -/
theorem captureStartReply_seqMoves (p : List Byte) (s : State) :
    SeqMoves s.seq (captureStartReply p s).state.seq := by
  unfold captureStartReply
  split
  · exact .refl
  · split
    · exact .refl
    · exact Moment.finish_seqMoves_of (State.arbitrate_seq _)

theorem seqSetReply_seqMoves (p : List Byte) (s : State) : SeqMoves s.seq (seqSetReply p s).state.seq := by
  unfold seqSetReply
  split
  · next c hc => exact .single (.configured p hc rfl rfl)
  · exact .refl

/-! ### The rows of the table -/

/-- A frame moves the sequencer at most as its command does, however it meets the unit. -/
theorem State.receive_seqMoves (s : State) (f : Frame) (b l : Bool) {r : State → Reply}
    (hr : ∀ s, SeqMoves s.seq (r s).state.seq) : SeqMoves s.seq (s.receive f b l r).seq :=
  State.receive_pred (P := fun t => SeqMoves s.seq t.seq) s f b l r .refl .refl (fun _ _ _ h => h) (hr s.mcsHigh)

theorem State.frameError_seq (s : State) (bytes : List Byte) (extra : BitVec 3) :
    (s.frameError bytes extra).seq = s.seq := by
  unfold State.frameError
  (repeat' split) <;> rfl

theorem State.unknownCommand_seq (s : State) (f : Frame) (code : Byte) : (s.unknownCommand f code).seq = s.seq := by
  unfold State.unknownCommand
  (repeat' split) <;> rfl

theorem State.answerBusy_seq (s : State) (f : Frame) : (s.answerBusy f).seq = s.seq := by
  unfold State.answerBusy
  split <;> rfl

theorem State.negateStrobes_seq (s : State) (rd wr : Bool) : (s.negateStrobes rd wr).seq = s.seq := by
  unfold State.negateStrobes
  dsimp only
  (repeat' split) <;> rfl

/-- What a row does while RESET_N is negated. -/
theorem SeqMoves.ite_else {s t : State} (b : Bool) (h : SeqMoves s.seq t.seq) :
    SeqMoves s.seq (if b then s else t).seq := by
  split
  · exact .refl
  · exact h

/-- Every row answers a next state, to which the sequencer comes by moves. -/
theorem exec_seqMoves (i : Instr) (s : State) : ∃ t, exec i s = .next t ∧ SeqMoves s.seq t.seq := by
  have leaves (f : Frame) (b l : Bool) {r : State → Reply} (hr : LeavesSeq r) :
      SeqMoves s.seq (s.receive f b l r).seq :=
    s.receive_seqMoves f b l fun s => .of_eq (hr s)
  cases i with
  | partInfo f | genStatus f | seqStatus f | devStatus f | captureStatus f | journalStatus f | noticeRead f
  | lockdownClear f | noticeMask f => exact ⟨_, rfl, leaves f _ _ fun _ => rfl⟩
  | mapPut f => exact ⟨_, rfl, leaves f _ _ (mapPutReply_leavesSeq _)⟩
  | mapClear f => exact ⟨_, rfl, leaves f _ _ (mapClearReply_leavesSeq _)⟩
  | mapRead f => exact ⟨_, rfl, leaves f _ _ (mapReadReply_leavesSeq _)⟩
  | mapRestage f => exact ⟨_, rfl, leaves f _ _ mapRestageReply_leavesSeq⟩
  | runOpen f => exact ⟨_, rfl, leaves f _ _ (runOpenReply_leavesSeq _)⟩
  | runWrite f => exact ⟨_, rfl, leaves f _ _ (runWriteReply_leavesSeq _)⟩
  | runRead f => exact ⟨_, rfl, leaves f _ _ (runReadReply_leavesSeq _)⟩
  | runFree f => exact ⟨_, rfl, leaves f _ _ (runFreeReply_leavesSeq _)⟩
  | runInfo f => exact ⟨_, rfl, leaves f _ _ (runInfoReply_leavesSeq _)⟩
  | commit f => exact ⟨_, rfl, leaves f _ _ (commitReply_leavesSeq _)⟩
  | commitCancel f => exact ⟨_, rfl, leaves f _ _ commitCancelReply_leavesSeq⟩
  | trialConfirm f => exact ⟨_, rfl, leaves f _ _ trialConfirmReply_leavesSeq⟩
  | trialRevert f => exact ⟨_, rfl, leaves f _ _ trialRevertReply_leavesSeq⟩
  | devSet f => exact ⟨_, rfl, leaves f _ _ (devSetReply_leavesSeq _)⟩
  | devRestore f => exact ⟨_, rfl, leaves f _ _ (devRestoreReply_leavesSeq _)⟩
  | portSet f => exact ⟨_, rfl, leaves f _ _ (portSetReply_leavesSeq _)⟩
  | captureStart f => exact ⟨_, rfl, s.receive_seqMoves f _ _ (captureStartReply_seqMoves _)⟩
  | captureAbort f => exact ⟨_, rfl, leaves f _ _ captureAbortReply_leavesSeq⟩
  | journalRead f => exact ⟨_, rfl, leaves f _ _ (journalReadReply_leavesSeq _)⟩
  | journalAck f => exact ⟨_, rfl, leaves f _ _ (journalAckReply_leavesSeq _)⟩
  | journalSet f => exact ⟨_, rfl, leaves f _ _ (journalSetReply_leavesSeq _)⟩
  | noticeAck f => exact ⟨_, rfl, leaves f _ _ (noticeAckReply_leavesSeq _)⟩
  | partReset f => exact ⟨_, rfl, s.receive_seqMoves f _ _ (partResetReply_seqMoves _)⟩
  | hostRelease f =>
    exact ⟨_, rfl, s.receive_seqMoves f _ _ fun s => Moment.finish_seqMoves_of s.releaseMoment_seq⟩
  | seqSet f => exact ⟨_, rfl, s.receive_seqMoves f _ _ (seqSetReply_seqMoves _)⟩
  | seqRestart f => exact ⟨_, rfl, s.receive_seqMoves f _ _ State.seqRestart_seqMoves⟩
  | softResetTakesEffect c | dueCommitApplied c | dueRevertApplied c | trialWindowExpiry c | countAdvance c | overrun c
  | park c => exact ⟨_, rfl, s.bringAboutIf_seqMoves c _⟩
  | epochTransitionAccepted => exact ⟨_, rfl, s.bringAbout_seqMoves .transition⟩
  | accessArrives p => exact ⟨_, rfl, s.bringAbout_seqMoves (.arrival p)⟩
  | hostResetEvent => exact ⟨_, rfl, s.bringAbout_seqMoves .hostReset⟩
  | arbiterGrant => exact ⟨_, rfl, s.bringAbout_seqMoves .grant⟩
  | memoryAccessCompletes md => exact ⟨_, rfl, s.bringAbout_seqMoves (.completion md)⟩
  | accessTimeout => exact ⟨_, rfl, s.bringAbout_seqMoves .timeout⟩
  | softResetIntervalBusy f code => exact ⟨_, rfl, .ite_else _ (.of_eq (State.answerBusy_seq _ f))⟩
  | frameError bytes extra => exact ⟨_, rfl, .ite_else _ (.of_eq (State.frameError_seq _ bytes extra))⟩
  | unknownCommand f code => exact ⟨_, rfl, .ite_else _ (.of_eq (State.unknownCommand_seq _ f code))⟩
  | responseRead header clocks => exact ⟨_, rfl, .ite_else _ .refl⟩
  | hostStrobeNegated rd wr => exact ⟨_, rfl, .of_eq (s.negateStrobes_seq rd wr)⟩
  | hrstNNegated => exact ⟨_, rfl, .refl⟩
  | epochPulseDiscarded => exact ⟨_, rfl, .ite_else _ (.single (.kept rfl rfl rfl))⟩
  | pinReset => exact ⟨_, rfl, .ite_else _ .refl⟩
  | resetNRelease p =>
    refine ⟨_, rfl, ?_⟩
    split
    · exact .single (.reset p.epoch)
    · exact .refl

/-- A step comes to the sequencer by moves. -/
theorem step_seqMoves {s t : State} (h : step s = .next t) : SeqMoves s.seq t.seq := by
  unfold step at h
  split at h
  · injection h with h
    exact h ▸ s.clockPeriod_seqMoves
  · next c rest _ =>
    obtain ⟨t', ht, moves⟩ := exec_seqMoves c { s with pending := rest }
    rw [ht] at h
    injection h with h
    exact h ▸ moves

/-! ### Each move keeps the ranges (R78, R79) -/

/-- A configuration within the ranges of R79. -/
structure SeqConfig.Sound (c : SeqConfig) : Prop where
  phases_pos : 1 ≤ c.phaseCount
  phases_le : c.phaseCount ≤ 4
  initial_lt : c.initial.toNat < c.phaseCount
  marks_even : ∀ i : Fin 4, c.marks[i].toNat % 2 = 0

/-- The ranges of R78 and R79, as the sequencer alone shows them. -/
structure Seq.Sound (q : Seq) : Prop where
  config : q.config.Sound
  phase_lt : q.phase.toNat < q.config.phaseCount
  counter_le : q.length ≠ 0#16 → q.counter ≤ q.length

theorem sequencerSound_iff (s : State) : SequencerSound s ↔ s.seq.Sound :=
  ⟨fun ⟨pos, le, initial, phase, marks, counter⟩ => ⟨⟨pos, le, initial, marks⟩, phase, counter⟩,
    fun ⟨⟨pos, le, initial, marks⟩, phase, counter⟩ => ⟨pos, le, initial, phase, marks, counter⟩⟩

theorem Seq.Sound.of_zero {q : Seq} (config : q.config.Sound) (phase : q.phase.toNat < q.config.phaseCount)
    (counter : q.counter = 0#16) : q.Sound :=
  ⟨config, phase, fun _ => by rw [counter]; exact Nat.zero_le _⟩

/-- Check of R80: a configuration that SEQ.SET takes is within the ranges of R79. -/
theorem seqConfig?_sound {p : List Byte} {c : SeqConfig} (h : seqConfig? p = some c) : c.Sound := by
  unfold seqConfig? at h
  split at h
  · split at h
    · next inRange =>
      obtain ⟨pos, le, initial, m0, m1, m2, m3⟩ := inRange
      injection h with h
      subst h
      refine ⟨pos, le, ?_, ?_⟩
      · exact lt_of_le_of_lt (by rw [BitVec.toNat_setWidth]; exact Nat.mod_le _ _) initial
      · intro i
        fin_cases i
        exacts [m0, m1, m2, m3]
    · cases h
  · cases h

theorem Seq.nextPhase_lt {q : Seq} (h : q.config.Sound) : q.nextPhase.toNat < q.config.phaseCount := by
  have below := Nat.mod_lt (q.phase.toNat + 1) h.phases_pos
  rw [Seq.nextPhase, BitVec.toNat_ofNat]
  exact lt_of_le_of_lt (Nat.mod_le _ _) below

/-- R82: the count stops at a nonzero length. -/
theorem Seq.count_counter_le {q : Seq} (h : q.length ≠ 0#16 → q.counter ≤ q.length) (hl : q.length ≠ 0#16) :
    q.count.counter ≤ q.length := by
  unfold Seq.count
  dsimp only
  split
  · exact h hl
  · next below =>
    have lt : q.counter < q.length := by
      simpa [hl] using below
    unfold satInc
    split
    · exact h hl
    · bv_omega

theorem SeqConfig.atReset_sound : SeqConfig.atReset.Sound := ⟨by decide, by decide, by decide, by decide⟩

theorem Seq.atReset_sound (epoch : Bool) : (Seq.atReset epoch).Sound :=
  .of_zero SeqConfig.atReset_sound SeqConfig.atReset_sound.initial_lt rfl

theorem SeqMove.keeps_sound {q q' : Seq} (move : SeqMove q q') (h : q.Sound) : q'.Sound := by
  cases move with
  | kept config phase counter =>
    have length : q'.length = q.length := by simp only [Seq.length, config, phase]
    exact ⟨config ▸ h.config, by rw [config, phase]; exact h.phase_lt, by rw [length, counter]; exact h.counter_le⟩
  | counted => exact ⟨h.config, h.phase_lt, Seq.count_counter_le h.counter_le⟩
  | visited => exact .of_zero h.config (Seq.nextPhase_lt h.config) rfl
  | restarted config phase counter =>
    exact .of_zero (config ▸ h.config) (by rw [config, phase]; exact h.config.initial_lt) counter
  | configured p config phase counter =>
    have sound := seqConfig?_sound config
    exact .of_zero sound (by rw [phase]; exact sound.initial_lt) counter
  | reset epoch => exact Seq.atReset_sound epoch

theorem SeqMoves.keeps_sound {q q' : Seq} (moves : SeqMoves q q') (h : q.Sound) : q'.Sound := by
  induction moves with
  | refl => exact h
  | tail _ move ih => exact move.keeps_sound ih

end Sys2Proof.Machine

namespace Sys2Proof

open Sys2Proof.Machine

/-- Settles O11: a step comes to the sequencer by moves, and every move keeps the ranges. -/
theorem stepKeepsSequencerSound : Obligations.StepKeepsSequencerSound :=
  fun s t hs h => (sequencerSound_iff t).mpr ((step_seqMoves h).keeps_sound ((sequencerSound_iff s).mp hs))

end Sys2Proof
end

section
/-! PROOFS. The sequencer's rules (R82 to R93) in the terms of the statements: the count, the advance, the epoch boundary, and
step 1 of an access end. -/

namespace Sys2Proof.Machine

open Sys2Proof.Claim

/-! ### The count (R82) -/

theorem Seq.count_counter (q : Seq) : q.count.counter = (counted q).counter := by
  unfold Seq.count counted
  dsimp only
  by_cases full : lengthNow q ≠ 0#16 ∧ lengthNow q ≤ q.counter
  · exact (if_pos full).trans (if_pos (Or.inl full)).symm
  · simp only [full, false_or]
    exact if_neg full

theorem Seq.count_eq (q : Seq) : q.count = counted q := by
  have rest : q.count = { counted q with counter := q.count.counter } := rfl
  rw [rest, Seq.count_counter]

theorem Seq.counts_iff (q : Seq) (a : Access) : q.counts a.kind = true ↔ Counts q a := by
  unfold Seq.counts Counts
  rw [Bool.and_eq_true, Bool.not_eq_true']
  refine and_congr_left' ?_
  cases q.config.qualifier <;> simp [Qualifier.takes]

theorem Seq.tally_eq (q : Seq) (a : Access) : q.tally a.kind = tallied q a := by
  simp only [Seq.tally, tallied, Seq.counts_iff, Seq.count_eq]

theorem tallied_of_counts {q : Seq} {a : Access} (h : Counts q a) : tallied q a = counted q := if_pos h

theorem tallied_of_not_counts {q : Seq} {a : Access} (h : ¬Counts q a) : tallied q a = q := if_neg h

theorem Seq.full_iff (q : Seq) : q.full = true ↔ lengthNow q ≠ 0#16 ∧ q.counter = lengthNow q := by
  rw [Seq.full, Bool.and_eq_true, bne_iff_ne, beq_iff_eq]
  rfl

theorem Seq.fills_iff (q : Seq) (a : Access) : q.fills a.kind = true ↔ Fills q a := by
  rw [Seq.fills, Bool.and_eq_true, Seq.tally_eq, Seq.counts_iff, Seq.full_iff]
  refine and_congr_right fun counts => ?_
  rw [tallied_of_counts counts]
  rfl

theorem Seq.overruns_iff (q : Seq) (a : Access) :
    q.overruns a.kind = true ↔ Fills q a ∧ q.overrunPosted = false := by
  rw [Seq.overruns, Bool.and_eq_true, Seq.fills_iff, Bool.not_eq_true']

theorem Seq.marks_iff (q : Seq) (a : Access) : q.marks a = true ↔ AtMark q a := by
  rw [Seq.marks, Bool.and_eq_true, beq_iff_eq, beq_iff_eq]
  rfl

/-! ### Advances and epoch boundaries (R83, R84) -/

/-- Generation Control at an epoch boundary (R61, R64, R68). -/
theorem boundarySeen_eq (s : State) : boundarySeen s = s.epochReported := by
  unfold boundarySeen State.epochReported
  cases s.gen.commit <;> rfl

theorem State.seqNews_boundary (s : State) (q : Seq) :
    s.seqNews (q.boundary, { boundary := true }) = epochBoundary { s with seq := q } :=
  (boundarySeen_eq _).symm

/-- An advance, after whatever OVERRUN its event posts (R83, R84). -/
theorem State.seqNews_advance (s : State) (q : Seq) (counting : Bool) (o : Option (BitVec 2)) :
    s.seqNews (q.advance, { advanced := counting, overrun := o, boundary := q.landsOnInitial }) =
      advanced (s.seqNews (q, { overrun := o })) := by
  have seq : (s.seqNews (q, { overrun := o })).seq = q := State.seqNews_seq _ _
  unfold advanced
  rw [seq]
  by_cases initial : phaseAfter q = q.config.initial
  · have lands : q.landsOnInitial = true := decide_eq_true initial
    rw [if_pos initial, Seq.advance, lands, if_pos rfl]
    cases o <;> exact (boundarySeen_eq _).symm
  · have lands : q.landsOnInitial = false := decide_eq_false initial
    rw [if_neg initial, Seq.advance, lands]
    cases o <;> rfl

/-! ### Step 1 of an access end (R31) -/

/-- The ceiling rule of SYNC_STEP and MARK modes (R87). -/
theorem State.seqNews_ceiling (s : State) (a : Access) :
    s.seqNews (s.seq.ceiling a.kind, { overrun := if s.seq.overruns a.kind then some s.seq.phase else none }) =
      ceilinged s a := by
  unfold Seq.ceiling ceilinged
  rw [Seq.tally_eq]
  by_cases posts : Fills s.seq a ∧ s.seq.overrunPosted = false
  · rw [if_pos posts, (Seq.overruns_iff _ _).mpr posts]
    rfl
  · rw [if_neg posts, Bool.eq_false_iff.mpr (mt (Seq.overruns_iff _ _).mp posts)]
    rfl

theorem Seq.ceiling_landsOnInitial (q : Seq) (k : AccessKind) : (q.ceiling k).landsOnInitial = q.landsOnInitial := by
  unfold Seq.ceiling
  split <;> simp [Seq.landsOnInitial, Seq.nextPhase]

/-- The sequencer's part of an access end (R82, R85 to R89). -/
theorem sequenced_eq (s : State) (a : Access) : s.seqNews (s.seq.accessEnd a) = sequenced s a := by
  have filling (x y : State) :
      (if s.seq.fills a.kind then x else y) = if Fills s.seq a then x else y := by
    simp only [Seq.fills_iff]
  have tally := Seq.tally_eq s.seq a
  have quiet : s.seqNews (s.seq.tally a.kind, {}) = { s with seq := tallied s.seq a } :=
    congrArg (fun q => { s with seq := q }) tally
  unfold Seq.accessEnd sequenced
  cases s.seq.config.mode with
  | count =>
    have lands : (s.seq.tally a.kind).landsOnInitial = s.seq.landsOnInitial := by
      simp only [Seq.landsOnInitial, Seq.tally_nextPhase, Seq.tally_config]
    dsimp only
    rw [apply_ite s.seqNews, filling, quiet, ← lands, State.seqNews_advance, tally]
    rfl
  | syncStep => exact s.seqNews_ceiling a
  | syncRestart =>
    dsimp only
    rw [apply_ite s.seqNews, filling, quiet, apply_ite s.seqNews, tally]
    rfl
  | mark =>
    dsimp only
    rw [apply_ite s.seqNews, s.seqNews_ceiling a, ← Seq.ceiling_landsOnInitial s.seq a.kind, State.seqNews_advance,
      s.seqNews_ceiling a]
    simp only [Seq.marks_iff]

end Sys2Proof.Machine
end

section
/-! PROOFS. SEQ.SET and SEQ.RESTART (R80, R84, R93), and the transitions of the EPOCH input (R90, R91). -/

namespace Sys2Proof.Machine

open Sys2Proof.Claim

/-! ### A configuration sent (R79, R167) -/

theorem seqMode?_eq_none {b : Byte} (h : 3 < b.toNat) : seqMode? b = none := by
  unfold seqMode?
  split
  case h_5 => rfl
  all_goals omega

theorem qualifier?_eq_none {b : Byte} (h : 1 < b.toNat) : qualifier? b = none := by
  unfold qualifier?
  split
  case h_3 => rfl
  all_goals omega

theorem polarity?_eq_none {b : Byte} (h : 1 < b.toNat) : polarity? b = none := by
  unfold polarity?
  split
  case h_3 => rfl
  all_goals omega

/-- The last byte of an address tells whether it is even. -/
theorem addrAt_mod_two (p : List Byte) (i : Nat) : (addrAt p i).toNat % 2 = (byteAt p (i + 2)).toNat % 2 := by
  rw [addrAt_toNat, threeBytes, twoBytes, show i + 1 + 1 = i + 2 from rfl]
  omega

/-- R80: a field out of its range. -/
theorem seqConfig?_eq_none {p : List Byte}
    (bad : (byteAt p 0).toNat = 0 ∨ 4 < (byteAt p 0).toNat ∨ (byteAt p 0).toNat ≤ (byteAt p 1).toNat ∨
      3 < (byteAt p 2).toNat ∨ 1 < (byteAt p 3).toNat ∨ 1 < (byteAt p 24).toNat ∨ (byteAt p 14).toNat % 2 = 1 ∨
      (byteAt p 17).toNat % 2 = 1 ∨ (byteAt p 20).toNat % 2 = 1 ∨ (byteAt p 23).toNat % 2 = 1) :
    seqConfig? p = none := by
  unfold seqConfig?
  split
  · next mode qualifier polarity =>
    have mode_le : ¬3 < (byteAt p 2).toNat := fun h => by simp [seqMode?_eq_none h] at mode
    have qualifier_le : ¬1 < (byteAt p 3).toNat := fun h => by simp [qualifier?_eq_none h] at qualifier
    have polarity_le : ¬1 < (byteAt p 24).toNat := fun h => by simp [polarity?_eq_none h] at polarity
    simp only [addrAt_mod_two, Nat.reduceAdd]
    exact if_neg (by omega)
  · rfl

theorem wordAt_of_twoBytes {p : List Byte} {i : Nat} {w : Word} (h : twoBytes p i = w.toNat) : wordAt p i = w :=
  BitVec.eq_of_toNat_eq ((wordAt_toNat p i).trans h)

theorem addrAt_of_threeBytes {p : List Byte} {i : Nat} {a : Addr} (h : threeBytes p i = a.toNat) : addrAt p i = a :=
  BitVec.eq_of_toNat_eq ((addrAt_toNat p i).trans h)

/-- A vector of four by its elements. -/
theorem vector_four {α : Type} (v : Vector α 4) : #v[v[0], v[1], v[2], v[3]] = v := by
  ext i hi
  interval_cases i <;> rfl

section
variable (c : SeqConfig)

theorem configLayout_lengths :
    wordAt (configLayout c) 4 = c.lengths[0] ∧ wordAt (configLayout c) 6 = c.lengths[1] ∧
      wordAt (configLayout c) 8 = c.lengths[2] ∧ wordAt (configLayout c) 10 = c.lengths[3] := by
  refine ⟨wordAt_of_twoBytes ?_, wordAt_of_twoBytes ?_, wordAt_of_twoBytes ?_, wordAt_of_twoBytes ?_⟩ <;>
  · simp only [configLayout, inTwo, inThree, twoBytes, List.cons_append, List.nil_append, byteAt_cons_zero,
      byteAt_cons_succ]
    exact inTwo_value (BitVec.isLt _)

theorem configLayout_marks :
    addrAt (configLayout c) 12 = c.marks[0] ∧ addrAt (configLayout c) 15 = c.marks[1] ∧
      addrAt (configLayout c) 18 = c.marks[2] ∧ addrAt (configLayout c) 21 = c.marks[3] := by
  refine ⟨addrAt_of_threeBytes ?_, addrAt_of_threeBytes ?_, addrAt_of_threeBytes ?_, addrAt_of_threeBytes ?_⟩ <;>
  · simp only [configLayout, inTwo, inThree, twoBytes, threeBytes, List.cons_append, List.nil_append, byteAt_cons_zero,
      byteAt_cons_succ]
    exact inThree_value (BitVec.isLt _)

theorem configLayout_enums :
    seqMode? (byteAt (configLayout c) 2) = some c.mode ∧ qualifier? (byteAt (configLayout c) 3) = some c.qualifier ∧
      polarity? (byteAt (configLayout c) 24) = some c.polarity := by
  simp only [configLayout, inTwo, inThree, List.cons_append, List.nil_append, byteAt_cons_zero, byteAt_cons_succ]
  refine ⟨?_, ?_, ?_⟩
  · cases c.mode <;> rfl
  · cases c.qualifier <;> rfl
  · cases c.polarity <;> rfl

theorem configLayout_initial :
    (byteAt (configLayout c) 1).toNat = c.initial.toNat ∧ (byteAt (configLayout c) 1).setWidth 2 = c.initial := by
  have byte : (byteAt (configLayout c) 1).toNat = c.initial.toNat :=
    (BitVec.toNat_ofNat ..).trans (Nat.mod_eq_of_lt (by omega))
  refine ⟨byte, BitVec.eq_of_toNat_eq ?_⟩
  rw [BitVec.toNat_setWidth, byte, Nat.mod_eq_of_lt c.initial.isLt]

theorem configInRange_iff :
    configInRange c = true ↔
      1 ≤ c.phaseCount ∧ c.phaseCount ≤ 4 ∧ c.initial.toNat < c.phaseCount ∧ c.marks[0].toNat % 2 = 0 ∧
        c.marks[1].toNat % 2 = 0 ∧ c.marks[2].toNat % 2 = 0 ∧ c.marks[3].toNat % 2 = 0 := by
  simp only [configInRange, Bool.and_eq_true, decide_eq_true_eq, and_assoc]

/-- A configuration in range is read back from its layout (R80). -/
theorem seqConfig?_configLayout (h : configInRange c = true) : seqConfig? (configLayout c) = some c := by
  have inRange := (configInRange_iff c).mp h
  have count : (byteAt (configLayout c) 0).toNat = c.phaseCount := by
    rw [show byteAt (configLayout c) 0 = BitVec.ofNat 8 c.phaseCount from rfl, BitVec.toNat_ofNat]
    exact Nat.mod_eq_of_lt (by omega)
  obtain ⟨initial, initial_field⟩ := configLayout_initial c
  obtain ⟨l0, l1, l2, l3⟩ := configLayout_lengths c
  obtain ⟨m0, m1, m2, m3⟩ := configLayout_marks c
  obtain ⟨mode, qualifier, polarity⟩ := configLayout_enums c
  have filter : byteAt (configLayout c) 25 = c.filter := rfl
  generalize configLayout c = p at *
  unfold seqConfig?
  rw [mode, qualifier, polarity]
  dsimp only
  simp only [count, initial, initial_field, l0, l1, l2, l3, m0, m1, m2, m3, inRange, vector_four, filter, and_self,
    if_true]

end

/-! ### The commands (R80, R93) -/

theorem seqSetReply_config {p : List Byte} {c : SeqConfig} (h : seqConfig? p = some c) (s : State) :
    seqSetReply p s =
      ⟨{ s with seq :=
          { config := c
            phase := c.initial
            counter := 0#16
            epochAccesses := 0#32
            epochNumber := s.seq.epochNumber
            parked := false
            overrunPosted := false
            accepted := s.pins.epoch
            filterCount := 0 } }, .ok, []⟩ := by
  simp only [seqSetReply, h]
  rfl

theorem seqSetReply_range {p : List Byte} (h : seqConfig? p = none) (s : State) :
    seqSetReply p s = s.refuse .range := by
  simp only [seqSetReply, h]

theorem seqRestartReply_eq (s : State) :
    seqRestartReply s = ⟨epochBoundary s, .ok, inFour (s.seq.epochNumber + 1).toNat⟩ := by
  have number : s.seqRestart.seq.epochNumber = s.seq.epochNumber + 1 := by
    rw [State.seqRestart, State.seqNews_seq, Seq.boundary_epochNumber]
  rw [seqRestartReply, number, longBytes_inFour, State.seqRestart, State.seqNews_boundary]

/-! ### Accepted edges (R86, R88, R91) -/

theorem Polarity.isEdge_iff (p : Polarity) (level : Bool) :
    p.isEdge (!level) = true ↔ (p = .rising ∧ level = false) ∨ (p = .falling ∧ level = true) := by
  cases p <;> cases level <;> decide

/-- What an accepted edge does in each mode, the filter's new level already in place. -/
theorem State.seqNews_edge (s : State) :
    s.seqNews s.seq.edge =
      match s.seq.config.mode with
      | .syncStep => advanced s
      | .syncRestart => epochBoundary s
      | .count => s
      | .mark => s := by
  unfold Seq.edge
  cases s.seq.config.mode with
  | syncStep => exact s.seqNews_advance s.seq false none
  | syncRestart => exact s.seqNews_boundary s.seq
  | count | mark => rfl

theorem exec_epochTransitionAccepted {s : State} (running : s.pins.resetN = false) :
    exec .epochTransitionAccepted s = .next s.acceptTransition :=
  congrArg Host.Outcome.next (if_neg (by simp [running]))

/-- A transition accepted: the level, and in an edge the rule of the mode (R90, R91). -/
theorem State.acceptTransition_eq (s : State) :
    let s1 : State :=
      { s with pins := { s.pins with epoch := !s.seq.accepted }, seq := s.seq.sample (!s.seq.accepted) }
    s.acceptTransition =
      if (s.seq.config.polarity = .rising ∧ s.seq.accepted = false) ∨
          (s.seq.config.polarity = .falling ∧ s.seq.accepted = true) then s1.seqNews s1.seq.edge
      else s1 := by
  dsimp only
  unfold State.acceptTransition Seq.transition
  simp only [Polarity.isEdge_iff]
  split <;> rfl

end Sys2Proof.Machine

namespace Sys2Proof

open Sys2Proof.Machine Sys2Proof.Claim

/-- Settles O45: the layout is read back, each field out of range is refused, and SEQ.RESTART is an epoch boundary. -/
theorem seqSetAndRestart : Obligations.SeqSetAndRestart := by
  refine ⟨fun f s h => ⟨fun c layout inRange => ?_, fun length bad => ?_⟩, fun f s h length => ?_⟩
  · have config : seqConfig? f.payload = some c := layout ▸ seqConfig?_configLayout c inRange
    have length : payloadIs f 26 = true := by simp [payloadIs, layout, configLayout, inTwo, inThree]
    rw [exec_addressed (i := .seqSet f) h rfl length, seqSetReply_config config]
  · rw [exec_addressed (i := .seqSet f) h rfl (by simp [payloadIs, length]), seqSetReply_range (seqConfig?_eq_none bad)]
    rfl
  · rw [exec_addressed (i := .seqRestart f) h rfl (by simp [payloadIs, length]), seqRestartReply_eq]

/-- Settles O46: the new level first, then the rule of the mode for an edge of the selected polarity. -/
theorem epochTransitionActsByMode : Obligations.EpochTransitionActsByMode := by
  intro s running
  refine ⟨?_, fun filtered => ?_⟩
  · rw [exec_epochTransitionAccepted running, State.acceptTransition_eq, State.seqNews_edge]
    rfl
  · exact congrArg Host.Outcome.next (if_neg (by simp [running, filtered]))

end Sys2Proof
end

section
/-! PROOFS. The end of a host access by the completion of its strobe, in the terms of the statements (R30 to R32, R103, R126),
and what the sequencer makes of it in each mode (R82 to R89). -/

namespace Sys2Proof.Machine

open Sys2Proof.Claim

/-! ### Steps 2 to 4 of an access end (R31) -/

theorem State.countHit_eq (s : State) (slot : Option (Fin 32)) :
    s.countHit slot =
      match slot with
      | some i =>
        { s with maps := { s.maps with
            hits := s.maps.hits.set i.val
              (if s.maps.hits[i] = 0xFFFF#16 then 0xFFFF#16 else s.maps.hits[i] + 1#16) } }
      | none => s := by
  cases slot with
  | none => rfl
  | some i =>
    have hit : satInc s.maps.hits[i] = if s.maps.hits[i] = 0xFFFF#16 then 0xFFFF#16 else s.maps.hits[i] + 1#16 := by
      unfold satInc
      split
      · next full => exact full.trans (if_pos full).symm
      · next below => exact (if_neg below).symm
    simp only [State.countHit, hit]

theorem Decision.outcome_eq (d : Decision) (completed : Bool) : d.outcome completed = recordedOutcome d completed := by
  unfold Decision.outcome recordedOutcome
  cases d.disposition with
  | default | pass | relocate => cases completed <;> rfl
  | substitute run word policy => cases policy <;> rfl
  | guard response fill => cases response <;> rfl
  | lockdown => rfl

theorem State.reportEnd_eq (s : State) (a : Access) (d : Decision) (completed : Bool) :
    s.reportEnd a d completed =
      let s1 := if d.journal then
          s.recordArrives
            { sequence := s.journal.next, generation := d.generation, phase := d.phase, slot := d.slot,
              addr := a.addr, data := a.data, lanes := a.lanes, outcome := recordedOutcome d completed,
              target := recordedTarget d }
        else s
      match d.disposition with
      | .guard _ _ => s1.post (.guardHit d.slot a.addr a.kind)
      | .lockdown => s1.post (.guardHit d.slot a.addr a.kind)
      | _ => s1 := by
  unfold State.reportEnd recordOf Decision.guards
  rw [Decision.outcome_eq]
  cases d.disposition <;> rfl

theorem Pins.holdsStrobe_eq (s : State) (a : Access) : s.pins.holdsStrobe a = strobeHeld s a := by
  unfold Pins.holdsStrobe strobeHeld
  cases a.kind <;> rfl

/-- The hit, the record and GUARD_HIT, and the response. -/
theorem handedOver_eq (s : State) (a : Access) (d : Decision) (e : HostResponse) :
    ((s.countHit d.slot).reportEnd a d e.completed).respond a e = handedOver s a d e := by
  have held : ((s.countHit d.slot).reportEnd a d e.completed).pins.holdsStrobe a = strobeHeld s a := by
    rw [State.reportEnd_pins, State.countHit_pins, Pins.holdsStrobe_eq]
  unfold State.respond handedOver
  rw [held, State.reportEnd_eq, State.countHit_eq]
  cases strobeHeld s a <;> rfl

theorem marksBoundary_iff (p : PendingCommit) (a : Access) :
    marksBoundary p a = true ↔ a.kind = .fetch ∧ p.boundary = .mark (byteAddr a.addr) := by
  rw [marksBoundary, Bool.and_eq_true, beq_iff_eq, beq_iff_eq]

/-- Step 4 (R62, R64, R71). -/
theorem switched_eq (s : State) (a : Access) : s.changeAtEnd a = switched s a := by
  unfold State.changeAtEnd switched
  cases s.gen.commit with
  | none => rfl
  | pending p => simp only [Bool.or_eq_true, marksBoundary_iff, State.takeEffect_eq]
  | trial t => rfl

/-- The whole of an access end (R31), after an absorbed write. -/
theorem State.endAccess_accessEnded {s : State} {a : Access} {d : Decision} (ha : s.hau.access = some a)
    (hd : s.hau.decision = some d) (e : HostResponse) :
    s.endAccess e = accessEnded (s.absorb a d) a d e := by
  rw [State.endAccess_eq ha hd, accessEnded, ← State.absorb_seq s a d, sequenced_eq, handedOver_eq, switched_eq]

/-- A decision for the memory port absorbs nothing (R10, R26). -/
theorem State.absorb_effective {s : State} {d : Decision} (h : d.effective.isSome = true) (a : Access) :
    s.absorb a d = s := by
  unfold State.absorb
  split
  · next absorbs =>
    rw [Decision.effective, absorbs] at h
    cases h
  · rfl

/-! ### The completion of a host strobe (R103, R126) -/

theorem wordReplaced_eq (o : Overlay) (r : Fin 32) (w : Nat) (lanes : Lanes) (v : Word) :
    wordReplaced o r w lanes v = o.writeWord r w lanes v := by
  simp only [wordReplaced, ← lowByte_eq, ← highByte_eq]
  rfl

theorem snooped_eq (s : State) (p : PortAccess) : snooped s p = s.snoop p := by
  simp only [snooped, wordReplaced_eq, ← byteAddr_toNat, Nat.mul_comm 8]
  rfl

section
variable {s : State} {a : Access} {d : Decision} {p : PortAccess} (md : Word)

theorem strobeDone_eq : strobeDone s p = s.freePort.snoop p := snooped_eq _ p

theorem strobeDone_seq : (strobeDone s p).seq = s.seq := by
  rw [strobeDone_eq, State.snoop_seq, State.freePort_seq]

theorem completedWith_eq : deviceResponse p md = completedWith p md := by
  unfold deviceResponse completedWith
  cases p.write <;> rfl

theorem completionMoment_onDevice (h : OnDevice s a d p) :
    s.completionMoment md = (strobeDone s p, some (completedWith p md)) := by
  obtain ⟨-, -, -, access, owner, abandoned, -, -⟩ := h
  simp only [State.completionMoment, access, owner, abandoned, strobeDone_eq, completedWith_eq]
  rfl

/-- The completion of a host strobe leads to the whole access end, and nothing is granted after it. -/
theorem completionMoment_finish (h : OnDevice s a d p) (noReset : s.mpu.softReset = none)
    (eff : d.effective.isSome = true) :
    (s.completionMoment md).finish = accessEnded (strobeDone s p) a d (completedWith p md) := by
  have moment := completionMoment_onDevice md h
  obtain ⟨-, access, decision, -, -, -, noHost, noCapture⟩ := h
  have hau : (strobeDone s p).hau = s.hau := by rw [strobeDone_eq]; simp
  have mpc : (strobeDone s p).mpc = s.freePort.mpc := by rw [strobeDone_eq]; simp
  have mpu : (strobeDone s p).mpu = s.mpu := by rw [strobeDone_eq]; simp
  rw [moment, Moment.finish_end _ (mpu ▸ noReset) (.inr (mpc ▸ ⟨noHost, noCapture⟩)),
    State.endAccess_accessEnded (hau ▸ access) (hau ▸ decision), State.absorb_effective eff]

/-- A row that carries an access end, where the completion ends an access that passes the row's test, is that completion, whole
(log 3). -/
theorem bringAboutIf_completion (h : OnDevice s a d p) (noReset : s.mpu.softReset = none)
    (eff : d.effective.isSome = true) {test : State → Access → Bool} (passes : test (strobeDone s p) a = true) :
    s.bringAboutIf (.completion md) (s.endsWith (.completion md) test) =
      accessEnded (strobeDone s p) a d (completedWith p md) := by
  have access : (strobeDone s p).hau.access = some a := by
    rw [strobeDone_eq, State.snoop_hau, State.freePort_hau]
    exact h.2.1
  have ends : s.endsWith (.completion md) test = true := by
    simp only [State.endsWith, State.momentOf, completionMoment_onDevice md h, access, Option.any_some, passes,
      Option.isSome_some, Bool.and_true]
  rw [State.bringAboutIf, if_pos ends, ← completionMoment_finish md h noReset eff]
  rfl

end

/-! ### The sequencer's part, case by case (R82 to R89) -/

section
variable {s : State} {a : Access}

/-- A ceiling's rule alone: SYNC_STEP, and MARK away from the mark (R87). -/
theorem sequenced_ceilinged
    (mode : s.seq.config.mode = .syncStep ∨ (s.seq.config.mode = .mark ∧ ¬AtMark s.seq a)) :
    sequenced s a = ceilinged s a := by
  unfold sequenced
  rcases mode with step | ⟨mark, away⟩
  · rw [step]
  · rw [mark]
    exact if_neg away

theorem ceilinged_tallied (h : ¬(Fills s.seq a ∧ s.seq.overrunPosted = false)) :
    ceilinged s a = { s with seq := tallied s.seq a } := if_neg h

/-- An access end away from a mark that fills no phase counts, and that is all (R82). -/
theorem sequenced_tallied (unmarked : s.seq.config.mode = .mark → ¬AtMark s.seq a) (h : ¬Fills s.seq a) :
    sequenced s a = { s with seq := tallied s.seq a } := by
  have noOverrun : ¬(Fills s.seq a ∧ s.seq.overrunPosted = false) := fun fills => h fills.1
  cases mode : s.seq.config.mode with
  | syncStep => rw [sequenced_ceilinged (.inl mode), ceilinged_tallied noOverrun]
  | mark => rw [sequenced_ceilinged (.inr ⟨mode, unmarked mode⟩), ceilinged_tallied noOverrun]
  | count | syncRestart =>
    unfold sequenced
    rw [mode]
    exact if_neg h

/-- A FETCH at the mark counts under the ceiling and then advances (R89). -/
theorem sequenced_marked (mode : s.seq.config.mode = .mark) (marked : AtMark s.seq a) :
    sequenced s a = advanced (ceilinged s a) := by
  unfold sequenced
  rw [mode]
  exact if_pos marked

/-- The advance of R89 goes where the sequencer stood, whatever the count and its OVERRUN. -/
theorem advanced_ceilinged :
    advanced (ceilinged s a) =
      if phaseAfter s.seq = s.seq.config.initial then epochBoundary (ceilinged s a)
      else { ceilinged s a with seq := steppedTo (ceilinged s a).seq (phaseAfter s.seq) } := by
  have config : (tallied s.seq a).config = s.seq.config := by rw [← Seq.tally_eq, Seq.tally_config]
  have phase : (tallied s.seq a).phase = s.seq.phase := by rw [← Seq.tally_eq, Seq.tally_phase]
  have stands : (ceilinged s a).seq.config = s.seq.config ∧ (ceilinged s a).seq.phase = s.seq.phase := by
    unfold ceilinged
    split <;> exact ⟨config, phase⟩
  have next : phaseAfter (ceilinged s a).seq = phaseAfter s.seq := by rw [phaseAfter, stands.1, stands.2, phaseAfter]
  rw [advanced, next, stands.1]

end

/-! The count of an access that fills its phase, and of one that does not. -/

section
variable {q : Seq}

theorem counted_below (below : lengthNow q = 0#16 ∨ q.counter.toNat + 1 < (lengthNow q).toNat) :
    counted q =
      { q with
        counter := if q.counter = 0xFFFF#16 then q.counter else q.counter + 1#16
        epochAccesses := oneMore q.epochAccesses } := by
  have notFull : ¬(lengthNow q ≠ 0#16 ∧ lengthNow q ≤ q.counter) := by
    rintro ⟨nonzero, full⟩
    have := below.resolve_left nonzero
    bv_omega
  simp only [counted, notFull, false_or]

theorem counted_not_full (below : lengthNow q = 0#16 ∨ q.counter.toNat + 1 < (lengthNow q).toNat) (a : Access) :
    ¬Fills q a := by
  rintro ⟨-, nonzero, full⟩
  have below := below.resolve_left nonzero
  rw [counted_below (.inr below)] at full
  dsimp only at full
  split at full <;> bv_omega

/-- The count that makes the phase counter equal to the length. -/
theorem counted_counter_fills (last : q.counter.toNat + 1 = (lengthNow q).toNat) :
    (counted q).counter = lengthNow q := by
  have below : ¬((lengthNow q ≠ 0#16 ∧ lengthNow q ≤ q.counter) ∨ q.counter = 0xFFFF#16) := by
    bv_omega
  have next : q.counter + 1#16 = lengthNow q := by bv_omega
  exact (if_neg below).trans next

/-- At the ceiling only the epoch access counter grows (R82, R87). -/
theorem counted_at_ceiling (nonzero : lengthNow q ≠ 0#16) (full : q.counter = lengthNow q) :
    counted q = { q with epochAccesses := oneMore q.epochAccesses } := by
  have counter : (counted q).counter = q.counter := if_pos (.inl ⟨nonzero, full ▸ BitVec.le_refl _⟩)
  have rest : counted q = { q with counter := (counted q).counter, epochAccesses := oneMore q.epochAccesses } := rfl
  rw [rest, counter]

end

end Sys2Proof.Machine
end

section
/-! PROOFS. An access that fills its phase: what the sequencer does by the mode, and the row of the table that it is (R85 to
R89). -/

namespace Sys2Proof.Machine

open Sys2Proof.Claim

section
variable {s : State} {a : Access}

/-! ### What an access that fills its phase brings about (R85, R87, R88) -/

theorem fills_of_last (counts : Counts s.seq a) (nonzero : lengthNow s.seq ≠ 0#16)
    (last : s.seq.counter.toNat + 1 = (lengthNow s.seq).toNat) :
    Fills s.seq a ∧ tallied s.seq a =
      { s.seq with counter := lengthNow s.seq, epochAccesses := oneMore s.seq.epochAccesses } := by
  have counter := counted_counter_fills last
  refine ⟨⟨counts, nonzero, counter⟩, ?_⟩
  rw [tallied_of_counts counts, ← counter]
  rfl

theorem sequenced_count (fills : Fills s.seq a) (mode : s.seq.config.mode = .count) :
    sequenced s a = advanced { s with seq := tallied s.seq a } ∧ (s.seq.accessEnd a).2.advanced = true := by
  have filled := (s.seq.fills_iff a).mpr fills
  constructor
  · unfold sequenced
    rw [mode]
    exact if_pos fills
  · simp only [Seq.accessEnd, mode, filled, if_true]

theorem sequenced_below_last (fills : Fills s.seq a) (mode : s.seq.config.mode = .syncRestart)
    (below : s.seq.phase.toNat + 1 < s.seq.config.phaseCount) :
    sequenced s a = { s with seq := steppedTo (tallied s.seq a) (phaseAfter s.seq) } ∧
      (s.seq.accessEnd a).2.advanced = true := by
  have filled := (s.seq.fills_iff a).mpr fills
  constructor
  · unfold sequenced
    rw [mode]
    exact (if_pos fills).trans (if_pos below)
  · simp only [Seq.accessEnd, mode, filled, below, if_true]

theorem sequenced_parks (fills : Fills s.seq a) (mode : s.seq.config.mode = .syncRestart)
    (last : s.seq.config.phaseCount ≤ s.seq.phase.toNat + 1) :
    sequenced s a =
        State.post (.overrun s.seq.phase)
          { s with seq := { tallied s.seq a with parked := true, overrunPosted := true } } ∧
      (s.seq.accessEnd a).2.parked = true := by
  have filled := (s.seq.fills_iff a).mpr fills
  have atLast := not_lt.mpr last
  constructor
  · unfold sequenced
    rw [mode]
    exact (if_pos fills).trans (if_neg atLast)
  · simp only [Seq.accessEnd, mode, filled, atLast, if_true, if_false]

theorem sequenced_overruns (fills : Fills s.seq a) (first : s.seq.overrunPosted = false)
    (mode : s.seq.config.mode = .syncStep ∨ (s.seq.config.mode = .mark ∧ ¬AtMark s.seq a)) :
    sequenced s a =
        State.post (.overrun s.seq.phase) { s with seq := { tallied s.seq a with overrunPosted := true } } ∧
      ((s.seq.accessEnd a).2.overrun.isSome && !(s.seq.accessEnd a).2.parked) = true := by
  have posts := (s.seq.overruns_iff a).mpr ⟨fills, first⟩
  constructor
  · rw [sequenced_ceilinged mode]
    exact if_pos ⟨fills, first⟩
  · rcases mode with step | ⟨mark, away⟩
    · simp only [Seq.accessEnd, step, posts]
      rfl
    · have unmarked := Bool.eq_false_iff.mpr (mt (s.seq.marks_iff a).mp away)
      simp only [Seq.accessEnd, mark, unmarked, posts]
      rfl

end

end Sys2Proof.Machine

namespace Sys2Proof

open Sys2Proof.Machine Sys2Proof.Claim

/-- Settles O47: the completion is the whole access end, whose step 1 is read off by whether the access counts, fills its phase
or stands at the mark. -/
theorem filledPhaseAdvancesParksOrOverruns : Obligations.FilledPhaseAdvancesParksOrOverruns := by
  intro md a d p s h noReset eff
  have seq : (strobeDone s p).seq = s.seq := strobeDone_seq
  have ends {t : State} (step1 : sequenced (strobeDone s p) a = t) :
      exec (.memoryAccessCompletes md) s = .next (switched (handedOver t a d (completedWith p md)) a) :=
    step1 ▸ congrArg Host.Outcome.next (completionMoment_finish md h noReset eff)
  have carries {test : State → Access → Bool} {t : State} (step1 : sequenced (strobeDone s p) a = t)
      (passes : test (strobeDone s p) a = true) :
      s.bringAboutIf (.completion md) (s.endsWith (.completion md) test) =
        switched (handedOver t a d (completedWith p md)) a :=
    step1 ▸ bringAboutIf_completion md h noReset eff passes
  dsimp only
  rw [← seq]
  generalize strobeDone s p = s1 at *
  refine ⟨fun uncounted unmarked => ends ?_, fun counts unmarked below => ends ?_,
    fun counts nonzero full posted mode => ends ?_, fun mode marked => ends ?_, fun counts nonzero last => ?_⟩
  · rw [sequenced_tallied unmarked fun fills => uncounted fills.1, tallied_of_not_counts uncounted]
  · rw [sequenced_tallied unmarked (counted_not_full below a), tallied_of_counts counts, counted_below below]
  · rw [sequenced_ceilinged mode, ceilinged_tallied (by simp [posted]), tallied_of_counts counts,
      counted_at_ceiling nonzero full]
  · rw [sequenced_marked mode marked, advanced_ceilinged]
  · obtain ⟨fills, tally⟩ := fills_of_last counts nonzero last
    refine ⟨fun mode away => ?_, fun mode lands => ?_, fun mode below => ?_, fun mode atLast => ?_, fun first mode => ?_⟩
    · obtain ⟨step1, advances⟩ := sequenced_count fills mode
      refine congrArg Host.Outcome.next (carries (step1.trans ?_) advances)
      rw [tally]
      exact if_neg away
    · obtain ⟨step1, advances⟩ := sequenced_count fills mode
      refine congrArg Host.Outcome.next (carries (step1.trans ?_) advances)
      rw [tally]
      exact if_pos lands
    · obtain ⟨step1, advances⟩ := sequenced_below_last fills mode below
      refine congrArg Host.Outcome.next (carries (step1.trans ?_) advances)
      rw [tally]
      rfl
    · obtain ⟨step1, parks⟩ := sequenced_parks fills mode atLast
      refine congrArg Host.Outcome.next (carries (step1.trans ?_) parks)
      rw [tally]
    · obtain ⟨step1, overruns⟩ := sequenced_overruns fills first mode
      refine congrArg Host.Outcome.next (carries (step1.trans ?_) overruns)
      rw [tally]

end Sys2Proof
end

section
/-! PROOFS. One CLK period (R90, R101 to R104): with the filter at rest it is the strobe's period, and with the port free it is
the filter's. -/

namespace Sys2Proof.Machine

/-! ### The filter's period (R90) -/

section
variable {s : State}

theorem State.filterPeriod_level (level : s.pins.epoch = s.seq.accepted) :
    s.filterPeriod = { s with seq := { s.seq with filterCount := 0 } } := if_pos level

theorem State.filterPeriod_pends (edge : s.pins.epoch ≠ s.seq.accepted)
    (early : s.seq.filterCount + 1 < s.seq.config.filter.toNat) :
    s.filterPeriod = { s with seq := { s.seq with filterCount := s.seq.filterCount + 1 } } :=
  (if_neg edge).trans (if_neg (not_le.mpr early))

theorem State.filterPeriod_accepts (edge : s.pins.epoch ≠ s.seq.accepted)
    (due : s.seq.config.filter.toNat ≤ s.seq.filterCount + 1) : s.filterPeriod = s.acceptTransition :=
  (if_neg edge).trans (if_pos due)

end

/-! ### The filter at rest (R90) -/

/-- What the filter keeps of its own: the accepted level and the pending count (R78). -/
def Seq.filterView (q : Seq) : Bool × Nat := (q.accepted, q.filterCount)

theorem Seq.tally_filterView (q : Seq) (k : AccessKind) : (q.tally k).filterView = q.filterView := by
  unfold Seq.tally
  split <;> rfl

theorem Seq.ceiling_filterView (q : Seq) (k : AccessKind) : (q.ceiling k).filterView = q.filterView := by
  unfold Seq.ceiling
  split <;> exact q.tally_filterView k

theorem Seq.advance_filterView (q : Seq) : q.advance.filterView = q.filterView := by
  unfold Seq.advance
  split <;> rfl

/-- An access end leaves the filter alone. -/
theorem Seq.accessEnd_filterView (q : Seq) (a : Access) : (q.accessEnd a).1.filterView = q.filterView := by
  have counted := q.tally_filterView a.kind
  unfold Seq.accessEnd
  cases q.config.mode with
  | count =>
    dsimp only
    split
    · exact (Seq.advance_filterView _).trans counted
    · exact counted
  | syncRestart =>
    dsimp only
    (repeat' split) <;> exact counted
  | syncStep => exact q.ceiling_filterView a.kind
  | mark =>
    dsimp only
    split
    · exact (Seq.advance_filterView _).trans (q.ceiling_filterView a.kind)
    · exact q.ceiling_filterView a.kind

/-- The EPOCH input stands at the accepted level with no pending count: a CLK period of the filter changes nothing. -/
def State.FilterRests (s : State) : Prop := s.seq.filterView = (s.pins.epoch, 0)

theorem State.FilterRests.filterPeriod {s : State} (h : s.FilterRests) : s.filterPeriod = s := by
  obtain ⟨accepted, count⟩ := Prod.ext_iff.mp h
  have seq : { s.seq with filterCount := 0 } = s.seq := by rw [← show s.seq.filterCount = 0 from count]
  rw [State.filterPeriod_level accepted.symm, seq]

theorem State.FilterRests.of_kept {s t : State} (h : s.FilterRests) (seq : t.seq.filterView = s.seq.filterView)
    (pins : t.pins = s.pins) : t.FilterRests := by
  rw [State.FilterRests, seq, pins]
  exact h

theorem State.FilterRests.endAccess {s : State} (h : s.FilterRests) (e : HostResponse) : (s.endAccess e).FilterRests := by
  refine h.of_kept ?_ (s.endAccess_pins e)
  rcases s.endAccess_seq e with seq | ⟨a, seq⟩ <;> rw [seq]
  exact s.seq.accessEnd_filterView a

theorem State.softReset_pins (s : State) (tag : Byte) : (s.softReset tag).pins = s.pins := by
  unfold State.softReset
  dsimp only
  split <;> rfl

/-- A soft reset samples the EPOCH input (R78). -/
theorem State.FilterRests.softResetIfDue {s : State} (h : s.FilterRests) : s.softResetIfDue.FilterRests := by
  unfold State.softResetIfDue
  split
  · rw [State.FilterRests, State.softReset_seq, State.softReset_pins]
    rfl
  · exact h

theorem Moment.finish_filterRests {m : Moment} (h : m.1.FilterRests) : m.finish.FilterRests := by
  unfold Moment.finish
  split
  · exact h
  · exact (h.endAccess _).softResetIfDue.of_kept (by rw [State.arbitrate_seq]) (State.arbitrate_pins _)

theorem State.FilterRests.portPeriod {s : State} (h : s.FilterRests) : s.portPeriod.FilterRests := by
  unfold State.portPeriod
  split
  · exact h
  · split
    · exact Moment.finish_filterRests (h.of_kept (by rw [State.completionMoment_seq]) (s.completionMoment_pins _))
    · split
      · exact Moment.finish_filterRests (h.of_kept (by rw [State.timeoutMoment_seq]) s.timeoutMoment_pins)
      · exact h

/-! ### The two halves of a CLK period -/

section
variable {s : State} (running : s.pins.resetN = false)
include running

/-- With the filter at rest a CLK period is the strobe's, in either order of the free value (log 9). -/
theorem State.countPeriod_filterRests (h : s.FilterRests) :
    s.countPeriod = { s with freeIndex := s.freeIndex + 1 }.portPeriod := by
  have rests : State.FilterRests { s with freeIndex := s.freeIndex + 1 } := h
  unfold State.countPeriod
  dsimp only
  rw [if_neg (by simp [running]), rests.filterPeriod, rests.portPeriod.filterPeriod, ite_self]

/-- With the port free a CLK period is the filter's, in either order of the free value (log 9). -/
theorem State.countPeriod_portFree (free : s.mpc.access = none) :
    s.countPeriod = { s with freeIndex := s.freeIndex + 1 }.filterPeriod := by
  have resting {u : State} (h : u.mpc.access = none) : u.portPeriod = u := by simp only [State.portPeriod, h]
  have before : State.portPeriod { s with freeIndex := s.freeIndex + 1 } = { s with freeIndex := s.freeIndex + 1 } :=
    resting free
  have after : (State.filterPeriod { s with freeIndex := s.freeIndex + 1 }).mpc.access = none := by
    rw [(State.filterPeriod_frame _).2.1]
    exact free
  unfold State.countPeriod
  dsimp only
  rw [if_neg (by simp [running]), before, resting after, ite_self]

end

/-- On an empty queue a step is one CLK period (log 1). -/
theorem step_idle {s t : State} (h : s.pending = []) (period : s.countPeriod = t) : step s = .next t.levelsChange := by
  rw [step, h, ← period]
  rfl

/-! ### The strobe's period (R101, R102, R104) -/

theorem PortAccess.completesAt_iff (p : PortAccess) (n : Nat) (mwait : Bool) :
    p.completesAt n mwait = true ↔ 2 + p.wait.toNat ≤ n ∧ ¬(p.mwait = true ∧ mwait = true) := by
  rw [PortAccess.completesAt, Bool.and_eq_true, decide_eq_true_eq, Bool.not_eq_true', ← Bool.not_eq_true,
    Bool.and_eq_true]

theorem PortAccess.lateAt_iff (p : PortAccess) (n : Nat) :
    p.lateAt n = true ↔ p.mwait = true ∧ p.timeout ≠ 0#8 ∧ 64 * p.timeout.toNat ≤ n := by
  rw [PortAccess.lateAt, PortAccess.canTimeOut, Bool.and_eq_true, Bool.and_eq_true, bne_iff_ne, decide_eq_true_eq,
    and_comm (a := p.timeout ≠ 0#8), and_assoc]

section
variable {s : State} {p : PortAccess} (port : s.mpc.access = some p)
include port

theorem State.portPeriod_counts (more : p.completesAt (p.elapsed + 1) s.pins.mwait = false)
    (early : p.lateAt (p.elapsed + 1) = false) :
    s.portPeriod = { s with mpc := { s.mpc with access := some { p with elapsed := p.elapsed + 1 } } } := by
  simp only [State.portPeriod, port, more, early, Bool.false_and, Bool.false_eq_true, if_false]

theorem State.portPeriod_completes (last : p.completesAt (p.elapsed + 1) s.pins.mwait = true)
    (first : (p.lateAt (p.elapsed + 1) && Config.timeoutFirst s.freeIndex) = false) :
    s.portPeriod = (s.completionMoment s.pins.md).finish := by
  simp only [State.portPeriod, port, last, first, Bool.not_false, Bool.and_self, if_true]

theorem State.portPeriod_timesOut (late : p.lateAt (p.elapsed + 1) = true)
    (first : p.completesAt (p.elapsed + 1) s.pins.mwait = true → Config.timeoutFirst s.freeIndex = true) :
    s.portPeriod = s.timeoutMoment.finish := by
  have passed : (p.completesAt (p.elapsed + 1) s.pins.mwait
      && !(p.lateAt (p.elapsed + 1) && Config.timeoutFirst s.freeIndex)) = false := by
    cases last : p.completesAt (p.elapsed + 1) s.pins.mwait
    · rfl
    · rw [late, first last]
      rfl
  unfold State.portPeriod
  rw [port]
  exact (if_neg (Bool.eq_false_iff.mp passed)).trans (if_pos late)

end

end Sys2Proof.Machine

namespace Sys2Proof

open Sys2Proof.Machine Sys2Proof.Claim

/-- Settles O3: the half of the CLK period that acts, and its case. -/
theorem idleStepCountsOneClockPeriod : Obligations.IdleStepCountsOneClockPeriod := by
  intro s idle running
  refine ⟨fun p port level count => ?_, fun free => ?_⟩
  · have rests : s.FilterRests := Prod.ext level.symm count
    have ends {t : State} (period : { s with freeIndex := s.freeIndex + 1 }.portPeriod = t) :
        step s = .next t.levelsChange :=
      step_idle idle ((State.countPeriod_filterRests running rests).trans period)
    dsimp only
    rw [← PortAccess.completesAt_iff, ← PortAccess.lateAt_iff]
    refine ⟨fun more early => ?_, fun last early => ⟨_, rfl, ?_⟩, fun more late => ⟨_, rfl, ?_⟩, fun last late => ?_⟩
    · exact ends (State.portPeriod_counts port (Bool.eq_false_iff.mpr more) (Bool.eq_false_iff.mpr early))
    · exact ends (State.portPeriod_completes port last (by rw [Bool.eq_false_iff.mpr early, Bool.false_and]))
    · exact ends (State.portPeriod_timesOut port late fun last => absurd last more)
    · cases tie : Config.timeoutFirst (s.freeIndex + 1) with
      | false => exact ⟨_, .inl rfl, ends (State.portPeriod_completes port last (by rw [tie, Bool.and_false]))⟩
      | true => exact ⟨_, .inr rfl, ends (State.portPeriod_timesOut port late fun _ => tie)⟩
  · have ends {t : State} (period : { s with freeIndex := s.freeIndex + 1 }.filterPeriod = t) :
        step s = .next t.levelsChange :=
      step_idle idle ((State.countPeriod_portFree running free).trans period)
    exact ⟨fun level => ends (State.filterPeriod_level level), fun edge early => ends (State.filterPeriod_pends edge early),
      fun edge due => ⟨_, exec_epochTransitionAccepted running, ends (State.filterPeriod_accepts edge due)⟩⟩

end Sys2Proof
end

section
/-! PROOFS. The settings of the backing devices and of the memory port (R113 to R115): DEV.SET, DEV.RESTORE and PORT.SET. -/

namespace Sys2Proof.Machine

open Sys2Proof.Claim

/-! ### The fields of the payloads (R113, R169) -/

/-- A flag byte in range is the byte of the flag it carries (R169). -/
theorem byte_of_flag {b : Byte} (h : b.toNat ≤ 1) : ∃ x : Bool, b = if x then 1#8 else 0#8 := by
  refine ⟨b == 1#8, ?_⟩
  have two : b = 0#8 ∨ b = 1#8 := by
    rcases Nat.le_one_iff_eq_zero_or_eq_one.mp h with h | h
    · exact .inl (BitVec.eq_of_toNat_eq h)
    · exact .inr (BitVec.eq_of_toNat_eq h)
  rcases two with rfl | rfl <;> rfl

theorem flag_beq_one (x : Bool) : ((if x then 1#8 else 0#8 : Byte) == 1#8) = x := by
  cases x <;> rfl

theorem ownerValue_eq (o : Owner) : ownerValue o = if o = .host then 1#8 else 2#8 := by
  cases o <;> rfl

/-- A wait of at most 31 is sent back as it came (R113). -/
theorem waitByte_roundtrip {w : Byte} (h : w.toNat ≤ 31) : BitVec.ofNat 8 (w.setWidth 5).toNat = w := by
  apply BitVec.eq_of_toNat_eq
  simp only [BitVec.toNat_ofNat, BitVec.toNat_setWidth]
  omega

/-! ### The replies -/

section
variable {s : State} {n pr w mw : Byte} {d : Fin 4}

theorem devSetReply_range (h : 3 < n.toNat ∨ 1 < pr.toNat ∨ 31 < w.toNat ∨ 1 < mw.toNat) :
    devSetReply [n, pr, w, mw] s = s.refuse .range := by
  unfold devSetReply
  split
  · next hd hpr hmw =>
    refine if_neg fun hw => ?_
    rcases h with h | h | h | h
    · cases (index4_eq_none.mpr h).symm.trans hd
    · cases (flag?_eq_none h).symm.trans hpr
    · exact absurd hw (Nat.not_le.mpr h)
    · cases (flag?_eq_none h).symm.trans hmw
  · rfl

/-- DEV.SET with every field in range. -/
theorem devSetReply_device (hd : d.val = n.toNat) (hw : w.toNat ≤ 31) (present mwait : Bool) :
    devSetReply [n, if present then 1#8 else 0#8, w, if mwait then 1#8 else 0#8] s =
      ⟨s.setDevice d (s.mpc.devices[d].set present (w.setWidth 5) mwait), .ok,
        n :: deviceLayout (s.mpc.devices[d].set present (w.setWidth 5) mwait)⟩ := by
  rw [← Device.bytes_eq]
  unfold devSetReply
  simp only [byteAt_cons_zero, byteAt_cons_succ, index4_eq_some.mpr hd, flag?_yes_no, if_pos hw]

theorem devRestoreReply_range (h : 3 < n.toNat) : devRestoreReply [n] s = s.refuse .range := by
  rw [devRestoreReply, show index4 (byteAt [n] 0) = none from index4_eq_none.mpr h]

/-- DEV.RESTORE of a device, by its state (R114). -/
theorem devRestoreReply_device (hd : d.val = n.toNat) :
    devRestoreReply [n] s =
      match s.mpc.devices[d].state with
      | .fenced _ _ => ⟨s.setDevice d { s.mpc.devices[d] with state := .online }, .ok, []⟩
      | .online => ⟨s, .ok, []⟩
      | .absent => s.refuse .absent := by
  have device : index4 (byteAt [n] 0) = some d := index4_eq_some.mpr hd
  cases state : s.mpc.devices[d].state <;> simp only [devRestoreReply, device, state]

end

end Sys2Proof.Machine

namespace Sys2Proof

open Sys2Proof.Machine Sys2Proof.Claim

/-- Settles O48: each field in its range, and the device's state before the command. -/
theorem deviceAndPortSettings : Obligations.DeviceAndPortSettings := by
  intro f s h
  refine ⟨fun n pr w mw hp => ?_, fun n hp => ?_, fun t k hp => ?_⟩
  · rw [exec_addressed (i := .devSet f) h rfl (by simp [payloadIs, hp]), hp]
    refine ⟨fun bad => ?_, fun d hd hpr hw hmw => ?_⟩
    · rw [devSetReply_range bad]
      rfl
    · obtain ⟨present, rfl⟩ := byte_of_flag hpr
      obtain ⟨mwait, rfl⟩ := byte_of_flag hmw
      rw [devSetReply_device hd hw, flag_beq_one]
      simp only [Device.set, deviceLayout, waitByte_roundtrip hw, ownerValue_eq]
      cases present with
      | false => rfl
      | true => cases s.mpc.devices[d].state <;> rfl
  · rw [exec_addressed (i := .devRestore f) h rfl (by simp [payloadIs, hp]), hp]
    refine ⟨fun bad => ?_, fun d hd => ?_⟩
    · rw [devRestoreReply_range bad]
      rfl
    · rw [devRestoreReply_device hd]
      cases s.mpc.devices[d].state <;> rfl
  · rw [exec_addressed (i := .portSet f) h rfl (by simp [payloadIs, hp]), hp, portSetReply]
    simp only [byteAt_cons_zero, byteAt_cons_succ]
    split <;> rfl

end Sys2Proof
end

section
/-! PROOFS. The arbiter's grants in the terms of the statements (R108 to R112), and the completion of a capture word (R122,
R123). -/

namespace Sys2Proof.Machine

open Sys2Proof.Claim

/-! ### The host's strobe (R100) -/

theorem hostStrobe_eq (s : State) (a : Access) (d : Decision) (eff : WordAddr) :
    hostStrobe s a d eff = s.hostPortAccess a d eff := by
  have wait : d.waitOverride.getD s.mpc.devices[deviceOf eff].wait = (hostStrobe s a d eff).wait := by
    unfold Decision.waitOverride hostStrobe
    cases d.disposition with
    | pass wait | relocate _ wait => cases wait <;> rfl
    | default | substitute | guard | lockdown => rfl
  rw [State.hostPortAccess, wait]
  rfl

/-! ### Grants on a free port (R110, R111) -/

section
variable {s : State}

theorem finish_arbitrate_idle
    (h : s.mpc.access.isSome = true ∨ (s.mpc.hostRequest = false ∧ s.mpc.captureRequest = false)) :
    Moment.finish s.arbitrate = s := by
  rw [State.arbitrate_idle h, Moment.finish_none]

/-- The host wins alone or below the share, and its device is ONLINE. -/
theorem finish_arbitrate_host {a : Access} {d : Decision} {eff : WordAddr} (free : s.mpc.access = none)
    (request : s.mpc.hostRequest = true) (wins : s.mpc.captureRequest = true → s.mpc.passOver < s.mpc.share)
    (access : s.hau.access = some a) (decision : s.hau.decision = some d) (effective : d.effective = some eff)
    (online : s.mpc.devices[deviceOf eff].state = .online) :
    Moment.finish s.arbitrate =
      strobing
        { s with
          hau := { s.hau with state := .device }
          mpc := { s.mpc with
            hostRequest := false
            passOver := if s.mpc.captureRequest then s.mpc.passOver + 1 else s.mpc.passOver } }
        (hostStrobe s a d eff) := by
  have takes : s.online (deviceOf eff) = true := by
    rw [State.online, online]
    rfl
  rw [State.arbitrate_host free (Mpc.winner_host request wins) access decision effective takes, Moment.finish_none,
    hostStrobe_eq, Mpc.grant, request, Bool.true_and]
  rfl

/-- The capture wins alone or at the share, and its word's device is ONLINE. -/
theorem finish_arbitrate_capture {j : CaptureJob} (free : s.mpc.access = none) (request : s.mpc.captureRequest = true)
    (wins : s.mpc.hostRequest = true → s.mpc.share ≤ s.mpc.passOver) (job : s.capture.job = some j)
    (online : s.mpc.devices[deviceOf (nextWord s j)].state = .online) :
    Moment.finish s.arbitrate =
      strobing
        { s with mpc := { s.mpc with
            captureRequest := false
            passOver := if s.mpc.hostRequest then 0 else s.mpc.passOver } }
        (captureStrobe s (nextWord s j)) := by
  rw [State.arbitrate_capture free (Mpc.winner_capture request wins) job online, Moment.finish_none, Mpc.grant, request,
    Bool.and_true]
  rfl

end

/-! ### Overlay RAM through a grant (R26, R112)

A returned host grant ends an access whose decision names a device, so nothing is absorbed. -/

/-- An access that ends at a moment has a decision that goes to the memory port. -/
def Moment.ForPort (m : Moment) : Prop :=
  m.2.isSome = true →
    ∃ a d, m.1.hau.access = some a ∧ m.1.hau.decision = some d ∧ d.effective.isSome = true

theorem Moment.forPort_none (s : State) : Moment.ForPort (s, none) := nofun

theorem State.grantHost_forPort (s : State) : Moment.ForPort s.grantHost := by
  unfold State.grantHost
  split
  · next a d access decision =>
    split
    · next eff effective =>
      split
      · exact Moment.forPort_none _
      · exact fun _ => ⟨a, d, access, decision, Option.isSome_of_eq_some effective⟩
    · exact Moment.forPort_none _
  · exact Moment.forPort_none _

theorem State.grantOne_forPort (s : State) : Moment.ForPort s.grantOne := by
  unfold State.grantOne
  split
  · exact State.grantHost_forPort _
  · exact Moment.forPort_none _
  · exact Moment.forPort_none _

theorem State.arbitrate_forPort (s : State) : Moment.ForPort s.arbitrate := by
  unfold State.arbitrate
  dsimp only
  split
  · next e ends => exact fun _ => s.grantOne_forPort (Option.isSome_of_eq_some ends)
  · exact State.grantOne_forPort _

theorem Moment.ForPort.finish_ram {m : Moment} (h : m.ForPort) : m.finish.overlay.ram = m.1.overlay.ram := by
  obtain ⟨s, e⟩ := m
  cases e with
  | none => rfl
  | some e =>
    obtain ⟨a, d, access, decision, effective⟩ := h rfl
    rw [Moment.finish, State.arbitrate_ram, State.softResetIfDue_ram, State.endAccess_ram access decision,
      State.absorb_effective effective]

/-! ### The completion of a capture word (R122, R123) -/

/-- A run word replaced, byte by byte (R26, R44). -/
theorem byteReplaced_eq {o : Overlay} (canonical : Memory.wf o.ram = true) (r : Fin 32) (w : Nat) (lanes : Lanes)
    (v : Word) (b : Nat) :
    ramRead (wordReplaced o r w lanes v).ram b = byteReplaced o r w lanes v b := by
  rw [wordReplaced_eq, Overlay.writeWord_read o r w lanes v b canonical, byteReplaced, Run.locate_eq]
  cases wordPlace o.runs[r].pages w with
  | none => rfl
  | some x =>
    dsimp only
    rw [lowByte_eq, highByte_eq]

section
variable {s : State} {j : CaptureJob} (md : Word)

/-- Steps 1 and 2 of R122 on the port just freed. -/
theorem State.freePort_copyWord (s : State) (j : CaptureJob) :
    s.freePort.copyWord j md =
      { s with
        mpc := { s.mpc with access := none }
        overlay := wordReplaced s.overlay j.run (8 * j.offset + s.capture.wordsDone) .both md
        capture := { s.capture with wordsDone := s.capture.wordsDone + 1 } } := by
  rw [wordReplaced_eq, Nat.mul_comm 8]
  rfl

/-- With an abort pending, or after the last word. -/
theorem State.captureWord_ends (job : s.capture.job = some j)
    (ends : ¬(s.capture.abortPending = false ∧ s.capture.wordsDone + 1 ≠ 8 * j.length)) :
    s.captureWord md =
      captureEnded (s.copyWord j md) j (if s.capture.abortPending then .aborted else .done)
        (if s.capture.abortPending then .aborted else .done) := by
  rw [State.captureWord, job]
  dsimp only
  cases abort : s.capture.abortPending with
  | true => rfl
  | false =>
    have last : s.capture.wordsDone + 1 = 8 * j.length := Decidable.not_not.mp fun more => ends ⟨abort, more⟩
    rw [if_neg Bool.false_ne_true, if_pos last]
    rfl

theorem State.captureWord_more (job : s.capture.job = some j) (abort : s.capture.abortPending = false)
    (more : s.capture.wordsDone + 1 ≠ 8 * j.length) :
    s.captureWord md =
      { s.copyWord j md with mpc := { (s.copyWord j md).mpc with captureRequest := true } } := by
  rw [State.captureWord, job]
  dsimp only
  rw [abort, if_neg Bool.false_ne_true, if_neg more]

/-- The word's bytes in overlay RAM are those of its copy, however the capture goes on. -/
theorem State.captureWord_ram (job : s.capture.job = some j) :
    (s.captureWord md).overlay.ram = (s.copyWord j md).overlay.ram := by
  rw [State.captureWord, job]
  dsimp only
  split
  · exact State.captureEnd_ram _ _ _
  · split
    · exact State.captureEnd_ram _ _ _
    · rfl

/-- The completion of a capture word is its copy on the free port and the arbiter's grant. -/
theorem exec_memoryAccessCompletes_capture {p : PortAccess} (port : s.mpc.access = some p) (owner : p.owner = .capture) :
    exec (.memoryAccessCompletes md) s = .next (Moment.finish (s.freePort.captureWord md).arbitrate) := by
  have moment : s.completionMoment md = (s.freePort.captureWord md).arbitrate := by
    simp only [State.completionMoment, port, owner]
  rw [← moment]
  rfl

end

end Sys2Proof.Machine

namespace Sys2Proof

open Sys2Proof.Machine Sys2Proof.Claim

/-- Settles O51: the word copied on the port just freed, and the grant of the requests that then wait. -/
theorem captureWordCompletes : Obligations.CaptureWordCompletes := by
  intro md j p s port owner job noRequest
  have completes := exec_memoryAccessCompletes_capture md port owner
  have copied := State.freePort_copyWord md s j
  rw [completes]
  refine ⟨fun canonical => ⟨_, rfl, fun b => ?_⟩, fun ends => ?_, fun more => ?_⟩
  · rw [(State.arbitrate_forPort _).finish_ram, State.arbitrate_ram, State.captureWord_ram (s := s.freePort) md job,
      copied]
    exact byteReplaced_eq canonical _ _ _ _ _
  · rw [State.captureWord_ends (s := s.freePort) md job ends, copied]
    refine ⟨fun noHost => congrArg _ (finish_arbitrate_idle (.inr ⟨noHost, rfl⟩)),
      fun a d eff host access decision effective online => ?_, rfl⟩
    exact congrArg _ (finish_arbitrate_host rfl host nofun access decision effective online)
  · obtain ⟨abort, more⟩ := more
    rw [State.captureWord_more (s := s.freePort) md job abort more, copied]
    refine ⟨fun wins online => congrArg _ ?_, fun a d eff host access decision effective online below => ?_, rfl⟩
    · refine Eq.trans (finish_arbitrate_capture rfl rfl wins job online) ?_
      simp only [noRequest]
      rfl
    · exact congrArg _ (finish_arbitrate_host rfl host (fun _ => below) access decision effective online)

end Sys2Proof
end

section
/-! PROOFS. The capture commands of the management port: CAPTURE.START and CAPTURE.ABORT (R119, R120, R123, R128). -/

namespace Sys2Proof.Machine

open Sys2Proof.Claim

/-! ### CAPTURE.START's fields and refusals (R119) -/

section
variable {p : List Byte} {s : State} {j : CaptureJob}

theorem captureJob?_badRun (h : 31 < (byteAt p 0).toNat) : captureJob? p = none := by
  rw [captureJob?, index32_eq_none.mpr h]

section
variable (hoffset : j.offset ≤ 65535) (hlength : j.length ≤ 65535)
  (hp : p = BitVec.ofNat 8 j.run.val :: (inTwo j.offset ++ inThree j.source.toNat ++ inTwo j.length))
include hoffset hlength hp

/-- What the bytes of a CAPTURE.START carry (R167). -/
theorem captureStart_payload :
    index32 (byteAt p 0) = some j.run ∧ (wordAt p 1).toNat = j.offset ∧ addrAt p 3 = j.source ∧
      (wordAt p 6).toNat = j.length := by
  subst hp
  refine ⟨?_, ?_, addrAt_of_threeBytes (inThree_value j.source.isLt), ?_⟩
  · rw [byteAt_cons_zero, index32_eq_some, BitVec.toNat_ofNat]
    omega
  · rw [wordAt_toNat]
    exact inTwo_value (by omega)
  · rw [wordAt_toNat]
    exact inTwo_value (by omega)

/-- Check 1 of R119 with the run in range. -/
theorem captureJob?_eq :
    captureJob? p =
      if j.offset ≤ 511 ∧ 1 ≤ j.length ∧ j.length ≤ 512 ∧ j.source.toNat % 16 = 0 ∧
          inOneWindow j.source.toNat j.length = true then some j
      else none := by
  obtain ⟨run, offset, source, length⟩ := captureStart_payload hoffset hlength hp
  rw [captureJob?, run]
  simp only [offset, source, length, aligned, beq_iff_eq, oneWindow_eq]

theorem captureJob?_badFields
    (bad : 511 < j.offset ∨ j.length = 0 ∨ 512 < j.length ∨ j.source.toNat % 16 ≠ 0 ∨
      inOneWindow j.source.toNat j.length = false) :
    captureJob? p = none := by
  refine (captureJob?_eq hoffset hlength hp).trans (if_neg fun ⟨offset, some_granule, length, aligned, window⟩ => ?_)
  rw [window] at bad
  have fields_bad : 511 < j.offset ∨ j.length = 0 ∨ 512 < j.length ∨ j.source.toNat % 16 ≠ 0 := by simpa using bad
  omega

end

/-- Checks 2 to 9 of R119. -/
theorem State.captureRefusal_eq (s : State) (j : CaptureJob) : s.captureRefusal j = captureStartRefusal s j := by
  unfold State.captureRefusal captureStartRefusal
  rw [isLive_eq, isPinned_eq]
  cases s.overlay.runs[j.run].state <;> rfl

/-- The last check of R119: a device that is not ONLINE is refused. -/
theorem online_of_captureStartRefusal (h : captureStartRefusal s j = none) :
    s.mpc.devices[deviceOf (wordAddr j.source.toNat)].state = .online := by
  cases state : s.mpc.devices[deviceOf (wordAddr j.source.toNat)].state with
  | online => rfl
  | fenced | absent =>
    simp only [captureStartRefusal, state] at h
    repeat' split at h
    all_goals cases h

/-! ### The replies -/

theorem captureStartReply_range (job : captureJob? p = none) : captureStartReply p s = s.refuse .range := by
  simp only [captureStartReply, job]

theorem captureStartReply_refused {refusal : Status} (job : captureJob? p = some j)
    (refused : captureStartRefusal s j = some refusal) : captureStartReply p s = s.refuse refusal := by
  simp only [captureStartReply, job, State.captureRefusal_eq, refused]

theorem captureStartReply_accepted (job : captureJob? p = some j) (accepted : captureStartRefusal s j = none) :
    captureStartReply p s =
      ⟨Moment.finish (s.captureAccepted j).arbitrate, .accepted, byteAt p 0 :: inTwo (8 * j.length)⟩ := by
  simp only [captureStartReply, job, State.captureRefusal_eq, accepted, countBytes_inTwo]

/-- On a free port the first word's access starts (R110, R120). -/
theorem captureAccepted_starts (free : s.mpc.access = none) (noHost : s.mpc.hostRequest = false)
    (noCapture : s.mpc.captureRequest = false)
    (online : s.mpc.devices[deviceOf (wordAddr j.source.toNat)].state = .online) :
    Moment.finish (s.captureAccepted j).arbitrate =
      strobing
        { s with overlay := s.overlay.setState j.run .filling, capture := ⟨.running, some j, 0, false⟩ }
        (captureStrobe s (wordAddr j.source.toNat)) := by
  refine Eq.trans (finish_arbitrate_capture (s := s.captureAccepted j) free rfl (fun host => ?_) rfl online) ?_
  · exact absurd (noHost.symm.trans host) Bool.false_ne_true
  · simp only [strobing, State.captureAccepted, noHost, noCapture]
    rfl

theorem captureAbortReply_running (running : s.capture.status = .running) (job : s.capture.job = some j) :
    captureAbortReply s =
      if s.mpc.captureRequest then abortAnswer (s.captureEnd j .aborted)
      else abortAnswer { s with capture := { s.capture with abortPending := true } } := by
  simp only [captureAbortReply, running, job]

theorem captureAbortReply_idle (idle : s.capture.status ≠ .running) : captureAbortReply s = s.refuse .idle := by
  unfold captureAbortReply
  split
  · next running _ => exact absurd running idle
  · rfl

end

end Sys2Proof.Machine

namespace Sys2Proof

open Sys2Proof.Machine Sys2Proof.Claim

/-- Settles O53: the checks of R119 in their order, and the arbiter on the request for the first word. -/
theorem captureStartAndAbort : Obligations.CaptureStartAndAbort := by
  refine ⟨fun f s h length badRun => ?_, fun f s j h hp hoffset hlength => ?_, fun f s h hp => ?_⟩
  · rw [exec_addressed (i := .captureStart f) h rfl (by simp [payloadIs, length]),
      captureStartReply_range (captureJob?_badRun badRun)]
    rfl
  · rw [exec_addressed (i := .captureStart f) h rfl (by simp [payloadIs, hp, inTwo, inThree])]
    refine ⟨fun bad => ?_, fun offset some_granule length aligned window => ?_⟩
    · rw [captureStartReply_range (captureJob?_badFields hoffset hlength hp bad)]
      rfl
    · have job : captureJob? f.payload = some j :=
        (captureJob?_eq hoffset hlength hp).trans (if_pos ⟨offset, some_granule, length, aligned, window⟩)
      refine ⟨fun refusal refused => ?_, fun accepted => ?_⟩
      · rw [captureStartReply_refused job refused]
        rfl
      · rw [captureStartReply_accepted job accepted, hp, byteAt_cons_zero]
        refine ⟨fun free noHost noCapture => ?_, fun busy => ?_⟩
        · rw [captureAccepted_starts free noHost noCapture (online_of_captureStartRefusal accepted)]
          rfl
        · rw [State.arbitrate_idle (s := s.captureAccepted j) (.inl busy)]
          rfl
  · rw [exec_addressed (i := .captureAbort f) h rfl (by simp [payloadIs, hp])]
    refine ⟨fun j running job => ?_, fun idle => ?_⟩
    · rw [captureAbortReply_running running job]
      simp only [abortAnswer, countBytes_inTwo]
      split <;> rfl
    · rw [captureAbortReply_idle idle]
      rfl

end Sys2Proof
end

section
/-! PROOFS. The Write Journal (R133 to R143): what an arrival makes of the list, and what the three journal commands answer. -/

namespace Sys2Proof.Machine

open Sys2Proof.Claim Sys2Proof.Safety

/-! ### A record's arrival (R137) -/

/-- The list after an arrival and the number lost (R137). -/
theorem Journal.take_eq (j : Journal) (r : JournalRecord) :
    j.take r =
      if j.records.any (fun q => q.sequence == r.sequence) then (j.records, some r.sequence)
      else if j.records.length < 64 then (j.records ++ [r], none)
      else if j.policy = .keepOldest then (j.records, some r.sequence)
      else (j.records.tail ++ [r], j.records.head?.map JournalRecord.sequence) := by
  unfold Journal.take Journal.carries journalSize
  rw [List.drop_one]
  cases j.policy <;> rfl

/-! ### JOURNAL.READ (R140, R171) -/

/-- A flag's weight in a flags byte. -/
theorem weight_toNat (w : Nat) (b : Bool) : w * b.toNat = if b then w else 0 := by
  cases b
  · exact Nat.mul_zero w
  · exact Nat.mul_one w

/-- A record is sent in the layout of R171. -/
theorem JournalRecord.bytes_eq (before : Option JournalRecord) (r : JournalRecord) :
    r.bytes before = recordLayout before r := by
  unfold JournalRecord.bytes recordLayout
  simp only [wordBytes_inTwo, addrBytes_inThree, byteAddr_toNat, weight_toNat]
  refine congrArg₂ (· ++ ·) (congrArg₂ (· ++ ·) (congrArg₂ (· ++ ·) (congrArg₂ (· ++ ·) ?flags ?outcome) rfl) rfl) ?target
  case flags => cases before <;> cases r.slot <;> cases r.target <;> cases r.lanes <;> rfl
  case outcome => cases r.slot <;> cases r.outcome <;> rfl
  case target => cases r.target <;> rfl

/-- Of the oldest records, as many as `n` and the room allow, in their layouts (R171). -/
structure Packed (before : Option JournalRecord) (room n : Nat) (rs : List JournalRecord) (x : Nat × List Byte) : Prop where
  count_le : x.1 ≤ min n rs.length
  bytes : x.2 = layouts before (rs.take x.1)
  fits : (layouts before (rs.take x.1)).length ≤ room
  most : x.1 < min n rs.length → room < (layouts before (rs.take (x.1 + 1))).length

/-- A first record that fits goes before what is packed of the others in the room left. -/
theorem Packed.cons {before : Option JournalRecord} {room n : Nat} {r : JournalRecord} {rs : List JournalRecord}
    {x : Nat × List Byte} (first : (recordLayout before r).length ≤ room)
    (h : Packed (some r) (room - (recordLayout before r).length) n rs x) :
    Packed before room (n + 1) (r :: rs) (x.1 + 1, recordLayout before r ++ x.2) := by
  obtain ⟨count_le, bytes, fits, most⟩ := h
  constructor <;> simp only [List.take_succ_cons, layouts, List.length_append, List.length_cons]
  · omega
  · rw [bytes]
  · omega
  · omega

theorem packRecords_packed (before : Option JournalRecord) (room n : Nat) (rs : List JournalRecord) :
    Packed before room n rs (packRecords before room n rs) := by
  fun_induction packRecords before room n rs with
  | case1 => exact ⟨Nat.zero_le _, rfl, Nat.zero_le _, by simp⟩
  | case2 => exact ⟨Nat.zero_le _, rfl, Nat.zero_le _, by simp⟩
  | case3 before room n r rs first rest ih =>
    have packed : Packed (some r) (room - (r.bytes before).length) n rs rest := ih
    rw [JournalRecord.bytes_eq] at first packed ⊢
    exact packed.cons first
  | case4 before room n r rs tooLong =>
    rw [JournalRecord.bytes_eq, Nat.not_le] at tooLong
    exact ⟨Nat.zero_le _, rfl, Nat.zero_le _, fun _ => by simpa [layouts] using tooLong⟩

theorem journalReadReply_range {n : Byte} (h : n = 0#8 ∨ 4 < n.toNat) (s : State) :
    journalReadReply [n] s = s.refuse .range :=
  if_pos (h.imp_left fun h => congrArg BitVec.toNat h)

theorem journalReadReply_packed {n : Byte} (pos : 1 ≤ n.toNat) (le : n.toNat ≤ 4) (s : State) :
    ∃ x, Packed none 36 n.toNat s.journal.records x ∧
      journalReadReply [n] s =
        ⟨s, .ok,
          BitVec.ofNat 8 s.journal.records.length :: (inTwo s.journal.next.toNat ++ BitVec.ofNat 8 x.1 :: x.2)⟩ := by
  refine ⟨_, packRecords_packed none 36 n.toNat s.journal.records, ?_⟩
  have inRange : ¬((byteAt [n] 0).toNat = 0 ∨ 4 < (byteAt [n] 0).toNat) := by
    rw [byteAt_cons_zero]
    omega
  rw [journalReadReply, if_neg inRange, wordBytes_inTwo]
  simp [byteOf, journalRoom]

/-! ### JOURNAL.ACK (R141) -/

theorem journalAckReply_notHeld {s : State} {n : Word} (h : ∀ r ∈ s.journal.records, r.sequence ≠ n) :
    journalAckReply (inTwo n.toNat) s = s.refuse .notHeld := by
  have number : wordAt (inTwo n.toNat) 0 = n := wordBytes_inTwo n ▸ wordAt_wordBytes n []
  rw [journalAckReply, number, removeThrough_none h]

theorem journalAckReply_held {s : State} {n : Word} {before rest : List JournalRecord} {r : JournalRecord}
    (held : s.journal.records = before ++ r :: rest) (hr : r.sequence = n) (h : ∀ q ∈ before, q.sequence ≠ n) :
    journalAckReply (inTwo n.toNat) s =
      ⟨{ s with journal := { s.journal with
          records := rest
          highArmed := s.journal.highArmed || decide (rest.length < s.journal.threshold) } }, .ok,
        [BitVec.ofNat 8 (before.length + 1), BitVec.ofNat 8 rest.length] ++ oldestBytes rest⟩ := by
  have number : wordAt (inTwo n.toNat) 0 = n := wordBytes_inTwo n ▸ wordAt_wordBytes n []
  rw [journalAckReply, number, held, removeThrough_some hr h]
  rfl

/-! ### JOURNAL.SET (R143) -/

theorem journalPolicy?_badValue {b : Byte} (h : 1 < b.toNat) : journalPolicy? b = none := by
  unfold journalPolicy?
  split <;> simp_all

theorem journalSetReply_range {pol th : Byte} (h : 1 < pol.toNat ∨ th = 0#8 ∨ 64 < th.toNat) (s : State) :
    journalSetReply [pol, th] s = s.refuse .range := by
  unfold journalSetReply
  split
  · rfl
  · next policy named =>
    have known : ¬1 < pol.toNat := fun bad => by
      rw [byteAt_cons_zero, journalPolicy?_badValue bad] at named
      cases named
    exact if_pos ((h.resolve_left known).imp_left fun h => congrArg BitVec.toNat h)

/-- The journal with a policy and a threshold taken. -/
def Journal.configured (j : Journal) (policy : JournalPolicy) (threshold : Nat) : Journal :=
  { j with
    policy := policy
    threshold := threshold
    highArmed := if j.records.length < threshold then true else j.highArmed }

theorem Journal.rearm_configured (j : Journal) (policy : JournalPolicy) (threshold : Nat) :
    { j with policy := policy, threshold := threshold }.rearm = j.configured policy threshold := by
  have armed (p : Prop) [Decidable p] (b : Bool) : (b || decide p) = if p then true else b := by
    by_cases h : p <;> simp [h]
  exact congrArg (Journal.mk j.records j.next policy threshold) (armed _ _)

theorem journalSetReply_taken {pol th : Byte} {policy : JournalPolicy} (hp : pol = if policy = .keepOldest then 0#8 else 1#8)
    (pos : 1 ≤ th.toNat) (le : th.toNat ≤ 64) (s : State) :
    journalSetReply [pol, th] s =
      ⟨{ s with journal := s.journal.configured policy th.toNat }, .ok, [BitVec.ofNat 8 s.journal.records.length]⟩ := by
  have named : journalPolicy? (byteAt [pol, th] 0) = some policy := by
    subst hp
    cases policy <;> rfl
  have inRange : ¬(th.toNat = 0 ∨ 64 < th.toNat) := by omega
  have threshold : byteAt [pol, th] 1 = th := rfl
  rw [journalSetReply, named]
  simp only [threshold, if_neg inRange, Journal.rearm_configured]
  rfl

end Sys2Proof.Machine

namespace Sys2Proof

open Sys2Proof.Machine Sys2Proof.Claim Sys2Proof.Safety

/-- Settles O54: the reply packs the most records that fit, and an acknowledgement splits the list at the number. -/
theorem journalReadAndAck : Obligations.JournalReadAndAck := by
  refine ⟨fun f s n h hp => ?_, fun f s n h hp => ?_⟩
  · rw [exec_addressed (i := .journalRead f) h rfl (by simp [payloadIs, hp]), hp]
    refine ⟨fun bad => ?_, fun pos le => ?_⟩
    · rw [journalReadReply_range bad]
      rfl
    · obtain ⟨x, ⟨count_le, bytes, fits, most⟩, reply⟩ := journalReadReply_packed pos le s
      exact ⟨x.1, count_le, fits, most, by rw [reply, bytes]⟩
  · rw [exec_addressed (i := .journalAck f) h rfl (by simp [payloadIs, hp, inTwo]), hp]
    refine ⟨fun absent => ?_, fun before r rest held hr first => ?_⟩
    · rw [journalAckReply_notHeld absent]
      rfl
    · rw [journalAckReply_held held hr first, oldestBytes_eq]
      cases rest <;> rfl

/-- Settles O55: in a sound journal the values in force are those the command would leave. -/
theorem journalSetTakesSettings : Obligations.JournalSetTakesSettings := by
  intro f s pol th h hp
  rw [exec_addressed (i := .journalSet f) h rfl (by simp [payloadIs, hp]), hp]
  refine ⟨fun bad => ?_, fun policy code pos le => ?_⟩
  · rw [journalSetReply_range bad]
    rfl
  · rw [journalSetReply_taken code pos le]
    refine ⟨rfl, fun ⟨_, _, _, _, armed⟩ samePolicy sameThreshold => ?_⟩
    have armedBelow : (if s.journal.records.length < s.journal.threshold then true else s.journal.highArmed) =
        s.journal.highArmed := by
      split
      · next below => exact (Bool.eq_true_of_not_eq_false fun off => (armed off).not_gt below).symm
      · rfl
    rw [samePolicy, sameThreshold, Journal.configured, armedBelow]

/-- Settles O56: the list and the number lost are those of `Journal.take_eq`; the rest is the arrival as it stands. -/
theorem recordArrivalKeepsOrLoses : Obligations.RecordArrivalKeepsOrLoses := by
  intro s r held outcome
  have taken : outcome = s.journal.take r := (s.journal.take_eq r).symm
  clear_value outcome
  subst taken
  rfl

end Sys2Proof
end

section
/-! PROOFS. The bounds of the Write Journal (R133, R137, R139): an arrival, an acknowledgement, new settings and a reset each
keep them, and no event and no command does anything else to the journal. -/

namespace Sys2Proof.Machine

open Sys2Proof.Safety

/-! ### The bounds and what keeps them -/

/-- The bounds of R133 and R139, as the journal alone shows them. -/
structure Journal.Sound (j : Journal) : Prop where
  distinct : (j.records.map JournalRecord.sequence).Nodup
  count_le : j.records.length ≤ 64
  threshold_pos : 1 ≤ j.threshold
  threshold_le : j.threshold ≤ 64
  armed : j.highArmed = false → j.threshold ≤ j.records.length

theorem journalSound_iff (s : State) : JournalSound s ↔ s.journal.Sound :=
  ⟨fun ⟨distinct, count, pos, le, armed⟩ => ⟨distinct, count, pos, le, armed⟩,
    fun ⟨distinct, count, pos, le, armed⟩ => ⟨distinct, count, pos, le, armed⟩⟩

theorem Journal.atReset_sound : Journal.atReset.Sound := ⟨by decide, by decide, by decide, by decide, by decide⟩

/-- What an arrival can do to the list: keep it, append a number not held below 64 records, or in a full list put one in the
place of the oldest (R137). -/
theorem Journal.take_cases (j : Journal) (r : JournalRecord) :
    (j.take r).1 = j.records ∨
      (∀ q ∈ j.records, q.sequence ≠ r.sequence) ∧
        (j.records.length < 64 ∧ (j.take r).1 = j.records ++ [r] ∨
          64 ≤ j.records.length ∧ (j.take r).1 = j.records.tail ++ [r]) := by
  rw [j.take_eq r]
  split
  · exact .inl rfl
  · next absent =>
    have fresh : ∀ q ∈ j.records, q.sequence ≠ r.sequence := by simpa using absent
    split
    · next room => exact .inr ⟨fresh, .inl ⟨room, rfl⟩⟩
    · next full =>
      split
      · exact .inl rfl
      · exact .inr ⟨fresh, .inr ⟨Nat.le_of_not_lt full, rfl⟩⟩

/-- A record with a number not held goes behind records with distinct numbers. -/
theorem distinct_append {rs : List JournalRecord} {r : JournalRecord} (distinct : (rs.map JournalRecord.sequence).Nodup)
    (fresh : ∀ q ∈ rs, q.sequence ≠ r.sequence) : ((rs ++ [r]).map JournalRecord.sequence).Nodup := by
  rw [List.map_append, List.nodup_append]
  simpa [distinct] using fresh

/-- An arrival keeps the numbers distinct. -/
theorem Journal.take_distinct {j : Journal} (h : (j.records.map JournalRecord.sequence).Nodup) (r : JournalRecord) :
    ((j.take r).1.map JournalRecord.sequence).Nodup := by
  rcases j.take_cases r with kept | ⟨fresh, ⟨-, appended⟩ | ⟨-, displaced⟩⟩
  · rwa [kept]
  · rw [appended]
    exact distinct_append h fresh
  · rw [displaced]
    exact distinct_append (h.sublist ((List.tail_sublist _).map _)) fun q hq => fresh q (List.mem_of_mem_tail hq)

/-- An arrival makes no list longer than 64, and none shorter. -/
theorem Journal.take_length {j : Journal} (h : j.records.length ≤ 64) (r : JournalRecord) :
    j.records.length ≤ (j.take r).1.length ∧ (j.take r).1.length ≤ 64 := by
  rcases j.take_cases r with kept | ⟨-, ⟨room, appended⟩ | ⟨full, displaced⟩⟩
  · rw [kept]
    exact ⟨Nat.le_refl _, h⟩
  · rw [appended, List.length_append, List.length_singleton]
    omega
  · rw [displaced, List.length_append, List.length_tail, List.length_singleton]
    omega

theorem Journal.Sound.arrive {j : Journal} (h : j.Sound) (r : JournalRecord) : (j.arrive r).Sound := by
  obtain ⟨grows, bounded⟩ := Journal.take_length h.count_le r
  refine ⟨Journal.take_distinct h.distinct r, bounded, h.threshold_pos, h.threshold_le, fun disarmed => ?_⟩
  cases armed : j.highArmed with
  | false => exact (h.armed armed).trans grows
  | true =>
    have reached : j.threshold ≤ (j.take r).1.length := by
      simpa [Journal.arrive, Journal.high, armed] using disarmed
    exact reached

/-- After the threshold test of R139, high is armed below the threshold. -/
theorem Journal.rearm_sound {j : Journal} (distinct : (j.records.map JournalRecord.sequence).Nodup)
    (count : j.records.length ≤ 64) (pos : 1 ≤ j.threshold) (le : j.threshold ≤ 64) : j.rearm.Sound := by
  refine ⟨distinct, count, pos, le, fun disarmed => ?_⟩
  obtain ⟨-, reached⟩ : j.highArmed = false ∧ j.threshold ≤ j.records.length := by simpa [Journal.rearm] using disarmed
  exact reached

theorem removeThrough_sublist {n : Word} {rs : List JournalRecord} {x : Nat × List JournalRecord}
    (h : removeThrough n rs = some x) : x.2.Sublist rs := by
  induction rs generalizing x with
  | nil => cases h
  | cons r rs ih =>
    unfold removeThrough at h
    split at h
    · cases h
      exact List.sublist_cons_self r rs
    · obtain ⟨y, hy, rfl⟩ := Option.map_eq_some_iff.mp h
      exact (ih hy).cons r

/-! ### Record arrivals and the end of an access (R31, R134) -/

@[simp] theorem State.recordArrives_journal (s : State) (r : JournalRecord) :
    (s.recordArrives r).journal = s.journal.arrive r := by
  unfold State.recordArrives
  dsimp only
  (repeat' split) <;> rfl

theorem State.reportEnd_journal (s : State) (a : Access) (d : Decision) (c : Bool) :
    (s.reportEnd a d c).journal = if d.journal then s.journal.arrive (recordOf s.journal.next a d c) else s.journal := by
  unfold State.reportEnd
  dsimp only
  split <;> split <;> simp

@[simp] theorem State.softReset_journal (s : State) (tag : Byte) : (s.softReset tag).journal = Journal.atReset := by
  unfold State.softReset
  dsimp only
  split <;> rfl

theorem State.softResetIfDue_journalSound {s : State} (h : s.journal.Sound) : s.softResetIfDue.journal.Sound := by
  unfold State.softResetIfDue
  split
  · rw [State.softReset_journal]
    exact Journal.atReset_sound
  · exact h

theorem State.endAccess_journalSound {s : State} (h : s.journal.Sound) (e : HostResponse) :
    (s.endAccess e).journal.Sound := by
  unfold State.endAccess
  split
  · simp only [State.changeAtEnd_journal, State.respond_journal, State.reportEnd_journal, State.countHit_journal,
      State.seqNews_journal, State.absorb_journal]
    split
    · exact h.arrive _
    · exact h
  · exact h

/-! ### What leaves the journal: grants, and the moments of the events -/

@[simp] theorem State.grantHost_journal (s : State) : s.grantHost.1.journal = s.journal := by
  unfold State.grantHost
  (repeat' split) <;> rfl

@[simp] theorem State.grantOne_journal (s : State) : s.grantOne.1.journal = s.journal := by
  unfold State.grantOne
  split <;> simp

@[simp] theorem State.arbitrate_journal (s : State) : s.arbitrate.1.journal = s.journal := by
  unfold State.arbitrate
  dsimp only
  split <;> simp

@[simp] theorem State.enterDeciding_journal (s : State) (a : Access) : (s.enterDeciding a).1.journal = s.journal := by
  unfold State.enterDeciding
  dsimp only
  (repeat' split) <;> simp

@[simp] theorem State.arrivalMoment_journal (s : State) (p : HostPins) : (s.arrivalMoment p).1.journal = s.journal := by
  unfold State.arrivalMoment
  dsimp only
  (repeat' split) <;> simp

@[simp] theorem State.releaseMoment_journal (s : State) : s.releaseMoment.1.journal = s.journal := by
  unfold State.releaseMoment
  dsimp only
  (repeat' split) <;> simp

@[simp] theorem State.completionMoment_journal (s : State) (md : Word) :
    (s.completionMoment md).1.journal = s.journal := by
  unfold State.completionMoment
  (repeat' split) <;> simp

@[simp] theorem State.timeoutMoment_journal (s : State) : s.timeoutMoment.1.journal = s.journal := by
  unfold State.timeoutMoment
  (repeat' split) <;> simp

@[simp] theorem State.momentOf_journal (s : State) (c : Cause) : (s.momentOf c).1.journal = s.journal := by
  cases c with
  | release =>
    unfold State.momentOf
    dsimp only
    split <;> simp
  | arrival | completion | timeout | grant => simp [State.momentOf]
  | transition | restart | hostReset => rfl

@[simp] theorem State.acceptTransition_journal (s : State) : s.acceptTransition.journal = s.journal := by
  rw [State.acceptTransition, State.seqNews_journal]

@[simp] theorem State.filterPeriod_journal (s : State) : s.filterPeriod.journal = s.journal := by
  unfold State.filterPeriod
  (repeat' split) <;> simp

@[simp] theorem State.seqRestart_journal (s : State) : s.seqRestart.journal = s.journal := by
  rw [State.seqRestart, State.seqNews_journal]

/-! ### The events -/

/-- A moment meets the journal at most in the access end it carries through. -/
theorem Moment.finish_journalSound {m : Moment} (h : m.1.journal.Sound) : m.finish.journal.Sound := by
  unfold Moment.finish
  split
  · exact h
  · rw [State.arbitrate_journal]
    exact State.softResetIfDue_journalSound (State.endAccess_journalSound h _)

theorem State.hostReset_journalSound {s : State} (h : s.journal.Sound) : s.hostReset.journal.Sound := by
  unfold State.hostReset
  dsimp only
  split
  · exact State.softResetIfDue_journalSound (by simpa using h)
  · simpa using h

theorem State.bringAbout_journalSound {s : State} (h : s.journal.Sound) (c : Cause) :
    (s.bringAbout c).journal.Sound := by
  cases c with
  | transition | restart =>
    unfold State.bringAbout
    dsimp only
    split <;> simpa using h
  | hostReset =>
    unfold State.bringAbout State.hrstAsserted
    dsimp only
    split
    · exact h
    · split
      · exact h
      · exact State.hostReset_journalSound h
  | arrival | release | completion | timeout | grant =>
    exact Moment.finish_journalSound ((s.momentOf_journal _).symm ▸ h)

theorem State.bringAboutIf_journalSound {s : State} (h : s.journal.Sound) (c : Cause) (b : Bool) :
    (s.bringAboutIf c b).journal.Sound := by
  unfold State.bringAboutIf
  split
  · exact State.bringAbout_journalSound h c
  · exact h

/-! ### One CLK period -/

theorem State.portPeriod_journalSound {s : State} (h : s.journal.Sound) : s.portPeriod.journal.Sound := by
  unfold State.portPeriod
  split
  · exact h
  · split
    · exact Moment.finish_journalSound (by simpa using h)
    · split
      · exact Moment.finish_journalSound (by simpa using h)
      · exact h

theorem State.clockPeriod_journalSound {s : State} (h : s.journal.Sound) : s.clockPeriod.journal.Sound := by
  rw [State.clockPeriod, State.levelsChange_journal]
  unfold State.countPeriod
  dsimp only
  split
  · exact h
  · split
    · exact State.portPeriod_journalSound (by simpa using h)
    · rw [State.filterPeriod_journal]
      exact State.portPeriod_journalSound h

/-! ### The commands -/

theorem journalAckReply_sound (p : List Byte) {s : State} (h : s.journal.Sound) :
    (journalAckReply p s).state.journal.Sound := by
  unfold journalAckReply
  split
  · exact h
  · next removed rest left =>
    have sub := removeThrough_sublist left
    exact Journal.rearm_sound (h.distinct.sublist (sub.map _)) (sub.length_le.trans h.count_le) h.threshold_pos
      h.threshold_le

/-- The range check of R143 keeps the threshold within 1 to 64. -/
theorem journalSetReply_sound (p : List Byte) {s : State} (h : s.journal.Sound) :
    (journalSetReply p s).state.journal.Sound := by
  unfold journalSetReply
  split
  · exact h
  · split
    · exact h
    · next inRange =>
      obtain ⟨pos, le⟩ := not_or.mp inRange
      exact Journal.rearm_sound h.distinct h.count_le (Nat.pos_of_ne_zero pos) (Nat.le_of_not_lt le)

theorem partResetReply_journalSound (tag : Byte) {s : State} (h : s.journal.Sound) :
    (partResetReply tag s).state.journal.Sound := by
  unfold partResetReply
  split
  · exact h
  · rw [State.softReset_journal]
    exact Journal.atReset_sound

/-- The grant that a CAPTURE.START makes can return a waiting host request, which ends its access (R112). -/
theorem captureStartReply_journalSound (p : List Byte) {s : State} (h : s.journal.Sound) :
    (captureStartReply p s).state.journal.Sound := by
  unfold captureStartReply
  split
  · exact h
  · split
    · exact h
    · exact Moment.finish_journalSound ((State.arbitrate_journal _).symm ▸ h)

/-- A reply that leaves the journal alone. -/
def LeavesJournal (r : State → Reply) : Prop := ∀ s, (r s).state.journal = s.journal

theorem mapPutReply_leavesJournal (p : List Byte) : LeavesJournal (mapPutReply p) := by
  intro s
  unfold mapPutReply
  (repeat' split) <;> simp [State.refuse]

theorem mapClearReply_leavesJournal (p : List Byte) : LeavesJournal (mapClearReply p) := by
  intro s
  unfold mapClearReply
  (repeat' split) <;> simp [State.refuse]

theorem mapReadReply_leavesJournal (p : List Byte) : LeavesJournal (mapReadReply p) := by
  intro s
  unfold mapReadReply
  (repeat' split) <;> rfl

theorem mapRestageReply_leavesJournal : LeavesJournal mapRestageReply := by
  intro s
  unfold mapRestageReply
  split <;> simp [State.refuse]

theorem runOpenReply_leavesJournal (p : List Byte) : LeavesJournal (runOpenReply p) := by
  intro s
  unfold runOpenReply
  dsimp only
  (repeat' split) <;> rfl

theorem runWriteReply_leavesJournal (p : List Byte) : LeavesJournal (runWriteReply p) := by
  intro s
  unfold runWriteReply
  dsimp only
  (repeat' split) <;> rfl

theorem runReadReply_leavesJournal (p : List Byte) : LeavesJournal (runReadReply p) := by
  intro s
  unfold runReadReply
  dsimp only
  (repeat' split) <;> rfl

theorem runFreeReply_leavesJournal (p : List Byte) : LeavesJournal (runFreeReply p) := by
  intro s
  unfold runFreeReply
  (repeat' split) <;> rfl

theorem runInfoReply_leavesJournal (p : List Byte) : LeavesJournal (runInfoReply p) := by
  intro s
  unfold runInfoReply
  split <;> rfl

theorem commitReply_leavesJournal (p : List Byte) : LeavesJournal (commitReply p) := by
  intro s
  unfold commitReply commitAnswer State.acceptCommit
  (repeat' split) <;> simp [State.refuse]

theorem commitCancelReply_leavesJournal : LeavesJournal commitCancelReply := by
  intro s
  unfold commitCancelReply
  (repeat' split) <;> rfl

theorem trialConfirmReply_leavesJournal : LeavesJournal trialConfirmReply := by
  intro s
  unfold trialConfirmReply
  (repeat' split) <;> simp [State.refuse, generationAnswer]

theorem trialRevertReply_leavesJournal : LeavesJournal trialRevertReply := by
  intro s
  unfold trialRevertReply
  (repeat' split) <;> simp [State.refuse, generationAnswer]

theorem seqSetReply_leavesJournal (p : List Byte) : LeavesJournal (seqSetReply p) := by
  intro s
  unfold seqSetReply
  split <;> rfl

theorem devSetReply_leavesJournal (p : List Byte) : LeavesJournal (devSetReply p) := by
  intro s
  unfold devSetReply
  (repeat' split) <;> rfl

theorem devRestoreReply_leavesJournal (p : List Byte) : LeavesJournal (devRestoreReply p) := by
  intro s
  unfold devRestoreReply
  (repeat' split) <;> rfl

theorem portSetReply_leavesJournal (p : List Byte) : LeavesJournal (portSetReply p) := by
  intro s
  unfold portSetReply
  split <;> rfl

theorem captureAbortReply_leavesJournal : LeavesJournal captureAbortReply := by
  intro s
  unfold captureAbortReply
  (repeat' split) <;> rfl

theorem journalReadReply_leavesJournal (p : List Byte) : LeavesJournal (journalReadReply p) := by
  intro s
  unfold journalReadReply
  dsimp only
  split <;> rfl

theorem noticeAckReply_leavesJournal (p : List Byte) : LeavesJournal (noticeAckReply p) := by
  intro s
  unfold noticeAckReply
  dsimp only
  (repeat' split) <;> rfl

/-! ### The rows of the table -/

theorem State.answerBusy_journal (s : State) (f : Frame) : (s.answerBusy f).journal = s.journal := by
  unfold State.answerBusy
  split <;> rfl

theorem State.frameError_journal (s : State) (bytes : List Byte) (extra : BitVec 3) :
    (s.frameError bytes extra).journal = s.journal := by
  unfold State.frameError
  (repeat' split) <;> rfl

theorem State.unknownCommand_journal (s : State) (f : Frame) (code : Byte) :
    (s.unknownCommand f code).journal = s.journal := by
  unfold State.unknownCommand
  (repeat' split) <;> rfl

theorem State.negateStrobes_journal (s : State) (rd wr : Bool) : (s.negateStrobes rd wr).journal = s.journal := by
  unfold State.negateStrobes
  dsimp only
  (repeat' split) <;> rfl

/-- A row that acts while RESET_N stands at one level alone. -/
theorem Journal.Sound.ite {s t : State} (b : Bool) (hs : s.journal.Sound) (ht : t.journal.Sound) :
    (if b then s else t).journal.Sound := by
  split
  · exact hs
  · exact ht

/-- A frame keeps the bounds if its command does, however it meets the unit. -/
theorem State.receive_journalSound {s : State} (h : s.journal.Sound) (f : Frame) (b l : Bool) {r : State → Reply}
    (hr : ∀ {u : State}, u.journal.Sound → (r u).state.journal.Sound) : (s.receive f b l r).journal.Sound :=
  State.receive_pred (P := fun t => t.journal.Sound) s f b l r h h (fun _ _ _ hu => hu) (hr (u := s.mcsHigh) h)

/-- Every row answers a next state, and keeps the bounds. -/
theorem exec_journalSound (i : Instr) {s : State} (h : s.journal.Sound) :
    ∃ t, exec i s = .next t ∧ t.journal.Sound := by
  have leaves (f : Frame) (b l : Bool) {r : State → Reply} (hr : LeavesJournal r) :
      (s.receive f b l r).journal.Sound :=
    State.receive_journalSound h f b l fun {u} hu => (hr u).symm ▸ hu
  have event (c : Cause) (b : Bool) : (s.bringAboutIf c b).journal.Sound := State.bringAboutIf_journalSound h c b
  cases i with
  | partInfo f | genStatus f | seqStatus f | devStatus f | captureStatus f | journalStatus f | noticeRead f
  | lockdownClear f | noticeMask f => exact ⟨_, rfl, leaves f _ _ fun _ => rfl⟩
  | mapPut f => exact ⟨_, rfl, leaves f _ _ (mapPutReply_leavesJournal _)⟩
  | mapClear f => exact ⟨_, rfl, leaves f _ _ (mapClearReply_leavesJournal _)⟩
  | mapRead f => exact ⟨_, rfl, leaves f _ _ (mapReadReply_leavesJournal _)⟩
  | mapRestage f => exact ⟨_, rfl, leaves f _ _ mapRestageReply_leavesJournal⟩
  | runOpen f => exact ⟨_, rfl, leaves f _ _ (runOpenReply_leavesJournal _)⟩
  | runWrite f => exact ⟨_, rfl, leaves f _ _ (runWriteReply_leavesJournal _)⟩
  | runRead f => exact ⟨_, rfl, leaves f _ _ (runReadReply_leavesJournal _)⟩
  | runFree f => exact ⟨_, rfl, leaves f _ _ (runFreeReply_leavesJournal _)⟩
  | runInfo f => exact ⟨_, rfl, leaves f _ _ (runInfoReply_leavesJournal _)⟩
  | commit f => exact ⟨_, rfl, leaves f _ _ (commitReply_leavesJournal _)⟩
  | commitCancel f => exact ⟨_, rfl, leaves f _ _ commitCancelReply_leavesJournal⟩
  | trialConfirm f => exact ⟨_, rfl, leaves f _ _ trialConfirmReply_leavesJournal⟩
  | trialRevert f => exact ⟨_, rfl, leaves f _ _ trialRevertReply_leavesJournal⟩
  | seqSet f => exact ⟨_, rfl, leaves f _ _ (seqSetReply_leavesJournal _)⟩
  | seqRestart f => exact ⟨_, rfl, leaves f _ _ State.seqRestart_journal⟩
  | devSet f => exact ⟨_, rfl, leaves f _ _ (devSetReply_leavesJournal _)⟩
  | devRestore f => exact ⟨_, rfl, leaves f _ _ (devRestoreReply_leavesJournal _)⟩
  | portSet f => exact ⟨_, rfl, leaves f _ _ (portSetReply_leavesJournal _)⟩
  | captureAbort f => exact ⟨_, rfl, leaves f _ _ captureAbortReply_leavesJournal⟩
  | journalRead f => exact ⟨_, rfl, leaves f _ _ (journalReadReply_leavesJournal _)⟩
  | noticeAck f => exact ⟨_, rfl, leaves f _ _ (noticeAckReply_leavesJournal _)⟩
  | journalAck f => exact ⟨_, rfl, State.receive_journalSound h f _ _ (journalAckReply_sound _)⟩
  | journalSet f => exact ⟨_, rfl, State.receive_journalSound h f _ _ (journalSetReply_sound _)⟩
  | partReset f => exact ⟨_, rfl, State.receive_journalSound h f _ _ (partResetReply_journalSound _)⟩
  | captureStart f => exact ⟨_, rfl, State.receive_journalSound h f _ _ (captureStartReply_journalSound _)⟩
  | hostRelease f =>
    exact ⟨_, rfl, State.receive_journalSound h f _ _ fun {u} hu =>
      Moment.finish_journalSound (u.releaseMoment_journal.symm ▸ hu)⟩
  | softResetTakesEffect c | dueCommitApplied c | dueRevertApplied c | trialWindowExpiry c | countAdvance c | overrun c
  | park c => exact ⟨_, rfl, event c _⟩
  | epochTransitionAccepted => exact ⟨_, rfl, event .transition true⟩
  | accessArrives p => exact ⟨_, rfl, event (.arrival p) true⟩
  | hostResetEvent => exact ⟨_, rfl, event .hostReset true⟩
  | arbiterGrant => exact ⟨_, rfl, event .grant true⟩
  | memoryAccessCompletes md => exact ⟨_, rfl, event (.completion md) true⟩
  | accessTimeout => exact ⟨_, rfl, event .timeout true⟩
  | softResetIntervalBusy f code => exact ⟨_, rfl, h.ite _ ((State.answerBusy_journal _ f).symm ▸ h)⟩
  | frameError bytes extra => exact ⟨_, rfl, h.ite _ ((State.frameError_journal _ bytes extra).symm ▸ h)⟩
  | unknownCommand f code => exact ⟨_, rfl, h.ite _ ((State.unknownCommand_journal _ f code).symm ▸ h)⟩
  | responseRead header clocks => exact ⟨_, rfl, h.ite _ h⟩
  | hostStrobeNegated rd wr => exact ⟨_, rfl, (s.negateStrobes_journal rd wr).symm ▸ h⟩
  | hrstNNegated => exact ⟨_, rfl, h⟩
  | epochPulseDiscarded => exact ⟨_, rfl, h.ite _ h⟩
  | pinReset => exact ⟨_, rfl, h.ite _ h⟩
  | resetNRelease p => exact ⟨_, rfl, Journal.Sound.ite _ Journal.atReset_sound h⟩

theorem step_journalSound {s t : State} (hs : s.journal.Sound) (h : step s = .next t) : t.journal.Sound := by
  unfold step at h
  split at h
  · injection h with h
    exact h ▸ State.clockPeriod_journalSound hs
  · next c rest _ =>
    obtain ⟨t', ht, sound⟩ := exec_journalSound c (s := { s with pending := rest }) hs
    rw [ht] at h
    injection h with h
    exact h ▸ sound

end Sys2Proof.Machine

namespace Sys2Proof

open Sys2Proof.Machine

/-- Settles O10: an arrival brings in no number that is held and never shortens the list, so that a threshold reached stays
reached; an acknowledgement and new settings arm high again below the threshold. -/
theorem stepKeepsJournalSound : Obligations.StepKeepsJournalSound :=
  fun s t hs h => (journalSound_iff t).mpr (step_journalSound ((journalSound_iff s).mp hs) h)

end Sys2Proof
end

section
/-! PROOFS. The notice queue (R147 to R149, R154, R157, R158): a step does nothing to it but post, remove the notice of a kind,
replace the mask, and start it anew, and each of these keeps one notice of a kind with a repeat count of 1 to 255. -/

namespace Sys2Proof.Machine

open Sys2Proof.Safety

/-! ### The bounds and what keeps them -/

/-- The bounds of R147 and R148, as the queue alone shows them. -/
structure Notices.Sound (q : Notices) : Prop where
  distinct : (q.queue.map Notice.code).Nodup
  counts : ∀ n ∈ q.queue, 1 ≤ n.count ∧ n.count ≤ 255

theorem noticesSound_iff (s : State) : NoticesSound s ↔ s.notices.Sound := by
  have counts : (s.notices.queue.all fun n => decide (1 ≤ n.count) && decide (n.count ≤ 255)) = true ↔
      ∀ n ∈ s.notices.queue, 1 ≤ n.count ∧ n.count ≤ 255 := by simp
  exact ⟨fun ⟨distinct, all⟩ => ⟨distinct, counts.mp all⟩, fun ⟨distinct, bounded⟩ => ⟨distinct, counts.mpr bounded⟩⟩

theorem Notices.Sound.post {q : Notices} (h : q.Sound) (d : Detail) : (q.post d).Sound := by
  constructor
  · rw [Notices.post_codes]
    cases held : q.holds d.code with
    | true => simpa using h.distinct
    | false =>
      have fresh : ∀ n ∈ q.queue, n.code ≠ d.code := by simpa [Notices.holds] using held
      simpa [List.nodup_append, h.distinct] using fresh
  · cases held : q.holds d.code with
    | true =>
      rw [Notices.post_held held]
      intro n hn
      obtain ⟨m, hm, rfl⟩ := List.mem_map.mp hn
      obtain ⟨pos, le⟩ := h.counts m hm
      split
      · exact ⟨Nat.le_min.mpr ⟨by decide, Nat.le_add_left 1 _⟩, Nat.min_le_left _ _⟩
      · exact ⟨pos, le⟩
    | false =>
      rw [Notices.post_new held]
      intro n hn
      rcases List.mem_append.mp hn with old | new
      · exact h.counts n old
      · simp [List.mem_singleton.mp new]

theorem Notices.Sound.remove {q : Notices} (h : q.Sound) (code : Nat) : (q.remove code).Sound :=
  ⟨h.distinct.sublist (List.filter_sublist.map _), fun n hn => h.counts n (List.mem_of_mem_filter hn)⟩

theorem Notices.restarted_sound (cause : ResetCause) : (Notices.restarted cause).Sound :=
  ⟨by simp [Notices.restarted], by simp [Notices.restarted]⟩

/-! ### What a step can make of the notices -/

/-- The notices that a step can lead to: each constructor is one thing that is done to them, the last one last. -/
inductive Notices.Leads (q : Notices) : Notices → Prop where
  | stand : q.Leads q
  | post {r : Notices} (h : q.Leads r) (d : Detail) : q.Leads (r.post d)
  | remove {r : Notices} (h : q.Leads r) (code : Nat) : q.Leads (r.remove code)
  | mask {r : Notices} (h : q.Leads r) (m : BitVec 13) : q.Leads { r with mask := m }
  | emptied : q.Leads ⟨[], maskAtReset⟩
  | restarted (cause : ResetCause) : q.Leads (.restarted cause)

theorem Notices.Leads.of_eq {q r : Notices} (h : r = q) : q.Leads r := h ▸ .stand

theorem Notices.Leads.trans {q r u : Notices} (h : q.Leads r) (k : r.Leads u) : q.Leads u := by
  induction k with
  | stand => exact h
  | post _ d ih => exact ih.post d
  | remove _ code ih => exact ih.remove code
  | mask _ m ih => exact ih.mask m
  | emptied => exact .emptied
  | restarted cause => exact .restarted cause

theorem Notices.Leads.sound {q r : Notices} (h : q.Leads r) (hq : q.Sound) : r.Sound := by
  induction h with
  | stand => exact hq
  | post _ d ih => exact ih.post d
  | remove _ code ih => exact ih.remove code
  | mask _ _ ih => exact ⟨ih.distinct, ih.counts⟩
  | emptied => exact ⟨List.nodup_nil, nofun⟩
  | restarted cause => exact Notices.restarted_sound cause

/-- A change of the state that leads from its notices to the notices after it. -/
def NoticesLead (s t : State) : Prop := s.notices.Leads t.notices

theorem NoticesLead.of_eq {s t : State} (h : t.notices = s.notices) : NoticesLead s t := Notices.Leads.of_eq h

theorem NoticesLead.refl (s : State) : NoticesLead s s := .stand

theorem NoticesLead.trans {s t u : State} (h : NoticesLead s t) (k : NoticesLead t u) : NoticesLead s u :=
  Notices.Leads.trans h k

/-- What follows a change that leaves the notices. -/
theorem NoticesLead.after {s t u : State} (k : NoticesLead t u) (h : t.notices = s.notices) : NoticesLead s u :=
  (NoticesLead.of_eq h).trans k

theorem State.post_leads (s : State) (d : Detail) : NoticesLead s (s.post d) := Notices.Leads.stand.post d

/-! ### Changes of Active (R64 to R74) -/

theorem State.takeEffect_leads (s : State) (p : PendingCommit) : NoticesLead s (s.takeEffect p) :=
  (State.post_leads _ _).after (State.releaseTest_notices _)

theorem State.confirm_leads (s : State) (cause : ConfirmCause) : NoticesLead s (s.confirm cause) :=
  (State.post_leads _ _).after (State.releaseTest_notices _)

theorem State.revert_leads (s : State) (t : Trial) (cause : RevertCause) : NoticesLead s (s.revert t cause) :=
  (State.post_leads _ _).after (State.releaseTest_notices _)

theorem State.boundaryOccurs_leads (s : State) (p : PendingCommit) : NoticesLead s (s.boundaryOccurs p) := by
  unfold State.boundaryOccurs
  split
  · exact .refl s
  · exact s.takeEffect_leads p

theorem State.epochReported_leads (s : State) : NoticesLead s s.epochReported := by
  unfold State.epochReported
  split
  · exact .refl s
  · split
    · exact s.boundaryOccurs_leads _
    · exact .refl s
  · split
    · split
      · exact s.confirm_leads _
      · exact .refl s
    · exact .refl s

theorem State.changeAtEnd_leads (s : State) (a : Access) : NoticesLead s (s.changeAtEnd a) := by
  unfold State.changeAtEnd
  split
  · exact .refl s
  · split
    · exact s.takeEffect_leads _
    · exact .refl s
  · split
    · exact s.revert_leads _ _
    · exact .refl s

theorem State.changeAtHostReset_leads (s : State) : NoticesLead s s.changeAtHostReset := by
  unfold State.changeAtHostReset
  split
  · exact .refl s
  · split
    · exact s.takeEffect_leads _
    · exact .refl s
  · exact s.revert_leads _ _

/-! ### The sequencer's events (R84, R87, R90) -/

theorem State.seqNews_leads (s : State) (r : Seq × SeqNews) : NoticesLead s (s.seqNews r) := by
  have reported (u : State) (d : Detail) : NoticesLead u (u.post d).epochReported :=
    (u.post_leads d).trans (State.epochReported_leads _)
  unfold State.seqNews
  cases r.2.overrun with
  | none =>
    dsimp only
    split
    · exact (reported _ _).after rfl
    · exact .of_eq rfl
  | some p =>
    dsimp only
    split
    · exact ((State.post_leads _ _).trans (reported _ _)).after rfl
    · exact (State.post_leads _ _).after rfl

theorem State.acceptTransition_leads (s : State) : NoticesLead s s.acceptTransition :=
  (State.seqNews_leads _ _).after rfl

theorem State.seqRestart_leads (s : State) : NoticesLead s s.seqRestart := s.seqNews_leads _

theorem State.filterPeriod_leads (s : State) : NoticesLead s s.filterPeriod := by
  unfold State.filterPeriod
  split
  · exact .refl s
  · split
    · exact s.acceptTransition_leads
    · exact .refl s

/-! ### The end of an access (R31, R175) and the arbiter -/

theorem State.recordArrives_leads (s : State) (r : JournalRecord) : NoticesLead s (s.recordArrives r) := by
  unfold State.recordArrives
  cases (s.journal.take r).2 with
  | none =>
    dsimp only
    split
    · exact (State.post_leads _ _).after rfl
    · exact .of_eq rfl
  | some n =>
    dsimp only
    split
    · exact ((State.post_leads _ _).trans (State.post_leads _ _)).after rfl
    · exact (State.post_leads _ _).after rfl

theorem State.reportEnd_leads (s : State) (a : Access) (d : Decision) (completed : Bool) :
    NoticesLead s (s.reportEnd a d completed) := by
  have recorded : NoticesLead s
      (if d.journal then s.recordArrives (recordOf s.journal.next a d completed) else s) := by
    split
    · exact s.recordArrives_leads _
    · exact .refl s
  unfold State.reportEnd
  dsimp only
  split
  · exact recorded.trans (State.post_leads _ _)
  · exact recorded

theorem State.endAccess_leads (s : State) (e : HostResponse) : NoticesLead s (s.endAccess e) := by
  unfold State.endAccess
  split
  · next a d _ _ =>
    have counted : NoticesLead s (((s.absorb a d).seqNews (s.seq.accessEnd a)).countHit d.slot) :=
      ((State.seqNews_leads _ _).after (s.absorb_notices a d)).trans (.of_eq (State.countHit_notices _ _))
    have responded (u : State) : NoticesLead u ((u.reportEnd a d e.completed).respond a e) :=
      (u.reportEnd_leads a d e.completed).trans (.of_eq (State.respond_notices _ _ _))
    exact (counted.trans (responded _)).trans (State.changeAtEnd_leads _ a)
  · exact .refl s

/-- A held access posts HOST_HELD again into the queue that holds RESTARTED (R39, R158). -/
theorem State.softReset_leads (s : State) (tag : Byte) : NoticesLead s (s.softReset tag) := by
  unfold State.softReset
  dsimp only
  split
  · refine NoticesLead.trans ?_ (State.post_leads _ _)
    exact Notices.Leads.restarted .soft
  · exact Notices.Leads.restarted .soft

theorem State.softResetIfDue_leads (s : State) : NoticesLead s s.softResetIfDue := by
  unfold State.softResetIfDue
  split
  · exact s.softReset_leads _
  · exact .refl s

theorem State.captureEnd_leads (s : State) (j : CaptureJob) (status : CaptureStatus) :
    NoticesLead s (s.captureEnd j status) := (State.post_leads _ _).after rfl

theorem State.captureFails_leads (s : State) (cause : CaptureCause) : NoticesLead s (s.captureFails cause) := by
  unfold State.captureFails
  split
  · exact .refl s
  · exact s.captureEnd_leads _ _

theorem State.captureWord_leads (s : State) (md : Word) : NoticesLead s (s.captureWord md) := by
  unfold State.captureWord
  split
  · exact .refl s
  · dsimp only
    split
    · exact (State.captureEnd_leads _ _ _).after rfl
    · split
      · exact (State.captureEnd_leads _ _ _).after rfl
      · exact .of_eq rfl

theorem State.grantCapture_leads (s : State) : NoticesLead s s.grantCapture := by
  unfold State.grantCapture
  split
  · exact .refl s
  · split
    · exact .of_eq rfl
    · exact s.captureFails_leads _
    · exact s.captureFails_leads _

theorem State.grantHost_notices (s : State) : s.grantHost.1.notices = s.notices := by
  unfold State.grantHost
  (repeat' split) <;> rfl

theorem State.grantOne_leads (s : State) : NoticesLead s s.grantOne.1 := by
  unfold State.grantOne
  split
  · exact .of_eq (State.grantHost_notices _)
  · exact (State.grantCapture_leads _).after rfl
  · exact .refl s

theorem State.arbitrate_leads (s : State) : NoticesLead s s.arbitrate.1 := by
  unfold State.arbitrate
  dsimp only
  split
  · exact s.grantOne_leads
  · exact s.grantOne_leads.trans (State.grantOne_leads _)

theorem Moment.finish_leads (m : Moment) : NoticesLead m.1 m.finish := by
  unfold Moment.finish
  split
  · exact .refl _
  · exact ((State.endAccess_leads _ _).trans (State.softResetIfDue_leads _)).trans (State.arbitrate_leads _)

/-! ### The events -/

theorem State.enterDeciding_leads (s : State) (a : Access) : NoticesLead s (s.enterDeciding a).1 := by
  unfold State.enterDeciding
  dsimp only
  split
  · exact .of_eq rfl
  · exact .of_eq rfl
  · exact .of_eq rfl
  · split
    · exact (State.arbitrate_leads _).after rfl
    · exact .of_eq rfl

/-- An arrival in hold posts HOST_HELD (R33). -/
theorem State.arrivalMoment_leads (s : State) (p : HostPins) : NoticesLead s (s.arrivalMoment p).1 := by
  unfold State.arrivalMoment
  dsimp only
  split
  · exact .of_eq rfl
  · split
    · exact (State.post_leads _ _).after rfl
    · exact (State.enterDeciding_leads _ _).after rfl

theorem State.releaseMoment_leads (s : State) : NoticesLead s s.releaseMoment.1 := by
  unfold State.releaseMoment
  split
  · dsimp only
    split
    · exact (State.enterDeciding_leads _ _).after rfl
    · exact .of_eq rfl
  · exact .refl s

theorem State.completionMoment_leads (s : State) (md : Word) : NoticesLead s (s.completionMoment md).1 := by
  unfold State.completionMoment
  split
  · exact .refl s
  · next p _ =>
    have snooped : NoticesLead s (s.freePort.snoop p) := .of_eq (by simp)
    split
    · exact ((State.captureWord_leads _ md).trans (State.arbitrate_leads _)).after s.freePort_notices
    · split
      · exact snooped.trans (State.arbitrate_leads _)
      · exact snooped

theorem State.fence_leads (s : State) (p : PortAccess) : NoticesLead s (s.fence p) := by
  unfold State.fence
  split
  · exact (State.post_leads _ _).after rfl
  · exact .refl s

theorem State.timeoutMoment_leads (s : State) : NoticesLead s s.timeoutMoment.1 := by
  unfold State.timeoutMoment
  split
  · exact .refl s
  · next p _ =>
    have fenced : NoticesLead s (s.freePort.fence p) := (State.fence_leads _ _).after s.freePort_notices
    split
    · split
      · exact (fenced.trans (State.captureFails_leads _ _)).trans (State.arbitrate_leads _)
      · split
        · exact fenced.trans (State.arbitrate_leads _)
        · exact fenced
    · exact .refl s

theorem State.hostReset_leads (s : State) : NoticesLead s s.hostReset := by
  have abandoned : NoticesLead s (State.abandon { s with pins := { s.pins with hrst := true } }) :=
    .of_eq (State.abandon_notices _)
  have changed (q : Seq) (u : State) : NoticesLead u (State.post .hostReset { u with seq := q }).changeAtHostReset :=
    ((State.post_leads { u with seq := q } _).trans (State.changeAtHostReset_leads _))
  unfold State.hostReset
  dsimp only
  split
  · exact (abandoned.trans (changed _ _)).trans (State.softResetIfDue_leads _)
  · exact abandoned.trans (changed _ _)

theorem State.momentOf_leads (s : State) (c : Cause) : NoticesLead s (s.momentOf c).1 := by
  cases c with
  | arrival p => exact s.arrivalMoment_leads p
  | release =>
    unfold State.momentOf
    dsimp only
    split
    · exact (State.releaseMoment_leads _).after s.mcsHigh_notices
    · exact .refl s
  | completion md => exact s.completionMoment_leads md
  | timeout => exact s.timeoutMoment_leads
  | grant => exact s.arbitrate_leads
  | transition | restart | hostReset => exact .refl s

theorem State.bringAbout_leads (s : State) (c : Cause) : NoticesLead s (s.bringAbout c) := by
  cases c with
  | transition =>
    unfold State.bringAbout
    dsimp only
    split
    · exact .refl s
    · exact s.acceptTransition_leads
  | restart =>
    unfold State.bringAbout
    dsimp only
    split
    · exact (State.seqRestart_leads _).after s.mcsHigh_notices
    · exact .refl s
  | hostReset =>
    unfold State.bringAbout State.hrstAsserted
    dsimp only
    split
    · exact .of_eq rfl
    · split
      · exact .refl s
      · exact s.hostReset_leads
  | arrival | release | completion | timeout | grant =>
    exact (s.momentOf_leads _).trans (Moment.finish_leads _)

theorem State.bringAboutIf_leads (s : State) (c : Cause) (b : Bool) : NoticesLead s (s.bringAboutIf c b) := by
  unfold State.bringAboutIf
  split
  · exact s.bringAbout_leads c
  · exact .refl s

/-! ### One CLK period -/

theorem State.portPeriod_leads (s : State) : NoticesLead s s.portPeriod := by
  unfold State.portPeriod
  split
  · exact .refl s
  · split
    · exact (s.completionMoment_leads _).trans (Moment.finish_leads _)
    · split
      · exact s.timeoutMoment_leads.trans (Moment.finish_leads _)
      · exact .of_eq rfl

theorem State.clockPeriod_leads (s : State) : NoticesLead s s.clockPeriod := by
  have counted : NoticesLead s s.countPeriod := by
    unfold State.countPeriod
    dsimp only
    split
    · exact .of_eq rfl
    · split
      · exact ((State.filterPeriod_leads _).trans (State.portPeriod_leads _)).after rfl
      · exact ((State.portPeriod_leads _).trans (State.filterPeriod_leads _)).after rfl
  exact counted.trans (.of_eq (State.levelsChange_notices _))

/-! ### The commands -/

theorem noticeAckReply_leads (p : List Byte) (s : State) : NoticesLead s (noticeAckReply p s).state := by
  unfold noticeAckReply
  dsimp only
  split
  · exact .refl s
  · split
    · exact .refl s
    · exact Notices.Leads.stand.remove _

theorem noticeMaskReply_leads (p : List Byte) (s : State) : NoticesLead s (noticeMaskReply p s).state :=
  Notices.Leads.stand.mask _

theorem partResetReply_leads (tag : Byte) (s : State) : NoticesLead s (partResetReply tag s).state := by
  unfold partResetReply
  split
  · exact .of_eq rfl
  · exact s.softReset_leads tag

theorem hostReleaseReply_leads (s : State) : NoticesLead s (hostReleaseReply s).state :=
  s.releaseMoment_leads.trans (Moment.finish_leads _)

/-- A commit at the boundary NOW takes effect at once (R60). -/
theorem commitReply_leads (p : List Byte) (s : State) : NoticesLead s (commitReply p s).state := by
  have accepted (c : PendingCommit) : NoticesLead s (s.acceptCommit c) := by
    unfold State.acceptCommit
    split
    · exact (State.boundaryOccurs_leads _ _).after rfl
    · exact .of_eq rfl
  unfold commitReply
  split
  · exact .refl s
  · exact .refl s
  · split
    · split
      · exact .refl s
      · exact accepted _
    · exact .refl s

theorem trialConfirmReply_leads (s : State) : NoticesLead s (trialConfirmReply s).state := by
  unfold trialConfirmReply
  split
  · split
    · exact .refl s
    · exact s.confirm_leads _
  · exact .refl s

theorem trialRevertReply_leads (s : State) : NoticesLead s (trialRevertReply s).state := by
  unfold trialRevertReply
  split
  · split
    · exact .refl s
    · split
      · exact .of_eq rfl
      · exact s.revert_leads _ _
  · exact .refl s

theorem captureStartReply_leads (p : List Byte) (s : State) : NoticesLead s (captureStartReply p s).state := by
  unfold captureStartReply
  split
  · exact .refl s
  · split
    · exact .refl s
    · exact ((State.arbitrate_leads _).trans (Moment.finish_leads _)).after rfl

theorem captureAbortReply_leads (s : State) : NoticesLead s (captureAbortReply s).state := by
  unfold captureAbortReply
  split
  · split
    · exact s.captureEnd_leads _ _
    · exact .of_eq rfl
  · exact .refl s

/-! ### The rows of the table -/

theorem State.answerBusy_notices (s : State) (f : Frame) : (s.answerBusy f).notices = s.notices := by
  unfold State.answerBusy
  split <;> rfl

theorem State.frameError_notices (s : State) (bytes : List Byte) (extra : BitVec 3) :
    (s.frameError bytes extra).notices = s.notices := by
  unfold State.frameError
  (repeat' split) <;> rfl

theorem State.unknownCommand_notices (s : State) (f : Frame) (code : Byte) :
    (s.unknownCommand f code).notices = s.notices := by
  unfold State.unknownCommand
  (repeat' split) <;> rfl

theorem State.negateStrobes_notices (s : State) (rd wr : Bool) : (s.negateStrobes rd wr).notices = s.notices := by
  unfold State.negateStrobes
  dsimp only
  (repeat' split) <;> rfl

/-- A command leads to the same notices however its frame meets the unit. -/
theorem State.receive_leads (s : State) (f : Frame) (b l : Bool) {r : State → Reply}
    (hr : ∀ u, NoticesLead u (r u).state) : NoticesLead s (s.receive f b l r) :=
  State.receive_pred s f b l r (.refl s) (.of_eq s.mcsHigh_notices) (fun _ _ _ h => h)
    ((hr s.mcsHigh).after s.mcsHigh_notices)

/-- A row that acts while RESET_N stands at one level alone. -/
theorem NoticesLead.ite {s t u : State} (b : Bool) (ht : NoticesLead s t) (hu : NoticesLead s u) :
    NoticesLead s (if b then t else u) := by
  split
  · exact ht
  · exact hu

/-- Every row answers a next state, to whose notices the old ones lead. -/
theorem exec_leads (i : Instr) (s : State) : ∃ t, exec i s = .next t ∧ NoticesLead s t := by
  have command (f : Frame) (b l : Bool) {r : State → Reply} (hr : ∀ u, NoticesLead u (r u).state) :
      NoticesLead s (s.receive f b l r) := s.receive_leads f b l hr
  have quiet (f : Frame) (b l : Bool) {r : State → Reply} (hr : ∀ u, (r u).state.notices = u.notices) :
      NoticesLead s (s.receive f b l r) := s.receive_leads f b l fun u => .of_eq (hr u)
  have event (c : Cause) (b : Bool) : NoticesLead s (s.bringAboutIf c b) := s.bringAboutIf_leads c b
  cases i with
  | partInfo f | genStatus f | seqStatus f | devStatus f | captureStatus f | journalStatus f | noticeRead f
  | lockdownClear f => exact ⟨_, rfl, quiet f _ _ fun _ => rfl⟩
  | mapPut f => exact ⟨_, rfl, quiet f _ _ fun u => by unfold mapPutReply; (repeat' split) <;> simp [State.refuse]⟩
  | mapClear f => exact ⟨_, rfl, quiet f _ _ fun u => by unfold mapClearReply; (repeat' split) <;> simp [State.refuse]⟩
  | mapRead f => exact ⟨_, rfl, quiet f _ _ fun u => by unfold mapReadReply; (repeat' split) <;> rfl⟩
  | mapRestage f => exact ⟨_, rfl, quiet f _ _ fun u => by unfold mapRestageReply; split <;> simp [State.refuse]⟩
  | runOpen f => exact ⟨_, rfl, quiet f _ _ fun u => by unfold runOpenReply; dsimp only; (repeat' split) <;> rfl⟩
  | runWrite f => exact ⟨_, rfl, quiet f _ _ fun u => by unfold runWriteReply; dsimp only; (repeat' split) <;> rfl⟩
  | runRead f => exact ⟨_, rfl, quiet f _ _ fun u => by unfold runReadReply; dsimp only; (repeat' split) <;> rfl⟩
  | runFree f => exact ⟨_, rfl, quiet f _ _ fun u => by unfold runFreeReply; (repeat' split) <;> rfl⟩
  | runInfo f => exact ⟨_, rfl, quiet f _ _ fun u => by unfold runInfoReply; split <;> rfl⟩
  | commitCancel f => exact ⟨_, rfl, quiet f _ _ fun u => by unfold commitCancelReply; (repeat' split) <;> rfl⟩
  | seqSet f => exact ⟨_, rfl, quiet f _ _ fun u => by unfold seqSetReply; split <;> rfl⟩
  | devSet f => exact ⟨_, rfl, quiet f _ _ fun u => by unfold devSetReply; (repeat' split) <;> rfl⟩
  | devRestore f => exact ⟨_, rfl, quiet f _ _ fun u => by unfold devRestoreReply; (repeat' split) <;> rfl⟩
  | portSet f => exact ⟨_, rfl, quiet f _ _ fun u => by unfold portSetReply; split <;> rfl⟩
  | journalRead f => exact ⟨_, rfl, quiet f _ _ fun u => by unfold journalReadReply; dsimp only; split <;> rfl⟩
  | journalAck f => exact ⟨_, rfl, quiet f _ _ fun u => by unfold journalAckReply; split <;> rfl⟩
  | journalSet f => exact ⟨_, rfl, quiet f _ _ fun u => by unfold journalSetReply; (repeat' split) <;> rfl⟩
  | partReset f => exact ⟨_, rfl, command f _ _ (partResetReply_leads _)⟩
  | hostRelease f => exact ⟨_, rfl, command f _ _ hostReleaseReply_leads⟩
  | commit f => exact ⟨_, rfl, command f _ _ (commitReply_leads _)⟩
  | trialConfirm f => exact ⟨_, rfl, command f _ _ trialConfirmReply_leads⟩
  | trialRevert f => exact ⟨_, rfl, command f _ _ trialRevertReply_leads⟩
  | seqRestart f => exact ⟨_, rfl, command f _ _ State.seqRestart_leads⟩
  | captureStart f => exact ⟨_, rfl, command f _ _ (captureStartReply_leads _)⟩
  | captureAbort f => exact ⟨_, rfl, command f _ _ captureAbortReply_leads⟩
  | noticeAck f => exact ⟨_, rfl, command f _ _ (noticeAckReply_leads _)⟩
  | noticeMask f => exact ⟨_, rfl, command f _ _ (noticeMaskReply_leads _)⟩
  | softResetTakesEffect c | dueCommitApplied c | dueRevertApplied c | trialWindowExpiry c | countAdvance c | overrun c
  | park c => exact ⟨_, rfl, event c _⟩
  | epochTransitionAccepted => exact ⟨_, rfl, event .transition true⟩
  | accessArrives p => exact ⟨_, rfl, event (.arrival p) true⟩
  | hostResetEvent => exact ⟨_, rfl, event .hostReset true⟩
  | arbiterGrant => exact ⟨_, rfl, event .grant true⟩
  | memoryAccessCompletes md => exact ⟨_, rfl, event (.completion md) true⟩
  | accessTimeout => exact ⟨_, rfl, event .timeout true⟩
  | softResetIntervalBusy f code => exact ⟨_, rfl, .ite _ (.refl s) (.of_eq (State.answerBusy_notices _ f))⟩
  | frameError bytes extra => exact ⟨_, rfl, .ite _ (.refl s) (.of_eq (State.frameError_notices _ bytes extra))⟩
  | unknownCommand f code => exact ⟨_, rfl, .ite _ (.refl s) (.of_eq (State.unknownCommand_notices _ f code))⟩
  | hostStrobeNegated rd wr => exact ⟨_, rfl, .of_eq (s.negateStrobes_notices rd wr)⟩
  | hrstNNegated => exact ⟨_, rfl, .of_eq rfl⟩
  | responseRead header clocks | epochPulseDiscarded => exact ⟨_, rfl, .ite _ (.refl s) (.of_eq rfl)⟩
  | pinReset => exact ⟨_, rfl, .ite _ (.refl s) .emptied⟩
  | resetNRelease p => exact ⟨_, rfl, .ite _ (.restarted .pin) (.refl s)⟩

theorem step_leads {s t : State} (h : step s = .next t) : NoticesLead s t := by
  unfold step at h
  split at h
  · injection h with h
    exact h ▸ s.clockPeriod_leads
  · next c rest _ =>
    obtain ⟨u, next, lead⟩ := exec_leads c { s with pending := rest }
    rw [next] at h
    injection h with h
    exact h ▸ lead.after rfl

end Sys2Proof.Machine

namespace Sys2Proof

open Sys2Proof.Machine

/-- Settles O9: a posting of a kind not held brings in a new code with count 1, one of a held kind stops its count at 255, and
nothing else that a step does brings in a notice beside the one of a reset. -/
theorem stepKeepsNoticesSound : Obligations.StepKeepsNoticesSound :=
  fun s t hs h => (noticesSound_iff t).mpr ((step_leads h).sound ((noticesSound_iff s).mp hs))

end Sys2Proof
end

section
/-! PROOFS. The notice commands in the layouts of R172 (R152 to R155), and a posting as the queue shows it (R148, R149). -/

namespace Sys2Proof.Machine

open Sys2Proof.Claim

/-! ### Kinds (R172) -/

theorem Detail.code_eq (d : Detail) : d.code = kindCode d := by
  cases d <;> rfl

theorem Notice.code_eq (n : Notice) : n.code = kindCode n.detail := n.detail.code_eq

theorem Notices.holds_iff (q : Notices) (d : Detail) :
    q.holds d.code = true ↔ ∃ n ∈ q.queue, kindCode n.detail = kindCode d := by
  simp [Notices.holds, Notice.code_eq, Detail.code_eq]

/-! ### Postings (R148, R149) -/

/-- What a posting makes of each place of the queue that holds its kind. -/
theorem Notices.post_held_getElem? {q : Notices} {d : Detail} (held : q.holds d.code = true) (i : Nat) :
    (q.post d).queue[i]? = q.queue[i]?.map fun n =>
      if kindCode n.detail = kindCode d then ⟨n.detail, min 255 (n.count + 1)⟩ else n := by
  rw [Notices.post_held held, List.getElem?_map]
  simp only [Notice.code_eq, Detail.code_eq, beq_iff_eq, Notice.again]

/-! ### NOTICE.READ (R153, R172) -/

theorem AccessKind.code_eq (k : AccessKind) : k.code = accessValue k := by
  cases k <;> rfl

/-- The detail of each kind is sent in its five bytes (R172). -/
theorem Detail.fields_eq (d : Detail) : padTo 5 d.fields = detailBytes d := by
  cases d with
  | restarted cause => cases cause <;> rfl
  | committed g b =>
    rw [detailBytes, ← wordBytes_inTwo, ← Boundary.code_eq]
    rfl
  | reverted g r cause =>
    rw [detailBytes, ← wordBytes_inTwo, ← wordBytes_inTwo]
    cases cause <;> rfl
  | confirmed g cause =>
    rw [detailBytes, ← wordBytes_inTwo]
    cases cause <;> rfl
  | epoch n =>
    rw [detailBytes, ← longBytes_inFour]
    rfl
  | overrun p => rfl
  | hostReset => rfl
  | hostHeld a k =>
    rw [detailBytes, ← byteAddr_toNat, ← addrBytes_inThree, ← AccessKind.code_eq]
    rfl
  | deviceFenced d a o =>
    rw [detailBytes, ← addrBytes_inThree, ← Owner.code_eq]
    rfl
  | captureEnded r st w =>
    cases st <;> rw [detailBytes, ← countBytes_inTwo] <;> rfl
  | journalHigh c => rfl
  | journalLoss w =>
    rw [detailBytes, ← wordBytes_inTwo]
    rfl
  | guardHit slot a k =>
    cases slot <;> rw [detailBytes, ← byteAddr_toNat, ← addrBytes_inThree, ← AccessKind.code_eq] <;> rfl

theorem maskBytes_eq (m : BitVec 13) : maskBytes m = maskAnswer m := by
  rw [maskBytes, wordBytes_eq, BitVec.toNat_setWidth_of_le (by decide)]
  rfl

/-- ALERT_N by the mask in force (R152). -/
theorem State.alert_eq (s : State) : s.alert = drivesAlert s s.notices.mask := by
  have enabled : s.notices.enabled = fun n => s.notices.mask.getLsbD (kindCode n.detail - 1) :=
    funext fun n => by rw [Notices.enabled, Notice.code_eq]
  rw [State.alert, enabled, drivesAlert]

theorem Notice.bytes_eq (n : Notice) :
    n.bytes = [BitVec.ofNat 8 (kindCode n.detail), BitVec.ofNat 8 n.count] ++ detailBytes n.detail := by
  rw [Notice.bytes, Detail.fields_eq, Notice.code_eq, byteOf, byteOf]

/-- The kinds held, in order, in thirteen bytes (R172). -/
theorem Notices.kindBytes_eq (q : Notices) :
    padTo 13 (q.queue.map fun n => byteOf n.code) =
      (q.queue.map fun n => BitVec.ofNat 8 (kindCode n.detail)) ++ List.replicate (13 - q.queue.length) 0#8 := by
  simp only [padTo, List.length_map, byteOf, Notice.code_eq]
  rfl

theorem noticeReadReply_eq (s : State) :
    noticeReadReply s =
      ⟨s, .ok,
        BitVec.ofNat 8 s.notices.queue.length ::
          ((s.notices.queue.map fun n => BitVec.ofNat 8 (kindCode n.detail))
            ++ List.replicate (13 - s.notices.queue.length) 0#8 ++ oldestNoticeBytes s.notices.queue
            ++ maskAnswer s.notices.mask ++ [if drivesAlert s s.notices.mask then 1#8 else 0#8])⟩ := by
  rw [noticeReadReply, Notices.kindBytes_eq, maskBytes_eq, flagByte_eq, State.alert_eq]
  simp only [byteOf, List.cons_append, List.nil_append]

/-! ### NOTICE.ACK (R154) -/

section
variable {s : State} {c : Byte}

theorem noticeAckReply_range (h : c = 0#8 ∨ 13 < c.toNat) : noticeAckReply [c] s = s.refuse .range :=
  if_pos (h.imp_left fun h => congrArg BitVec.toNat h)

theorem noticeAckReply_notHeld (pos : 1 ≤ c.toNat) (le : c.toNat ≤ 13)
    (absent : ∀ n ∈ s.notices.queue, kindCode n.detail ≠ c.toNat) : noticeAckReply [c] s = s.refuse .notHeld := by
  have notFound : (s.notices.queue.find? fun n => n.code == c.toNat) = none := by
    simpa [Notice.code_eq] using absent
  have inRange : ¬(c.toNat = 0 ∨ 13 < c.toNat) := by omega
  simp only [noticeAckReply, byteAt_cons_zero, if_neg inRange, notFound]

theorem noticeAckReply_held {before after : List Notice} {n : Notice} (pos : 1 ≤ c.toNat) (le : c.toNat ≤ 13)
    (held : s.notices.queue = before ++ n :: after) (kind : kindCode n.detail = c.toNat)
    (others : ∀ m ∈ before ++ after, kindCode m.detail ≠ c.toNat) :
    noticeAckReply [c] s =
      ⟨{ s with notices := { s.notices with queue := before ++ after } }, .ok,
        [BitVec.ofNat 8 n.count, BitVec.ofNat 8 (before ++ after).length]⟩ := by
  obtain ⟨front, rest⟩ := List.forall_mem_append.mp others
  have found : (s.notices.queue.find? fun m => m.code == c.toNat) = some n := by
    rw [held, List.find?_append, List.find?_eq_none.mpr (by simpa [Notice.code_eq] using front)]
    simp [Notice.code_eq, kind]
  have removed : s.notices.remove c.toNat = { s.notices with queue := before ++ after } := by
    have stays {l : List Notice} (h : ∀ m ∈ l, kindCode m.detail ≠ c.toNat) :
        l.filter (fun m => m.code != c.toNat) = l :=
      List.filter_eq_self.mpr (by simpa [Notice.code_eq] using h)
    rw [Notices.remove, held, List.filter_append, List.filter_cons_of_neg (by simp [Notice.code_eq, kind]), stays front,
      stays rest]
  have inRange : ¬(c.toNat = 0 ∨ 13 < c.toNat) := by omega
  simp only [noticeAckReply, byteAt_cons_zero, if_neg inRange, found, removed]
  rfl

end

/-! ### NOTICE.MASK (R155) -/

theorem noticeMaskReply_eq {high low : Byte} {mask : BitVec 13} (s : State)
    (h : mask = BitVec.ofNat 13 (256 * high.toNat + low.toNat)) :
    noticeMaskReply [high, low] s =
      ⟨s.withMask mask, .ok, maskAnswer mask ++ [if drivesAlert s mask then 1#8 else 0#8]⟩ := by
  have taken : (wordAt [high, low] 0).setWidth 13 = mask := by
    rw [h, ← BitVec.ofNat_toNat, wordAt_toNat]
    rfl
  rw [noticeMaskReply, taken, maskBytes_eq, flagByte_eq, State.alert_eq]
  rfl

end Sys2Proof.Machine

namespace Sys2Proof

open Sys2Proof.Machine Sys2Proof.Claim

/-- Settles O57: a posting appends or repeats as its kind is held. -/
theorem postingAppendsOrRepeats : Obligations.PostingAppendsOrRepeats := by
  refine fun d s => ⟨rfl, Notices.post_mask _ _, fun absent => ?_, fun held i => ?_⟩
  · have new : s.notices.holds d.code = false := Bool.eq_false_iff.mpr fun held => by
      obtain ⟨n, hn, kind⟩ := (Notices.holds_iff _ _).mp held
      exact absent n hn kind
    rw [State.post_notices, Notices.post_new new]
  · exact Notices.post_held_getElem? ((Notices.holds_iff _ _).mpr held) i

/-- Settles O58: the layouts of R172, and the queue split at the notice of the kind named. -/
theorem noticeReadAndAck : Obligations.NoticeReadAndAck := by
  refine ⟨fun f s h hp => ?_, fun f s c h hp => ?_⟩
  · rw [exec_addressed (i := .noticeRead f) h rfl (by simp [payloadIs, hp]), noticeReadReply_eq]
    cases s.notices.queue with
    | nil => rfl
    | cons n _ =>
      rw [oldestNoticeBytes, Notice.bytes_eq]
  · rw [exec_addressed (i := .noticeAck f) h rfl (by simp [payloadIs, hp]), hp]
    refine ⟨fun bad => ?_, fun pos le absent => ?_, fun before n after pos le held kind others => ?_⟩
    · rw [noticeAckReply_range bad]
      rfl
    · rw [noticeAckReply_notHeld pos le absent]
      rfl
    · rw [noticeAckReply_held pos le held kind others]

/-- Settles O59: the two bytes carry the mask, which alone of the state changes. -/
theorem noticeMaskReplacesMask : Obligations.NoticeMaskReplacesMask := by
  intro f s high low h hp mask
  have replaced : exec (.noticeMask f) s = .next
      (answered (s.withMask mask) f .ok (maskAnswer mask ++ [if drivesAlert s mask then 1#8 else 0#8])) := by
    rw [exec_addressed (i := .noticeMask f) h rfl (by simp [payloadIs, hp]), hp, noticeMaskReply_eq (mask := mask) s rfl]
  refine ⟨replaced, State.alert_eq (s.withMask mask), fun same => ?_⟩
  have unchanged : s.withMask mask = s := same ▸ rfl
  rw [replaced, unchanged]

end Sys2Proof
end

section
/-! PROOFS. How each row with a frame meets the unit, said once for the whole table (R161 to R168, R174), and what follows: frames
for others, broadcasts, wrong lengths, a soft-reset interval, frames that are no good frame. -/

namespace Sys2Proof.Machine

open Sys2Proof.Claim

/-! ### The table of 10.5 as one rule -/

/-- Whether a payload has the length that the table of 10.5 gives its code; RUN.WRITE alone carries its own (R167). -/
def lengthFits (code : Byte) (f : Frame) : Bool :=
  match requestLength code with
  | some n => payloadIs f n
  | none => runWriteLength f.payload

/-- Every defined command goes through `State.receive`, with the broadcast codes of R166 and the lengths of R167. -/
theorem exec_of_defined {i : Instr} {code : Byte} {f : Frame} (row : frameOfRow i = some (code, f))
    (defined : i ≠ .unknownCommand f code) :
    ∃ reply, ∀ s, exec i s = .next (s.receive f (broadcastCodes.contains code) (lengthFits code f) reply) := by
  cases i with
  | unknownCommand f' code' => cases row; exact absurd rfl defined
  | _ => cases row <;> exact ⟨_, fun _ => rfl⟩

theorem codeDefined_of_row {i : Instr} {code : Byte} {f : Frame} (row : frameOfRow i = some (code, f))
    (defined : i ≠ .unknownCommand f code) : codeDefined code = true := by
  cases i with
  | unknownCommand f' code' => cases row; exact absurd rfl defined
  | _ => cases row <;> rfl

theorem codeDefined_of_unknown_wf {code : Byte} {f : Frame} (wf : (Instr.unknownCommand f code).wf = true) :
    codeDefined code = false := by
  have both : (f.wf && !codeDefined code) = true := wf
  simpa using (Bool.and_eq_true_iff.mp both).2

theorem requestLength_eq_none {code : Byte} (defined : codeDefined code = true) (h : requestLength code = none) :
    code = 0x21#8 := by
  revert code
  decide

section
variable {s : State}

theorem exec_unknownCommand (h : s.Listens) (f : Frame) (code : Byte) :
    exec (.unknownCommand f code) s = .next (s.unknownCommand f code) := by
  simp only [exec, execUnknownCommand, h.1, Bool.false_eq_true, if_false, State.mcsHigh_eq h]

theorem State.unknownCommand_other {f : Frame} (other : f.unit ≠ ownUnit s) (code : Byte) :
    s.unknownCommand f code = s := by
  have not_own : s.isUnit f.unit = false := Bool.eq_false_iff.mpr fun h => other ((s.isUnit_iff _).mp h)
  simp [State.unknownCommand, not_own]

/-- An undefined code addressed to this unit alone: UNKNOWN, but BUSY in an interval (R167, R174). -/
theorem State.unknownCommand_own {f : Frame} {code : Byte} (own : f.unit = ownUnit s) (undefined : codeDefined code = false) :
    s.unknownCommand f code = answered s f (if s.mpu.softReset.isSome then .busy else .unknown) [] := by
  have is_own : s.isUnit f.unit = true := (s.isUnit_iff _).mpr own
  simp only [State.unknownCommand, undefined, is_own, Bool.not_false, Bool.and_self, if_true]
  split <;> rfl

end

/-! ### Broadcasts (R166) -/

@[simp] theorem State.grantOne_mpu (s : State) : s.grantOne.1.mpu = s.mpu := by
  unfold State.grantOne State.grantHost
  repeat' split
  all_goals simp

@[simp] theorem State.arbitrate_mpu (s : State) : s.arbitrate.1.mpu = s.mpu := by
  unfold State.arbitrate
  dsimp only
  split <;> simp

theorem State.enterDeciding_mpu (s : State) (a : Access) : (s.enterDeciding a).1.mpu = s.mpu := by
  unfold State.enterDeciding
  dsimp only
  repeat' split
  all_goals simp

theorem State.releaseMoment_mpu (s : State) : s.releaseMoment.1.mpu = s.mpu := by
  unfold State.releaseMoment
  dsimp only
  split
  · split
    · rw [State.enterDeciding_mpu]
    · rfl
  · rfl

/-- With no soft reset waiting, no part of an access end reaches the management port (R175). -/
theorem Moment.finish_mpu {m : Moment} (noReset : m.1.mpu.softReset = none) : m.finish.mpu = m.1.mpu := by
  obtain ⟨t, _ | e⟩ := m
  · rfl
  · have not_due : (t.endAccess e).softResetIfDue = t.endAccess e := by
      have none_waits : t.mpu.softReset = none := noReset
      simp only [State.softResetIfDue, State.endAccess_mpu, none_waits]
    simp only [Moment.finish, not_due, State.arbitrate_mpu, State.endAccess_mpu]

theorem hostReleaseReply_mpu {s : State} (noReset : s.mpu.softReset = none) : (hostReleaseReply s).state.mpu = s.mpu := by
  have same := s.releaseMoment_mpu
  exact (Moment.finish_mpu (same ▸ noReset)).trans same

theorem commitReply_mpu (p : List Byte) (s : State) : (commitReply p s).state.mpu = s.mpu := by
  unfold commitReply State.acceptCommit commitAnswer
  repeat' split
  all_goals simp [State.refuse]

theorem commitCancelReply_mpu (s : State) : (commitCancelReply s).state.mpu = s.mpu := by
  unfold commitCancelReply
  (repeat' split) <;> rfl

theorem trialConfirmReply_mpu (s : State) : (trialConfirmReply s).state.mpu = s.mpu := by
  unfold trialConfirmReply generationAnswer
  repeat' split
  all_goals simp [State.refuse]

theorem trialRevertReply_mpu (s : State) : (trialRevertReply s).state.mpu = s.mpu := by
  unfold trialRevertReply generationAnswer
  repeat' split
  all_goals simp [State.refuse]

theorem seqRestartReply_mpu (s : State) : (seqRestartReply s).state.mpu = s.mpu := State.seqNews_mpu s _

/-- A broadcast-capable command whose reply leaves the management port alone: the broadcast leads where the addressed
command leads, but for the response it stores. -/
theorem State.receive_broadcast_of_own {s : State} (h : s.Listens) (noReset : s.mpu.softReset = none) {tag : Byte}
    {payload : List Byte} {l : Bool} {reply : State → Reply} (keeps : (reply s).state.mpu = s.mpu) :
    s.receive ⟨7#3, tag, payload⟩ true l reply =
      let t := s.receive ⟨ownUnit s, tag, payload⟩ true l reply
      { t with mpu := { t.mpu with buffer := s.mpu.buffer } } := by
  rw [State.receive_broadcast h rfl, State.receive_own h noReset rfl, noReset]
  cases l
  · rfl
  · simp only [Option.isNone_none, Bool.and_self, if_true, Reply.stored, State.store, ← keeps]

/-! ### Frame errors (R161, R163) -/

theorem headerIsCommand_iff (h : Byte) : headerIsCommand h = true ↔ h.toNat / 16 % 2 = 1 := by
  revert h
  decide

theorem headerMarker_iff (h : Byte) : headerMarker h = marker ↔ h.toNat % 16 = 5 := by
  revert h
  decide

theorem headerUnit_toNat (h : Byte) : (headerUnit h).toNat = h.toNat / 32 := by
  revert h
  decide

/-- A header addresses this unit alone when its upper three bits are the unit's number (R161). -/
theorem State.isUnit_header_iff (s : State) (h : Byte) :
    s.isUnit (headerUnit h) = true ↔ h.toNat / 32 = s.straps.unit.toNat := by
  rw [State.isUnit_iff, BitVec.toNat_eq, headerUnit_toNat, BitVec.toNat_setWidth_of_le (by decide)]

/-- The model's frame check is R163's. -/
theorem goodFrame_eq (h : Byte) (rest : List Byte) (extra : BitVec 3) :
    goodFrame (h :: rest) extra = passesR163 (h :: rest) extra := by
  match rest with
  | [] | [_] | [_, _] =>
    simp [goodFrame, passesR163]
    omega
  | tag :: code :: len :: rest =>
    rw [Bool.eq_iff_iff]
    have last : byteAt (h :: tag :: code :: len :: rest) (4 + len.toNat) = rest.getD len.toNat 0#8 := by
      rw [Nat.add_comm]; rfl
    have count : (h :: tag :: code :: len :: rest).length = 5 + len.toNat ↔ rest.length = len.toNat + 1 := by
      simp only [List.length_cons]
      omega
    simp only [goodFrame, passesR163, Bool.and_eq_true, beq_iff_eq, decide_eq_true_eq, headerMarker_iff]
    simp only [byteAt_cons_zero, byteAt_cons_succ, last, count]
    rfl

theorem State.frameError_eq (s : State) (h : Byte) (rest : List Byte) (extra : BitVec 3)
    (command : h.toNat / 16 % 2 = 1) (bad : passesR163 (h :: rest) extra = false) :
    s.frameError (h :: rest) extra =
      if h.toNat / 32 = s.straps.unit.toNat then s.store (rest.headD 0#8) .frameError [] else s := by
  have first : rest.getD 0 0#8 = rest.headD 0#8 := by cases rest <;> rfl
  simp only [State.frameError, (headerIsCommand_iff h).mpr command, goodFrame_eq, bad, Bool.not_false, Bool.and_true,
    Bool.true_and, State.isUnit_header_iff, first]

end Sys2Proof.Machine

namespace Sys2Proof

open Sys2Proof.Machine Sys2Proof.Claim

/-- Settles O2: every row answers one of the effects of `Effect`. -/
theorem everyCommandAnswersNext : Obligations.EveryCommandAnswersNext :=
  fun c s => (exec_effect c s).imp fun _ h => h.1

/-- Settles O17: the frame is another unit's, or a broadcast that is not taken. -/
theorem unaddressedFrameChangesNothing : Obligations.UnaddressedFrameChangesNothing := by
  intro i code f s row listening other notTaken
  by_cases unknown : i = .unknownCommand f code
  · rw [unknown, exec_unknownCommand listening, State.unknownCommand_other other]
  · obtain ⟨reply, row_eq⟩ := exec_of_defined row unknown
    rw [row_eq]
    by_cases broadcast : f.unit = 7#3
    · have refused : (s.mpu.softReset.isNone && broadcastCodes.contains code) = false := by
        simpa [or_comm, imp_iff_not_or] using notTaken broadcast
      rw [State.receive_broadcast listening broadcast, refused]
      rfl
    · rw [State.receive_other listening broadcast other]

/-- Settles O18: each of the six replies leaves the management port alone. -/
theorem broadcastActsWithoutResponse : Obligations.BroadcastActsWithoutResponse := by
  intro command capable tag payload s t listening noReset own
  have follows {n : Nat} {reply : State → Reply} (keeps : (reply s).state.mpu = s.mpu)
      (rows : ∀ u, exec (command ⟨u, tag, payload⟩) s =
        .next (s.receive ⟨u, tag, payload⟩ true (payload.length == n) reply)) :
      exec (command ⟨7#3, tag, payload⟩) s = .next { t with mpu := { t.mpu with buffer := s.mpu.buffer } } := by
    rw [rows] at own ⊢
    injection own with own
    rw [State.receive_broadcast_of_own listening noReset keeps, own]
  simp only [List.mem_cons, List.not_mem_nil, or_false] at capable
  obtain rfl | rfl | rfl | rfl | rfl | rfl := capable
  · exact follows (hostReleaseReply_mpu noReset) fun _ => rfl
  · exact follows (commitReply_mpu payload s) fun _ => rfl
  · exact follows (commitCancelReply_mpu s) fun _ => rfl
  · exact follows (trialConfirmReply_mpu s) fun _ => rfl
  · exact follows (trialRevertReply_mpu s) fun _ => rfl
  · exact follows (seqRestartReply_mpu s) fun _ => rfl

/-- Settles O19: the hypotheses are the negation of `lengthFits`. -/
theorem wrongLengthAnswersLength : Obligations.WrongLengthAnswersLength := by
  intro i code f s row defined addressed fixed run
  obtain ⟨listening, noReset, own⟩ := addressed
  have misfit : lengthFits code f = false := by
    unfold lengthFits
    cases request : requestLength code with
    | some n => simpa [payloadIs] using fixed n request
    | none =>
      have := run (requestLength_eq_none (codeDefined_of_row row defined) request)
      simpa [runWriteLength, byteAt, imp_iff_not_or] using this
  obtain ⟨reply, row_eq⟩ := exec_of_defined row defined
  rw [row_eq, State.receive_own listening noReset own, misfit]
  rfl

/-- Settles O20: a defined code by the rule of the table, an undefined one and the interval's own row by theirs. -/
theorem intervalAnswersBusy : Obligations.IntervalAnswersBusy := by
  intro f s listening waits own
  refine ⟨fun i code wf row => ?_, fun code => ?_⟩
  · by_cases unknown : i = .unknownCommand f code
    · subst unknown
      rw [exec_unknownCommand listening, State.unknownCommand_own own (codeDefined_of_unknown_wf wf), if_pos waits]
    · obtain ⟨reply, row_eq⟩ := exec_of_defined row unknown
      rw [row_eq, State.receive_interval listening waits own]
      rfl
  · have is_own : s.isUnit f.unit = true := (s.isUnit_iff _).mpr own
    simp only [exec, execSoftResetIntervalBusy, listening.1, Bool.false_eq_true, if_false, State.mcsHigh_eq listening,
      State.answerBusy, waits, is_own, Bool.and_self, if_true]
    rfl

/-- Settles O21, clause by clause: a bad frame with a header, one without, an undefined code. -/
theorem badFrameAndUnknownCodeAnswered : Obligations.BadFrameAndUnknownCodeAnswered := by
  refine ⟨fun h rest extra s listening command bad => ?_, fun extra s listening => ?_, fun f code s addressed undefined => ?_⟩
  · have row : exec (.frameError (h :: rest) extra) s = .next (s.frameError (h :: rest) extra) := by
      simp only [exec, execFrameError, listening.1, Bool.false_eq_true, if_false, State.mcsHigh_eq listening]
    rw [row, State.frameError_eq s h rest extra command bad]
    refine ⟨fun own => ?_, fun other => ?_⟩
    · rw [if_pos own]
      rfl
    · rw [if_neg other]
  · simp only [exec, execFrameError, listening.1, Bool.false_eq_true, if_false, State.mcsHigh_eq listening]
    rfl
  · obtain ⟨listening, noReset, own⟩ := addressed
    rw [exec_unknownCommand listening, State.unknownCommand_own own undefined, noReset]
    rfl

end Sys2Proof
end

section
/-! PROOFS. Transactions in bytes: the frame that is written for a row is good and decodes to the row (R161 to R163, R167). -/

namespace Sys2Proof

open Sys2Proof.Machine Sys2Proof.Claim

/-! ### The header of a command transaction (R161) -/

@[simp] theorem headerIsCommand_commandHeader (u : BitVec 3) : headerIsCommand (commandHeader u) = true := by
  revert u
  decide

@[simp] theorem headerUnit_commandHeader (u : BitVec 3) : headerUnit (commandHeader u) = u := by
  revert u
  decide

@[simp] theorem headerMarker_commandHeader (u : BitVec 3) : headerMarker (commandHeader u) = marker := by
  revert u
  decide

/-! ### Frames written and read (R162, R163, R167) -/

/-- The bytes of a command transaction with this code and frame. -/
def frameBytes (code : Byte) (f : Frame) : List Byte := frameBody code f ++ [crc8 (frameBody code f)]

theorem encodeTransaction_eq {i : Instr} {code : Byte} {f : Frame} (row : frameOfRow i = some (code, f)) :
    encodeTransaction i = some (frameBytes code f) := by
  rw [encodeTransaction, row]
  rfl

theorem frameBytes_eq (code : Byte) (f : Frame) :
    frameBytes code f =
      commandHeader f.unit :: f.tag :: code :: BitVec.ofNat 8 f.payload.length ::
        (f.payload ++ [crc8 (frameBody code f)]) := rfl

/-- The length byte of a frame whose payload has 0 to 40 bytes. -/
theorem Frame.wf_iff (f : Frame) : f.wf = true ↔ f.payload.length ≤ 40 := decide_eq_true_iff

theorem Frame.length_byte {f : Frame} (wf : f.wf = true) : (BitVec.ofNat 8 f.payload.length).toNat = f.payload.length := by
  have := f.wf_iff.mp wf
  rw [BitVec.toNat_ofNat]
  omega

theorem goodFrame_frameBytes (code : Byte) {f : Frame} (wf : f.wf = true) : goodFrame (frameBytes code f) 0#3 = true := by
  have short := f.wf_iff.mp wf
  have body : (frameBytes code f).take (4 + f.payload.length) = frameBody code f :=
    List.take_left' (by rw [frameBody]; simp only [List.length_cons]; omega)
  rw [frameBytes_eq] at body ⊢
  simp [goodFrame, Frame.length_byte wf, body, short]

theorem decodeTransaction_frameBytes (code : Byte) {f : Frame} (wf : f.wf = true) :
    decodeTransaction (frameBytes code f) 0#3 = some (rowOfCode code f) := by
  have good := goodFrame_frameBytes code wf
  rw [frameBytes_eq] at good ⊢
  simp [decodeTransaction, good, Frame.length_byte wf]

theorem rowOfCode_undefined {code : Byte} (undefined : codeDefined code = false) (f : Frame) :
    rowOfCode code f = .unknownCommand f code := by
  unfold rowOfCode
  split
  case h_36 => rfl
  all_goals next value => simp [codeDefined, rowOfCode, value] at undefined

/-- The two readings of the table of 10.5 agree. -/
theorem rowOfCode_of_row {i : Instr} {code : Byte} {f : Frame} (wf : i.wf = true) (row : frameOfRow i = some (code, f)) :
    rowOfCode code f = i := by
  cases i with
  | unknownCommand f' code' =>
    cases row
    exact rowOfCode_undefined (codeDefined_of_unknown_wf wf) f
  | _ => cases row <;> rfl

theorem frame_wf_of_row {i : Instr} {code : Byte} {f : Frame} (wf : i.wf = true) (row : frameOfRow i = some (code, f)) :
    f.wf = true := by
  unfold Instr.wf at wf
  rw [row] at wf
  exact (Bool.and_eq_true_iff.mp wf).1

/-- The transaction of a well-formed row is a good frame and decodes to the row. -/
theorem decodeTransaction_of_row {i : Instr} {code : Byte} {f : Frame} (wf : i.wf = true)
    (row : frameOfRow i = some (code, f)) : decodeTransaction (frameBytes code f) 0#3 = some i := by
  rw [decodeTransaction_frameBytes code (frame_wf_of_row wf row), rowOfCode_of_row wf row]

set_option maxRecDepth 10000 in
/-- The check value of the CRC, over the digits 1 to 9 in ASCII (R162). -/
theorem crc8_check_value : crc8 [0x31, 0x32, 0x33, 0x34, 0x35, 0x36, 0x37, 0x38, 0x39] = 0x20#8 := by
  decide

/-- Settles O16: the written command frames are the bytes of their rows. -/
theorem writtenFramesDecode : Obligations.WrittenFramesDecode :=
  ⟨crc8_check_value, rfl, decodeTransaction_frameBytes 0x34#8 (f := ⟨0#3, 0x01#8, []⟩) rfl,
    decodeTransaction_frameBytes 0x41#8 (f := ⟨7#3, 0x02#8, []⟩) rfl,
    decodeTransaction_frameBytes 0x7F#8 (f := ⟨2#3, 0x03#8, []⟩) rfl, rfl⟩

end Sys2Proof
end

section
/-! PROOFS. The management port at its lines (R160, R161, R165): what the MPU has made of the bits sampled so far, and from it a
command transaction and a response read from MCS_N's fall on. -/

namespace Sys2Proof

/-! ### Bits and bytes (R160) -/

theorem bytesOfBits_header (h : Byte) (more : List Bool) : bytesOfBits (bitsMsbFirst h ++ more) = h :: bytesOfBits more := by
  simp only [bitsMsbFirst, List.cons_append, List.nil_append, bytesOfBits, byte_of_its_bits]

theorem bytesOfBits_short {bits : List Bool} (short : bits.length < 8) : bytesOfBits bits = [] := by
  unfold bytesOfBits
  split
  · simp only [List.length_cons] at short
    omega
  · rfl

theorem bitsMsbFirst_ofBools (b7 b6 b5 b4 b3 b2 b1 b0 : Bool) :
    bitsMsbFirst (BitVec.ofBoolListBE [b7, b6, b5, b4, b3, b2, b1, b0]) = [b7, b6, b5, b4, b3, b2, b1, b0] := by
  revert b7 b6 b5 b4 b3 b2 b1 b0
  decide

/-- Eight bits or more begin with a header. -/
theorem exists_header {bits : List Bool} (long : 8 ≤ bits.length) : ∃ h more, bits = bitsMsbFirst h ++ more := by
  match bits with
  | b7 :: b6 :: b5 :: b4 :: b3 :: b2 :: b1 :: b0 :: more => exact ⟨_, more, by rw [bitsMsbFirst_ofBools]; rfl⟩
  | [] | [_] | [_, _] | [_, _, _] | [_, _, _, _] | [_, _, _, _, _] | [_, _, _, _, _, _] | [_, _, _, _, _, _, _] =>
    simp at long

namespace Machine

open Sys2Proof.Claim

/-! ### A response on MDO (R165, R168) -/

theorem Status.code_eq (st : Status) : st.code = statusValue st := by
  cases st <;> rfl

theorem Response.body_eq (r : Response) :
    r.body = [r.tag, statusValue r.status, BitVec.ofNat 8 r.payload.length] ++ r.payload := by
  rw [Response.body, Status.code_eq]
  rfl

/-- The bits driven in one more period are those before and the next of the copy, 1 beyond it. -/
theorem Response.drive_succ (r : Response) (n : Nat) : r.drive (n + 1) = r.drive n ++ [(r.bits.drop n).headD true] := by
  simp only [Response.drive, List.take_append, List.take_replicate, List.headD_eq_head?_getD, List.head?_drop]
  rcases lt_or_ge n r.bits.length with inside | beyond
  · simp only [List.take_add_one, List.getElem?_eq_getElem inside, Nat.sub_eq_zero_of_le inside,
      Nat.sub_eq_zero_of_le inside.le]
    simp
  · simp [List.take_of_length_le beyond, List.take_of_length_le (Nat.le_succ_of_le beyond), List.getElem?_eq_none beyond,
      Nat.succ_sub beyond, List.replicate_succ']

/-! ### The bits sampled so far -/

/-- What the transaction that began in `s` has become when `bits` have been sampled (R160, R161, R165). -/
def State.portAt (s : State) (bits : List Bool) : SpiPort :=
  match bytesOfBits bits with
  | [] => .receiving bits
  | header :: _ =>
    if headerIsCommand header then
      if s.isUnit (headerUnit header) || headerUnit header == broadcastUnit then .receiving bits else .ignoring
    else if s.answers header then .answering (s.mpu.buffer.bits.drop (bits.length - 8))
    else .ignoring

/-- What that transaction has driven on MDO by then: a response read clears the record at its header (log 12). -/
def State.mdoAt (s : State) (bits : List Bool) : List Bool :=
  match bytesOfBits bits with
  | [] => s.mpu.mdo
  | header :: _ =>
    if headerIsCommand header then s.mpu.mdo
    else if s.answers header then s.mpu.buffer.drive (bits.length - 8)
    else []

section
variable {s : State} {bits : List Bool}

theorem State.portAt_short (short : bits.length < 8) : s.portAt bits = .receiving bits := by
  simp only [State.portAt, bytesOfBits_short short]

theorem State.mdoAt_short (short : bits.length < 8) : s.mdoAt bits = s.mpu.mdo := by
  simp only [State.mdoAt, bytesOfBits_short short]

variable (h : Byte) (more : List Bool)

theorem State.portAt_header :
    s.portAt (bitsMsbFirst h ++ more) =
      if headerIsCommand h then
        if s.isUnit (headerUnit h) || headerUnit h == broadcastUnit then .receiving (bitsMsbFirst h ++ more) else .ignoring
      else if s.answers h then .answering (s.mpu.buffer.bits.drop more.length)
      else .ignoring := by
  simp only [State.portAt, bytesOfBits_header, List.length_append, bitsMsbFirst_length, Nat.add_sub_cancel_left]

theorem State.mdoAt_header :
    s.mdoAt (bitsMsbFirst h ++ more) =
      if headerIsCommand h then s.mpu.mdo else if s.answers h then s.mpu.buffer.drive more.length else [] := by
  simp only [State.mdoAt, bytesOfBits_header, List.length_append, bitsMsbFirst_length, Nat.add_sub_cancel_left]

end

/-- The state with other pins, and the transaction and the record of MDO replaced. -/
def State.onSpi (s : State) (pins : Pins) (port : SpiPort) (mdo : List Bool) : State :=
  { s with pins := pins, mpu := { s.mpu with port := port, mdo := mdo } }

/-- The state `s` once `bits` have been sampled since MCS_N's fall: only the pins and the transaction have changed. -/
def State.sampled (s : State) (bits : List Bool) (pins : Pins) : State := s.onSpi pins (s.portAt bits) (s.mdoAt bits)

/-- The pins in a transaction of which `bits` have been clocked in, with `script` to come. -/
structure Pins.Clocking (p : Pins) (bits : List Bool) (script : List ClockSample) : Prop where
  running : p.resetN = false
  low : p.spi.mcs = true
  clock : bits ≠ [] → p.spi.mck = true
  script : p.script = script

/-! ### The lines, period by period -/

section
variable {s : State} {x : ClockSample} {rest : List ClockSample}

theorem State.levelsChange_mcsFalls (running : s.pins.resetN = false) (script : s.pins.script = x :: rest)
    (high : s.pins.spi.mcs = false) (falls : x.spi.mcs = true) :
    s.levelsChange = { s with pins := s.pins.take x rest }.mcsFalls := by
  rw [State.levelsChange_cons running script]
  simp [State.spiEdges, Pins.take, high, falls]

theorem State.levelsChange_mcsRises (running : s.pins.resetN = false) (script : s.pins.script = x :: rest)
    (low : s.pins.spi.mcs = true) (rises : x.spi.mcs = false) :
    s.levelsChange = { s with pins := s.pins.take x rest }.mcsRises := by
  rw [State.levelsChange_cons running script]
  simp [State.spiEdges, Pins.take, low, rises]

/-- In a transaction MCK goes or stays low: at a falling edge a bit is placed. -/
theorem State.levelsChange_mckLow (running : s.pins.resetN = false) (script : s.pins.script = x :: rest)
    (low : s.pins.spi.mcs = true) (stays : x.spi.mcs = true) (mck : x.spi.mck = false) :
    s.levelsChange =
      if s.pins.spi.mck then { s with pins := s.pins.take x rest }.mckFalls else { s with pins := s.pins.take x rest } := by
  rw [State.levelsChange_cons running script, State.spiEdges_low (s := { s with pins := s.pins.take x rest }) stays low]
  simp [Pins.take, mck]

/-- In a transaction MCK goes or stays high: at a rising edge a bit is sampled. -/
theorem State.levelsChange_mckHigh (running : s.pins.resetN = false) (script : s.pins.script = x :: rest)
    (low : s.pins.spi.mcs = true) (stays : x.spi.mcs = true) (mck : x.spi.mck = true) :
    s.levelsChange =
      if s.pins.spi.mck then { s with pins := s.pins.take x rest } else { s with pins := s.pins.take x rest }.mckRises := by
  rw [State.levelsChange_cons running script, State.spiEdges_low (s := { s with pins := s.pins.take x rest }) stays low]
  cases s.pins.spi.mck <;> simp [Pins.take, mck]

end

/-! ### One bit clocked in -/

/-- A falling edge of MCK acts in an answered response read alone. -/
theorem State.mckFalls_quiet {s : State} (quiet : ∀ left, s.mpu.port ≠ .answering left) : s.mckFalls = s := by
  unfold State.mckFalls
  split
  · next left port => exact absurd port (quiet left)
  · rfl

theorem State.mckFalls_answering {s : State} {left : List Bool} (port : s.mpu.port = .answering left) :
    s.mckFalls = s.onSpi s.pins (.answering left.tail) (s.mpu.mdo ++ [left.headD true]) := by
  simp only [State.mckFalls, port]
  rfl

/-- A rising edge of MCK acts while bits are taken alone. -/
theorem State.mckRises_quiet {s : State} (quiet : ∀ bits, s.mpu.port ≠ .receiving bits) : s.mckRises = s := by
  unfold State.mckRises
  split
  · next bits port => exact absurd port (quiet bits)
  · rfl

/-- The header's last bit shows what the transaction is (R161). -/
theorem State.headerSampled_onSpi (s : State) (p : Pins) (got : List Bool) (header : Byte) :
    (s.onSpi p (.receiving got) s.mpu.mdo).headerSampled header (bitsMsbFirst header) =
      s.sampled (bitsMsbFirst header) p := by
  have port := State.portAt_header (s := s) header []
  have mdo := State.mdoAt_header (s := s) header []
  rw [List.append_nil] at port mdo
  rw [State.sampled, port, mdo]
  have own : (s.onSpi p (.receiving got) s.mpu.mdo).isUnit (headerUnit header) = s.isUnit (headerUnit header) := rfl
  have answers : (s.onSpi p (.receiving got) s.mpu.mdo).answers header = s.answers header := rfl
  rw [State.headerSampled, own, answers]
  cases headerIsCommand header with
  | true => rfl
  | false => cases s.answers header <;> rfl

section
variable {s : State} {p : Pins} {x y : ClockSample} {rest : List ClockSample} {b : Bool} {bits : List Bool}

/-- The pins after the two periods of a bit. -/
def Pins.afterBit (p : Pins) (x y : ClockSample) (rest : List ClockSample) : Pins := (p.take x (y :: rest)).take y rest

theorem Pins.Clocking.afterBit (h : p.Clocking bits (x :: y :: rest)) (high : y.spi = ⟨true, true, b⟩) :
    (p.afterBit x y rest).Clocking (bits ++ [b]) rest :=
  ⟨h.running, congrArg SpiLines.mcs high, fun _ => congrArg SpiLines.mck high, rfl⟩

variable (h : p.Clocking bits (x :: y :: rest)) (low : x.spi = ⟨true, false, b⟩) (high : y.spi = ⟨true, true, b⟩)
include h low high

/-- A bit that does not complete the header of a transaction that concerns the unit. -/
theorem State.bit_receiving {got mdo : List Bool} (length : got.length ≠ 7) :
    (s.onSpi p (.receiving got) mdo).levelsChange.levelsChange =
      s.onSpi (p.afterBit x y rest) (.receiving (got ++ [b])) mdo := by
  rw [State.levelsChange_bit h.running h.low rfl h.script low high, State.mckRises_samples rfl length]
  simp [State.onSpi, State.setPort, Pins.afterBit, Pins.take, high]

/-- The bit that completes the header. -/
theorem State.bit_header {got mdo : List Bool} {header : Byte} (bits_eq : got ++ [b] = bitsMsbFirst header) :
    (s.onSpi p (.receiving got) mdo).levelsChange.levelsChange =
      (s.onSpi (p.afterBit x y rest) (.receiving got) mdo).headerSampled header (bitsMsbFirst header) := by
  rw [State.levelsChange_bit h.running h.low rfl h.script low high]
  exact State.mckRises_header rfl (by simpa [Pins.take, high] using bits_eq)

theorem State.bit_ignoring {mdo : List Bool} :
    (s.onSpi p .ignoring mdo).levelsChange.levelsChange = s.onSpi (p.afterBit x y rest) .ignoring mdo := by
  have falls : (s.onSpi p .ignoring mdo).levelsChange = s.onSpi (p.take x (y :: rest)) .ignoring mdo := by
    refine (State.levelsChange_mckLow h.running h.script h.low (congrArg SpiLines.mcs low) (congrArg SpiLines.mck low)).trans ?_
    rw [State.mckFalls_quiet, ite_self]
    · rfl
    · nofun
  rw [falls]
  refine (State.levelsChange_mckHigh h.running rfl (congrArg SpiLines.mcs low) (congrArg SpiLines.mcs high)
    (congrArg SpiLines.mck high)).trans ?_
  rw [State.mckRises_quiet, ite_self]
  · rfl
  · nofun

/-- In an answered response read the falling edge places the next bit of the copy. -/
theorem State.bit_answering {left mdo : List Bool} (begun : bits ≠ []) :
    (s.onSpi p (.answering left) mdo).levelsChange.levelsChange =
      s.onSpi (p.afterBit x y rest) (.answering left.tail) (mdo ++ [left.headD true]) := by
  have falls : (s.onSpi p (.answering left) mdo).levelsChange =
      s.onSpi (p.take x (y :: rest)) (.answering left.tail) (mdo ++ [left.headD true]) :=
    ((State.levelsChange_mckLow h.running h.script h.low (congrArg SpiLines.mcs low) (congrArg SpiLines.mck low)).trans
      (if_pos (h.clock begun))).trans (State.mckFalls_answering rfl)
  rw [falls]
  refine (State.levelsChange_mckHigh h.running rfl (congrArg SpiLines.mcs low) (congrArg SpiLines.mcs high)
    (congrArg SpiLines.mck high)).trans ?_
  rw [State.mckRises_quiet, ite_self]
  · rfl
  · nofun

/-- What the MPU has made of the bits keeps its form through one more bit. -/
theorem State.sampled_bit : (s.sampled bits p).levelsChange.levelsChange = s.sampled (bits ++ [b]) (p.afterBit x y rest) := by
  rcases lt_or_ge bits.length 8 with short | long
  · rw [State.sampled, State.portAt_short short, State.mdoAt_short short]
    by_cases seven : bits.length = 7
    · obtain ⟨header, more, eq⟩ := exists_header (bits := bits ++ [b]) (by simp [seven])
      obtain rfl : more = [] := by
        have := congrArg List.length eq
        simpa [seven] using this
      rw [List.append_nil] at eq
      rw [State.bit_header h low high eq, State.headerSampled_onSpi, eq]
    · have still_short : (bits ++ [b]).length < 8 := by
        rw [List.length_append, List.length_singleton]
        omega
      rw [State.bit_receiving h low high seven, State.sampled, State.portAt_short still_short, State.mdoAt_short still_short]
  · obtain ⟨header, more, rfl⟩ := exists_header long
    have begun : bitsMsbFirst header ++ more ≠ [] := List.ne_nil_of_length_pos (by omega)
    rw [List.append_assoc, State.sampled, State.sampled]
    simp only [State.portAt_header, State.mdoAt_header]
    cases headerIsCommand header with
    | true =>
      simp only [if_true]
      split
      · rw [State.bit_receiving h low high (by omega), List.append_assoc]
      · exact State.bit_ignoring h low high
    | false =>
      simp only [Bool.false_eq_true, if_false]
      split
      · rw [State.bit_answering h low high begun, List.length_append, List.length_singleton, Response.drive_succ,
          List.tail_drop]
      · exact State.bit_ignoring h low high

end

/-- Any number of bits clocked in. -/
theorem State.sampled_clocked {s : State} {rest : List ClockSample} (more : List Bool) :
    ∀ {bits : List Bool} {p : Pins} {samples : List ClockSample}, p.Clocking bits (samples ++ rest) →
      samples.map ClockSample.spi = clocked more →
        ∃ q : Pins, State.levelsChange^[samples.length] (s.sampled bits p) = s.sampled (bits ++ more) q ∧
          q.Clocking (bits ++ more) rest := by
  induction more with
  | nil =>
    intro bits p samples clocking lines
    obtain rfl : samples = [] := List.map_eq_nil_iff.mp lines
    exact ⟨p, by rw [List.append_nil]; rfl, by rw [List.append_nil]; exact clocking⟩
  | cons b more ih =>
    intro bits p samples clocking lines
    obtain ⟨x, samples', rfl, low, lines⟩ := List.map_eq_cons_iff.mp lines
    obtain ⟨y, samples, rfl, high, lines⟩ := List.map_eq_cons_iff.mp lines
    obtain ⟨q, reached, clocking'⟩ := ih (clocking.afterBit high) lines
    rw [List.append_assoc, List.singleton_append] at reached clocking'
    refine ⟨q, ?_, clocking'⟩
    rw [← reached, ← State.sampled_bit clocking low high]
    rfl

/-- A transaction from MCS_N's fall on, between transactions before it. -/
theorem State.sampled_transaction {s : State} (listens : s.Listens) {samples rest : List ClockSample} {bits : List Bool}
    (script : s.pins.script = samples ++ rest) (lines : samples.map ClockSample.spi = mcsDown :: clocked bits) :
    ∃ p : Pins, State.levelsChange^[samples.length] s = s.sampled bits p ∧ p.Clocking bits rest := by
  obtain ⟨x, samples, rfl, down, lines⟩ := List.map_eq_cons_iff.mp lines
  have begins : s.levelsChange = s.sampled [] (s.pins.take x (samples ++ rest)) :=
    State.levelsChange_mcsFalls listens.1 script listens.2.1 (congrArg SpiLines.mcs down)
  obtain ⟨p, reached, clocking⟩ := State.sampled_clocked (s := s) (bits := []) (p := s.pins.take x (samples ++ rest)) bits
    ⟨listens.1, congrArg SpiLines.mcs down, fun h => absurd rfl h, rfl⟩ lines
  exact ⟨p, by rw [List.length_cons, Function.iterate_succ_apply, begins, reached, List.nil_append], clocking⟩

/-- The last two periods of a transaction that is no response read: MCK back low, and MCS_N up. -/
theorem State.onSpi_mcsUp (s : State) {p : Pins} {port : SpiPort} {mdo : List Bool} {bits : List Bool} {x y : ClockSample}
    {rest : List ClockSample} (clocking : p.Clocking bits (x :: y :: rest)) (quiet : ∀ left, port ≠ .answering left)
    (low : x.spi = ⟨true, false, false⟩) (up : y.spi = ⟨false, false, false⟩) :
    (s.onSpi p port mdo).levelsChange.levelsChange = (s.onSpi (p.afterBit x y rest) port mdo).mcsRises := by
  have falls : (s.onSpi p port mdo).levelsChange = s.onSpi (p.take x (y :: rest)) port mdo := by
    refine (State.levelsChange_mckLow clocking.running clocking.script clocking.low (congrArg SpiLines.mcs low)
      (congrArg SpiLines.mck low)).trans ?_
    rw [State.mckFalls_quiet quiet, ite_self]
    rfl
  rw [falls]
  exact State.levelsChange_mcsRises clocking.running rfl (congrArg SpiLines.mcs low) (congrArg SpiLines.mcs up)

/-- MCS_N's rise puts the row of the bits at the front of the queue (R160, R164). -/
theorem State.mcsRises_receiving {s : State} (idle : s.mpu.port = .idle) (p : Pins) (bits : List Bool) :
    (s.onSpi p (.receiving bits) s.mpu.mdo).mcsRises =
      { s with pending := (decodeBits bits).toList ++ s.pending, pins := p } := by
  have same : { s.mpu with port := .idle } = s.mpu := by rw [← idle]
  simp only [State.mcsRises, State.onSpi, State.setPort, same]

theorem State.mcsRises_ignoring {s : State} (idle : s.mpu.port = .idle) (p : Pins) :
    (s.onSpi p .ignoring s.mpu.mdo).mcsRises = { s with pins := p } := by
  have same : { s.mpu with port := .idle } = s.mpu := by rw [← idle]
  simp only [State.mcsRises, State.onSpi, State.setPort, same]

/-- A command transaction is taken to its end when its unit field is this unit's or broadcast (R161). -/
theorem State.sampled_frame (s : State) (p : Pins) (code : Byte) (f : Frame) :
    s.sampled ((frameBytes code f).flatMap bitsMsbFirst) p =
      s.onSpi p
        (if f.unit = ownUnit s ∨ f.unit = 7#3 then .receiving ((frameBytes code f).flatMap bitsMsbFirst) else .ignoring)
        s.mpu.mdo := by
  have concerns : (s.isUnit f.unit || f.unit == broadcastUnit) = true ↔ f.unit = ownUnit s ∨ f.unit = 7#3 := by
    rw [Bool.or_eq_true, State.isUnit_iff, beq_iff_eq]
    rfl
  simp only [frameBytes_eq, List.flatMap_cons, State.sampled, State.portAt_header, State.mdoAt_header,
    headerIsCommand_commandHeader, headerUnit_commandHeader, if_true, concerns]

/-- A command transaction on the lines, from MCS_N's fall to its rise. -/
theorem State.command_transaction {s : State} (listens : s.Listens) {samples rest : List ClockSample} {code : Byte}
    {f : Frame} {i : Instr} (decodes : decodeTransaction (frameBytes code f) 0#3 = some i)
    (script : s.pins.script = samples ++ rest)
    (lines : samples.map ClockSample.spi = mcsDown :: (clocked ((frameBytes code f).flatMap bitsMsbFirst) ++ mcsUp)) :
    ∃ p : Pins, p.script = rest ∧
      State.levelsChange^[samples.length] s =
        { s with pending := if f.unit = ownUnit s ∨ f.unit = 7#3 then i :: s.pending else s.pending, pins := p } := by
  rw [← List.cons_append, List.map_eq_append_iff] at lines
  obtain ⟨samples, ends, rfl, lines, up⟩ := lines
  obtain ⟨x, ends, rfl, low, up⟩ := List.map_eq_cons_iff.mp up
  obtain ⟨y, ends, rfl, high, up⟩ := List.map_eq_cons_iff.mp up
  obtain rfl : ends = [] := List.map_eq_nil_iff.mp up
  rw [List.append_assoc] at script
  obtain ⟨p, reached, clocking⟩ := State.sampled_transaction listens script lines
  refine ⟨p.afterBit x y rest, rfl, ?_⟩
  have decoded := decodeBits_flatMap (frameBytes code f)
  rw [decodes] at decoded
  rw [List.length_append, Nat.add_comm, Function.iterate_add_apply, reached]
  change (s.sampled _ p).levelsChange.levelsChange = _
  rw [State.sampled_frame]
  split
  · refine (s.onSpi_mcsUp clocking (by nofun) low high).trans ?_
    rw [State.mcsRises_receiving listens.2.2, decoded]
    rfl
  · exact (s.onSpi_mcsUp clocking (by nofun) low high).trans (State.mcsRises_ignoring listens.2.2 _)

/-! ### A response read -/

/-- The bits of the copy, by the layout of R165 and the status table of R168. -/
theorem Response.bits_eq (r : Response) :
    r.bits =
      (([r.tag, statusValue r.status, BitVec.ofNat 8 r.payload.length] ++ r.payload)
        ++ [crc8 ([r.tag, statusValue r.status, BitVec.ofNat 8 r.payload.length] ++ r.payload)]).flatMap bitsMsbFirst := by
  rw [Response.bits, Response.bytes, Response.body_eq]

theorem exec_responseRead {s : State} (listens : s.Listens) (header : Byte) (clocks : Nat) :
    exec (.responseRead header clocks) s = .next (s.responseRead header clocks) := by
  simp only [exec, execResponseRead, listens.1, Bool.false_eq_true, if_false, State.mcsHigh_eq listens]

theorem State.answers_iff {s : State} {header : Byte} (read : headerIsCommand header = false) :
    s.answers header = true ↔ headerUnit header = ownUnit s ∧ headerMarker header = 0b0101#4 := by
  rw [State.answers, read, Bool.not_false, Bool.true_and, Bool.and_eq_true, State.isUnit_iff, beq_iff_eq]
  rfl

/-- A response read on the lines that this unit answers, after its header and `mdi`. -/
theorem State.sampled_read {s : State} {header : Byte} (read : headerIsCommand header = false)
    (answers : s.answers header = true) (mdi : List Bool) (p : Pins) :
    s.sampled (bitsMsbFirst header ++ mdi) p =
      s.onSpi p (.answering (s.mpu.buffer.bits.drop mdi.length)) (s.mpu.buffer.drive mdi.length) := by
  simp only [State.sampled, State.portAt_header, State.mdoAt_header, read, answers, Bool.false_eq_true, if_false, if_true]

end Machine

open Sys2Proof.Machine Sys2Proof.Claim

/-- Settles O15: the written frame is read back, and on the lines the bits sampled are the frame's. -/
theorem transactionDecodesToItsCommand : Obligations.TransactionDecodesToItsCommand := by
  intro i bytes wf encoded
  cases row : frameOfRow i with
  | none => rw [encodeTransaction, row] at encoded; exact nomatch encoded
  | some codeFrame =>
    obtain ⟨code, f⟩ := codeFrame
    obtain rfl : frameBytes code f = bytes := Option.some.inj ((encodeTransaction_eq row).symm.trans encoded)
    have decodes := decodeTransaction_of_row wf row
    refine ⟨goodFrame_frameBytes code (frame_wf_of_row wf row), decodes, ?_⟩
    rintro _ _ samples rest s ⟨⟩ listening script lines
    obtain ⟨p, ends, reached⟩ := State.command_transaction listening decodes script lines
    dsimp only
    rw [reached]
    exact ⟨ends, rfl⟩

/-- Settles O22: the row, the lines from MCS_N's fall, and each edge in an answered read. -/
theorem responseReadDrivesBuffer : Obligations.ResponseReadDrivesBuffer := by
  refine ⟨fun h clocks s listening read => ⟨fun own marked => ?_, fun notAnswered => ?_⟩,
    fun s x rest running script =>
      ⟨fun left port low => ⟨fun stays was falls => ?_, fun stays noFall => ?_, fun rises => ?_⟩, fun high stays => ?_⟩⟩
  · have answers := (State.answers_iff read).mpr ⟨own, marked⟩
    dsimp only
    rw [← Response.bits_eq]
    refine ⟨?_, fun samples rest mdi script lines => ?_⟩
    · rw [exec_responseRead listening, State.responseRead, if_pos answers]
      rfl
    · obtain ⟨p, reached, -⟩ := State.sampled_transaction listening script lines
      rw [reached, State.sampled_read read answers]
      rfl
  · have silent : s.answers h = false := Bool.eq_false_iff.mpr fun answers => by
      obtain ⟨own, marked⟩ := (State.answers_iff read).mp answers
      exact notAnswered.elim (· own) (· marked)
    rw [exec_responseRead listening, State.responseRead, silent]
    rfl
  · have placed : left.headD true = if left = [] then true else left.headD true := by cases left <;> rfl
    have next := ((State.levelsChange_mckLow running script low stays falls).trans (if_pos was)).trans
      (State.mckFalls_answering port)
    rw [next, ← placed]
    exact ⟨rfl, List.getLast?_concat⟩
  · cases now : x.spi.mck with
    | false =>
      have was : ¬ s.pins.spi.mck = true := fun was => by simp [noFall was] at now
      exact (State.levelsChange_mckLow running script low stays now).trans (if_neg was)
    | true =>
      refine (State.levelsChange_mckHigh running script low stays now).trans ?_
      rw [State.mckRises_quiet, ite_self]
      · rfl
      · exact fun bits receiving => nomatch port.symm.trans receiving
  · rw [State.levelsChange_mcsRises running script low rises]
    simp only [State.mcsRises, port]
    exact ⟨rfl, rfl⟩
  · rw [State.levelsChange_cons running script]
    exact State.spiEdges_high stays high

end Sys2Proof
end

section
/-! PROOFS. A step with the queue not empty (log 1), beside `step_idle` for the empty queue. -/

namespace Sys2Proof.Machine

/-- On a queue with a command at its front a step takes the command off and carries it out (log 1). -/
theorem step_front {s : State} {c : Instr} {rest : List Instr} (h : s.pending = c :: rest) :
    step s = exec c { s with pending := rest } := by
  rw [step, h]

end Sys2Proof.Machine

namespace Sys2Proof

open Sys2Proof.Machine

/-- Settles O1: the queue with `c` at its front is the one `step_front` reads. -/
theorem stepExecutesFrontCommand : Obligations.StepExecutesFrontCommand := by
  intro c rest s
  exact step_front (s := { s with pending := c :: rest }) rfl

end Sys2Proof
end

section
/-! PROOFS. The HAU and the memory port agree after every step (R21, R29, R108 to R111), what waits for the end of an access waits
only while one is in flight (R64, R71, R174), and the MPU follows MCS_N (R160, R176). -/

namespace Sys2Proof.Machine

open Sys2Proof.Safety Sys2Proof.Claim

/-! ### The parts of the agreement -/

/-- The share, the pass-over count and MA within their ranges (R97, R108, R109). -/
structure Mpc.InRange (m : Mpc) : Prop where
  share_pos : 1 ≤ m.share
  share_le : m.share ≤ 16
  passOver_le : m.passOver ≤ 16
  offset : (m.access.all fun p => m.lastOffset == p.addr.setWidth 21) = true

/-- The HAU and the port agree, where a request may still wait for a free port: the state the arbiter finds (R29, R110). -/
structure PortAgrees (s : State) : Prop where
  request : s.mpc.hostRequest = (s.hau.state == .grant)
  onPort : hostOnPort s.mpc = (s.hau.state == .device)
  carries : (s.hau.state = .grant ∨ s.hau.state = .device) → carriesPortDecision s.hau = true
  notDeciding : s.hau.state ≠ .deciding
  notOverlay : s.hau.state ≠ .overlay
  notImmediate : s.hau.state ≠ .immediate
  inRange : s.mpc.InRange

theorem portCoherent_iff {s : State} : PortCoherent s ↔ PortAgrees s ∧ PortAtRest s :=
  ⟨fun ⟨request, onPort, carries, rest, d, o, i, pos, le, pass, offset⟩ =>
      ⟨⟨request, onPort, carries, d, o, i, ⟨pos, le, pass, offset⟩⟩, rest⟩,
    fun ⟨⟨request, onPort, carries, d, o, i, ⟨pos, le, pass, offset⟩⟩, rest⟩ =>
      ⟨request, onPort, carries, rest, d, o, i, pos, le, pass, offset⟩⟩

theorem PortCoherent.agrees {s : State} (h : PortCoherent s) : PortAgrees s := (portCoherent_iff.mp h).1

/-- A HAU at rest agrees with a port on which it has nothing. -/
theorem PortAgrees.of_rest {s : State} (rest : s.inFlight = false) (request : s.mpc.hostRequest = false)
    (onPort : hostOnPort s.mpc = false) (inRange : s.mpc.InRange) : PortAgrees s := by
  cases state : s.hau.state <;> simp [State.inFlight, HauState.inFlight, state] at rest <;>
    exact ⟨by rw [request, state]; rfl, by rw [onPort, state]; rfl, by simp [state], by simp [state], by simp [state],
      by simp [state], inRange⟩

/-- In GRANT a host request waits, and nothing of the HAU is on the port. -/
theorem PortAgrees.onPort_of_request {s : State} (h : PortAgrees s) (request : s.mpc.hostRequest = true) :
    s.hau.state = .grant ∧ hostOnPort s.mpc = false := by
  have grant : s.hau.state = .grant := by simpa [request] using h.request.symm
  exact ⟨grant, by rw [h.onPort, grant]; rfl⟩

/-- With no access in flight the HAU asks for nothing and has nothing on the port. -/
theorem PortAgrees.noRequest {s : State} (h : PortAgrees s) (rest : s.inFlight = false) : s.mpc.hostRequest = false := by
  rw [h.request]
  cases state : s.hau.state <;> simp [State.inFlight, HauState.inFlight, state] at rest ⊢

theorem PortAgrees.notOnPort {s : State} (h : PortAgrees s) (rest : s.inFlight = false) : hostOnPort s.mpc = false := by
  rw [h.onPort]
  cases state : s.hau.state <;> simp [State.inFlight, HauState.inFlight, state] at rest ⊢

theorem hostOnPort_free {m : Mpc} (h : m.access = none) : hostOnPort m = false := by
  simp [hostOnPort, h]

/-! ### Grants (R110 to R112, R121, R124) -/

theorem Mpc.InRange.granted {m : Mpc} (h : m.InRange) {o : Owner} (wins : m.winner = some o) : (m.grant o).InRange := by
  obtain ⟨pos, le, pass, offset⟩ := h
  cases o with
  | capture => exact ⟨pos, le, by simp only [Mpc.grant]; split <;> omega, offset⟩
  | host =>
    refine ⟨pos, le, ?_, offset⟩
    cases hh : m.hostRequest <;> cases hc : m.captureRequest <;> simp [Mpc.winner, hh, hc] at wins <;>
      simp [Mpc.grant, hh, hc] <;> omega

theorem Mpc.InRange.withRequests {m : Mpc} (h : m.InRange) (host capture : Bool) :
    Mpc.InRange { m with hostRequest := host, captureRequest := capture } := { h with }

theorem Mpc.InRange.started {m : Mpc} (h : m.InRange) (p : PortAccess) :
    Mpc.InRange { m with access := some p, lastOffset := offsetOf p.addr } :=
  ⟨h.share_pos, h.share_le, h.passOver_le, by simp [offsetOf]⟩

theorem Mpc.InRange.captureEnded {m : Mpc} (h : m.InRange) :
    Mpc.InRange { m with passOver := 0, captureRequest := false } :=
  ⟨h.share_pos, h.share_le, Nat.zero_le _, h.offset⟩

/-- The port and the HAU after the capture's part in a grant or an access end: the access in place, no capture request, and the
host's request and the HAU as they were. -/
structure CaptureEnds (s t : State) : Prop where
  hau : t.hau = s.hau
  request : t.mpc.hostRequest = s.mpc.hostRequest
  access : t.mpc.access = s.mpc.access
  captureRequest : t.mpc.captureRequest = true → s.mpc.captureRequest = true
  inRange : s.mpc.InRange → t.mpc.InRange

theorem State.captureEnd_ends (s : State) (j : CaptureJob) (c : CaptureStatus) : CaptureEnds s (s.captureEnd j c) :=
  ⟨rfl, rfl, rfl, nofun, Mpc.InRange.captureEnded⟩

theorem State.captureFails_ends (s : State) (c : CaptureCause) : CaptureEnds s (s.captureFails c) := by
  unfold State.captureFails
  split
  · exact ⟨rfl, rfl, rfl, id, id⟩
  · exact s.captureEnd_ends _ _

/-- A capture that ends or goes on leaves the HAU and the port in agreement. -/
theorem CaptureEnds.agrees {s t : State} (e : CaptureEnds s t) (h : PortAgrees s) : PortAgrees t := by
  obtain ⟨hau, request, access, -, inRange⟩ := e
  have onPort : hostOnPort t.mpc = hostOnPort s.mpc := by simp only [hostOnPort, access]
  exact ⟨by rw [request, hau, h.request], by rw [onPort, hau, h.onPort], hau ▸ h.carries, hau ▸ h.notDeciding,
    hau ▸ h.notOverlay, hau ▸ h.notImmediate, inRange h.inRange⟩

/-- What a grant on a port in agreement leaves: agreement with the port in use or the capture request gone, or the end of a host
access that is not on the port. -/
structure Moment.Granted (s : State) (m : Moment) : Prop where
  agrees : m.2 = none → PortAgrees m.1
  free : m.2 = none → m.1.mpc.access = none →
    m.1.mpc.captureRequest = false ∧ (m.1.mpc.hostRequest = true → s.mpc.captureRequest = true)
  ends : m.2.isSome = true → hostOnPort m.1.mpc = false ∧ m.1.mpc.InRange

theorem State.grantCapture_granted {s : State} (h : PortAgrees s) (free : s.mpc.access = none)
    (wins : s.mpc.winner = some .capture) :
    Moment.Granted s ({ s with mpc := s.mpc.grant .capture }.grantCapture, none) := by
  have waits : s.mpc.captureRequest = true := by
    cases hc : s.mpc.captureRequest
    · cases hh : s.mpc.hostRequest <;> simp [Mpc.winner, hh, hc] at wins
    · rfl
  have taken : PortAgrees { s with mpc := s.mpc.grant .capture } := { h with inRange := h.inRange.granted wins }
  have quiet {t : State} (e : CaptureEnds { s with mpc := s.mpc.grant .capture } t) : Moment.Granted s (t, none) := by
    refine ⟨fun _ => e.agrees taken, fun _ _ => ⟨?_, fun _ => waits⟩, nofun⟩
    exact Bool.eq_false_iff.mpr fun again => Bool.false_ne_true (e.captureRequest again)
  unfold State.grantCapture
  split
  · exact quiet ⟨rfl, rfl, rfl, id, id⟩
  · split
    · have device : s.hau.state ≠ .device := by
        simpa [hostOnPort_free free] using h.onPort.symm
      refine ⟨fun _ => ⟨h.request, ?_, h.carries, h.notDeciding, h.notOverlay, h.notImmediate,
        taken.inRange.started _⟩, fun _ inUse => by simp at inUse, nofun⟩
      simp [hostOnPort, State.start, State.capturePortAccess, device]
    · exact quiet (State.captureFails_ends _ _)
    · exact quiet (State.captureFails_ends _ _)

theorem State.grantHost_granted {s : State} (h : PortAgrees s)
    (wins : s.mpc.winner = some .host) : Moment.Granted s { s with mpc := s.mpc.grant .host }.grantHost := by
  have inRange := h.inRange.granted wins
  have request : s.mpc.hostRequest = true := by
    by_contra idle
    exact Mpc.winner_ne_host (by simpa using idle) wins
  obtain ⟨grant, onPort⟩ := h.onPort_of_request request
  have carries := h.carries (.inl grant)
  simp only [carriesPortDecision, Bool.and_eq_true, Option.isSome_iff_exists, Option.any_eq_true] at carries
  obtain ⟨⟨a, access⟩, d, decision, eff, effective⟩ := carries
  unfold State.grantHost
  simp only [access, decision, effective]
  split
  · refine ⟨fun _ => ⟨rfl, ?_, fun _ => ?_, nofun, nofun, nofun, inRange.started _⟩, nofun, nofun⟩
    · simp [hostOnPort, State.start, State.hostPortAccess]
    · simp [carriesPortDecision, State.start, effective]
  · exact ⟨nofun, nofun, fun _ => ⟨onPort, inRange⟩⟩

theorem Mpc.no_request_of_winner {m : Mpc} (h : m.winner = none) : m.hostRequest = false ∧ m.captureRequest = false := by
  cases hh : m.hostRequest <;> cases hc : m.captureRequest <;> simp only [Mpc.winner, hh, hc] at h
  · exact ⟨rfl, rfl⟩
  · cases h
  · cases h
  · split at h <;> cases h

theorem State.grantOne_granted {s : State} (h : PortAgrees s) : Moment.Granted s s.grantOne := by
  cases port : s.mpc.access with
  | some p =>
    have idle : s.grantOne = (s, none) := State.grantOne_idle (.inl (Option.isSome_of_eq_some port))
    rw [idle]
    exact ⟨fun _ => h, fun _ free => by simp [port] at free, nofun⟩
  | none =>
    cases wins : s.mpc.winner with
    | none =>
      obtain ⟨noHost, noCapture⟩ := Mpc.no_request_of_winner wins
      have idle : s.grantOne = (s, none) := State.grantOne_idle (.inr ⟨noHost, noCapture⟩)
      rw [idle]
      exact ⟨fun _ => h, fun _ _ => ⟨noCapture, fun host => by simp [noHost] at host⟩, nofun⟩
    | some o =>
      unfold State.grantOne
      rw [port, wins]
      cases o with
      | host => exact State.grantHost_granted h wins
      | capture => exact State.grantCapture_granted h port wins

/-- A moment of which the HAU and the port agree, nothing waiting for a free port, or at which an access ends that is not on the
port. -/
structure Moment.Settled (m : Moment) : Prop where
  ready : m.Ready
  coherent : m.2 = none → PortCoherent m.1
  ends : m.2.isSome = true → hostOnPort m.1.mpc = false ∧ m.1.mpc.InRange

/-- The arbiter's two grants settle the port (R110, R112). -/
theorem State.arbitrate_settled {s : State} (h : PortAgrees s) : Moment.Settled s.arbitrate := by
  obtain ⟨agrees, free, ends⟩ := State.grantOne_granted h
  refine ⟨s.arbitrate_ready, ?_, ?_⟩ <;> unfold State.arbitrate <;> dsimp only <;> split
  · nofun
  · next none_ends =>
    obtain ⟨agrees', free', -⟩ := State.grantOne_granted (agrees none_ends)
    intro none_ends'
    refine portCoherent_iff.mpr ⟨agrees' none_ends', fun unused => ?_⟩
    obtain ⟨noCapture, host⟩ := free' none_ends' unused
    refine ⟨?_, noCapture⟩
    have before : s.grantOne.1.mpc.access = none := by
      by_contra inUse
      rw [State.grantOne_idle (.inl (Option.isSome_iff_ne_none.mpr inUse))] at unused
      exact inUse unused
    by_contra waits
    have again := host (by simpa using waits)
    rw [(free none_ends before).1] at again
    exact Bool.false_ne_true again
  · next e some_ends => exact fun _ => ends (Option.isSome_of_eq_some some_ends)
  · next none_ends => exact (State.grantOne_granted (agrees none_ends)).ends

/-! ### What waits for the end of an access (R64, R71, R174) -/

/-- A due commit, a due revert and a waiting soft reset each have an access in flight. -/
structure WaitsForEnd (s : State) : Prop where
  commit : s.gen.commit.commitDue = true → s.inFlight = true
  revert : s.gen.commit.revertDue = true → s.inFlight = true
  reset : s.mpu.softReset.isSome = true → s.inFlight = true

theorem waitsInFlight_iff {s : State} : WaitsInFlight s ↔ PortCoherent s ∧ WaitsForEnd s :=
  ⟨fun ⟨port, commit, revert, reset⟩ => ⟨port, commit, revert, reset⟩,
    fun ⟨port, commit, revert, reset⟩ => ⟨port, commit, revert, reset⟩⟩

/-- No change of Active is due. -/
def CommitState.NoneDue (c : CommitState) : Prop := c.commitDue = false ∧ c.revertDue = false

theorem WaitsForEnd.of_none {s : State} (commit : s.gen.commit.NoneDue) (reset : s.mpu.softReset = none) :
    WaitsForEnd s :=
  ⟨fun due => by simp [commit.1] at due, fun due => by simp [commit.2] at due, fun waits => by simp [reset] at waits⟩

theorem WaitsForEnd.of_inFlight {s : State} (h : s.inFlight = true) : WaitsForEnd s := ⟨fun _ => h, fun _ => h, fun _ => h⟩

theorem WaitsForEnd.noneDue {s : State} (h : WaitsForEnd s) (rest : s.inFlight = false) : s.gen.commit.NoneDue :=
  ⟨Bool.eq_false_iff.mpr fun due => by simp [h.commit due] at rest,
    Bool.eq_false_iff.mpr fun due => by simp [h.revert due] at rest⟩

theorem WaitsForEnd.noReset {s : State} (h : WaitsForEnd s) (rest : s.inFlight = false) : s.mpu.softReset = none := by
  by_contra waits
  simp [h.reset (Option.isSome_iff_ne_none.mpr waits)] at rest

/-- A commit's effect opens a trial with no revert due, or none (R65). -/
theorem State.trialOf_noneDue (s : State) (p : PendingCommit) : (s.trialOf p).NoneDue := by
  unfold State.trialOf
  split <;> exact ⟨rfl, rfl⟩

theorem State.takeEffect_noneDue (s : State) (p : PendingCommit) : (s.takeEffect p).gen.commit.NoneDue := by
  rw [State.takeEffect_gen]
  exact s.trialOf_noneDue p

theorem State.revert_noneDue (s : State) (t : Trial) (c : RevertCause) : (s.revert t c).gen.commit.NoneDue := by
  rw [State.revert_gen]
  exact ⟨rfl, rfl⟩

/-- Step 4 of an access end applies what is due (R31). -/
theorem State.changeAtEnd_noneDue (s : State) (a : Access) : (s.changeAtEnd a).gen.commit.NoneDue := by
  unfold State.changeAtEnd
  split
  · next none => rw [none]; exact ⟨rfl, rfl⟩
  · next p pending =>
    split
    · exact s.takeEffect_noneDue p
    · next waits =>
      rw [pending]
      exact ⟨by simp_all [CommitState.commitDue], rfl⟩
  · next t trial =>
    split
    · exact s.revert_noneDue t _
    · next waits =>
      rw [trial]
      exact ⟨rfl, by simpa [CommitState.revertDue] using waits⟩

/-- A host reset event applies what is due (R74). -/
theorem State.changeAtHostReset_noneDue (s : State) : s.changeAtHostReset.gen.commit.NoneDue := by
  unfold State.changeAtHostReset
  split
  · next none => rw [none]; exact ⟨rfl, rfl⟩
  · next p pending =>
    split
    · exact s.takeEffect_noneDue p
    · next waits =>
      rw [pending]
      exact ⟨by simp_all [CommitState.commitDue], rfl⟩
  · exact s.revert_noneDue _ _

theorem State.endAccess_noneDue {s : State} (access : s.hau.access.isSome = true) (decision : s.hau.decision.isSome = true)
    (e : HostResponse) : (s.endAccess e).gen.commit.NoneDue := by
  obtain ⟨a, access⟩ := Option.isSome_iff_exists.mp access
  obtain ⟨d, decision⟩ := Option.isSome_iff_exists.mp decision
  rw [State.endAccess_eq access decision]
  exact State.changeAtEnd_noneDue _ a

/-! ### The soft reset (R175) -/

@[simp] theorem State.softReset_mpc (s : State) (tag : Byte) : (s.softReset tag).mpc = Mpc.atReset s.mpc.lastOffset := by
  unfold State.softReset
  dsimp only
  split <;> rfl

@[simp] theorem State.softReset_mpu (s : State) (tag : Byte) :
    (s.softReset tag).mpu = { s.mpu with buffer := ⟨tag, .ok, []⟩, softReset := none } := by
  unfold State.softReset
  dsimp only
  split <;> rfl

@[simp] theorem State.softReset_inFlight (s : State) (tag : Byte) : (s.softReset tag).inFlight = s.inFlight := by
  unfold State.softReset
  dsimp only
  split <;> rfl

theorem Mpc.atReset_inRange (x : BitVec 21) : (Mpc.atReset x).InRange :=
  ⟨by simp [Mpc.atReset], by simp [Mpc.atReset], by simp [Mpc.atReset], rfl⟩

/-- A soft reset with no access in flight leaves nothing on the port and nothing waiting. -/
theorem State.softReset_waitsInFlight {s : State} (rest : s.inFlight = false) (tag : Byte) :
    WaitsInFlight (s.softReset tag) := by
  refine waitsInFlight_iff.mpr ⟨portCoherent_iff.mpr ⟨?_, ?_⟩, .of_none ?_ ?_⟩
  · refine .of_rest (by rw [State.softReset_inFlight, rest]) ?_ ?_ ?_ <;> rw [State.softReset_mpc]
    · rfl
    · rfl
    · exact Mpc.atReset_inRange _
  · rw [PortAtRest, State.softReset_mpc]
    exact fun _ => ⟨rfl, rfl⟩
  · rw [State.softReset_gen]
    exact ⟨rfl, rfl⟩
  · rw [State.softReset_mpu]

/-- What the end of an access leaves for the arbiter: the HAU at rest, agreeing with the port, and nothing waiting. -/
structure AtRest (s : State) : Prop where
  rest : s.inFlight = false
  agrees : PortAgrees s
  noneDue : s.gen.commit.NoneDue
  noReset : s.mpu.softReset = none

/-- A soft reset that waited is taken (R174). -/
theorem State.softResetIfDue_atRest {s : State} (rest : s.inFlight = false) (agrees : PortAgrees s)
    (noneDue : s.gen.commit.NoneDue) : AtRest s.softResetIfDue := by
  unfold State.softResetIfDue
  split
  · next tag _ =>
    obtain ⟨port, -⟩ := waitsInFlight_iff.mp (s.softReset_waitsInFlight rest tag)
    exact ⟨by rw [State.softReset_inFlight, rest], PortCoherent.agrees port,
      by rw [State.softReset_gen]; exact ⟨rfl, rfl⟩, by rw [State.softReset_mpu]⟩
  · next noReset => exact ⟨rest, agrees, noneDue, noReset⟩

/-! ### The end of an access (R31) -/

@[simp] theorem State.grantHost_gen (s : State) : s.grantHost.1.gen = s.gen := by
  unfold State.grantHost
  (repeat' split) <;> rfl

@[simp] theorem State.grantOne_gen (s : State) : s.grantOne.1.gen = s.gen := by
  unfold State.grantOne
  split <;> simp

@[simp] theorem State.arbitrate_gen (s : State) : s.arbitrate.1.gen = s.gen := by
  unfold State.arbitrate
  dsimp only
  split <;> simp

theorem State.grantOne_no_end {s : State} (h : s.mpc.hostRequest = false) : s.grantOne.2 = none := by
  unfold State.grantOne
  split
  · next wins => exact absurd wins (Mpc.winner_ne_host h)
  · rfl
  · rfl

/-- With no host request waiting the arbiter ends no access. -/
theorem State.arbitrate_no_end {s : State} (h : s.mpc.hostRequest = false) : s.arbitrate.2 = none := by
  unfold State.arbitrate
  dsimp only
  rw [State.grantOne_no_end h]
  exact State.grantOne_no_end (State.grantOne_no_request h).2

/-- The grant that follows the end of an access (R111). -/
theorem AtRest.arbitrate {s : State} (h : AtRest s) : WaitsInFlight s.arbitrate.1 := by
  have no_end := State.arbitrate_no_end (h.agrees.noRequest h.rest)
  refine waitsInFlight_iff.mpr ⟨(State.arbitrate_settled h.agrees).coherent no_end, .of_none ?_ ?_⟩
  · rw [State.arbitrate_gen]
    exact h.noneDue
  · rw [State.arbitrate_mpu]
    exact h.noReset

/-- A settled moment carried through (R31, R111, R175). -/
theorem Moment.Settled.finish {m : Moment} (h : m.Settled) (waits : m.2 = none → WaitsForEnd m.1) :
    WaitsInFlight m.finish := by
  obtain ⟨s, r⟩ := m
  cases r with
  | none => exact waitsInFlight_iff.mpr ⟨h.coherent rfl, waits rfl⟩
  | some e =>
    obtain ⟨request, access, decision⟩ := h.ready rfl
    obtain ⟨onPort, inRange⟩ := h.ends rfl
    have rest := State.endAccess_rests access decision e
    refine (State.softResetIfDue_atRest rest (.of_rest rest ?_ ?_ ?_) (State.endAccess_noneDue access decision e)).arbitrate
      <;> rw [State.endAccess_mpc]
    · exact request
    · exact onPort
    · exact inRange

/-! ### What an event leaves alone on the way to the hand-offs -/

/-- Generation Control, the MPU, RESET_N and the lines of the management port stand, and an access in flight stays in flight. -/
structure OnTheWay (s t : State) : Prop where
  gen : t.gen = s.gen
  mpu : t.mpu = s.mpu
  resetN : t.pins.resetN = s.pins.resetN
  spi : t.pins.spi = s.pins.spi
  inFlight : s.inFlight = true → t.inFlight = true

theorem OnTheWay.refl (s : State) : OnTheWay s s := ⟨rfl, rfl, rfl, rfl, id⟩

theorem OnTheWay.trans {s t u : State} (h : OnTheWay s t) (k : OnTheWay t u) : OnTheWay s u :=
  ⟨k.gen.trans h.gen, k.mpu.trans h.mpu, k.resetN.trans h.resetN, k.spi.trans h.spi, k.inFlight ∘ h.inFlight⟩

theorem OnTheWay.of_hau {s t : State} (gen : t.gen = s.gen) (mpu : t.mpu = s.mpu) (pins : t.pins = s.pins)
    (hau : t.hau = s.hau) : OnTheWay s t :=
  ⟨gen, mpu, by rw [pins], by rw [pins], fun h => by rw [State.inFlight, hau]; exact h⟩

/-- While the state waits for an end it does so on the way. -/
theorem OnTheWay.waits {s t : State} (h : OnTheWay s t) (w : WaitsForEnd s) : WaitsForEnd t :=
  ⟨fun due => h.inFlight (w.commit (h.gen ▸ due)), fun due => h.inFlight (w.revert (h.gen ▸ due)),
    fun due => h.inFlight (w.reset (h.mpu ▸ due))⟩

theorem State.grantHost_onTheWay (s : State) : OnTheWay s s.grantHost.1 := by
  unfold State.grantHost
  split
  · split
    · split
      · exact ⟨rfl, rfl, rfl, rfl, fun _ => rfl⟩
      · exact .refl s
    · exact .refl s
  · exact .refl s

theorem State.grantOne_onTheWay (s : State) : OnTheWay s s.grantOne.1 := by
  unfold State.grantOne
  split
  · exact OnTheWay.trans (t := { s with mpc := s.mpc.grant .host }) (.of_hau rfl rfl rfl rfl)
      (State.grantHost_onTheWay _)
  · exact .of_hau (by simp) (by simp) (by simp) (by simp)
  · exact .refl s

theorem State.arbitrate_onTheWay (s : State) : OnTheWay s s.arbitrate.1 := by
  unfold State.arbitrate
  dsimp only
  split
  · exact s.grantOne_onTheWay
  · exact s.grantOne_onTheWay.trans (State.grantOne_onTheWay _)

/-! ### An access decided (R24 to R29) -/

/-- A decision that asks for the port (R10). -/
theorem effective_of_asks {d : Decision} (substitute : ∀ run word policy, d.disposition ≠ .substitute run word policy)
    (guard : ∀ response fill, d.disposition ≠ .guard response fill) (lockdown : d.disposition ≠ .lockdown) :
    d.effective.isSome = true := by
  unfold Decision.effective
  cases hd : d.disposition with
  | default | pass | relocate => rfl
  | substitute run word policy => exact absurd hd (substitute run word policy)
  | guard response fill => exact absurd hd (guard response fill)
  | lockdown => exact absurd hd lockdown

/-- An access at rest is carried out from a port in agreement: it ends at once, or requests the port. -/
theorem State.enterDeciding_settled {s : State} (h : PortAgrees s) (rest : s.inFlight = false) (a : Access) :
    Moment.Settled (s.enterDeciding a) ∧ OnTheWay s (s.enterDeciding a).1 := by
  have request := h.noRequest rest
  have onPort := h.notOnPort rest
  have notInFlight {t : State} : s.inFlight = true → t.inFlight = true := fun inFlight => by simp [rest] at inFlight
  have ends (st : HauState) (e : HostResponse) :
      Moment.Settled ({ s with hau := s.hau.carrying st a (s.decide a) }, some e) ∧
        OnTheWay s { s with hau := s.hau.carrying st a (s.decide a) } :=
    ⟨⟨fun _ => ⟨request, rfl, rfl⟩, nofun, fun _ => ⟨onPort, h.inRange⟩⟩, ⟨rfl, rfl, rfl, rfl, notInFlight⟩⟩
  unfold State.enterDeciding
  dsimp only
  split
  · exact ends _ _
  · exact ends _ _
  · exact ends _ _
  · next substitute guard lockdown =>
    split
    · have eff := effective_of_asks substitute guard lockdown
      let asks : State :=
        { s with hau := s.hau.carrying .grant a (s.decide a), mpc := { s.mpc with hostRequest := true } }
      have agrees : PortAgrees asks :=
        ⟨rfl, onPort, fun _ => by simp [asks, carriesPortDecision, eff], nofun, nofun, nofun, h.inRange.withRequests _ _⟩
      exact ⟨State.arbitrate_settled agrees,
        OnTheWay.trans (t := asks) ⟨rfl, rfl, rfl, rfl, notInFlight⟩ asks.arbitrate_onTheWay⟩
    · exact ends _ _

/-! ### The events that can end an access -/

theorem inFlight_of_idle {s : State} (h : s.hau.state = .idle) : s.inFlight = false := by
  rw [State.inFlight, h]
  rfl

theorem inFlight_of_held {s : State} (h : s.hau.state = .held) : s.inFlight = false := by
  rw [State.inFlight, h]
  rfl

/-- An event that ends nothing and settles the port where the state is coherent. -/
theorem Moment.settled_none {s : State} (h : PortCoherent s) : Moment.Settled (s, none) :=
  ⟨Moment.ready_none s, fun _ => h, nofun⟩

/-- An access arrives in IDLE alone (R22). -/
theorem State.arriving_idle {s : State} {p : HostPins} {a : Access} (h : s.arriving p = some a) : s.hau.state = .idle := by
  unfold State.arriving at h
  split at h
  · next conditions =>
    simp only [Bool.and_eq_true, beq_iff_eq] at conditions
    exact conditions.1.1.2
  · cases h

theorem State.arrivalMoment_settled {s : State} (h : PortCoherent s) (p : HostPins) :
    Moment.Settled (s.arrivalMoment p) ∧ OnTheWay s (s.arrivalMoment p).1 := by
  obtain ⟨agrees, free⟩ := portCoherent_iff.mp h
  unfold State.arrivalMoment
  dsimp only
  split
  · exact ⟨Moment.settled_none h, ⟨rfl, rfl, rfl, rfl, id⟩⟩
  · next a arrives =>
    have rest := inFlight_of_idle (State.arriving_idle arrives)
    have notInFlight {t : State} : s.inFlight = true → t.inFlight = true := fun inFlight => by simp [rest] at inFlight
    split
    · have held : PortAgrees
          (State.post (.hostHeld a.addr a.kind)
            { s with pins := s.pins.assertStrobes p, hau := { s.hau with state := .held, access := some a } }) :=
        .of_rest rfl (agrees.noRequest rest) (agrees.notOnPort rest) agrees.inRange
      exact ⟨Moment.settled_none (portCoherent_iff.mpr ⟨held, free⟩), ⟨rfl, rfl, rfl, rfl, notInFlight⟩⟩
    · obtain ⟨settled, way⟩ := State.enterDeciding_settled (s := { s with pins := s.pins.assertStrobes p })
        { agrees with } rest a
      exact ⟨settled, OnTheWay.trans (t := { s with pins := s.pins.assertStrobes p }) ⟨rfl, rfl, rfl, rfl, id⟩ way⟩

theorem State.releaseMoment_settled {s : State} (h : PortCoherent s) :
    Moment.Settled s.releaseMoment ∧ OnTheWay s s.releaseMoment.1 := by
  unfold State.releaseMoment
  split
  · dsimp only
    split
    · next a state _ =>
      obtain ⟨settled, way⟩ := State.enterDeciding_settled (s := { s with hau := { s.hau with hold := false } })
        { PortCoherent.agrees h with } (inFlight_of_held state) a
      exact ⟨settled, OnTheWay.trans (t := { s with hau := { s.hau with hold := false } }) ⟨rfl, rfl, rfl, rfl, id⟩ way⟩
    · exact ⟨Moment.settled_none h, ⟨rfl, rfl, rfl, rfl, id⟩⟩
  · exact ⟨Moment.settled_none h, .refl s⟩

/-- The port freed by the capture, or by an abandoned access: nothing of the HAU was on it (R36). -/
theorem PortAgrees.freePort {s : State} (h : PortAgrees s) (onPort : hostOnPort s.mpc = false) : PortAgrees s.freePort where
  request := h.request
  onPort := onPort.symm.trans h.onPort
  carries := h.carries
  notDeciding := h.notDeciding
  notOverlay := h.notOverlay
  notImmediate := h.notImmediate
  inRange := ⟨h.inRange.share_pos, h.inRange.share_le, h.inRange.passOver_le, rfl⟩

theorem PortAgrees.congr {s t : State} (hau : t.hau = s.hau) (mpc : t.mpc = s.mpc) (h : PortAgrees s) : PortAgrees t := by
  obtain ⟨request, onPort, carries, d, o, i, inRange⟩ := h
  rw [← hau] at request onPort carries d o i
  rw [← mpc] at request onPort inRange
  exact ⟨request, onPort, carries, d, o, i, inRange⟩

theorem State.captureWord_agrees {s : State} (h : PortAgrees s) (md : Word) : PortAgrees (s.captureWord md) := by
  unfold State.captureWord
  split
  · exact h
  · next j _ =>
    dsimp only
    have copied : PortAgrees (s.copyWord j md) := .congr (s := s) rfl rfl h
    split
    · exact (State.captureEnd_ends _ _ _).agrees copied
    · split
      · exact (State.captureEnd_ends _ _ _).agrees copied
      · exact { copied with inRange := copied.inRange.withRequests _ _ }

@[simp] theorem State.fence_access (s : State) (p : PortAccess) : (s.fence p).mpc.access = s.mpc.access := by
  unfold State.fence
  split <;> rfl

theorem State.fence_inRange {s : State} (h : s.mpc.InRange) (p : PortAccess) : (s.fence p).mpc.InRange := by
  unfold State.fence
  split
  · exact { h with }
  · exact h

theorem State.fence_agrees {s : State} (h : PortAgrees s) (p : PortAccess) : PortAgrees (s.fence p) := by
  refine ⟨?_, ?_, ?_, ?_, ?_, ?_, State.fence_inRange h.inRange p⟩
  · rw [State.fence_hostRequest, State.fence_hau, h.request]
  · rw [hostOnPort, State.fence_access, State.fence_hau]
    exact h.onPort
  all_goals rw [State.fence_hau]
  · exact h.carries
  · exact h.notDeciding
  · exact h.notOverlay
  · exact h.notImmediate

/-- A moment of the arbiter on a port just freed. -/
theorem OnTheWay.arbitrated {s t : State} (way : OnTheWay s t) (h : PortAgrees t) :
    Moment.Settled t.arbitrate ∧ OnTheWay s t.arbitrate.1 :=
  ⟨State.arbitrate_settled h, way.trans t.arbitrate_onTheWay⟩

/-- The end of the HAU's own access on the port (R103, R105). -/
theorem OnTheWay.endsOnPort {s t : State} {p : PortAccess} (way : OnTheWay s t) (h : PortCoherent s)
    (port : s.mpc.access = some p) (owner : p.owner = .host) (live : ¬p.abandoned = true) (hau : t.hau = s.hau)
    (request : t.mpc.hostRequest = s.mpc.hostRequest) (free : t.mpc.access = none) (inRange : t.mpc.InRange)
    (e : HostResponse) : Moment.Settled (t, some e) ∧ OnTheWay s (t, some e).1 := by
  obtain ⟨noRequest, access, decision⟩ := ready_on_port h port owner live
  have ends : Moment.Settled (t, some e) :=
    ⟨fun _ => ⟨request.trans noRequest, hau ▸ access, hau ▸ decision⟩, nofun, fun _ => ⟨hostOnPort_free free, inRange⟩⟩
  exact ⟨ends, way⟩

theorem Mpc.InRange.freed {m : Mpc} (h : m.InRange) : Mpc.InRange { m with access := none } :=
  ⟨h.share_pos, h.share_le, h.passOver_le, rfl⟩

theorem State.completionMoment_settled {s : State} (h : PortCoherent s) (md : Word) :
    Moment.Settled (s.completionMoment md) ∧ OnTheWay s (s.completionMoment md).1 := by
  have agrees := PortCoherent.agrees h
  unfold State.completionMoment
  split
  · exact ⟨Moment.settled_none h, .refl s⟩
  · next p port =>
    split
    · next owner =>
      have onPort : hostOnPort s.mpc = false := by simp [hostOnPort, port, owner]
      exact OnTheWay.arbitrated (.of_hau (by simp) (by simp) (by simp) (by simp))
        (State.captureWord_agrees (agrees.freePort onPort) md)
    · next owner =>
      split
      · next abandoned =>
        have onPort : hostOnPort s.mpc = false := by simp [hostOnPort, port, abandoned]
        exact OnTheWay.arbitrated (.of_hau (by simp) (by simp) (by simp) (by simp))
          (.congr (by simp) (by simp) (agrees.freePort onPort))
      · next live =>
        exact OnTheWay.endsOnPort (.of_hau (by simp) (by simp) (by simp) (by simp)) h port owner live (by simp) (by simp)
          (by simp) (by rw [State.snoop_mpc]; exact agrees.inRange.freed) _

theorem State.timeoutMoment_settled {s : State} (h : PortCoherent s) :
    Moment.Settled s.timeoutMoment ∧ OnTheWay s s.timeoutMoment.1 := by
  have agrees := PortCoherent.agrees h
  unfold State.timeoutMoment
  split
  · exact ⟨Moment.settled_none h, .refl s⟩
  · next p port =>
    split
    · split
      · next owner =>
        have onPort : hostOnPort s.mpc = false := by simp [hostOnPort, port, owner]
        exact OnTheWay.arbitrated (.of_hau (by simp) (by simp) (by simp) (by simp))
          ((State.captureFails_ends _ _).agrees (State.fence_agrees (agrees.freePort onPort) p))
      · next owner =>
        split
        · next abandoned =>
          have onPort : hostOnPort s.mpc = false := by simp [hostOnPort, port, abandoned]
          exact OnTheWay.arbitrated (.of_hau (by simp) (by simp) (by simp) (by simp))
            (State.fence_agrees (agrees.freePort onPort) p)
        · next live =>
          exact OnTheWay.endsOnPort (.of_hau (by simp) (by simp) (by simp) (by simp)) h port owner live (by simp)
            (by simp [State.fence_hostRequest]) (by simp) (State.fence_inRange agrees.inRange.freed p) _
    · exact ⟨Moment.settled_none h, .refl s⟩

end Sys2Proof.Machine
end

section
/-! PROOFS. Every step keeps the HAU and the port in agreement, what waits for an access end waiting, and the MPU following
MCS_N: the events, the commands, the rows of the table and the CLK period (R21, R29, R64, R71, R108 to R111, R160, R174). -/

namespace Sys2Proof.Machine

open Sys2Proof.Safety Sys2Proof.Claim

/-! ### The lines of the management port (R160, R176) -/

/-- RESET_N, the lines of the management port and the transaction in progress stand. -/
structure LinesKept (s t : State) : Prop where
  resetN : t.pins.resetN = s.pins.resetN
  spi : t.pins.spi = s.pins.spi
  port : t.mpu.port = s.mpu.port

theorem LinesKept.refl (s : State) : LinesKept s s := ⟨rfl, rfl, rfl⟩

theorem LinesKept.trans {s t u : State} (h : LinesKept s t) (k : LinesKept t u) : LinesKept s u :=
  ⟨k.resetN.trans h.resetN, k.spi.trans h.spi, k.port.trans h.port⟩

theorem LinesKept.of_eq {s t : State} (pins : t.pins = s.pins) (mpu : t.mpu = s.mpu) : LinesKept s t :=
  ⟨by rw [pins], by rw [pins], by rw [mpu]⟩

theorem OnTheWay.lines {s t : State} (h : OnTheWay s t) : LinesKept s t := ⟨h.resetN, h.spi, by rw [h.mpu]⟩

theorem LinesKept.followed {s t : State} (h : LinesKept s t) (f : SpiFollowed s) : SpiFollowed t := by
  unfold SpiFollowed
  rw [h.resetN, h.spi, h.port]
  exact f

theorem State.softReset_lines (s : State) (tag : Byte) : LinesKept s (s.softReset tag) :=
  ⟨by rw [State.softReset_pins], by rw [State.softReset_pins], by rw [State.softReset_mpu]⟩

theorem State.softResetIfDue_lines (s : State) : LinesKept s s.softResetIfDue := by
  unfold State.softResetIfDue
  split
  · exact s.softReset_lines _
  · exact .refl s

theorem Moment.finish_lines (m : Moment) : LinesKept m.1 m.finish := by
  unfold Moment.finish
  split
  · exact .refl _
  · next e _ =>
    have ended : LinesKept m.1 (m.1.endAccess e) := .of_eq (by simp) (by simp)
    exact (ended.trans (State.softResetIfDue_lines _)).trans (.of_eq (by simp) (by simp))

/-! ### The whole invariant, and what keeps it -/

/-- The HAU and the port agree, what waits waits for an end, and the MPU follows MCS_N. -/
structure Coherent (s : State) : Prop where
  port : PortCoherent s
  waits : WaitsForEnd s
  spi : SpiFollowed s

theorem coherent_iff {s : State} : WaitsInFlight s ∧ SpiFollowed s ↔ Coherent s :=
  ⟨fun ⟨waits, spi⟩ => ⟨(waitsInFlight_iff.mp waits).1, (waitsInFlight_iff.mp waits).2, spi⟩,
    fun ⟨port, waits, spi⟩ => ⟨waitsInFlight_iff.mpr ⟨port, waits⟩, spi⟩⟩

/-- What leaves the HAU and a waiting soft reset alone makes no change of Active due outside an access. -/
theorem WaitsForEnd.of_due {s t : State} (h : WaitsForEnd s) (hau : t.hau = s.hau)
    (reset : t.mpu.softReset = s.mpu.softReset) (due : s.inFlight = false → t.gen.commit.NoneDue) : WaitsForEnd t := by
  have same : t.inFlight = s.inFlight := by rw [State.inFlight, hau, State.inFlight]
  cases flies : s.inFlight with
  | true => exact .of_inFlight (same.trans flies)
  | false => exact .of_none (due flies) (reset.trans (h.noReset flies))

theorem Coherent.of_due {s t : State} (h : Coherent s) (hau : t.hau = s.hau) (mpc : t.mpc = s.mpc) (mpu : t.mpu = s.mpu)
    (pins : t.pins = s.pins) (due : s.inFlight = false → t.gen.commit.NoneDue) : Coherent t :=
  ⟨portCoherent_congr hau mpc h.port, h.waits.of_due hau (by rw [mpu]) due, (LinesKept.of_eq pins mpu).followed h.spi⟩

/-- What leaves the HAU, the port, Generation Control and the MPU's side alone. -/
theorem Coherent.of_kept {s t : State} (h : Coherent s) (hau : t.hau = s.hau) (mpc : t.mpc = s.mpc) (gen : t.gen = s.gen)
    (reset : t.mpu.softReset = s.mpu.softReset) (lines : LinesKept s t) : Coherent t :=
  ⟨portCoherent_congr hau mpc h.port, h.waits.of_due hau reset fun rest => by rw [gen]; exact h.waits.noneDue rest,
    lines.followed h.spi⟩

theorem State.mcsHigh_coherent {s : State} (h : Coherent s) : Coherent s.mcsHigh :=
  ⟨h.port, { h.waits with }, fun _ => rfl⟩

theorem State.store_coherent {s : State} (h : Coherent s) (tag : Byte) (st : Status) (p : List Byte) :
    Coherent (s.store tag st p) :=
  h.of_kept rfl rfl rfl rfl ⟨rfl, rfl, rfl⟩

/-- An event that can end an access, carried through. -/
theorem Moment.finish_coherent {s : State} {m : Moment} (h : Coherent s) (event : m.Settled ∧ OnTheWay s m.1) :
    Coherent m.finish := by
  obtain ⟨settled, way⟩ := event
  exact coherent_iff.mp ⟨settled.finish fun _ => way.waits h.waits, (way.lines.trans m.finish_lines).followed h.spi⟩

/-! ### The sequencer's events (R61, R84) -/

theorem State.epochReported_noneDue {s : State} (rest : s.inFlight = false) (h : s.gen.commit.NoneDue) :
    s.epochReported.gen.commit.NoneDue := by
  unfold State.epochReported
  split
  · exact h
  · split
    · rw [State.boundaryOccurs, if_neg (by simp [rest])]
      exact s.takeEffect_noneDue _
    · exact h
  · next t trial =>
    rw [trial] at h
    split
    · split
      · rw [State.confirm_gen]
        exact ⟨rfl, rfl⟩
      · exact h
    · rw [trial]
      exact h

theorem State.seqNews_noneDue {s : State} (rest : s.inFlight = false) (h : s.gen.commit.NoneDue) (r : Seq × SeqNews) :
    (s.seqNews r).gen.commit.NoneDue := by
  unfold State.seqNews
  dsimp only
  split
  · split <;> exact State.epochReported_noneDue rest h
  · split <;> exact h

theorem State.seqNews_coherent {s : State} (h : Coherent s) (r : Seq × SeqNews) : Coherent (s.seqNews r) :=
  h.of_due (by simp) (by simp) (by simp) (by simp) fun rest => State.seqNews_noneDue rest (h.waits.noneDue rest) r

theorem State.acceptTransition_coherent {s : State} (h : Coherent s) : Coherent s.acceptTransition :=
  State.seqNews_coherent (s := { s with pins := { s.pins with epoch := !s.seq.accepted } })
    (h.of_kept rfl rfl rfl rfl ⟨rfl, rfl, rfl⟩) _

theorem State.filterPeriod_coherent {s : State} (h : Coherent s) : Coherent s.filterPeriod := by
  unfold State.filterPeriod
  split
  · exact h.of_kept rfl rfl rfl rfl ⟨rfl, rfl, rfl⟩
  · split
    · exact State.acceptTransition_coherent h
    · exact h.of_kept rfl rfl rfl rfl ⟨rfl, rfl, rfl⟩

/-! ### The host reset event (R36, R74) -/

/-- A soft reset that waited, taken with no access in flight. -/
theorem State.softResetIfDue_coherent {s : State} (port : PortCoherent s) (rest : s.inFlight = false)
    (noneDue : s.gen.commit.NoneDue) (spi : SpiFollowed s) : Coherent s.softResetIfDue := by
  refine coherent_iff.mp ⟨?_, s.softResetIfDue_lines.followed spi⟩
  unfold State.softResetIfDue
  split
  · exact s.softReset_waitsInFlight rest _
  · next noReset => exact waitsInFlight_iff.mpr ⟨port, .of_none noneDue noReset⟩

/-- The access abandoned, the HAU is at rest and the port agrees. -/
theorem State.abandon_coherent {s : State} (h : PortCoherent s) : PortCoherent s.abandon := by
  obtain ⟨agrees, free⟩ := portCoherent_iff.mp h
  have idle {t : State} (hau : t.hau = s.hau.toIdle) (mpc : t.mpc = s.mpc) (rest : s.inFlight = false) : PortCoherent t := by
    refine portCoherent_iff.mpr ⟨.of_rest (by rw [State.inFlight, hau]; rfl) ?_ ?_ ?_, ?_⟩
    · rw [mpc]; exact agrees.noRequest rest
    · rw [mpc]; exact agrees.notOnPort rest
    · rw [mpc]; exact agrees.inRange
    · rw [PortAtRest, mpc]; exact free
  unfold State.abandon
  split
  · exact h
  · next state => exact idle rfl rfl (by rw [State.inFlight, state]; rfl)
  · next state => exact absurd state agrees.notDeciding
  · next state => exact absurd state agrees.notOverlay
  · next state => exact absurd state agrees.notImmediate
  · next state => exact idle rfl rfl (by rw [State.inFlight, state]; rfl)
  · next state =>
    have onPort : hostOnPort s.mpc = false := by rw [agrees.onPort, state]; rfl
    exact portCoherent_iff.mpr ⟨.of_rest rfl rfl onPort (agrees.inRange.withRequests _ _), fun unused => ⟨rfl, (free unused).2⟩⟩
  · next state =>
    have request : s.mpc.hostRequest = false := by rw [agrees.request, state]; rfl
    obtain ⟨pos, le, pass, offset⟩ := agrees.inRange
    refine portCoherent_iff.mpr ⟨.of_rest rfl request ?_ ⟨pos, le, pass, ?_⟩, fun unused => ?_⟩
    · cases port : s.mpc.access with
      | none => simp [hostOnPort]
      | some p => cases owner : p.owner <;> simp [hostOnPort, owner]
    · cases port : s.mpc.access with
      | none => rfl
      | some p =>
        rw [port] at offset
        cases owner : p.owner <;> simpa [owner] using offset
    · exact free (by simpa using unused)

theorem State.hostReset_coherent {s : State} (h : Coherent s) : Coherent s.hostReset := by
  let s1 : State := State.abandon { s with pins := { s.pins with hrst := true } }
  let s2 : State := State.changeAtHostReset (State.post .hostReset { s1 with seq := s1.seq.restart })
  have port : PortCoherent s1 := State.abandon_coherent (s := { s with pins := { s.pins with hrst := true } }) h.port
  have hau : s2.hau = s1.hau := State.changeAtHostReset_hau _
  have port2 : PortCoherent s2 := portCoherent_congr hau (State.changeAtHostReset_mpc _) port
  have rest2 : s2.inFlight = false := by
    rw [State.inFlight, hau]
    exact State.abandon_rests _
  have noneDue2 : s2.gen.commit.NoneDue := State.changeAtHostReset_noneDue _
  have mpu2 : s2.mpu = s.mpu := by simp [s2, s1]
  have pins2 : s2.pins = { s.pins with hrst := true } := by simp [s2, s1]
  have spi2 : SpiFollowed s2 := LinesKept.followed (s := s) ⟨by rw [pins2], by rw [pins2], by rw [mpu2]⟩ h.spi
  unfold State.hostReset
  dsimp only
  split
  · exact State.softResetIfDue_coherent port2 rest2 noneDue2 spi2
  · next rest =>
    exact ⟨port2, .of_none noneDue2 (by rw [mpu2]; exact h.waits.noReset (by simpa using rest)), spi2⟩

/-! ### The events, whole -/

theorem State.seqRestart_coherent {s : State} (h : Coherent s) : Coherent s.seqRestart := State.seqNews_coherent h _

theorem State.hostRelease_coherent {s : State} (h : Coherent s) : Coherent s.releaseMoment.finish :=
  Moment.finish_coherent h (State.releaseMoment_settled h.port)

theorem State.bringAbout_coherent {s : State} (h : Coherent s) (c : Cause) : Coherent (s.bringAbout c) := by
  cases c with
  | arrival p => exact Moment.finish_coherent h (State.arrivalMoment_settled h.port p)
  | release =>
    unfold State.bringAbout State.momentOf
    dsimp only
    split
    · exact State.hostRelease_coherent (State.mcsHigh_coherent h)
    · exact h
  | completion md => exact Moment.finish_coherent h (State.completionMoment_settled h.port md)
  | timeout => exact Moment.finish_coherent h (State.timeoutMoment_settled h.port)
  | grant => exact Moment.finish_coherent h ((OnTheWay.refl s).arbitrated (PortCoherent.agrees h.port))
  | transition =>
    unfold State.bringAbout
    dsimp only
    split
    · exact h
    · exact State.acceptTransition_coherent h
  | restart =>
    unfold State.bringAbout
    dsimp only
    split
    · exact State.seqRestart_coherent (State.mcsHigh_coherent h)
    · exact h
  | hostReset =>
    unfold State.bringAbout State.hrstAsserted
    dsimp only
    split
    · exact h.of_kept rfl rfl rfl rfl ⟨rfl, rfl, rfl⟩
    · split
      · exact h
      · exact State.hostReset_coherent h

theorem State.bringAboutIf_coherent {s : State} (h : Coherent s) (c : Cause) (b : Bool) : Coherent (s.bringAboutIf c b) := by
  unfold State.bringAboutIf
  split
  · exact State.bringAbout_coherent h c
  · exact h

/-! ### Commands that leave the HAU, the port, Generation Control and the pins -/

/-- The HAU, the memory port, Generation Control, the MPU and the pins stand. -/
structure PortKept (s t : State) : Prop where
  hau : t.hau = s.hau
  mpc : t.mpc = s.mpc
  gen : t.gen = s.gen
  mpu : t.mpu = s.mpu
  pins : t.pins = s.pins

theorem PortKept.refl (s : State) : PortKept s s := ⟨rfl, rfl, rfl, rfl, rfl⟩

theorem PortKept.coherent {s t : State} (k : PortKept s t) (h : Coherent s) : Coherent t :=
  h.of_due k.hau k.mpc k.mpu k.pins fun rest => by rw [k.gen]; exact h.waits.noneDue rest

theorem State.editStaged_portKept (s : State) (i : Fin 32) (e : Option Entry) : PortKept s (s.editStaged i e) :=
  ⟨by simp, by simp, by simp, by simp, by simp⟩

theorem mapPutReply_portKept (p : List Byte) (s : State) : PortKept s (mapPutReply p s).state := by
  unfold mapPutReply
  split
  · exact .refl s
  · split
    · split
      · split
        · exact .refl s
        · exact s.editStaged_portKept _ _
      · exact .refl s
    · exact .refl s

theorem mapClearReply_portKept (p : List Byte) (s : State) : PortKept s (mapClearReply p s).state := by
  unfold mapClearReply
  split
  · exact .refl s
  · split
    · exact s.editStaged_portKept _ _
    · exact .refl s

theorem mapReadReply_portKept (p : List Byte) (s : State) : PortKept s (mapReadReply p s).state := by
  unfold mapReadReply
  (repeat' split) <;> exact .refl s

theorem mapRestageReply_portKept (s : State) : PortKept s (mapRestageReply s).state := by
  unfold mapRestageReply
  split
  · exact .refl s
  · exact ⟨by simp, by simp, by simp, by simp, by simp⟩

theorem runOpenReply_portKept (p : List Byte) (s : State) : PortKept s (runOpenReply p s).state := by
  unfold runOpenReply
  dsimp only
  (repeat' split) <;> exact ⟨rfl, rfl, rfl, rfl, rfl⟩

theorem runWriteReply_portKept (p : List Byte) (s : State) : PortKept s (runWriteReply p s).state := by
  unfold runWriteReply
  dsimp only
  (repeat' split) <;> exact ⟨rfl, rfl, rfl, rfl, rfl⟩

theorem runReadReply_portKept (p : List Byte) (s : State) : PortKept s (runReadReply p s).state := by
  unfold runReadReply
  dsimp only
  (repeat' split) <;> exact .refl s

theorem runFreeReply_portKept (p : List Byte) (s : State) : PortKept s (runFreeReply p s).state := by
  unfold runFreeReply
  (repeat' split) <;> exact ⟨rfl, rfl, rfl, rfl, rfl⟩

theorem runInfoReply_portKept (p : List Byte) (s : State) : PortKept s (runInfoReply p s).state := by
  unfold runInfoReply
  split <;> exact .refl s

theorem seqSetReply_portKept (p : List Byte) (s : State) : PortKept s (seqSetReply p s).state := by
  unfold seqSetReply
  split <;> exact ⟨rfl, rfl, rfl, rfl, rfl⟩

theorem journalReadReply_portKept (p : List Byte) (s : State) : PortKept s (journalReadReply p s).state := by
  unfold journalReadReply
  dsimp only
  split <;> exact .refl s

theorem journalAckReply_portKept (p : List Byte) (s : State) : PortKept s (journalAckReply p s).state := by
  unfold journalAckReply
  split <;> exact ⟨rfl, rfl, rfl, rfl, rfl⟩

theorem journalSetReply_portKept (p : List Byte) (s : State) : PortKept s (journalSetReply p s).state := by
  unfold journalSetReply
  (repeat' split) <;> exact ⟨rfl, rfl, rfl, rfl, rfl⟩

theorem noticeAckReply_portKept (p : List Byte) (s : State) : PortKept s (noticeAckReply p s).state := by
  unfold noticeAckReply
  dsimp only
  (repeat' split) <;> exact ⟨rfl, rfl, rfl, rfl, rfl⟩

/-! ### Commands of the memory port (R113 to R115) -/

theorem State.setDevice_coherent {s : State} (h : Coherent s) (d : Fin 4) (r : Device) : Coherent (s.setDevice d r) := by
  obtain ⟨agrees, free⟩ := portCoherent_iff.mp h.port
  exact ⟨portCoherent_iff.mpr ⟨{ agrees with inRange := { agrees.inRange with } }, free⟩, { h.waits with }, h.spi⟩

theorem devSetReply_coherent (p : List Byte) {s : State} (h : Coherent s) : Coherent (devSetReply p s).state := by
  unfold devSetReply
  split
  · split
    · exact State.setDevice_coherent h _ _
    · exact h
  · exact h

theorem devRestoreReply_coherent (p : List Byte) {s : State} (h : Coherent s) : Coherent (devRestoreReply p s).state := by
  unfold devRestoreReply
  split
  · exact h
  · split
    · exact State.setDevice_coherent h _ _
    · exact h
    · exact h

/-- PORT.SET takes a share of 1 to 16 (R115). -/
theorem portSetReply_coherent (p : List Byte) {s : State} (h : Coherent s) : Coherent (portSetReply p s).state := by
  obtain ⟨agrees, free⟩ := portCoherent_iff.mp h.port
  unfold portSetReply
  split
  · exact h
  · next share =>
    rw [not_or, not_lt] at share
    exact ⟨portCoherent_iff.mpr ⟨{ agrees with
      inRange := ⟨Nat.pos_of_ne_zero share.1, share.2, agrees.inRange.passOver_le, agrees.inRange.offset⟩ }, free⟩,
      { h.waits with }, h.spi⟩

/-! ### Commands of Generation Control (R58 to R72) -/

theorem State.acceptCommit_coherent {s : State} (h : Coherent s) {p : PendingCommit} (due : p.due = false) :
    Coherent (s.acceptCommit p) := by
  unfold State.acceptCommit
  split
  · split
    · next flies => exact h.of_due rfl rfl rfl rfl fun rest => by simp [flies] at rest
    · exact h.of_due (by simp) (by simp) (by simp) (by simp) fun _ => s.takeEffect_noneDue p
  · exact h.of_due rfl rfl rfl rfl fun _ => ⟨due, rfl⟩

theorem commitReply_coherent (p : List Byte) {s : State} (h : Coherent s) : Coherent (commitReply p s).state := by
  unfold commitReply
  split
  · exact h
  · exact h
  · split
    · split
      · exact h
      · exact State.acceptCommit_coherent h rfl
    · exact h

theorem commitCancelReply_coherent {s : State} (h : Coherent s) : Coherent (commitCancelReply s).state := by
  unfold commitCancelReply
  split
  · split
    · exact h
    · exact h.of_due rfl rfl rfl rfl fun _ => ⟨rfl, rfl⟩
  · exact h

theorem State.revert_coherent {s : State} (h : Coherent s) (t : Trial) (c : RevertCause) : Coherent (s.revert t c) :=
  h.of_due (by simp) (by simp) (by simp) (by simp) fun _ => s.revert_noneDue t c

theorem State.confirm_coherent {s : State} (h : Coherent s) (c : ConfirmCause) : Coherent (s.confirm c) :=
  h.of_due (by simp) (by simp) (by simp) (by simp) fun _ => by rw [State.confirm_gen]; exact ⟨rfl, rfl⟩

theorem trialConfirmReply_coherent {s : State} (h : Coherent s) : Coherent (trialConfirmReply s).state := by
  unfold trialConfirmReply
  split
  · split
    · exact h
    · exact State.confirm_coherent h _
  · exact h

theorem trialRevertReply_coherent {s : State} (h : Coherent s) : Coherent (trialRevertReply s).state := by
  unfold trialRevertReply
  split
  · split
    · exact h
    · split
      · next flies => exact h.of_due rfl rfl rfl rfl fun rest => by simp [flies] at rest
      · exact State.revert_coherent h _ _
  · exact h

/-! ### Commands of the Capture Engine and the part (R119, R128, R174) -/

theorem captureStartReply_coherent (p : List Byte) {s : State} (h : Coherent s) : Coherent (captureStartReply p s).state := by
  unfold captureStartReply
  split
  · exact h
  · next j _ =>
    split
    · exact h
    · have agrees := PortCoherent.agrees h.port
      exact Moment.finish_coherent h (OnTheWay.arbitrated (t := s.captureAccepted j) ⟨rfl, rfl, rfl, rfl, id⟩
        { agrees with inRange := agrees.inRange.withRequests _ _ })

theorem captureAbortReply_coherent {s : State} (h : Coherent s) : Coherent (captureAbortReply s).state := by
  obtain ⟨agrees, free⟩ := portCoherent_iff.mp h.port
  unfold captureAbortReply
  split
  · next j _ _ =>
    split
    · exact ⟨portCoherent_iff.mpr ⟨(s.captureEnd_ends j .aborted).agrees agrees, fun unused => ⟨(free unused).1, rfl⟩⟩,
        { h.waits with }, h.spi⟩
    · exact h.of_kept rfl rfl rfl rfl ⟨rfl, rfl, rfl⟩
  · exact h

theorem partResetReply_coherent (tag : Byte) {s : State} (h : Coherent s) : Coherent (partResetReply tag s).state := by
  unfold partResetReply
  split
  · next flies => exact ⟨h.port, .of_inFlight flies, h.spi⟩
  · next rest =>
    exact coherent_iff.mp ⟨s.softReset_waitsInFlight (by simpa using rest) tag, (s.softReset_lines tag).followed h.spi⟩

/-! ### The rows of the table -/

/-- A frame keeps the invariant if its command does. -/
theorem State.receive_coherent {s : State} (h : Coherent s) (f : Frame) (b l : Bool) {r : State → Reply}
    (hr : ∀ {s : State}, Coherent s → Coherent (r s).state) : Coherent (s.receive f b l r) :=
  State.receive_pred s f b l r h (State.mcsHigh_coherent h) (fun _ _ _ hu => State.store_coherent hu _ _ _)
    (hr (State.mcsHigh_coherent h))

theorem State.ite_coherent {s t : State} (h : Coherent s) (b : Bool) (ht : Coherent t) : Coherent (if b then s else t) := by
  split
  · exact h
  · exact ht

theorem State.answerBusy_coherent {s : State} (h : Coherent s) (f : Frame) : Coherent (s.answerBusy f) := by
  unfold State.answerBusy
  split
  · exact State.store_coherent h _ _ _
  · exact h

theorem State.frameError_coherent {s : State} (h : Coherent s) (bytes : List Byte) (extra : BitVec 3) :
    Coherent (s.frameError bytes extra) := by
  unfold State.frameError
  split
  · exact h
  · split
    · exact State.store_coherent h _ _ _
    · exact h

theorem State.unknownCommand_coherent {s : State} (h : Coherent s) (f : Frame) (code : Byte) :
    Coherent (s.unknownCommand f code) := by
  unfold State.unknownCommand
  split
  · split <;> exact State.store_coherent h _ _ _
  · exact h

theorem State.negateStrobes_coherent {s : State} (h : Coherent s) (rd wr : Bool) : Coherent (s.negateStrobes rd wr) := by
  obtain ⟨agrees, free⟩ := portCoherent_iff.mp h.port
  unfold State.negateStrobes
  dsimp only
  split
  · next state _ =>
    have rest : s.inFlight = false := by rw [State.inFlight, state]; rfl
    split
    · exact h.of_kept rfl rfl rfl rfl ⟨rfl, rfl, rfl⟩
    · exact ⟨portCoherent_iff.mpr ⟨.of_rest rfl (agrees.noRequest rest) (agrees.notOnPort rest) agrees.inRange, free⟩,
        .of_none (h.waits.noneDue rest) (h.waits.noReset rest), h.spi⟩
  · exact h.of_kept rfl rfl rfl rfl ⟨rfl, rfl, rfl⟩

theorem State.pinReset_coherent {s : State} (h : Coherent s) : Coherent s.pinReset := by
  obtain ⟨pos, le, pass, -⟩ := (PortCoherent.agrees h.port).inRange
  exact ⟨portCoherent_iff.mpr ⟨.of_rest rfl rfl rfl ⟨pos, le, pass, rfl⟩, fun _ => ⟨rfl, rfl⟩⟩,
    .of_none ⟨rfl, rfl⟩ rfl, nofun⟩

theorem State.resetReleased_coherent (s : State) (p : ReleasePins) : Coherent (s.resetReleased p) := by
  refine ⟨portCoherent_iff.mpr ⟨.of_rest rfl rfl rfl (Mpc.atReset_inRange _), fun _ => ⟨rfl, rfl⟩⟩,
    .of_none ⟨rfl, rfl⟩ rfl, fun _ => ?_⟩
  change p.mcsLow = ((Mpu.atReset p.mcsLow).port != .idle)
  cases p.mcsLow <;> rfl

/-- Every row answers a next state that keeps the invariant. -/
theorem exec_coherent (i : Instr) {s : State} (h : Coherent s) : ∃ t, exec i s = .next t ∧ Coherent t := by
  have quiet (f : Frame) (b l : Bool) {r : State → Reply} (hr : ∀ s, PortKept s (r s).state) :
      Coherent (s.receive f b l r) :=
    State.receive_coherent h f b l fun {s} hs => (hr s).coherent hs
  have high := State.mcsHigh_coherent h
  cases i with
  | partInfo f | genStatus f | seqStatus f | devStatus f | captureStatus f | journalStatus f | noticeRead f =>
    exact ⟨_, rfl, quiet f _ _ .refl⟩
  | noticeMask f => exact ⟨_, rfl, quiet f _ _ fun _ => ⟨rfl, rfl, rfl, rfl, rfl⟩⟩
  | mapPut f => exact ⟨_, rfl, quiet f _ _ (mapPutReply_portKept _)⟩
  | mapClear f => exact ⟨_, rfl, quiet f _ _ (mapClearReply_portKept _)⟩
  | mapRead f => exact ⟨_, rfl, quiet f _ _ (mapReadReply_portKept _)⟩
  | mapRestage f => exact ⟨_, rfl, quiet f _ _ mapRestageReply_portKept⟩
  | runOpen f => exact ⟨_, rfl, quiet f _ _ (runOpenReply_portKept _)⟩
  | runWrite f => exact ⟨_, rfl, quiet f _ _ (runWriteReply_portKept _)⟩
  | runRead f => exact ⟨_, rfl, quiet f _ _ (runReadReply_portKept _)⟩
  | runFree f => exact ⟨_, rfl, quiet f _ _ (runFreeReply_portKept _)⟩
  | runInfo f => exact ⟨_, rfl, quiet f _ _ (runInfoReply_portKept _)⟩
  | seqSet f => exact ⟨_, rfl, quiet f _ _ (seqSetReply_portKept _)⟩
  | journalRead f => exact ⟨_, rfl, quiet f _ _ (journalReadReply_portKept _)⟩
  | journalAck f => exact ⟨_, rfl, quiet f _ _ (journalAckReply_portKept _)⟩
  | journalSet f => exact ⟨_, rfl, quiet f _ _ (journalSetReply_portKept _)⟩
  | noticeAck f => exact ⟨_, rfl, quiet f _ _ (noticeAckReply_portKept _)⟩
  | lockdownClear f =>
    refine ⟨_, rfl, State.receive_coherent h f _ _ fun hs => ?_⟩
    exact ⟨hs.port, { hs.waits with }, hs.spi⟩
  | partReset f => exact ⟨_, rfl, State.receive_coherent h f _ _ (partResetReply_coherent _)⟩
  | hostRelease f => exact ⟨_, rfl, State.receive_coherent h f _ _ State.hostRelease_coherent⟩
  | commit f => exact ⟨_, rfl, State.receive_coherent h f _ _ (commitReply_coherent _)⟩
  | commitCancel f => exact ⟨_, rfl, State.receive_coherent h f _ _ commitCancelReply_coherent⟩
  | trialConfirm f => exact ⟨_, rfl, State.receive_coherent h f _ _ trialConfirmReply_coherent⟩
  | trialRevert f => exact ⟨_, rfl, State.receive_coherent h f _ _ trialRevertReply_coherent⟩
  | seqRestart f => exact ⟨_, rfl, State.receive_coherent h f _ _ State.seqRestart_coherent⟩
  | devSet f => exact ⟨_, rfl, State.receive_coherent h f _ _ (devSetReply_coherent _)⟩
  | devRestore f => exact ⟨_, rfl, State.receive_coherent h f _ _ (devRestoreReply_coherent _)⟩
  | portSet f => exact ⟨_, rfl, State.receive_coherent h f _ _ (portSetReply_coherent _)⟩
  | captureStart f => exact ⟨_, rfl, State.receive_coherent h f _ _ (captureStartReply_coherent _)⟩
  | captureAbort f => exact ⟨_, rfl, State.receive_coherent h f _ _ captureAbortReply_coherent⟩
  | softResetTakesEffect c | dueCommitApplied c | dueRevertApplied c | trialWindowExpiry c | countAdvance c | overrun c
  | park c => exact ⟨_, rfl, State.bringAboutIf_coherent h c _⟩
  | epochTransitionAccepted => exact ⟨_, rfl, State.bringAbout_coherent h .transition⟩
  | accessArrives p => exact ⟨_, rfl, State.bringAbout_coherent h (.arrival p)⟩
  | hostResetEvent => exact ⟨_, rfl, State.bringAbout_coherent h .hostReset⟩
  | arbiterGrant => exact ⟨_, rfl, State.bringAbout_coherent h .grant⟩
  | memoryAccessCompletes md => exact ⟨_, rfl, State.bringAbout_coherent h (.completion md)⟩
  | accessTimeout => exact ⟨_, rfl, State.bringAbout_coherent h .timeout⟩
  | softResetIntervalBusy f code => exact ⟨_, rfl, State.ite_coherent h _ (State.answerBusy_coherent high f)⟩
  | frameError bytes extra => exact ⟨_, rfl, State.ite_coherent h _ (State.frameError_coherent high bytes extra)⟩
  | unknownCommand f code => exact ⟨_, rfl, State.ite_coherent h _ (State.unknownCommand_coherent high f code)⟩
  | responseRead header clocks =>
    exact ⟨_, rfl, State.ite_coherent h _ (high.of_kept rfl rfl rfl rfl ⟨rfl, rfl, rfl⟩)⟩
  | hostStrobeNegated rd wr => exact ⟨_, rfl, State.negateStrobes_coherent h rd wr⟩
  | hrstNNegated => exact ⟨_, rfl, h.of_kept rfl rfl rfl rfl ⟨rfl, rfl, rfl⟩⟩
  | epochPulseDiscarded => exact ⟨_, rfl, State.ite_coherent h _ (h.of_kept rfl rfl rfl rfl ⟨rfl, rfl, rfl⟩)⟩
  | pinReset => exact ⟨_, rfl, State.ite_coherent h _ (State.pinReset_coherent h)⟩
  | resetNRelease p =>
    refine ⟨_, rfl, ?_⟩
    split
    · exact s.resetReleased_coherent p
    · exact h

/-! ### One CLK period -/

theorem State.portPeriod_coherent {s : State} (h : Coherent s) : Coherent s.portPeriod := by
  unfold State.portPeriod
  split
  · exact h
  · next p port =>
    split
    · exact Moment.finish_coherent h (State.completionMoment_settled h.port _)
    · split
      · exact Moment.finish_coherent h (State.timeoutMoment_settled h.port)
      · obtain ⟨request, onPort, carries, rest, d, o, i, pos, le, pass, offset⟩ := h.port
        rw [hostOnPort, port] at onPort
        rw [port] at offset
        exact ⟨⟨request, onPort, carries, nofun, d, o, i, pos, le, pass, offset⟩, { h.waits with }, h.spi⟩

theorem State.countPeriod_coherent {s : State} (h : Coherent s) : Coherent s.countPeriod := by
  have counted : Coherent { s with freeIndex := s.freeIndex + 1 } := h.of_kept rfl rfl rfl rfl ⟨rfl, rfl, rfl⟩
  unfold State.countPeriod
  dsimp only
  split
  · exact counted
  · split
    · exact State.portPeriod_coherent (State.filterPeriod_coherent counted)
    · exact State.filterPeriod_coherent (State.portPeriod_coherent counted)

/-- A transaction is in progress, and a waiting soft reset stands: what an edge of MCK leaves (R160). -/
structure Busy (s t : State) : Prop where
  port : t.mpu.port ≠ .idle
  reset : t.mpu.softReset = s.mpu.softReset

theorem State.headerSampled_busy (s : State) (header : Byte) (bits : List Bool) : Busy s (s.headerSampled header bits) := by
  unfold State.headerSampled
  split
  · split <;> exact ⟨nofun, rfl⟩
  · refine ⟨?_, rfl⟩
    dsimp only
    split <;> nofun

theorem State.mckRises_busy {s : State} (h : s.mpu.port ≠ .idle) : Busy s s.mckRises := by
  unfold State.mckRises
  split
  · split
    · exact s.headerSampled_busy _ _
    · exact ⟨nofun, rfl⟩
  · exact ⟨h, rfl⟩

theorem State.mckFalls_busy {s : State} (h : s.mpu.port ≠ .idle) : Busy s s.mckFalls := by
  unfold State.mckFalls
  split
  · exact ⟨nofun, rfl⟩
  · exact ⟨h, rfl⟩

/-- After a change of the lines the MPU is in a transaction exactly while MCS_N is low (R160). -/
theorem State.spiEdges_followed {s : State} {before : SpiLines} (h : before.mcs = (s.mpu.port != .idle)) :
    SpiFollowed (s.spiEdges before) ∧ (s.spiEdges before).mpu.softReset = s.mpu.softReset := by
  unfold SpiFollowed
  rw [State.spiEdges_pins]
  unfold State.spiEdges
  cases low : s.pins.spi.mcs <;> cases was : before.mcs
  · exact ⟨fun _ => was.symm.trans h, rfl⟩
  · refine ⟨fun _ => ?_, ?_⟩ <;> simp [State.mcsRises] <;> split <;> rfl
  · exact ⟨fun _ => rfl, rfl⟩
  · have busy : s.mpu.port ≠ .idle := by simpa [was] using h
    have stays {t : State} (b : Busy s t) :
        (s.pins.resetN = false → true = (t.mpu.port != .idle)) ∧ t.mpu.softReset = s.mpu.softReset :=
      ⟨fun _ => by simpa using b.port, b.reset⟩
    simp only [Bool.not_true, Bool.and_false, Bool.false_and, Bool.false_eq_true, if_false]
    split
    · exact stays (State.mckRises_busy busy)
    · split
      · exact stays (State.mckFalls_busy busy)
      · exact stays ⟨busy, rfl⟩

theorem State.levelsChange_coherent {s : State} (h : Coherent s) : Coherent s.levelsChange := by
  unfold State.levelsChange
  split
  · exact h
  · next x rest _ =>
    split
    · next resetN =>
      exact ⟨h.port, { h.waits with }, fun running => by simp [Pins.take, resetN] at running⟩
    · next running =>
      obtain ⟨spi, reset⟩ := State.spiEdges_followed (s := { s with pins := s.pins.take x rest })
        (h.spi (by simpa using running))
      exact ⟨portCoherent_congr (s := s) (by simp) (by simp) h.port,
        h.waits.of_due (by simp) reset fun atRest => by simpa using h.waits.noneDue atRest, spi⟩

theorem step_coherent {s t : State} (h : Coherent s) (step : step s = .next t) : Coherent t := by
  unfold Machine.step at step
  split at step
  · injection step with period
    exact period ▸ State.levelsChange_coherent (State.countPeriod_coherent h)
  · next c rest _ =>
    obtain ⟨u, row, coherent⟩ := exec_coherent c (s := { s with pending := rest })
      (h.of_kept rfl rfl rfl rfl ⟨rfl, rfl, rfl⟩)
    rw [row] at step
    injection step with same
    exact same ▸ coherent

end Sys2Proof.Machine

namespace Sys2Proof

open Sys2Proof.Machine

/-- Settles O12: every row and the CLK period keep the agreement of the HAU with the port, what waits for an end, and the MPU's
following of MCS_N. -/
theorem stepKeepsPortCoherentAndWaits : Obligations.StepKeepsPortCoherentAndWaits :=
  fun _ _ h step => coherent_iff.mpr (step_coherent (coherent_iff.mp h) step)

end Sys2Proof
end

section
/-! PROOFS. The arbiter's grants on a free port, returned ones among them, and the grant that follows the end of an access
(R31, R108 to R112, R124). -/

namespace Sys2Proof.Machine

open Sys2Proof.Claim Sys2Proof.Safety

/-! ### The end of an access and the grant that follows it (R31, R111) -/

@[simp] theorem accessEnded_mpc (s : State) (a : Access) (d : Decision) (e : HostResponse) :
    (accessEnded s a d e).mpc = s.mpc := by
  rw [accessEnded, ← switched_eq, ← handedOver_eq, ← sequenced_eq]
  simp

@[simp] theorem accessEnded_capture (s : State) (a : Access) (d : Decision) (e : HostResponse) :
    (accessEnded s a d e).capture = s.capture := by
  rw [accessEnded, ← switched_eq, ← handedOver_eq, ← sequenced_eq]
  simp

@[simp] theorem accessEnded_ram (s : State) (a : Access) (d : Decision) (e : HostResponse) :
    (accessEnded s a d e).overlay.ram = s.overlay.ram := by
  rw [accessEnded, ← switched_eq, ← handedOver_eq, ← sequenced_eq]
  simp

@[simp] theorem accessEnded_mpu (s : State) (a : Access) (d : Decision) (e : HostResponse) :
    (accessEnded s a d e).mpu = s.mpu := by
  rw [accessEnded, ← switched_eq, ← handedOver_eq, ← sequenced_eq]
  simp

section
variable {s : State} {a : Access} {d : Decision}

/-- The end of an access whose decision names a device. -/
theorem State.endAccess_effective (access : s.hau.access = some a) (decision : s.hau.decision = some d)
    (effective : d.effective.isSome = true) (e : HostResponse) : s.endAccess e = accessEnded s a d e := by
  rw [State.endAccess_accessEnded access decision, State.absorb_effective effective]

/-- With no soft reset and no host request waiting, the end is followed by the grant on the state it leaves, and that ends
no further access. -/
theorem finish_end_arbitrates (access : s.hau.access = some a) (decision : s.hau.decision = some d)
    (effective : d.effective.isSome = true) (noReset : s.mpu.softReset = none) (noRequest : s.mpc.hostRequest = false)
    (e : HostResponse) : Moment.finish (s, some e) = Moment.finish (accessEnded s a d e).arbitrate := by
  have same : (accessEnded s a d e).softResetIfDue = accessEnded s a d e := by
    simp only [State.softResetIfDue, accessEnded_mpu, noReset]
  have ends_none : (accessEnded s a d e).arbitrate.2 = none :=
    State.arbitrate_no_end (by rw [accessEnded_mpc]; exact noRequest)
  simp only [Moment.finish, State.endAccess_effective access decision effective, same, ends_none]

end

/-! ### Grants returned (R112, R124) -/

section
variable {s : State}

/-- After a grant with no capture request waiting, no second one follows. -/
theorem State.grantOne_idle_after (noCapture : s.mpc.captureRequest = false) :
    s.grantOne.1.grantOne = (s.grantOne.1, none) := by
  refine State.grantOne_idle ?_
  cases port : s.mpc.access with
  | some p =>
    rw [State.grantOne_idle (.inl (Option.isSome_of_eq_some port))]
    exact .inl (Option.isSome_of_eq_some port)
  | none =>
    cases host : s.mpc.hostRequest with
    | false =>
      rw [State.grantOne_idle (.inr ⟨host, noCapture⟩)]
      exact .inr ⟨host, noCapture⟩
    | true =>
      have wins : s.mpc.winner = some .host := Mpc.winner_host host fun waits => by simp [noCapture] at waits
      have granted : s.grantOne = { s with mpc := s.mpc.grant .host }.grantHost := by
        simp only [State.grantOne, port, wins]
      rw [granted]
      unfold State.grantHost
      split
      · split
        · split
          · exact .inl rfl
          · exact .inr ⟨rfl, noCapture⟩
        · exact .inr ⟨rfl, noCapture⟩
      · exact .inr ⟨rfl, noCapture⟩

theorem State.arbitrate_eq_grantOne (noCapture : s.mpc.captureRequest = false) : s.arbitrate = s.grantOne := by
  have after := State.grantOne_idle_after noCapture
  unfold State.arbitrate
  dsimp only
  generalize s.grantOne = r at after ⊢
  obtain ⟨u, e⟩ := r
  cases e with
  | none => exact after
  | some e => rfl

theorem captureFails_eq {j : CaptureJob} (job : s.capture.job = some j) (cause : CaptureCause) :
    s.captureFails cause =
      if s.capture.abortPending then captureEnded s j .aborted .aborted
      else captureEnded s j (.failed cause) .failed := by
  rw [State.captureFails, job]
  cases s.capture.abortPending <;> rfl

theorem arbitrate_host_returned {a : Access} {d : Decision} {eff : WordAddr} (free : s.mpc.access = none)
    (request : s.mpc.hostRequest = true) (wins : s.mpc.captureRequest = true → s.mpc.passOver < s.mpc.share)
    (access : s.hau.access = some a) (decision : s.hau.decision = some d) (effective : d.effective = some eff)
    (offline : s.mpc.devices[deviceOf eff].state ≠ .online) :
    s.arbitrate =
      ({ s with mpc := { s.mpc with
          hostRequest := false
          passOver := if s.mpc.captureRequest then s.mpc.passOver + 1 else s.mpc.passOver } }, some (failed a)) := by
  rw [State.arbitrate_host_returned free (Mpc.winner_host request wins) access decision effective
    (by simpa [State.online] using offline), Mpc.grant, request, Bool.true_and]
  rfl

/-- A host grant whose device is not ONLINE ends the access in error, and the arbiter grants again (R112). -/
theorem finish_arbitrate_host_returned {a : Access} {d : Decision} {eff : WordAddr} (free : s.mpc.access = none)
    (request : s.mpc.hostRequest = true) (wins : s.mpc.captureRequest = true → s.mpc.passOver < s.mpc.share)
    (access : s.hau.access = some a) (decision : s.hau.decision = some d) (effective : d.effective = some eff)
    (offline : s.mpc.devices[deviceOf eff].state ≠ .online) (noReset : s.mpu.softReset = none) :
    let s1 : State :=
      { s with mpc := { s.mpc with
        hostRequest := false
        passOver := if s.mpc.captureRequest then s.mpc.passOver + 1 else s.mpc.passOver } }
    Moment.finish s.arbitrate = Moment.finish (accessEnded s1 a d (failed a)).arbitrate := by
  intro s1
  have returned : s.arbitrate = (s1, some (failed a)) :=
    arbitrate_host_returned free request wins access decision effective offline
  rw [returned]
  exact finish_end_arbitrates (s := s1) access decision (Option.isSome_of_eq_some effective) noReset rfl _

/-- A capture grant whose device is not ONLINE ends the capture, and the arbiter grants again (R112, R124). -/
theorem finish_arbitrate_capture_returned {j : CaptureJob} {cause : CaptureCause} (free : s.mpc.access = none)
    (request : s.mpc.captureRequest = true) (wins : s.mpc.hostRequest = true → s.mpc.share ≤ s.mpc.passOver)
    (job : s.capture.job = some j)
    (device : (cause = .fenced ∧ ∃ b o, s.mpc.devices[deviceOf (nextWord s j)].state = .fenced b o) ∨
      (cause = .absent ∧ s.mpc.devices[deviceOf (nextWord s j)].state = .absent)) :
    let s1 : State :=
      { s with mpc := { s.mpc with
        captureRequest := false
        passOver := if s.mpc.hostRequest then 0 else s.mpc.passOver } }
    Moment.finish s.arbitrate =
      Moment.finish
        (if s.capture.abortPending then captureEnded s1 j .aborted .aborted
          else captureEnded s1 j (.failed cause) .failed).arbitrate := by
  intro s1
  have grant : { s with mpc := s.mpc.grant .capture } = s1 := by simp only [s1, Mpc.grant, request, Bool.and_true]
  have returned : s1.grantCapture = s1.captureFails cause := by
    rw [State.grantCapture, show s1.capture.job = some j from job]
    rcases device with ⟨rfl, b, o, fenced⟩ | ⟨rfl, absent⟩
    · have state : s1.mpc.devices[deviceOf (j.wordAddress s1.capture.wordsDone)].state = .fenced b o := fenced
      simp only [state]
    · have state : s1.mpc.devices[deviceOf (j.wordAddress s1.capture.wordsDone)].state = .absent := absent
      simp only [state]
  have first : s.grantOne = (s1.captureFails cause, none) := by
    rw [← returned, ← grant]
    simp only [State.grantOne, free, Mpc.winner_capture request wins]
  have noCapture : (s1.captureFails cause).mpc.captureRequest = false := by
    rw [State.captureFails, show s1.capture.job = some j from job]
    rfl
  rw [← captureFails_eq (s := s1) job cause, State.arbitrate_eq_grantOne noCapture, State.arbitrate, first]

end

end Sys2Proof.Machine

namespace Sys2Proof

open Sys2Proof.Machine Sys2Proof.Claim

/-- Settles O49: one grant by the pass-over count, and after a returned one the grant of what then waits. -/
theorem arbiterGrantsByPassOver : Obligations.ArbiterGrantsByPassOver := by
  have grants {s t : State} (h : Moment.finish s.arbitrate = t) : exec .arbiterGrant s = .next t :=
    congrArg Host.Outcome.next h
  refine ⟨fun s idle => grants (finish_arbitrate_idle idle),
    fun a d eff s free access decision effective request wins => ?_,
    fun j s free job request wins => ?_⟩
  · refine ⟨fun online => grants (finish_arbitrate_host free request wins access decision effective online),
      fun offline noReset => ?_⟩
    have ends := finish_arbitrate_host_returned free request wins access decision effective offline noReset
    refine ⟨fun noCapture => grants (ends.trans (finish_arbitrate_idle (.inr ?_))), grants ends⟩
    rw [accessEnded_mpc]
    exact ⟨rfl, noCapture⟩
  · refine ⟨fun online => grants (finish_arbitrate_capture free request wins job online), fun cause device => ?_⟩
    have ends := finish_arbitrate_capture_returned free request wins job device
    refine ⟨fun noHost => grants (ends.trans (finish_arbitrate_idle (.inr ?_))), grants ends⟩
    split <;> exact ⟨noHost, rfl⟩

end Sys2Proof
end

section
/-! PROOFS. The completion and the timeout of the strobe on the memory port with the grant that follows (R100 to R106, R125,
R126), the port's pins (R97), and the changes of Active applied at step 4 of an access end (R64, R71). -/

namespace Sys2Proof.Machine

open Sys2Proof.Claim Sys2Proof.Safety

/-! ### The end of a host access on the port, and a capture request behind it (R111) -/

section
variable {s : State} {a : Access} {d : Decision} (access : s.hau.access = some a) (decision : s.hau.decision = some d)
  (effective : d.effective.isSome = true) (noReset : s.mpu.softReset = none) (noRequest : s.mpc.hostRequest = false)
include access decision effective noReset noRequest

theorem finish_end_idle (noCapture : s.mpc.captureRequest = false) (e : HostResponse) :
    Moment.finish (s, some e) = accessEnded s a d e := by
  refine (finish_end_arbitrates access decision effective noReset noRequest e).trans (finish_arbitrate_idle (.inr ?_))
  rw [accessEnded_mpc]
  exact ⟨noRequest, noCapture⟩

/-- The capture request that waits behind a host access is granted as that ends. -/
theorem finish_end_capture {j : CaptureJob} (free : s.mpc.access = none) (request : s.mpc.captureRequest = true)
    (job : s.capture.job = some j) (online : s.mpc.devices[deviceOf (nextWord s j)].state = .online) (e : HostResponse) :
    Moment.finish (s, some e) =
      strobing
        { accessEnded s a d e with mpc := { (accessEnded s a d e).mpc with captureRequest := false } }
        (captureStrobe s (nextWord s j)) := by
  have mpc := accessEnded_mpc s a d e
  have capture := accessEnded_capture s a d e
  rw [finish_end_arbitrates access decision effective noReset noRequest]
  generalize accessEnded s a d e = t at mpc capture ⊢
  have word : nextWord t j = nextWord s j := by rw [nextWord, capture, nextWord]
  have strobe : captureStrobe t (nextWord t j) = captureStrobe s (nextWord s j) := by
    rw [word, captureStrobe, mpc]
    rfl
  rw [← strobe, finish_arbitrate_capture (by rw [mpc, free]) (by rw [mpc, request])
    (fun host => by simp [mpc, noRequest] at host) (by rw [capture, job]) (by simpa only [word, mpc] using online)]
  simp only [mpc, noRequest]
  rfl

end

/-! ### The host's strobe ends (R103, R105) -/

section
variable {s : State} {p : PortAccess}

theorem snooped_ram (canonical : RamCanonical s) (p : PortAccess) (b : Nat) :
    ramRead (snooped s p).overlay.ram b = byteSnooped s p b := by
  unfold snooped byteSnooped
  cases s.capture.status with
  | none | done | failed | aborted => rfl
  | running =>
    cases s.capture.job with
    | none => rfl
    | some j =>
      cases p.write with
      | none => rfl
      | some w =>
        obtain ⟨lanes, word⟩ := w
        dsimp only
        split
        · exact byteReplaced_eq canonical _ _ _ _ _
        · rfl

theorem completionMoment_live (port : s.mpc.access = some p) (owner : p.owner = .host) (live : p.abandoned = false)
    (md : Word) : s.completionMoment md = (strobeDone s p, some (completedWith p md)) := by
  simp only [State.completionMoment, port, owner, live, strobeDone_eq, completedWith_eq]
  rfl

theorem completionMoment_abandoned (port : s.mpc.access = some p) (owner : p.owner = .host) (abandoned : p.abandoned = true)
    (md : Word) : s.completionMoment md = (strobeDone s p).arbitrate := by
  simp only [State.completionMoment, port, owner, abandoned, strobeDone_eq, if_true]

@[simp] theorem strobeDone_hau : (strobeDone s p).hau = s.hau := by
  rw [strobeDone_eq]
  simp

@[simp] theorem strobeDone_mpu : (strobeDone s p).mpu = s.mpu := by
  rw [strobeDone_eq]
  simp

@[simp] theorem strobeDone_capture : (strobeDone s p).capture = s.capture := by
  rw [strobeDone_eq]
  simp

@[simp] theorem strobeDone_mpc : (strobeDone s p).mpc = { s.mpc with access := none } := by
  rw [strobeDone_eq, State.snoop_mpc]
  rfl

/-- The end of an access whose decision names a device leaves overlay RAM (R26). -/
theorem finish_effective_ram {d : Decision} (decision : s.hau.decision = some d) (effective : d.effective.isSome = true)
    (e : HostResponse) : (Moment.finish (s, some e)).overlay.ram = s.overlay.ram := by
  rw [Moment.finish, State.arbitrate_ram, State.softResetIfDue_ram]
  cases access : s.hau.access with
  | none => simp only [State.endAccess, access]
  | some a => rw [State.endAccess_ram access decision, State.absorb_effective effective]

/-- Overlay RAM after the completion of a host-path strobe, byte by byte (R126). -/
theorem completion_ram (port : s.mpc.access = some p) (owner : p.owner = .host) (canonical : RamCanonical s)
    (decided : p.abandoned = true ∨ ∃ d, s.hau.decision = some d ∧ d.effective.isSome = true) (md : Word) (b : Nat) :
    ramRead (s.completionMoment md).finish.overlay.ram b = byteSnooped s p b := by
  have snoops : ramRead (strobeDone s p).overlay.ram b = byteSnooped s p b := snooped_ram (s := portFree s) canonical p b
  cases live : p.abandoned with
  | true =>
    rw [completionMoment_abandoned port owner live, (State.arbitrate_forPort _).finish_ram, State.arbitrate_ram, snoops]
  | false =>
    obtain ⟨d, decision, effective⟩ := decided.resolve_left (by simp [live])
    rw [completionMoment_live port owner live, finish_effective_ram (by rw [strobeDone_hau, decision]) effective, snoops]

end

/-! ### The timeout (R105, R106) -/

section
variable {s : State} {p : PortAccess}

theorem fenced_eq (s : State) (p : PortAccess) : s.fence p = fenced s p := by
  unfold State.fence fenced
  by_cases online : s.mpc.devices[deviceOf p.addr].state = .online
  · rw [if_pos online, if_pos (by simpa [State.online] using online)]
  · rw [if_neg online, if_neg (by simpa [State.online] using online)]

theorem timeoutResponse_eq (p : PortAccess) :
    timeoutResponse p = ⟨false, if p.write = none then some 0xFFFF#16 else none⟩ := by
  unfold timeoutResponse
  cases p.write <;> rfl

theorem canTimeOut_of (wait : p.mwait = true) (limit : p.timeout ≠ 0#8) : p.canTimeOut = true := by
  simp [PortAccess.canTimeOut, wait, limit]

theorem timeoutMoment_live (port : s.mpc.access = some p) (wait : p.mwait = true) (limit : p.timeout ≠ 0#8)
    (owner : p.owner = .host) (live : p.abandoned = false) :
    s.timeoutMoment =
      (fenced (portFree s) p, some ⟨false, if p.write = none then some 0xFFFF#16 else none⟩) := by
  simp only [State.timeoutMoment, port, canTimeOut_of wait limit, owner, live, timeoutResponse_eq, fenced_eq, if_true]
  rfl

theorem timeoutMoment_abandoned (port : s.mpc.access = some p) (wait : p.mwait = true) (limit : p.timeout ≠ 0#8)
    (owner : p.owner = .host) (abandoned : p.abandoned = true) :
    s.timeoutMoment = (fenced (portFree s) p).arbitrate := by
  simp only [State.timeoutMoment, port, canTimeOut_of wait limit, owner, abandoned, fenced_eq, if_true]
  rfl

theorem timeoutMoment_capture (port : s.mpc.access = some p) (wait : p.mwait = true) (limit : p.timeout ≠ 0#8)
    (owner : p.owner = .capture) :
    s.timeoutMoment = ((fenced (portFree s) p).captureFails .timeout).arbitrate := by
  simp only [State.timeoutMoment, port, canTimeOut_of wait limit, owner, fenced_eq, if_true]
  rfl

/-- What a fence leaves: all but the device and the notices. -/
theorem fenced_frame (s : State) (p : PortAccess) :
    (fenced s p).hau = s.hau ∧ (fenced s p).mpu = s.mpu ∧ (fenced s p).capture = s.capture ∧
      (fenced s p).mpc = { s.mpc with devices := (fenced s p).mpc.devices } := by
  unfold fenced
  split <;> exact ⟨rfl, rfl, rfl, rfl⟩

end

/-! ### What a capture's next strobe takes from the state (R100, R121) -/

theorem captureStrobe_strobeDone (s : State) (p : PortAccess) (j : CaptureJob) :
    captureStrobe s (nextWord s j) = captureStrobe (strobeDone s p) (nextWord (strobeDone s p) j) := by
  rw [captureStrobe, captureStrobe, nextWord, nextWord, strobeDone_mpc, strobeDone_capture]

/-- A fence leaves the settings of every device. -/
theorem fenced_settings (s : State) (p : PortAccess) (i : Fin 4) :
    (fenced s p).mpc.devices[i].wait = s.mpc.devices[i].wait ∧ (fenced s p).mpc.devices[i].mwait = s.mpc.devices[i].mwait := by
  unfold fenced
  split
  · by_cases same : (deviceOf p.addr).val = i.val
    · simp [State.post, Fin.ext_iff.mpr same]
    · simp [State.post, same]
  · exact ⟨rfl, rfl⟩

theorem captureStrobe_fenced (s : State) (p : PortAccess) (w : WordAddr) :
    captureStrobe s w = captureStrobe (fenced (portFree s) p) w := by
  obtain ⟨wait, mwait⟩ := fenced_settings (portFree s) p (deviceOf w)
  obtain ⟨-, -, -, mpc⟩ := fenced_frame (portFree s) p
  have timeout : (fenced (portFree s) p).mpc.timeout = s.mpc.timeout := by rw [mpc]; rfl
  rw [captureStrobe, captureStrobe, wait, mwait, timeout]
  rfl

/-! ### The port's pins (R97, R100) -/

theorem deviceOf_val (w : WordAddr) : (deviceOf w).val = 2 * w.toNat / 0x400000 := by
  simp only [deviceOf]
  omega

theorem pins_of_access {s : State} {p : PortAccess} (port : s.mpc.access = some p) :
    s.ms.map Fin.val = some (2 * p.addr.toNat / 0x400000) ∧ s.mrd = decide (p.write = none) ∧
      s.mwr = decide (p.write ≠ none) ∧ s.mbe = some ((p.write.map Prod.fst).getD .both) ∧
      s.mdOut = p.write.map Prod.snd ∧ (PortCoherent s → s.ma.toNat = p.addr.toNat % 0x200000) := by
  refine ⟨?_, ?_, ?_, ?_, ?_, fun coherent => ?_⟩
  · simp only [State.ms, port, Option.map_some, deviceOf_val]
  · cases write : p.write <;> simp [State.mrd, port, write]
  · cases write : p.write <;> simp [State.mwr, port, write]
  · cases write : p.write <;> simp [State.mbe, port, write]
  · simp [State.mdOut, port]
  · have offset := (PortCoherent.agrees coherent).inRange.offset
    have driven : s.mpc.lastOffset = p.addr.setWidth 21 := by simpa [port] using offset
    rw [State.ma, driven, BitVec.toNat_setWidth]

/-! ### Changes of Active at step 4 (R64, R71) -/

/-- A commit that is due, or a trial whose window is disarmed, waits through an epoch boundary (R61, R68). -/
def CommitState.WaitsOut : CommitState → Prop
  | .none => True
  | .pending p => p.due = true
  | .trial t => t.armed = false

theorem State.epochReported_waitsOut {s : State} (h : s.gen.commit.WaitsOut) : s.epochReported = s := by
  unfold State.epochReported
  split
  · rfl
  · next p pending =>
    rw [pending] at h
    exact if_neg fun ⟨_, notDue⟩ => by simp [show p.due = true from h] at notDue
  · next t trial =>
    rw [trial] at h
    exact if_neg (by simp [show t.armed = false from h])

theorem sequenced_gen {s : State} (h : s.gen.commit.WaitsOut) (a : Access) : (sequenced s a).gen = s.gen := by
  rw [← sequenced_eq]
  unfold State.seqNews
  dsimp only
  have reported {t : State} (same : t.gen = s.gen) : t.epochReported.gen = s.gen := by
    rw [State.epochReported_waitsOut (by rw [same]; exact h), same]
  cases (s.seq.accessEnd a).2.overrun <;> dsimp only <;> split
  · exact reported rfl
  · rfl
  · exact reported rfl
  · rfl

theorem handedOver_gen (s : State) (a : Access) (d : Decision) (e : HostResponse) : (handedOver s a d e).gen = s.gen := by
  rw [← handedOver_eq]
  simp

end Sys2Proof.Machine

namespace Sys2Proof

open Sys2Proof.Machine Sys2Proof.Claim

/-- Settles O50: the moment of the completion, and the grant on the state that the access end leaves. -/
theorem hostStrobeCompletes : Obligations.HostStrobeCompletes := by
  refine ⟨fun md p s port owner =>
      ⟨fun canonical decided => ⟨_, rfl, fun b => completion_ram port owner canonical decided md b⟩,
        fun a d _ access decision effective live noReset noRequest => ?_, fun abandoned => ?_⟩,
    fun p s port => ?_, fun s => ?_⟩
  · have moment := completionMoment_live port owner live md
    have completes {t : State} (h : Moment.finish (strobeDone s p, some (completedWith p md)) = t) :
        exec (.memoryAccessCompletes md) s = .next t :=
      congrArg Host.Outcome.next ((congrArg Moment.finish moment).trans h)
    rw [← strobeDone_hau (p := p)] at access decision
    rw [← strobeDone_mpu (p := p)] at noReset
    have noHost : (strobeDone s p).mpc.hostRequest = false := by rw [strobeDone_mpc]; exact noRequest
    refine ⟨fun noCapture => completes ?_, fun j request job online => completes ?_, completes ?_⟩
    · exact finish_end_idle access decision effective noReset noHost (by rw [strobeDone_mpc]; exact noCapture) _
    · rw [captureStrobe_strobeDone]
      refine finish_end_capture access decision effective noReset noHost ?_ ?_ ?_ ?_ _
      · rw [strobeDone_mpc]
      · rw [strobeDone_mpc]; exact request
      · rw [strobeDone_capture, job]
      · simpa only [nextWord, strobeDone_capture, strobeDone_mpc] using online
    · exact finish_end_arbitrates access decision effective noReset noHost _
  · have completes {t : State} (h : Moment.finish (strobeDone s p).arbitrate = t) :
        exec (.memoryAccessCompletes md) s = .next t :=
      congrArg Host.Outcome.next ((congrArg Moment.finish (completionMoment_abandoned port owner abandoned md)).trans h)
    refine ⟨fun noHost noCapture => completes (finish_arbitrate_idle (.inr ?_)), completes rfl⟩
    rw [strobeDone_mpc]
    exact ⟨noHost, noCapture⟩
  · exact pins_of_access port
  · exact ⟨rfl, fun free => by simp [State.ms, State.mrd, State.mwr, State.mbe, State.mdOut, free]⟩

/-- Settles O52: the moment of the timeout, and the grant on the state that the owner's end leaves. -/
theorem timeoutFencesDevice : Obligations.TimeoutFencesDevice := by
  intro p s port wait limit free
  obtain ⟨hau, mpu, capture, mpc⟩ := fenced_frame (portFree s) p
  have noAccess : free.mpc.access = none := by rw [mpc]; rfl
  have hostRequest : free.mpc.hostRequest = s.mpc.hostRequest := by rw [mpc]; rfl
  have captureRequest : free.mpc.captureRequest = s.mpc.captureRequest := by rw [mpc]; rfl
  have timesOut {m : Moment} {t : State} (moment : s.timeoutMoment = m) (h : m.finish = t) :
      exec .accessTimeout s = .next t :=
    congrArg Host.Outcome.next ((congrArg Moment.finish moment).trans h)
  refine ⟨fun a d owner live _ access decision effective noReset noRequest => ?_, fun owner abandoned => ?_,
    fun j owner job => ?_⟩
  · have moment := timeoutMoment_live port wait limit owner live
    have access : free.hau.access = some a := by rw [hau]; exact access
    have decision : free.hau.decision = some d := by rw [hau]; exact decision
    have noReset : free.mpu.softReset = none := by rw [mpu]; exact noReset
    have noHost : free.mpc.hostRequest = false := by rw [hostRequest, noRequest]
    refine ⟨fun noCapture => timesOut moment ?_, fun j request job online => timesOut moment ?_, timesOut moment ?_⟩
    · exact finish_end_idle access decision effective noReset noHost (by rw [captureRequest, noCapture]) _
    · have word : nextWord s j = nextWord free j := by rw [nextWord, nextWord, capture]; rfl
      rw [captureStrobe_fenced, word]
      refine finish_end_capture access decision effective noReset noHost noAccess ?_ ?_ ?_ _
      · rw [captureRequest, request]
      · rw [capture]; exact job
      · simpa only [word] using online
    · exact finish_end_arbitrates access decision effective noReset noHost _
  · have moment := timeoutMoment_abandoned port wait limit owner abandoned
    refine ⟨fun noHost noCapture => timesOut moment (finish_arbitrate_idle (.inr ?_)), timesOut moment rfl⟩
    exact ⟨by rw [hostRequest, noHost], by rw [captureRequest, noCapture]⟩
  · have moment := timeoutMoment_capture port wait limit owner
    rw [captureFails_eq (j := j) (by rw [capture]; exact job), capture] at moment
    refine ⟨fun noHost => timesOut moment (finish_arbitrate_idle (.inr ?_)), timesOut moment rfl⟩
    have ended (status : CaptureStatus) (named : EndStatus) :
        (captureEnded (fenced (portFree s) p) j status named).mpc.hostRequest = false ∧
          (captureEnded (fenced (portFree s) p) j status named).mpc.captureRequest = false :=
      ⟨hostRequest.trans noHost, rfl⟩
    split <;> exact ended _ _

/-- Settles O43: what is due waits through the sequencer's part of the end, and step 4 applies it. -/
theorem dueChangeAppliedAtAccessEnd : Obligations.DueChangeAppliedAtAccessEnd := by
  intro md a d p s h noReset effective before
  have gen : (strobeDone s p).gen = s.gen := by rw [strobeDone_eq]; simp
  have stands (waits : s.gen.commit.WaitsOut) : before.gen = s.gen := by
    simp only [before, handedOver_gen]
    rw [sequenced_gen (by rw [gen]; exact waits), gen]
  refine ⟨fun q pending due => ?_, fun t trial due disarmed => ?_⟩
  · have same := stands (by rw [pending]; exact due)
    refine ⟨congrArg Host.Outcome.next ?_, same⟩
    refine (bringAboutIf_completion md h noReset effective ?_).trans ?_
    · rw [gen, pending]
      exact due
    · change switched before a = _
      unfold switched
      rw [same, pending]
      exact if_pos (.inl due)
  · have same := stands (by rw [trial]; exact disarmed)
    refine ⟨congrArg Host.Outcome.next ?_, same⟩
    refine (bringAboutIf_completion md h noReset effective ?_).trans ?_
    · rw [gen, trial]
      exact due
    · change switched before a = _
      unfold switched
      rw [same, trial]
      exact if_pos due

end Sys2Proof
end

section
/-! PROOFS. The host port (R22 to R37): an access that arrives or is let go is decided and carried out whole, the strobe events
that are no access, the response on the pins, and HOST.RELEASE and LOCKDOWN.CLEAR. -/

namespace Sys2Proof.Machine

open Sys2Proof.Claim Sys2Proof.Safety

/-! ### Strobes (R22, R37, R38) -/

/-- The access that a strobe event makes, of pins on which no strobe is asserted (R22). -/
theorem latchAccess_strobed (h : HostPins) : latchAccess h h.rd h.wr = strobed h := by
  unfold latchAccess strobed
  cases h.rd <;> cases h.wr <;> cases h.low <;> cases h.high <;> rfl

theorem State.arriving_eq_some {s : State} {h : HostPins} {a : Access} (arrives : s.arriving h = some a) :
    (s.pins.newStrobe h = true ∧ s.hau.state = .idle ∧ s.pins.hrst = false ∧ s.pins.resetN = false) ∧
      latchAccess h (s.pins.rd || h.rd) (s.pins.wr || h.wr) = some a := by
  unfold State.arriving at arrives
  split at arrives
  · next conditions =>
    simp only [Bool.and_eq_true, beq_iff_eq, Bool.not_eq_true'] at conditions
    obtain ⟨⟨⟨new, idle⟩, hrst⟩, resetN⟩ := conditions
    exact ⟨⟨new, idle, hrst, resetN⟩, arrives⟩
  · cases arrives

/-- One strobe asserted on idle pins is an access (R22). -/
theorem State.arriving_strobed {s : State} {h : HostPins} {a : Access} (running : s.pins.resetN = false)
    (hrst : s.pins.hrst = false) (idle : s.hau.state = .idle) (rd : s.pins.rd = false) (wr : s.pins.wr = false)
    (access : strobed h = some a) : s.arriving h = some a := by
  have strobe : h.rd = true ∨ h.wr = true := by
    unfold strobed at access
    cases hr : h.rd <;> cases hw : h.wr <;> simp [hr, hw] at access ⊢
  have new : s.pins.newStrobe h = true := by simpa [Pins.newStrobe, rd, wr] using strobe
  unfold State.arriving
  rw [new, idle, hrst, running]
  simpa [Pins.assertStrobes, rd, wr, latchAccess_strobed] using access

/-- No access arrives where a strobe event is none. -/
theorem State.arriving_none {s : State} {h : HostPins}
    (noAccess : s.pins.resetN = true ∨ s.pins.hrst = true ∨ s.hau.state ≠ .idle ∨
      ((s.pins.rd || h.rd) = true ∧ (s.pins.wr || h.wr) = true) ∨
      (h.rd = false ∧ s.pins.rd = false ∧ h.low = false ∧ h.high = false) ∨
      ((h.rd = true → s.pins.rd = true) ∧ (h.wr = true → s.pins.wr = true))) : s.arriving h = none := by
  by_contra arrives
  obtain ⟨a, arrives⟩ := Option.ne_none_iff_exists'.mp arrives
  obtain ⟨⟨new, idle, hrst, resetN⟩, latched⟩ := State.arriving_eq_some arrives
  rcases noAccess with reset | host | busy | ⟨rd, wr⟩ | ⟨rd, standing, low, high⟩ | ⟨rd, wr⟩
  · simp [resetN] at reset
  · simp [hrst] at host
  · exact busy idle
  · simp [rd, wr, latchAccess] at latched
  · rw [rd, standing] at latched
    cases wr : (s.pins.wr || h.wr) <;> simp [latchAccess, wr, low, high] at latched
  · rw [Pins.newStrobe, Bool.or_eq_true, Bool.and_eq_true, Bool.and_eq_true] at new
    rcases new with ⟨asserted, negated⟩ | ⟨asserted, negated⟩
    · simp [rd asserted] at negated
    · simp [wr asserted] at negated

theorem State.arrivalMoment_none {s : State} {h : HostPins} (arrives : s.arriving h = none) :
    s.arrivalMoment h = (asserted s h, none) := by
  simp only [State.arrivalMoment, arrives]
  rfl

theorem State.arrivalMoment_held {s : State} {h : HostPins} {a : Access} (arrives : s.arriving h = some a)
    (hold : s.hau.hold = true) :
    s.arrivalMoment h =
      (State.post (.hostHeld a.addr a.kind) { asserted s h with hau := { s.hau with state := .held, access := some a } },
        none) := by
  simp only [State.arrivalMoment, arrives, hold, if_true]
  rfl

theorem State.arrivalMoment_decides {s : State} {h : HostPins} {a : Access} (arrives : s.arriving h = some a)
    (hold : s.hau.hold = false) : s.arrivalMoment h = (asserted s h).enterDeciding a := by
  simp only [State.arrivalMoment, arrives, hold]
  rfl

/-! ### HOST.RELEASE (R34) -/

theorem State.releaseMoment_noHold {s : State} (hold : s.hau.hold = false) : s.releaseMoment = (s, none) :=
  if_neg (Bool.eq_false_iff.mp hold)

theorem State.releaseMoment_notHeld {s : State} (hold : s.hau.hold = true) (rests : s.hau.state ≠ .held) :
    s.releaseMoment = ({ s with hau := { s.hau with hold := false } }, none) := by
  unfold State.releaseMoment
  rw [if_pos hold]
  dsimp only
  split
  · next held _ => exact absurd held rests
  · rfl

theorem State.releaseMoment_held {s : State} {a : Access} (hold : s.hau.hold = true) (held : s.hau.state = .held)
    (access : s.hau.access = some a) :
    s.releaseMoment = { s with hau := { s.hau with hold := false } }.enterDeciding a := by
  unfold State.releaseMoment
  rw [if_pos hold, held, access]

/-! ### The negation of strobes (R31) -/

theorem State.negateStrobes_gone {s : State} {a : Access} {rd wr : Bool} (ended : s.hau.state = .ended)
    (access : s.hau.access = some a) (gone : strobeHeld (negated s rd wr) a = false) :
    s.negateStrobes rd wr =
      { negated s rd wr with hau := { s.hau with state := .idle, access := none, decision := none } } := by
  rw [← Pins.holdsStrobe_eq] at gone
  unfold State.negateStrobes
  rw [ended, access]
  exact if_neg (Bool.eq_false_iff.mp gone)

theorem State.negateStrobes_stays {s : State} {rd wr : Bool}
    (stays : s.hau.state ≠ .ended ∨ s.hau.access.all (strobeHeld (negated s rd wr)) = true) :
    s.negateStrobes rd wr = negated s rd wr := by
  unfold State.negateStrobes
  dsimp only
  split
  · next a ended access =>
    have held : strobeHeld (negated s rd wr) a = true := by simpa [ended, access] using stays
    rw [← Pins.holdsStrobe_eq] at held
    exact if_pos held
  · rfl

/-! ### An access decided and carried out (R24 to R29) -/

theorem ramReadWord_eq (m : List Host.Cell) (x : Nat) :
    ramReadWord m x = BitVec.ofNat 16 (256 * (ramRead m (x + 1)).toNat + (ramRead m x).toNat) := by
  have high := (ramRead m (x + 1)).isLt
  have low := (ramRead m x).isLt
  apply BitVec.eq_of_toNat_eq
  rw [ramReadWord, BitVec.toNat_append, ← Nat.shiftLeft_add_eq_or_of_lt low, Nat.shiftLeft_eq, BitVec.toNat_ofNat]
  omega

theorem readWord_eq (o : Overlay) (r : Fin 32) (w : Nat) : o.readWord r w = runWord o r w := by
  unfold Overlay.readWord runWord
  rw [Run.locate_eq]
  cases wordPlace o.runs[r].pages w with
  | none => rfl
  | some x => exact ramReadWord_eq o.ram x

/-- A grant to the host at once, with no capture request, leaves no request and counts nothing. -/
theorem Mpc.granted_alone {m : Mpc} (noHost : m.hostRequest = false) (noCapture : m.captureRequest = false) :
    { m with hostRequest := false, passOver := if m.captureRequest then m.passOver + 1 else m.passOver } = m := by
  rw [if_neg (Bool.eq_false_iff.mp noCapture), ← noHost]

section
variable {s : State} (atRest : PortAtRest s)
include atRest

theorem idle_or_inUse : s.mpc.access.isSome = true ∨ (s.mpc.hostRequest = false ∧ s.mpc.captureRequest = false) := by
  cases port : s.mpc.access with
  | none => exact .inr (atRest port)
  | some p => exact .inl rfl

/-- An access that ends within its arrival or release, the HAU passing through a state (R25 to R28). -/
theorem finish_passing (noReset : s.mpu.softReset = none) (st : HauState) (a : Access) (d : Decision) (e : HostResponse) :
    Moment.finish ({ s with hau := s.hau.carrying st a d }, some e) =
      accessEnded (State.absorb { s with hau := { s.hau with state := st, access := some a, decision := some d } } a d)
        a d e := by
  rw [Moment.finish_end (s := { s with hau := s.hau.carrying st a d }) e noReset (idle_or_inUse atRest)]
  exact State.endAccess_accessEnded rfl rfl e

/-- An access whose decision names a device starts there, waits for the port, or fails (R28, R29, R110). -/
theorem finish_toDevice (noReset : s.mpu.softReset = none) {a : Access} {d : Decision} {eff : WordAddr}
    (effective : d.effective = some eff) :
    Moment.finish
        (if s.online (deviceOf eff) then
          State.arbitrate { s with hau := s.hau.carrying .grant a d, mpc := { s.mpc with hostRequest := true } }
        else ({ s with hau := s.hau.carrying .immediate a d }, some (failedResponse a.kind))) =
      toDevice s a d eff := by
  unfold toDevice
  by_cases online : s.mpc.devices[deviceOf eff].state = .online
  · rw [if_pos online, if_pos (by simpa [State.online] using online)]
    cases port : s.mpc.access with
    | none =>
      obtain ⟨noHost, noCapture⟩ := atRest port
      rw [if_pos rfl]
      let asks : State := { s with hau := s.hau.carrying .grant a d, mpc := { s.mpc with hostRequest := true } }
      have granted := finish_arbitrate_host (s := asks) port rfl (fun waits => by simp [asks, noCapture] at waits) rfl rfl
        effective online
      exact granted.trans (congrArg
        (fun m => strobing
          { s with hau := { s.hau with state := .device, access := some a, decision := some d }, mpc := m }
          (hostStrobe s a d eff))
        (Mpc.granted_alone noHost noCapture))
    | some p =>
      rw [if_neg nofun]
      exact finish_arbitrate_idle (.inl (Option.isSome_of_eq_some port))
  · rw [if_neg online, if_neg (by simpa [State.online] using online), finish_passing atRest noReset,
      State.absorb_effective (Option.isSome_of_eq_some effective)]
    rfl

end

/-- The absorbed write of an OVERLAY access (R26). -/
theorem absorb_substitute {s : State} {a : Access} {d : Decision} {run : Fin 32} {word : Nat} {policy : WritePolicy}
    (disposition : d.disposition = .substitute run word policy) :
    s.absorb a d =
      if a.kind = .write ∧ policy = .absorb then
        { s with overlay := wordReplaced s.overlay run word a.lanes a.data }
      else s := by
  unfold State.absorb
  rw [disposition, wordReplaced_eq]
  cases a.kind <;> cases policy <;> rfl

/-- A GUARD or LOCKDOWN access absorbs nothing. -/
theorem absorb_guards {s : State} {a : Access} {d : Decision} (guards : d.guards = true) : s.absorb a d = s := by
  unfold State.absorb
  split
  · next absorbs => simp [Decision.guards, absorbs] at guards
  · rfl

theorem State.decide_addr (s : State) (a : Access) : (s.decide a).addr = a.addr := by
  unfold State.decide
  split <;> rfl

/-- A decided access carried through is what the rules make of it (R24 to R31). -/
theorem finish_enterDeciding {s : State} (noReset : s.mpu.softReset = none) (atRest : PortAtRest s) (a : Access) :
    Moment.finish (s.enterDeciding a) = carriedOut s a := by
  have passing := finish_passing atRest noReset
  have device {eff : WordAddr} (effective : (s.decide a).effective = some eff) :=
    finish_toDevice atRest noReset (a := a) effective
  cases disposition : (s.decide a).disposition with
  | default | pass =>
    have effective : (s.decide a).effective = some a.addr := by
      rw [Decision.effective, disposition, ← State.decide_addr s a]
    simp only [State.enterDeciding, carriedOut, disposition, effective, Option.getD_some]
    exact device effective
  | relocate target =>
    have effective : (s.decide a).effective = some target := by rw [Decision.effective, disposition]
    simp only [State.enterDeciding, carriedOut, disposition, effective, Option.getD_some]
    exact device effective
  | substitute run word policy =>
    simp only [State.enterDeciding, carriedOut, disposition]
    rw [passing, absorb_substitute disposition, State.overlayResponse]
    cases kind : a.kind with
    | write => simp only [true_and, if_true]
    | fetch | read =>
      rw [readWord_eq]
      rfl
  | guard response fill =>
    simp only [State.enterDeciding, carriedOut, disposition]
    rw [passing, absorb_guards (by rw [Decision.guards, disposition])]
    cases response <;> rfl
  | lockdown =>
    simp only [State.enterDeciding, carriedOut, disposition]
    rw [passing, absorb_guards (by rw [Decision.guards, disposition])]
    rfl

/-- Overlay RAM once an access is decided and carried out: an ABSORB write alone changes a byte of it (R26). -/
theorem carriedOut_ram {s : State} (canonical : RamCanonical s) (a : Access) (b : Nat) :
    ramRead (carriedOut s a).overlay.ram b = byteAbsorbed s a b := by
  have device (eff : WordAddr) : (toDevice s a (s.decide a) eff).overlay.ram = s.overlay.ram := by
    unfold toDevice
    split
    · split <;> rfl
    · rw [accessEnded_ram]
  cases disposition : (s.decide a).disposition with
  | default | pass | relocate =>
    simp only [carriedOut, byteAbsorbed, disposition, device]
    cases a.kind <;> rfl
  | guard | lockdown =>
    simp only [carriedOut, byteAbsorbed, disposition, accessEnded_ram]
    cases a.kind <;> rfl
  | substitute run word policy =>
    cases kind : a.kind with
    | fetch | read => simp only [carriedOut, byteAbsorbed, disposition, kind, reduceCtorEq, if_false, accessEnded_ram]
    | write =>
      simp only [carriedOut, byteAbsorbed, disposition, kind, if_true, accessEnded_ram]
      cases policy with
      | absorb => exact byteReplaced_eq canonical run word a.lanes a.data b
      | discard | refuse => rfl

end Sys2Proof.Machine

namespace Sys2Proof

open Sys2Proof.Machine Sys2Proof.Claim

/-- Settles O27: no access arrives, and the strobes stand on their pins. -/
theorem strobeThatIsNoAccessIgnored : Obligations.StrobeThatIsNoAccessIgnored := by
  intro h s noAccess
  exact congrArg (Host.Outcome.next ∘ Moment.finish) (State.arrivalMoment_none (State.arriving_none noAccess))

/-- Settles O26: the arrival is held, or decided and carried out whole. -/
theorem arrivalHeldOrCarriedOut : Obligations.ArrivalHeldOrCarriedOut := by
  intro h a s running hrst idle rd wr access
  have arrives := State.arriving_strobed running hrst idle rd wr access
  refine ⟨fun hold => congrArg (Host.Outcome.next ∘ Moment.finish) (State.arrivalMoment_held arrives hold),
    fun hold noReset atRest => ⟨?_, fun canonical b => carriedOut_ram (s := asserted s h) canonical a b⟩⟩
  have decided := (congrArg Moment.finish (State.arrivalMoment_decides arrives hold)).trans
    (finish_enterDeciding (s := asserted s h) noReset atRest a)
  exact congrArg Host.Outcome.next decided

/-- Settles O29: the response is driven in ENDED, and the negation of the access's strobe ends that. -/
theorem strobeAndResetNegation : Obligations.StrobeAndResetNegation := by
  refine ⟨fun s => ⟨fun rest => ?_, fun e ended response => ?_⟩,
    fun rd wr s a ended access gone => congrArg _ (State.negateStrobes_gone ended access gone),
    fun rd wr s stays => congrArg _ (State.negateStrobes_stays stays), fun s => rfl⟩
  · have quiet : s.driven = none := if_neg rest
    simp [State.hrdy, State.herr, State.hd, quiet]
  · have driven : s.driven = some e := (if_pos ended).trans response
    simp [State.hrdy, State.herr, State.hd, driven]

/-- Settles O30: hold and lockdown end, and a held access is decided and carried out whole. -/
theorem holdAndLockdownEndByCommand : Obligations.HoldAndLockdownEndByCommand := by
  intro f s addressed payload
  have noReset := addressed.2.1
  have length : payloadIs f 0 = true := by simp [payloadIs, payload]
  have release := exec_addressed (i := .hostRelease f) addressed rfl length
  refine ⟨fun hold => ?_, fun hold rests => ?_, fun a hold held access atRest => ⟨?_, fun canonical b => ?_⟩,
    exec_addressed (i := .lockdownClear f) addressed rfl length⟩
  · rw [release, hostReleaseReply, State.releaseMoment_noHold hold]
    rfl
  · rw [release, hostReleaseReply, State.releaseMoment_notHeld hold rests]
    rfl
  · have carried := finish_enterDeciding (s := { s with hau := { s.hau with hold := false } }) noReset atRest a
    rw [release, hostReleaseReply, State.releaseMoment_held hold held access, carried]
  · exact carriedOut_ram (s := { s with hau := { s.hau with hold := false } }) canonical a b

end Sys2Proof
end

section
/-! PROOFS. Host reset events (R36, R74, R95, R159) and the soft reset: at once, at the end of the access in flight however it
ends, or with its abandonment (R39, R174, R175). -/

namespace Sys2Proof.Machine

open Sys2Proof.Claim Sys2Proof.Safety

/-! ### A host reset event (R36, R74, R95, R159) -/

theorem State.abandon_eq (s : State) : s.abandon = abandoned s := by
  unfold State.abandon abandoned
  cases state : s.hau.state with
  | idle => rfl
  | held | deciding | overlay | immediate | ended => rfl
  | grant => rfl
  | device => rfl

/-- The event up to Generation Control leaves its change for it to act on. -/
theorem resetByHost_gen (s : State) : (resetByHost s).gen = s.gen := rfl

theorem resetByHost_eq (s : State) :
    State.post .hostReset
        (let s1 := State.abandon { s with pins := { s.pins with hrst := true } }
         { s1 with seq := s1.seq.restart }) =
      resetByHost s := by
  rw [State.abandon_eq]
  rfl

theorem changeAtHostReset_eq (s : State) : (resetByHost s).changeAtHostReset = hostResetDone s := by
  unfold State.changeAtHostReset hostResetDone
  rw [resetByHost_gen]
  cases s.gen.commit <;> rfl

theorem State.hostReset_eq (s : State) :
    s.hostReset = if s.inFlight then (hostResetDone s).softResetIfDue else hostResetDone s := by
  rw [← changeAtHostReset_eq, ← resetByHost_eq]
  rfl

theorem hostResetDone_mpu (s : State) : (hostResetDone s).mpu = s.mpu := by
  rw [← changeAtHostReset_eq, State.changeAtHostReset_mpu]
  rfl

theorem State.softResetIfDue_none {s : State} (noReset : s.mpu.softReset = none) : s.softResetIfDue = s := by
  simp only [State.softResetIfDue, noReset]

theorem State.softResetIfDue_some {s : State} {tag : Byte} (waits : s.mpu.softReset = some tag) :
    s.softResetIfDue = s.softReset tag := by
  simp only [State.softResetIfDue, waits]

/-! ### The soft reset (R175) -/

/-- The queue of notices a soft reset leaves holds no HOST_HELD before that of a held access (R158). -/
theorem State.softReset_eq (s : State) (tag : Byte) : s.softReset tag = softlyReset s tag := by
  unfold State.softReset softlyReset
  cases state : s.hau.state with
  | held =>
    cases access : s.hau.access with
    | none => rfl
    | some a => rfl
  | idle | deciding | overlay | immediate | grant | device | ended => rfl

/-- Two states agree in all that a soft reset lets stand (R175). -/
structure StandAlike (s t : State) : Prop where
  pending : s.pending = t.pending
  pins : s.pins = t.pins
  straps : s.straps = t.straps
  hau : s.hau = t.hau
  ram : s.overlay.ram = t.overlay.ram
  lastOffset : s.mpc.lastOffset = t.mpc.lastOffset
  mpu : s.mpu = t.mpu
  freeIndex : s.freeIndex = t.freeIndex

theorem StandAlike.softlyReset_eq {s t : State} (h : StandAlike s t) (tag : Byte) :
    softlyReset s tag = softlyReset t tag := by
  obtain ⟨pending, pins, straps, hau, ram, lastOffset, mpu, freeIndex⟩ := h
  simp only [softlyReset, pending, pins, straps, hau, ram, lastOffset, mpu, freeIndex]

/-- The HAU with the response of the access in hand: ENDED while the strobe is held, IDLE when it is negated (R31). -/
def responded (s : State) (a : Access) (e : HostResponse) : State :=
  { s with hau :=
    if strobeHeld s a then { s.hau with state := .ended, response := some e }
    else { s.hau with state := .idle, access := none, decision := none, response := some e } }

theorem StandAlike.responded {s t : State} (h : StandAlike s t) (a : Access) (e : HostResponse) :
    StandAlike (responded s a e) (responded t a e) := by
  have held : strobeHeld s a = strobeHeld t a := by rw [strobeHeld, strobeHeld, h.pins]
  exact { h with hau := by simp only [Machine.responded, held, h.hau] }

theorem respond_eq (s : State) (a : Access) (e : HostResponse) : s.respond a e = responded s a e := by
  unfold State.respond responded
  rw [Pins.holdsStrobe_eq]
  split <;> rfl

/-- Of a whole access end the soft reset lets the response alone stand. -/
theorem accessEnded_standAlike (s : State) (a : Access) (d : Decision) (e : HostResponse) :
    StandAlike (accessEnded s a d e) (responded s a e) := by
  rw [accessEnded, ← switched_eq, ← handedOver_eq, ← sequenced_eq]
  have before : StandAlike (((s.seqNews (s.seq.accessEnd a)).countHit d.slot).reportEnd a d e.completed) s := by
    constructor <;> simp
  have ended := respond_eq (((s.seqNews (s.seq.accessEnd a)).countHit d.slot).reportEnd a d e.completed) a e ▸
    before.responded a e
  exact
    { pending := (State.changeAtEnd_pending _ _).trans ended.pending
      pins := (State.changeAtEnd_pins _ _).trans ended.pins
      straps := (State.changeAtEnd_straps _ _).trans ended.straps
      hau := (State.changeAtEnd_hau _ _).trans ended.hau
      ram := (State.changeAtEnd_ram _ _).trans ended.ram
      lastOffset := by rw [State.changeAtEnd_mpc, ended.lastOffset]
      mpu := (State.changeAtEnd_mpu _ _).trans ended.mpu
      freeIndex := (State.changeAtEnd_freeIndex _ _).trans ended.freeIndex }

theorem fenced_standAlike (s : State) (p : PortAccess) : StandAlike (fenced (portFree s) p) s := by
  unfold fenced
  split <;> exact ⟨rfl, rfl, rfl, rfl, rfl, rfl, rfl, rfl⟩

/-! ### A soft reset that waits for the end (R174, R175) -/

/-- The end of an access with a soft reset waiting: the whole end, then the reset, and no grant follows. -/
theorem finish_end_resets {s : State} {a : Access} {d : Decision} {tag : Byte} (access : s.hau.access = some a)
    (decision : s.hau.decision = some d) (effective : d.effective.isSome = true) (waits : s.mpu.softReset = some tag)
    (e : HostResponse) : Moment.finish (s, some e) = softlyReset (accessEnded s a d e) tag := by
  have resets : (s.endAccess e).softResetIfDue = softlyReset (accessEnded s a d e) tag := by
    rw [State.softResetIfDue_some ((congrArg Mpu.softReset (State.endAccess_mpu s e)).trans waits), State.softReset_eq,
      State.endAccess_effective access decision effective]
  have idle : (softlyReset (accessEnded s a d e) tag).arbitrate = (softlyReset (accessEnded s a d e) tag, none) :=
    State.arbitrate_idle (.inr ⟨rfl, rfl⟩)
  simp only [Moment.finish, resets, idle]

/-- An end with a soft reset waiting leaves none; a moment that ends nothing leaves it waiting. -/
theorem finish_softReset_iff {m : Moment} {tag : Byte} (waits : m.1.mpu.softReset = some tag) :
    m.finish.mpu.softReset = none ↔ m.2.isSome = true := by
  obtain ⟨t, _ | e⟩ := m
  · exact ⟨fun none_waits => by simp [show t.mpu.softReset = none from none_waits] at waits, nofun⟩
  · have due : (t.endAccess e).mpu.softReset = some tag := (congrArg Mpu.softReset (State.endAccess_mpu t e)).trans waits
    simp only [Moment.finish, State.arbitrate_mpu, State.softResetIfDue_some due, State.softReset_mpu]
    simp

theorem State.completionMoment_mpu (s : State) (md : Word) : (s.completionMoment md).1.mpu = s.mpu := by
  unfold State.completionMoment
  repeat' split
  all_goals simp

theorem State.timeoutMoment_mpu (s : State) : s.timeoutMoment.1.mpu = s.mpu := by
  unfold State.timeoutMoment
  repeat' split
  all_goals simp

/-- The row of the soft reset by an event that can end an access: the event where it ends one, and otherwise nothing. -/
theorem softResetTakesEffect_of_moment {s : State} {c : Cause} {tag : Byte} (waits : s.mpu.softReset = some tag)
    (whole : s.bringAbout c = (s.momentOf c).finish)
    (resets : s.resetsSoftly c = (s.mpu.softReset.isSome && (s.momentOf c).2.isSome))
    (kept : (s.momentOf c).1.mpu = s.mpu) :
    exec (.softResetTakesEffect c) s =
      .next (if (s.momentOf c).finish.mpu.softReset = none then (s.momentOf c).finish else s) := by
  have takes := finish_softReset_iff ((congrArg Mpu.softReset kept).trans waits)
  change Host.Outcome.next (s.bringAboutIf c (s.resetsSoftly c)) = _
  rw [State.bringAboutIf, whole, resets, waits]
  simp only [Option.isSome_some, Bool.true_and, takes]

end Sys2Proof.Machine

namespace Sys2Proof

open Sys2Proof.Machine Sys2Proof.Claim

/-- Settles O25: the event, with no soft reset to follow it. -/
theorem hostResetEventActs : Obligations.HostResetEventActs := by
  intro s running noReset
  have done : s.hostReset = hostResetDone s := by
    rw [State.hostReset_eq, State.softResetIfDue_none ((congrArg Mpu.softReset (hostResetDone_mpu s)).trans noReset),
      ite_self]
  change Host.Outcome.next s.hrstAsserted = _
  rw [State.hrstAsserted, running, done]
  rfl

/-- Settles O24: the soft reset at once, or after the whole end of the access in flight, or after its abandonment. -/
theorem softResetNowOrAtAccessEnd : Obligations.SoftResetNowOrAtAccessEnd := by
  have byEvent {tag : Byte} {s t : State} (waits : s.mpu.softReset = some tag) :
      let after := if t.mpu.softReset = none then t else s
      (∀ md, exec (.memoryAccessCompletes md) s = .next t →
        exec (.softResetTakesEffect (.completion md)) s = .next after) ∧
        (exec .accessTimeout s = .next t → exec (.softResetTakesEffect .timeout) s = .next after) ∧
        (exec .arbiterGrant s = .next t → exec (.softResetTakesEffect .grant) s = .next after) := by
    refine ⟨fun md ends => ?_, fun ends => ?_, fun ends => ?_⟩ <;> cases ends
    · exact softResetTakesEffect_of_moment waits rfl rfl (s.completionMoment_mpu md)
    · exact softResetTakesEffect_of_moment waits rfl rfl s.timeoutMoment_mpu
    · exact softResetTakesEffect_of_moment waits rfl rfl s.arbitrate_mpu
  refine ⟨fun f s addressed payload => ?_, fun tag a d eff s waits access decision effective => ?_,
    fun tag s waits inFlight hrst running => ?_, fun tag s t waits => byEvent waits⟩
  · rw [exec_addressed (i := .partReset f) addressed rfl (by simp [payloadIs, payload]), partResetReply, State.softReset_eq]
    split <;> rfl
  · have names := Option.isSome_of_eq_some effective
    refine ⟨fun md p _ port owner live => ?_, fun p _ port owner live wait limit => ?_,
      fun _ free request wins offline => ?_⟩
    · have ends : exec (.memoryAccessCompletes md) s =
          .next (softlyReset (accessEnded (strobeDone s p) a d (completedWith p md)) tag) := by
        change Host.Outcome.next (s.completionMoment md).finish = _
        rw [completionMoment_live port owner live, finish_end_resets (strobeDone_hau.symm ▸ access)
          (strobeDone_hau.symm ▸ decision) names (strobeDone_mpu.symm ▸ waits)]
      exact ⟨ends, ((byEvent waits).1 md ends).trans (congrArg _ (if_pos rfl)),
        (accessEnded_standAlike _ a d _).softlyReset_eq tag⟩
    · obtain ⟨hau, mpu, -, -⟩ := fenced_frame (portFree s) p
      let e : HostResponse := ⟨false, if p.write = none then some 0xFFFF#16 else none⟩
      have ends : exec .accessTimeout s = .next (softlyReset (accessEnded (fenced (portFree s) p) a d e) tag) := by
        change Host.Outcome.next s.timeoutMoment.finish = _
        rw [timeoutMoment_live port wait limit owner live, finish_end_resets (hau.symm ▸ access) (hau.symm ▸ decision)
          names (mpu.symm ▸ waits)]
      refine ⟨ends, ((byEvent waits).2.1 ends).trans (congrArg _ (if_pos rfl)), ?_⟩
      exact ((accessEnded_standAlike _ a d e).softlyReset_eq tag).trans
        (((fenced_standAlike s p).responded a e).softlyReset_eq tag)
    · let s1 : State :=
        { s with mpc := { s.mpc with
          hostRequest := false
          passOver := if s.mpc.captureRequest then s.mpc.passOver + 1 else s.mpc.passOver } }
      have ends : exec .arbiterGrant s = .next (softlyReset (accessEnded s1 a d (failed a)) tag) := by
        change Host.Outcome.next (Moment.finish s.arbitrate) = _
        rw [arbitrate_host_returned free request wins access decision effective offline]
        exact congrArg Host.Outcome.next (finish_end_resets (s := s1) access decision names waits (failed a))
      exact ⟨ends, ((byEvent waits).2.2 ends).trans (congrArg _ (if_pos rfl)),
        (accessEnded_standAlike _ a d _).softlyReset_eq tag⟩
  · have done : s.hostReset = softlyReset (hostResetDone s) tag := by
      rw [State.hostReset_eq, if_pos inFlight,
        State.softResetIfDue_some ((congrArg Mpu.softReset (hostResetDone_mpu s)).trans waits), State.softReset_eq]
    have resets : s.resetsSoftly .hostReset = true := by
      simp only [State.resetsSoftly, waits, inFlight, hrst, running]
      rfl
    change Host.Outcome.next (s.bringAboutIf .hostReset (s.resetsSoftly .hostReset)) = _
    rw [State.bringAboutIf, if_pos resets, State.bringAbout, State.hrstAsserted, hrst, running, done]
    rfl

end Sys2Proof
end
